-- ==== Sys2Proof/Word.lean ====
section
/-! DEFINITION. The words of the huffman_format CORE: a byte of a channel, a 64-bit counter, a
255-bit code register (spec 00_scope.md R8, R14). -/

namespace Sys2Proof

/-- A byte of a channel, and a symbol (R18: "a byte value 0 to 255"). -/
abbrev Byte := BitVec 8

/-- A frequency counter, a node weight, ORIG_LEN, EMITTED: 64 bits (R8 `FREQ_W`, `ORIGLEN_W`). -/
abbrev Count := BitVec 64

/-- A code register: 255 bits (R8 `MAXLEN`, R51, R53). -/
abbrev Code := BitVec 255

/-- A register of 256 entries, one per byte value (R57: "the symbol index 0 to 255"). -/
abbrev Table (α : Type) := Vector α 256

/-- An index into the node arena: 0 to 510 (R49). -/
abbrev NodeIx := Fin 511

end Sys2Proof
end

