-- ==== Sys2Proof/Config.lean ====
section
/-! DEFINITION. What an implementation of the CORE fixes (spec 00_scope.md R8) and the free values
the spec leaves open. A free value is an opaque constant: nothing says which value it has. -/

namespace Sys2Proof.Config

/-- R8, R91, D1: the default of the OPEN parameter MAGIC, `48 55 46 46`, first byte most
significant. DESIGN CHOICE (log 1): it is only what the ID register holds at reset; a state with
another ID is a CORE with another MAGIC. -/
def magicDefault : BitVec 32 := 0x48554646

/-- R8, R92, D2: the default of the OPEN parameter VERSION. DESIGN CHOICE (log 1). -/
def versionDefault : Byte := 0x01

/-- R8 `MAXLEN`: the longest bit-code. -/
def maxLen : Nat := 255

/-- R8 `NODES_MAX`: the size of the node arena. -/
def nodesMax : Nat := 511

/-- R8 `HDR_BYTES`: the size of the header. -/
def hdrBytes : Nat := 269

/-- Free value (log 11): what a 64-bit counter or weight holds where the exact sum is 2^64 or more
(R17: "what they would do at 2^64 is not defined"). -/
opaque freeCount : Nat → Count

/-- Free value (log 10): what the 3-bit SK_N holds when an OutWrite inside WRBITS does not answer
Ok, at which point R132 has it "transiently 8". -/
opaque freeSkN : Nat → Fin 8

/-- Free value (log 12): the CODE entry of a symbol when CT_CANON runs on a table whose Kraft sum is
above 1 (R189: "a model may leave it undefined there"). -/
opaque freeCode : Nat → Byte → Code

/-- Free value (log 13): the symbol DEC gives for the bit-code of a value and a length (the last two
arguments) where several symbols share it, which R190 excludes for every table a command decodes
with. -/
opaque freeSymbol : Nat → Nat → Nat → Byte

end Sys2Proof.Config
end

