-- ==== Sys2Proof/Syntax.lean ====
section
/-! DEFINITION. The operations of the CORE: one constructor per row of spec/opcode_table.json
(30_encoding.md R111, R112), with the operands R113 gives them. -/

namespace Sys2Proof

/-- The two host commands (R111) and the 21 micro-operations (R112). -/
inductive Instr where
  | pack                       -- PACK, CMD 0x01, R220
  | unpack                     -- UNPACK, CMD 0x02, R240
  | skInit                     -- SK_INIT, 0x10, R131
  | wrbits (v L : Nat)         -- WRBITS v, L, 0x11, R132: the bit-code (v, L)
  | flush                      -- FLUSH, 0x12, R134
  | srInit                     -- SR_INIT, 0x20, R135
  | rdbit                      -- RDBIT, 0x21, R136
  | rdbits (n : Nat)           -- RDBITS n, 0x22, R137
  | fqClear                    -- FQ_CLEAR, 0x30, R150
  | fqCount (b : Byte)         -- FQ_COUNT b, 0x31, R151
  | fqScan                     -- FQ_SCAN, 0x32, R153
  | tbSeed                     -- TB_SEED, 0x40, R161
  | tbMerge                    -- TB_MERGE, 0x41, R165
  | tbBuild                    -- TB_BUILD, 0x42, R166
  | ctWalk                     -- CT_WALK, 0x50, R182
  | ctCanon                    -- CT_CANON, 0x51, R188
  | hdrWrite                   -- HDR_WRITE, 0x60, R201
  | hdrRead                    -- HDR_READ, 0x61, R202
  | lenCheck                   -- LEN_CHECK, 0x62, R207
  | encSym (b : Byte)          -- ENC_SYM b, 0x70, R227
  | encPass                    -- ENC_PASS, 0x71, R224
  | decSym                     -- DEC_SYM, 0x80, R242
  | decLoop                    -- DEC_LOOP, 0x81, R244
deriving DecidableEq, Repr

end Sys2Proof
end

