-- ==== Sys2Proof/WellFormed.lean ====
section
/-! DEFINITION. Which operations are well formed: the operand forms of 30_encoding.md R113. -/

namespace Sys2Proof

/-- R113: a bit-code `(v, L)` has 0 <= L <= 255 and v < 2^L; a bit count has 0 <= n <= 64; a byte
value is a byte by its type. -/
def Instr.wellFormed : Instr → Bool
  | .wrbits v L => decide (L ≤ Config.maxLen) && decide (v < 2 ^ L)
  | .rdbits n => decide (n ≤ 64)
  | .pack | .unpack | .skInit | .flush | .srInit | .rdbit | .fqClear | .fqCount _ | .fqScan
  | .tbSeed | .tbMerge | .tbBuild | .ctWalk | .ctCanon | .hdrWrite | .hdrRead | .lenCheck
  | .encSym _ | .encPass | .decSym | .decLoop => true

end Sys2Proof
end

