-- ==== Sys2Proof/Decode.lean ====
section
/-! DEFINITION. The decoder, total on any bytes, and after it the encoder, both from the numbers of
30_encoding.md R111 and R112. R110: "Operands of a micro-operation are passed by the sequencer and
are not encoded in the number". The model writes a passed operand in bytes AFTER the number (log 4,
DESIGN CHOICE): the count of a bit-code in one byte and its value in 32 bytes, most significant
first; a bit count in one byte; a byte value in one byte. -/

namespace Sys2Proof

/-- Why bytes are no operation. -/
inductive DecodeError where
  /-- There is no byte. -/
  | noByte
  /-- R115, R116: the number names no operation. -/
  | reservedNumber (number : Byte)
  /-- The operand bytes end too early. -/
  | operandMissing
  /-- R113: a bit-code with v >= 2^L. -/
  | codeTooWide
  /-- R113: a bit count above 64. -/
  | countTooLarge
deriving DecidableEq, Repr

/-- The number that `bs`, most significant byte first, stand for (R72, R93). -/
def natOfBytes (bs : List Byte) : Nat :=
  bs.foldl (fun n b => n * 256 + b.toNat) 0

/-- `v` in `n` bytes, most significant first (R72, R93). -/
def bytesOfNat : Nat → Nat → List Byte
  | 0, _ => []
  | n + 1, v => BitVec.ofNat 8 (v / 256 ^ n) :: bytesOfNat n v

/-- How many bytes the value of a bit-code takes after its count (log 4). -/
def codeBytes : Nat := 32

/-- The operation numbers of R111 and R112 whose operation has no operand. -/
def plainOperation (number : Byte) : Option Instr :=
  match number.toNat with
  | 0x01 => some .pack
  | 0x02 => some .unpack
  | 0x10 => some .skInit
  | 0x12 => some .flush
  | 0x20 => some .srInit
  | 0x21 => some .rdbit
  | 0x30 => some .fqClear
  | 0x32 => some .fqScan
  | 0x40 => some .tbSeed
  | 0x41 => some .tbMerge
  | 0x42 => some .tbBuild
  | 0x50 => some .ctWalk
  | 0x51 => some .ctCanon
  | 0x60 => some .hdrWrite
  | 0x61 => some .hdrRead
  | 0x62 => some .lenCheck
  | 0x71 => some .encPass
  | 0x80 => some .decSym
  | 0x81 => some .decLoop
  | _ => none

/-- The operand of WRBITS (0x11): the count, then the value. -/
def decodeWrbits : List Byte → Except DecodeError (Instr × List Byte)
  | [] => .error .operandMissing
  | l :: bs =>
    if bs.length < codeBytes then .error .operandMissing
    else
      let v := natOfBytes (bs.take codeBytes)
      if v < 2 ^ l.toNat then .ok (.wrbits v l.toNat, bs.drop codeBytes)
      else .error .codeTooWide

/-- The operand of RDBITS (0x22). -/
def decodeRdbits : List Byte → Except DecodeError (Instr × List Byte)
  | [] => .error .operandMissing
  | n :: bs => if n.toNat ≤ 64 then .ok (.rdbits n.toNat, bs) else .error .countTooLarge

/-- The operand of FQ_COUNT (0x31) and of ENC_SYM (0x70). -/
def decodeByte (mk : Byte → Instr) : List Byte → Except DecodeError (Instr × List Byte)
  | [] => .error .operandMissing
  | b :: bs => .ok (mk b, bs)

/-- R111, R112: the operation at the front of `bytes`, and the bytes after it. -/
def decode (bytes : List Byte) : Except DecodeError (Instr × List Byte) :=
  match bytes with
  | [] => .error .noByte
  | number :: rest =>
    if number = 0x11 then decodeWrbits rest
    else if number = 0x22 then decodeRdbits rest
    else if number = 0x31 then decodeByte .fqCount rest
    else if number = 0x70 then decodeByte .encSym rest
    else
      match plainOperation number with
      | some i => .ok (i, rest)
      | none => .error (.reservedNumber number)

/-- R111, R112: the number of an operation. -/
def Instr.number : Instr → Byte
  | .pack => 0x01
  | .unpack => 0x02
  | .skInit => 0x10
  | .wrbits _ _ => 0x11
  | .flush => 0x12
  | .srInit => 0x20
  | .rdbit => 0x21
  | .rdbits _ => 0x22
  | .fqClear => 0x30
  | .fqCount _ => 0x31
  | .fqScan => 0x32
  | .tbSeed => 0x40
  | .tbMerge => 0x41
  | .tbBuild => 0x42
  | .ctWalk => 0x50
  | .ctCanon => 0x51
  | .hdrWrite => 0x60
  | .hdrRead => 0x61
  | .lenCheck => 0x62
  | .encSym _ => 0x70
  | .encPass => 0x71
  | .decSym => 0x80
  | .decLoop => 0x81

/-- The operand bytes of an operation (log 4). -/
def Instr.operandBytes : Instr → List Byte
  | .wrbits v L => BitVec.ofNat 8 L :: bytesOfNat codeBytes v
  | .rdbits n => [BitVec.ofNat 8 n]
  | .fqCount b => [b]
  | .encSym b => [b]
  | .pack | .unpack | .skInit | .flush | .srInit | .rdbit | .fqClear | .fqScan | .tbSeed
  | .tbMerge | .tbBuild | .ctWalk | .ctCanon | .hdrWrite | .hdrRead | .lenCheck | .encPass
  | .decSym | .decLoop => []

/-- The bytes of an operation: its number (R111, R112) and its operand bytes (log 4). -/
def encode (i : Instr) : List Byte :=
  i.number :: i.operandBytes

/-- The first `n` bytes of a table word, bit 0 the least significant bit of the first byte. -/
def bytesOfWord : Nat → Nat → List Byte
  | 0, _ => []
  | n + 1, w => BitVec.ofNat 8 w :: bytesOfWord n (w / 256)

/-- The longest operation: WRBITS, its number, its count and its value. -/
def longestOperation : Nat := 2 + codeBytes

/-- A table word laid out in bytes, every bit above `nbits` zero, up to the longest operation. -/
def layOut (nbits w : Nat) : List Byte :=
  bytesOfWord longestOperation (w % 2 ^ nbits)

/-- The bytes of `bytes` that belong to the operation at their front; where there is none, its first
byte alone, so that the step refuses the number. -/
def frontOperation (bytes : List Byte) : List Byte :=
  match decode bytes with
  | .ok (_, rest) => bytes.take (bytes.length - rest.length)
  | .error _ => bytes.take 1

/-- The operation this decoder reads from a word of spec/opcode_table.json. -/
def decodeTableWord (nbits w : Nat) : Option Instr :=
  match decode (layOut nbits w) with
  | .ok (i, _) => some i
  | .error _ => none

end Sys2Proof
end

