-- ==== Sys2Proof/Machine/State.lean ====
section
/-! DEFINITION. The state of the CORE and of its channels (spec 10_state.md, 20_memory.md), the
reasons a step can stop, and the state right after power-on reset (R59, R300). -/

namespace Sys2Proof.Machine

/-- PHASE (R30). The reserved values 7, 12 and 13 are "never taken by the hardware" and have no
constructor (93_implementation_defined.md #20). -/
inductive Phase where
  | idle
  | pCount
  | pBuild
  | pHeader
  | pRewind
  | pEncode
  | pFinish
  | uHeader
  | uBuild
  | uDecode
  | uFinish
  | done
  | error
deriving DecidableEq, Repr

/-- The kind of the failure that ended the last command (R43, R261). -/
inductive ErrKind where
  | none
  | ioFailure
  | formatError
  | truncatedData
deriving DecidableEq, Repr

/-- DEGEN, the record of EmptyOrDegenerateInput (R35). -/
inductive Degen where
  | normal
  | empty
  | single
deriving DecidableEq, Repr

/-- An entry of the node arena: HF's tagged variant `Leaf{byte_value, weight}` or
`Internal{left, right, weight}` (R49). -/
inductive Node where
  | leaf (sym : Byte) (weight : Count)
  | internal (left right : NodeIx) (weight : Count)
deriving DecidableEq, Repr

/-- The environment's draw for one transaction (R61, R63, R65 to R67, R315). `fail landed`: the
channel answers Fail; `landed` says whether the byte of an OutWrite reached OUT all the same (R65,
log 9). `never`: the transaction is never answered; that it then took no effect at the channel is the
model's choice (log 8). -/
inductive Draw where
  | ok
  | fail (landed : Bool)
  | never
deriving DecidableEq, Repr

/-- The answer of an InRead (R61), or that none ever comes (R315). -/
inductive ReadAnswer where
  | byte (b : Byte)
  | eos
  | fail
  | never
deriving DecidableEq, Repr

/-- The answer of an InRewind, an OutWrite or an OutClose (R63, R65, R66), or that none ever comes
(R315). -/
inductive Ack where
  | ok
  | fail
  | never
deriving DecidableEq, Repr

/-- A channel transaction with its answer: "the only events another party can observe" (R11). -/
inductive Transaction where
  | inRead (a : ReadAnswer)
  | inRewind (a : Ack)
  | outWrite (b : Byte) (a : Ack)
  | outClose (a : Ack)
deriving DecidableEq, Repr

/-- The two channels. They are not registers of the CORE (R32). -/
structure Channels where
  /-- IN (R60). -/
  input : List Byte
  /-- IN_POS (R60). -/
  inPos : Nat
  /-- What the input channel delivers after an InRewind where the host broke R310 (R78, R225); `none`:
  the same bytes (log 23). -/
  inRewound : Option (List Byte)
  /-- OUT (R64). -/
  out : List Byte
  /-- OUT_CLOSED (R64, R66). -/
  outClosed : Bool
  /-- The draws of the coming transactions; after the last one every answer is Ok (R67, log 7). -/
  draws : List Draw
  /-- The transactions so far, newest first (R11, log 20). -/
  trace : List Transaction
deriving DecidableEq, Repr

/-- The result of an operation that has one (R112), as R122 writes it after `->`. -/
inductive OpResult where
  | none
  | bit (b : Bool)
  | value (v : Nat)
  | eos
deriving DecidableEq, Repr

/-- What the host does next (R40, R301, R305; log 22). -/
inductive HostAction where
  /-- Nothing: the CORE makes its step. -/
  | wait
  /-- Reads the control register of this number (R40). -/
  | readRegister (number : Nat)
  /-- Writes the control register of this number (R40, R41). -/
  | writeRegister (number : Nat) (value : Byte)
  /-- Binds an input channel, positioned at its first byte (R305). `rewound`: what it will deliver
  after an InRewind, if not the same bytes (R310). -/
  | bindInput (bytes : List Byte) (rewound : Option (List Byte))
  /-- Binds a fresh, empty output channel (R305). -/
  | bindOutput
  /-- Resets the block (R300, R301). -/
  | reset
deriving DecidableEq, Repr

/-- Everything the spec gives the machine, and, under their own heading, the model's own fields. -/
structure State where
  -- the sequencer and the error registers (R30, R43, R44)
  /-- PHASE (R30). -/
  phase : Phase
  /-- ERR (R43). -/
  err : ErrKind
  /-- ERR_INFO (R44). -/
  errInfo : BitVec 8
  /-- DEGEN (R35). -/
  degen : Degen
  -- the data-path registers (R21 to R27)
  /-- ORIG_LEN (R23). -/
  origLen : Count
  /-- EMITTED (R24). -/
  emitted : Count
  /-- NSYM (R25): 0 to 256. -/
  nsym : Fin 257
  /-- NNODES (R27): 0 to 511. -/
  nnodes : Fin 512
  /-- ROOT (R27): a node index, or NONE. -/
  root : Option NodeIx
  /-- SK_ACC (R21). -/
  skAcc : BitVec 8
  /-- SK_N (R21): 0 to 7. -/
  skN : Fin 8
  /-- SR_ACC (R22). -/
  srAcc : BitVec 8
  /-- SR_N (R22): 0 to 8. -/
  srN : Fin 9
  /-- PFX (R26). -/
  pfx : Code
  /-- PFXLEN (R26): 0 to 255. -/
  pfxLen : Fin 256
  -- the tables (R48 to R53)
  /-- FREQ (R48). -/
  freq : Table Count
  /-- NODE (R49). -/
  node : Vector Node 511
  /-- PQ (R50), a set of node indices, listed in ascending order (log 26). -/
  pq : List NodeIx
  /-- TLEN (R51). -/
  tlen : Table (BitVec 8)
  /-- TCODE (R51). -/
  tcode : Table Code
  /-- LEN (R52). -/
  len : Table (BitVec 8)
  /-- CODE (R53). -/
  code : Table Code
  /-- ID (R46), hardwired: MAGIC ++ VERSION. -/
  id : BitVec 40
  -- the channels (R60 to R66)
  /-- The input and the output channel. -/
  chan : Channels
  /-- A transaction was issued and is never answered: the sequencer waits for ever (R13, R315; log 8). -/
  hung : Bool
  -- the model's own fields
  /-- The step inside the phase (log 21). -/
  sub : Nat
  /-- The bytes of the operations issued next by number (log 4, log 5). -/
  issue : List Byte
  /-- What the last issued RDBIT or RDBITS delivered (log 19). -/
  result : OpResult
  /-- The host's coming accesses, oldest first (log 22). -/
  host : List HostAction
  /-- What the host's last register read returned (log 22). -/
  busData : BitVec 64
  /-- The counter the free values are taken from (log 29). -/
  free : Nat
deriving DecidableEq, Repr

/-- The reasons a step stops with a fault. -/
inductive Fault where
  /-- Raised by an OutWrite or OutClose when OUT_CLOSED is set: R65, "Never issued after OutClose";
  R64 has the flag false at command start. Safe: the model stops where the spec describes no
  effect (log 16). -/
  | outputClosed
  /-- Raised by TB_MERGE when all 511 entries of NODE are allocated: entry 511 does not exist (R49,
  R170). Safe (log 14). -/
  | nodeArenaFull
deriving DecidableEq, Repr

/-- The reasons a step is refused: the spec gives the situation no meaning. -/
inductive Refusal where
  /-- Raised by an arm of exec whose operation has no meaning yet. Safe. -/
  | notModelled (mnemonic : String)
  /-- Raised by the step when the issued number names nothing (R116). Safe (log 4). -/
  | reservedNumber (number : Byte)
  /-- Raised by the step when the issued operation's operand bytes are missing. Safe (log 4). -/
  | operandMissing
  /-- Raised by WRBITS with L > 255 or v >= 2^L and by RDBITS with n > 64
  (93_implementation_defined.md #22: refuse). Safe (log 25). -/
  | operandOutOfRange
  /-- Raised by TB_MERGE when PQ has fewer than two members (R164, R165;
  93_implementation_defined.md #24: refuse). Safe (log 14). -/
  | mergeNeedsTwoNodes
  /-- Raised by CT_WALK when the arena under ROOT is no tree of depth at most 255, so that TB_BUILD has
  not run (R182: "Precondition: TB_BUILD has run"). Safe (log 15). -/
  | notATree
  /-- Raised by the host's binding a channel while a command runs (R305, R311). Safe (log 22). -/
  | boundWhileBusy
deriving DecidableEq, Repr

/-- The channels before the host has bound any (log 28, DESIGN CHOICE): empty input, empty open
output, no draw, no transaction made. -/
def Channels.unbound : Channels where
  input := []
  inPos := 0
  inRewound := none
  out := []
  outClosed := false
  draws := []
  trace := []

/-- R59, R300: the state right after power-on reset. The spec leaves the tables unspecified (R302):
all zero, PQ empty, is a DESIGN CHOICE (log 2), as are the channels (log 28) and the model's own
fields (logs 8, 19, 21, 22, 29). -/
def State.reset : State where
  phase := .idle
  err := .none
  errInfo := 0
  degen := .normal
  origLen := 0
  emitted := 0
  nsym := 0
  nnodes := 0
  root := none
  skAcc := 0
  skN := 0
  srAcc := 0
  srN := 0
  pfx := 0
  pfxLen := 0
  freq := Vector.replicate 256 0
  node := Vector.replicate 511 (.leaf 0 0)
  pq := []
  tlen := Vector.replicate 256 0
  tcode := Vector.replicate 256 0
  len := Vector.replicate 256 0
  code := Vector.replicate 256 0
  id := Config.magicDefault ++ Config.versionDefault
  chan := Channels.unbound
  hung := false
  sub := 0
  issue := []
  result := .none
  host := []
  busData := 0
  free := 0

end Sys2Proof.Machine
end

