-- ==== Sys2Proof/Machine/Flags.lean ====
section
/-! DEFINITION. The status of the CORE: the codes of PHASE, DEGEN and ERR, the flags BUSY, DONE and
ERROR, the STATUS word (10_state.md R30, R35, R37, R42, R43), and the value of DEGEN by the number
of distinct symbols (R35). The block has no carry, zero, sign or overflow flag (R36). -/

namespace Sys2Proof.Machine

/-- R30: the value of PHASE. -/
def Phase.number : Phase → BitVec 4
  | .idle => 0
  | .pCount => 1
  | .pBuild => 2
  | .pHeader => 3
  | .pRewind => 4
  | .pEncode => 5
  | .pFinish => 6
  | .uHeader => 8
  | .uBuild => 9
  | .uDecode => 10
  | .uFinish => 11
  | .done => 14
  | .error => 15

/-- R42: BUSY is 1 when 1 <= PHASE <= 11. -/
def Phase.busy (p : Phase) : Bool :=
  decide (1 ≤ p.number.toNat) && decide (p.number.toNat ≤ 11)

/-- R35: the value of DEGEN. -/
def Degen.number : Degen → BitVec 2
  | .normal => 0
  | .empty => 1
  | .single => 2

/-- R43, R261: the code of the ERR register. -/
def ErrKind.number : ErrKind → BitVec 8
  | .none => 0
  | .ioFailure => 1
  | .formatError => 2
  | .truncatedData => 3

/-- R35: DEGEN by the number of distinct symbols: EMPTY for none, SINGLE for one, NORMAL else. -/
def degenOf : Nat → Degen
  | 0 => .empty
  | 1 => .single
  | _ + 2 => .normal

/-- R42: the STATUS word: BUSY in bit 0, DONE in bit 1, ERROR in bit 2, DEGEN in bits 5:4, PHASE in
bits 11:8, every other bit 0. -/
def State.status (s : State) : BitVec 16 :=
  0#4 ++ s.phase.number ++ 0#2 ++ s.degen.number ++ 0#1 ++ BitVec.ofBool (s.phase == .error)
    ++ BitVec.ofBool (s.phase == .done) ++ BitVec.ofBool s.phase.busy

end Sys2Proof.Machine
end

