-- ==== Sys2Proof/Machine/Operands.lean ====
section
/-! DEFINITION. The operand forms of 30_encoding.md R113 and what they denote: bit-codes as bit
sequences, prefixes, the symbols in ascending order, the entries of a table. -/

namespace Sys2Proof.Machine

/-- R15: the bit sequence of the bit-code `(v, L)`, first bit first: `b_i = v[L-1-i]`. -/
def codeBits (v : Nat) : Nat → List Bool
  | 0 => []
  | L + 1 => v.testBit L :: codeBits v L

/-- R102: the number whose bits, first bit most significant, follow those of `r`. -/
def bitsValue (r : Nat) (bits : List Bool) : Nat :=
  bits.foldl (fun r b => 2 * r + b.toNat) r

/-- R15: the bit-code `(v1, L1)` is a prefix of `(v2, L2)`. -/
def isPrefixCode (v1 L1 v2 L2 : Nat) : Bool :=
  decide (L1 ≤ L2) && decide (v2 / 2 ^ (L2 - L1) = v1)

/-- R16: `s = 0, 1, ..., 255` "in ascending order". -/
def allBytes : List Byte :=
  (List.range 256).map (BitVec.ofNat 8)

/-- A table's entry for a symbol (R57). -/
def entry {α : Type} (t : Table α) (s : Byte) : α :=
  t[s.toNat]'s.isLt

/-- A table with the entry for a symbol replaced; "a table access reads or writes one whole entry"
(R75). -/
def setEntry {α : Type} (t : Table α) (s : Byte) (x : α) : Table α :=
  t.set s.toNat x s.isLt

/-- The entries of a table with their symbols, in ascending order of the symbol. -/
def entries {α : Type} (t : Table α) : List (Byte × α) :=
  allBytes.zip t.toList

/-- R187: the present symbols (`LEN[s] != 0`) with their lengths, in ascending order of the symbol. -/
def present (len : Table (BitVec 8)) : List (Byte × Nat) :=
  (entries len).filterMap fun e => if e.2 = 0 then none else some (e.1, e.2.toNat)

/-- R207: the Kraft sum scaled by 2^255, "a natural number". -/
def kraft255 (len : Table (BitVec 8)) : Nat :=
  ((present len).map fun e => 2 ^ (255 - e.2)).sum

/-- R54: the present symbols whose canonical code is the bit-code `(v, L)`. -/
def codedAs (len : Table (BitVec 8)) (code : Table Code) (v L : Nat) : List Byte :=
  ((present len).filter fun e => e.2 == L && (entry code e.1).toNat == v).map Prod.fst

/-- R54: `LIVE(v, L)`: some symbol has `(v, L)` as a proper prefix of its canonical code. -/
def live (len : Table (BitVec 8)) (code : Table Code) (v L : Nat) : Bool :=
  (present len).any fun e => decide (L < e.2) && isPrefixCode v L (entry code e.1).toNat e.2

end Sys2Proof.Machine
end

