-- ==== Sys2Proof/Machine/Ops.lean ====
section
/-! DEFINITION. The named operations every meaning is made of: how a running operation ends, 64-bit
sums, phase moves, TAKING AN ERROR (60_exceptions.md R270) and what leaves it (R274, R303), the four
channel transactions (20_memory.md R61 to R66), and bit-level writing and reading (40_bitio.md R132,
R136, R137). -/

namespace Sys2Proof.Machine

/-! ### How an operation ends -/

/-- How a running operation ends. `ok a s`: it ran to its end with the result `a`. `stop s`: the
sequencer stopped inside it, by a `raise` (R16: "a raise inside it ends the whole host command") or
by a transaction that is never answered (R315). -/
inductive Res (α : Type) where
  | ok (a : α) (s : State)
  | stop (s : State)
  | fault (f : Fault)
  | refuse (r : Refusal)

/-- R16: an operation "called by name inside pseudocode runs to its end before the next line". -/
def Res.bind {α β : Type} (x : Res α) (f : α → State → Res β) : Res β :=
  match x with
  | .ok a s => f a s
  | .stop s => .stop s
  | .fault e => .fault e
  | .refuse r => .refuse r

/-- The outcome of an operation that is run as one step: an error the spec describes is a next state
(R270). -/
def Res.outcome {α : Type} (x : Res α) : Host.Outcome State Fault Refusal :=
  match x with
  | .ok _ s => .next s
  | .stop s => .next s
  | .fault e => .fault e
  | .refuse r => .refused r

/-! ### Sums of 64-bit quantities -/

/-- R17 (a): a 64-bit sum, an "ordinary addition" whose result stays below 2^64; where it would not,
"what they would do at 2^64 is not defined": a free value (log 11). The number is the state's free
counter before and after. -/
def sumCount (a b : Count) (n : Nat) : Count × Nat :=
  if a.toNat + b.toNat < 2 ^ 64 then (a + b, n) else (Config.freeCount n, n + 1)

/-! ### Phases -/

/-- R16: `PHASE <- p`, "this block's pc <- target". -/
def State.enter (p : Phase) (s : State) : State :=
  { s with phase := p, sub := 0 }

/-- R42: BUSY. -/
def State.busy (s : State) : Bool :=
  s.phase.busy

/-- R41: a command is accepted when PHASE is IDLE, DONE or ERROR; and no transaction may be waiting
(R70: never two outstanding; log 8). -/
def State.accepts (s : State) : Bool :=
  !s.busy && !s.hung

/-! ### Taking an error, and leaving it -/

/-- The fifteen causes of R262. -/
inductive Cause where
  | readFailed          -- IoFailure 1: InRead answered Fail
  | rewindFailed        -- IoFailure 2: InRewind answered Fail
  | writeFailed         -- IoFailure 3: OutWrite answered Fail
  | closeFailed         -- IoFailure 4: OutClose answered Fail
  | byteWithoutCode     -- IoFailure 5: pass 2 delivered a byte that has no code
  | passesDiffer        -- IoFailure 6: pass 2 delivered a different number of bytes
  | headerShort         -- FormatError 1: end of stream inside the header
  | magicMismatch       -- FormatError 2
  | versionUnknown      -- FormatError 3
  | noSymbols           -- FormatError 4: no symbol has a length but ORIG_LEN != 0
  | singleNotOne        -- FormatError 5: the one length is not 1
  | oversubscribed      -- FormatError 6: Kraft sum > 1
  | incomplete          -- FormatError 7: Kraft sum < 1
  | noSuchPath          -- FormatError 8: payload bit path that leads to no symbol
  | truncated           -- TruncatedData 1: EOS while EMITTED < ORIG_LEN
deriving DecidableEq, Repr

/-- R262: the kind of a cause. -/
def Cause.kind : Cause → ErrKind
  | .readFailed | .rewindFailed | .writeFailed | .closeFailed | .byteWithoutCode
  | .passesDiffer => .ioFailure
  | .headerShort | .magicMismatch | .versionUnknown | .noSymbols | .singleNotOne
  | .oversubscribed | .incomplete | .noSuchPath => .formatError
  | .truncated => .truncatedData

/-- R262: the sub-cause that ERR_INFO records. -/
def Cause.info : Cause → BitVec 8
  | .readFailed => 1
  | .rewindFailed => 2
  | .writeFailed => 3
  | .closeFailed => 4
  | .byteWithoutCode => 5
  | .passesDiffer => 6
  | .headerShort => 1
  | .magicMismatch => 2
  | .versionUnknown => 3
  | .noSymbols => 4
  | .singleNotOne => 5
  | .oversubscribed => 6
  | .incomplete => 7
  | .noSuchPath => 8
  | .truncated => 1

/-- R270, `raise Kind(info)`: "ERR <- code of Kind; ERR_INFO <- info; PHASE <- ERROR. Nothing is saved
(there is no return address), no handler runs, no vector is fetched, no mode changes." In a command no second one follows (R274); of operations issued by
number the last one stands (log 32). -/
def State.raise (c : Cause) (s : State) : State :=
  { s with err := c.kind, errInfo := c.info, phase := .error, sub := 0 }

/-- R13, R315: a transaction that is never answered: the block "simply blocks", and is left blocked. -/
def State.hang (s : State) : State :=
  { s with hung := true }

/-- R131: `SK_ACC <- 0; SK_N <- 0`. -/
def State.sinkInit (s : State) : State :=
  { s with skAcc := 0, skN := 0 }

/-- R135: `SR_ACC <- 0; SR_N <- 0`. -/
def State.sourceInit (s : State) : State :=
  { s with srAcc := 0, srN := 0 }

/-- R150: `for s in 0..255: FREQ[s] <- 0`. -/
def State.freqClear (s : State) : State :=
  { s with freq := Vector.replicate 256 0 }

/-- R303: the registers and tables the start sequence clears. TCODE, CODE and NODE keep their values
(R59: "never read before written"; log 3). -/
def State.clearForCommand (s : State) : State :=
  { s with
    err := .none, errInfo := 0, degen := .normal
    origLen := 0, emitted := 0, nsym := 0
    nnodes := 0, root := none, pq := []
    pfx := 0, pfxLen := 0
    tlen := Vector.replicate 256 0, len := Vector.replicate 256 0 }

/-- R303: the command start sequence, which is also the one way, beside reset, out of ERROR (R274).
"The sequence issues no channel transaction." -/
def State.startCommand (first : Phase) (s : State) : State :=
  s.clearForCommand.sinkInit.sourceInit.freqClear.enter first

/-- R300, R301: a reset puts every register in the power-on column of R59 and leaves the channels as
they are (R301). The tables "are not cleared by reset" (R302) and keep their values, but PQ, of
which R59 says "unspecified", is empty, as after power-on (log 2). It takes the sequencer out of
a transaction it waits for (R312) and drops the operations issued to it (log 27). -/
def State.powerOn (s : State) : State :=
  { s with
    phase := .idle, sub := 0, hung := false, issue := [], result := .none
    err := .none, errInfo := 0, degen := .normal
    origLen := 0, emitted := 0, nsym := 0
    nnodes := 0, root := none, pq := []
    skAcc := 0, skN := 0, srAcc := 0, srN := 0
    pfx := 0, pfxLen := 0 }

/-! ### The channels, for themselves -/

/-- R67: the environment's draw for the next transaction. -/
def Channels.draw (c : Channels) : Draw :=
  c.draws.headD .ok

/-- The channels after the draw was taken and the transaction made (R11). -/
def Channels.made (t : Transaction) (c : Channels) : Channels :=
  { c with draws := c.draws.tail, trace := t :: c.trace }

/-- R61, InRead: Fail by the environment's draw; else the byte at IN_POS, and IN_POS advances; else
EOS. R62: EOS is persistent. One that is never answered consumes nothing (log 8). -/
def Channels.inRead (c : Channels) : ReadAnswer × Channels :=
  match c.draw with
  | .never => (.never, c.made (.inRead .never))
  | .fail _ => (.fail, c.made (.inRead .fail))
  | .ok =>
    match c.input[c.inPos]? with
    | some b => (.byte b, { c.made (.inRead (.byte b)) with inPos := c.inPos + 1 })
    | none => (.eos, c.made (.inRead .eos))

/-- R63, InRewind: Fail, or Ok with IN_POS <- 0. What follows is the same sequence, unless the host
broke R310 (log 23). One that is never answered moves nothing (log 8). -/
def Channels.rewind (c : Channels) : Ack × Channels :=
  match c.draw with
  | .never => (.never, c.made (.inRewind .never))
  | .fail _ => (.fail, c.made (.inRewind .fail))
  | .ok =>
    (.ok, { c.made (.inRewind .ok) with
      inPos := 0, input := c.inRewound.getD c.input, inRewound := none })

/-- R65, OutWrite: Fail ("whether b was appended is then unspecified": the draw says, log 9), or Ok
with OUT <- OUT ++ [b]. The byte of one that is never answered is not in OUT (log 8). -/
def Channels.outWrite (b : Byte) (c : Channels) : Ack × Channels :=
  match c.draw with
  | .never => (.never, c.made (.outWrite b .never))
  | .fail landed =>
    (.fail, { c.made (.outWrite b .fail) with out := if landed then c.out ++ [b] else c.out })
  | .ok => (.ok, { c.made (.outWrite b .ok) with out := c.out ++ [b] })

/-- R66, OutClose: Fail, or Ok with OUT_CLOSED <- true. One that is never answered closes nothing (log 8). -/
def Channels.outClose (c : Channels) : Ack × Channels :=
  match c.draw with
  | .never => (.never, c.made (.outClose .never))
  | .fail _ => (.fail, c.made (.outClose .fail))
  | .ok => (.ok, { c.made (.outClose .ok) with outClosed := true })

/-! ### The channels, for the sequencer -/

/-- What the sequencer does with the answer of a transaction that carries no data: it goes on, raises
`c` "at once" (R67), or waits for ever (R315). -/
def afterAck (c : Cause) (s : State) (r : Ack × Channels) : Res Unit :=
  let s' := { s with chan := r.2 }
  match r.1 with
  | .ok => .ok () s'
  | .fail => .stop (s'.raise c)
  | .never => .stop s'.hang

/-- InRead as every rule that issues it does: a Fail is IoFailure(1) (R136, R153, R224, R275: "a Fail
answer is tested before EOS"). `none` is EOS. -/
def inRead (s : State) : Res (Option Byte) :=
  let r := s.chan.inRead
  let s' := { s with chan := r.2 }
  match r.1 with
  | .byte b => .ok (some b) s'
  | .eos => .ok none s'
  | .fail => .stop (s'.raise .readFailed)
  | .never => .stop s'.hang

/-- PACK's rewind step (R220, R223): a Fail is IoFailure(2). -/
def inRewind (s : State) : Res Unit :=
  afterAck .rewindFailed s s.chan.rewind

/-- OutWrite as every rule that issues it does: a Fail is IoFailure(3) (R132, R134, R242). After
OutClose the spec describes none (R65; log 16). -/
def outWrite (b : Byte) (s : State) : Res Unit :=
  if s.chan.outClosed then .fault .outputClosed
  else afterAck .writeFailed s (s.chan.outWrite b)

/-- The finish steps' OutClose (R226, R246): a Fail is IoFailure(4). -/
def outClose (s : State) : Res Unit :=
  if s.chan.outClosed then .fault .outputClosed
  else afterAck .closeFailed s s.chan.outClose

/-! ### Bits out: BitSink -/

/-- R132: the accumulator with one more bit, `((SK_ACC << 1) | bit)[7:0]`. -/
def pushAcc (acc : BitVec 8) (b : Bool) : BitVec 8 :=
  (acc <<< 1) ||| BitVec.setWidth 8 (BitVec.ofBool b)

/-- R132: one turn of the loop of WRBITS. A full byte is written at once and the accumulator emptied.
Where that OutWrite does not answer Ok, the sequencer stops with the byte in SK_ACC and SK_N
"transiently 8", which its 3 bits cannot hold: a free value (log 10). -/
def pushBit (b : Bool) (s : State) : Res Unit :=
  let acc := pushAcc s.skAcc b
  if h : s.skN.val + 1 < 8 then .ok () { s with skAcc := acc, skN := ⟨s.skN.val + 1, h⟩ }
  else
    match outWrite acc s with
    | .ok _ s' => .ok () { s' with skAcc := 0, skN := 0 }
    | .stop s' => .stop { s' with skAcc := acc, skN := Config.freeSkN s'.free, free := s'.free + 1 }
    | .fault e => .fault e
    | .refuse r => .refuse r

/-- R132: the bits of a bit-code, "first bit first". -/
def pushBits : List Bool → State → Res Unit
  | [], s => .ok () s
  | b :: bits, s => (pushBit b s).bind fun _ s' => pushBits bits s'

/-- R132, `WRBITS(v, L)` as a rule calls it. -/
def writeBits (v L : Nat) (s : State) : Res Unit :=
  pushBits (codeBits v L) s

/-- R134: the last byte, "pending bits in the high positions, zeros below". -/
def padded (acc : BitVec 8) (n : Nat) : BitVec 8 :=
  acc <<< (8 - n)

/-- R134, `FLUSH` as a rule calls it. -/
def flushSink (s : State) : Res Unit :=
  if s.skN = 0 then .ok () s
  else (outWrite (padded s.skAcc s.skN.val) s).bind fun _ s' => .ok () s'.sinkInit

/-! ### Bits in: BitSource -/

/-- R136: `SR_N <- SR_N - 1; return SR_ACC[SR_N]`, "bit 7 first, bit 0 last". -/
def deliver (s : State) : Res (Option Bool) :=
  let n := s.srN.val - 1
  .ok (some (s.srAcc.getLsbD n)) { s with srN := ⟨n, by omega⟩ }

/-- R136, `RDBIT` as a rule calls it: `none` is EOS. -/
def readBit (s : State) : Res (Option Bool) :=
  if s.srN = 0 then
    (inRead s).bind fun r s' =>
      match r with
      | none => .ok none s'
      | some b => deliver { s' with srAcc := b, srN := 8 }
  else deliver s

/-- R137: the loop of RDBITS, `r` the value so far. R138: where the end falls in its middle it returns
EOS and the bits it consumed are lost. -/
def readBitsFrom (r : Nat) : Nat → State → Res (Option Nat)
  | 0, s => .ok (some r) s
  | n + 1, s =>
    (readBit s).bind fun b s' =>
      match b with
      | none => .ok none s'
      | some b => readBitsFrom (2 * r + b.toNat) n s'

/-- R137, `RDBITS(n)` as a rule calls it. -/
def readBits (n : Nat) (s : State) : Res (Option Nat) :=
  readBitsFrom 0 n s

/-! ### Loops over the input -/

/-- How many turns a loop that reads a byte a turn can make: one per byte left, and the one that meets
EOS. -/
def readTurns (s : State) : Nat :=
  s.chan.input.length - s.chan.inPos + 1

/-- How many bits the input still holds. -/
def bitsLeft (s : State) : Nat :=
  8 * (s.chan.input.length - s.chan.inPos) + s.srN.val

end Sys2Proof.Machine
end

