-- ==== Sys2Proof/Machine/BitIO.lean ====
section
/-! DEFINITION. BitSink and BitSource (spec 40_bitio.md): SK_INIT, WRBITS, FLUSH, SR_INIT, RDBIT,
RDBITS. "They treat their operands as plain bit strings" (R130). -/

namespace Sys2Proof.Machine

/-- SK_INIT (R131). -/
def execSkInit (s : State) : Host.Outcome State Fault Refusal :=
  .next s.sinkInit

/-- WRBITS v, L (R132, R133). An operand outside R113 is refused (93_implementation_defined.md #22). -/
def execWrbits (v L : Nat) (s : State) : Host.Outcome State Fault Refusal :=
  if (Instr.wrbits v L).wellFormed then (writeBits v L s).outcome
  else .refused .operandOutOfRange

/-- FLUSH (R134). -/
def execFlush (s : State) : Host.Outcome State Fault Refusal :=
  (flushSink s).outcome

/-- SR_INIT (R135): "It reads nothing from the channel". -/
def execSrInit (s : State) : Host.Outcome State Fault Refusal :=
  .next s.sourceInit

/-- RDBIT's result (R136): a bit, or EOS. -/
def bitResult : Option Bool → OpResult
  | none => .eos
  | some b => .bit b

/-- RDBITS's result (R137): an n-bit value, or EOS. -/
def valueResult : Option Nat → OpResult
  | none => .eos
  | some v => .value v

/-- RDBIT (R136); the result is kept in `result` (log 19). -/
def execRdbit (s : State) : Host.Outcome State Fault Refusal :=
  ((readBit s).bind fun r s' => .ok () { s' with result := bitResult r }).outcome

/-- RDBITS n (R137, R138); the result is kept in `result` (log 19). An operand outside R113 is refused
(93_implementation_defined.md #22). -/
def execRdbits (n : Nat) (s : State) : Host.Outcome State Fault Refusal :=
  if (Instr.rdbits n).wellFormed then
    ((readBits n s).bind fun r s' => .ok () { s' with result := valueResult r }).outcome
  else .refused .operandOutOfRange

end Sys2Proof.Machine
end

