-- ==== Sys2Proof/Machine/TreeBuilder.lean ====
section
/-! DEFINITION. TreeBuilder (spec 42_treebuilder.md): TB_SEED, TB_MERGE, TB_BUILD. No channel is
touched and nothing is raised. -/

namespace Sys2Proof.Machine

/-- R49: the weight of a node. -/
def Node.weight : Node → Count
  | .leaf _ w => w
  | .internal _ _ w => w

/-- R49, R57: the entry of the arena at a node index. -/
def nodeAt (nodes : Vector Node 511) (i : NodeIx) : Node :=
  nodes[i.val]'i.isLt

/-- R162: node `i` is lower than node `j`: a smaller weight, or the same weight and inserted earlier
(R163: "Insertion order is the node index"). -/
def lower (nodes : Vector Node 511) (i j : NodeIx) : Bool :=
  let wi := (nodeAt nodes i).weight.toNat
  let wj := (nodeAt nodes j).weight.toNat
  decide (wi < wj) || (decide (wi = wj) && decide (i.val < j.val))

/-- R162: the lowest of a node and the members of a list. -/
def lowestFrom (nodes : Vector Node 511) (i : NodeIx) : List NodeIx → NodeIx
  | [] => i
  | j :: rest => lowestFrom nodes (if lower nodes j i then j else i) rest

/-- R164, `extract_min(PQ)`: the lowest member and the members left; none where PQ is empty. -/
def extractMin (nodes : Vector Node 511) : List NodeIx → Option (NodeIx × List NodeIx)
  | [] => none
  | i :: rest =>
    let m := lowestFrom nodes i rest
    some (m, (i :: rest).erase m)

/-- R161: "one leaf per byte value with nonzero count", in ascending byte value. -/
def seedLeaves (freq : Table Count) : List Node :=
  (entries freq).filterMap fun e => if e.2 = 0 then none else some (.leaf e.1 e.2)

/-- R161: the arena with the leaves in its first entries. -/
def placeLeaves (nodes : Vector Node 511) (leaves : List Node) : Vector Node 511 :=
  leaves.zipIdx.foldl (fun t e => t.setIfInBounds e.2 e.1) nodes

/-- R161, `TB_SEED` as a rule calls it. The entries of NODE from the new NNODES on, unspecified by R49,
keep their values: the model's choice (log 3). -/
def seedTree (s : State) : State :=
  let leaves := seedLeaves s.freq
  { s with
    node := placeLeaves s.node leaves
    pq := (List.range leaves.length).map (Fin.ofNat 511)
    root := none
    nnodes := Fin.ofNat 512 leaves.length
    nsym := Fin.ofNat 257 leaves.length }

/-- R165: the two lowest members, `a` then `b`, become the children of a new node, which joins PQ. The entries of NODE after it keep their values (log 3). -/
def mergeInto (a b : NodeIx) (rest : List NodeIx) (s : State) : Res Unit :=
  if h : s.nnodes.val < 511 then
    let i : NodeIx := ⟨s.nnodes.val, h⟩
    let w := sumCount (nodeAt s.node a).weight (nodeAt s.node b).weight s.free
    .ok () { s with
      node := s.node.set i.val (.internal a b w.1) i.isLt
      pq := rest ++ [i]
      nnodes := ⟨s.nnodes.val + 1, by omega⟩
      free := w.2 }
  else .fault .nodeArenaFull

/-- R165, `TB_MERGE` as a rule calls it. -/
def mergeLowest (s : State) : Res Unit :=
  match extractMin s.node s.pq with
  | none => .refuse .mergeNeedsTwoNodes
  | some (a, rest) =>
    match extractMin s.node rest with
    | none => .refuse .mergeNeedsTwoNodes
    | some (b, rest) => mergeInto a b rest s

/-- R166: `while |PQ| >= 2: TB_MERGE`, for at most `turns` turns; each takes one member out of PQ. -/
def mergeLoop : Nat → State → Res Unit
  | 0, s => .ok () s
  | turns + 1, s =>
    if 2 ≤ s.pq.length then (mergeLowest s).bind fun _ s' => mergeLoop turns s'
    else .ok () s

/-- R166: `if |PQ| = 1: ROOT <- the one member of PQ, else: ROOT <- NONE`. -/
def takeRoot (s : State) : State :=
  { s with root := match s.pq with
      | [r] => some r
      | _ => none }

/-- R166, `TB_BUILD` as a rule calls it. -/
def buildTree (s : State) : Res Unit :=
  let s := seedTree s
  (mergeLoop s.pq.length s).bind fun _ s' => .ok () (takeRoot s')

/-- TB_SEED (R161). -/
def execTbSeed (s : State) : Host.Outcome State Fault Refusal :=
  .next (seedTree s)

/-- TB_MERGE (R165). With fewer than two members in PQ it is refused
(93_implementation_defined.md #24). -/
def execTbMerge (s : State) : Host.Outcome State Fault Refusal :=
  (mergeLowest s).outcome

/-- TB_BUILD (R166). -/
def execTbBuild (s : State) : Host.Outcome State Fault Refusal :=
  (buildTree s).outcome

end Sys2Proof.Machine
end

