-- ==== Sys2Proof/Machine/CodeTable.lean ====
section
/-! DEFINITION. CodeTable (spec 43_codetable.md): CT_WALK, the tree codes and lengths; CT_CANON, the
canonical codes. No channel is touched and nothing is raised. -/

namespace Sys2Proof.Machine

/-- One leaf the traversal reaches: its symbol and its path from the root, the bit-code `(v, L)`. -/
structure LeafCode where
  sym : Byte
  v : Nat
  L : Nat
deriving DecidableEq, Repr

/-- R182, `visit(i, v, L)`: "depth-first, left subtree before right"; the left edge appends 0, the
right edge 1 (R181). `levels` bounds the depth, which is at most 255 in every tree TB_BUILD makes
(R170); none: the arena under `i` is deeper, so it is no such tree. -/
def visit (nodes : Vector Node 511) : Nat → NodeIx → Nat → Nat → Option (List LeafCode)
  | 0, _, _, _ => none
  | levels + 1, i, v, L =>
    match nodeAt nodes i with
    | .leaf sym _ => some [⟨sym, v, L⟩]
    | .internal left right _ =>
      match visit nodes levels left (2 * v) (L + 1) with
      | none => none
      | some ls =>
        match visit nodes levels right (2 * v + 1) (L + 1) with
        | none => none
        | some rs => some (ls ++ rs)

/-- R182: the writes of `visit` into TLEN. -/
def writeTlen (t : Table (BitVec 8)) (ls : List LeafCode) : Table (BitVec 8) :=
  ls.foldl (fun t l => setEntry t l.sym (BitVec.ofNat 8 l.L)) t

/-- R182: the writes of `visit` into TCODE. -/
def writeTcode (t : Table Code) (ls : List LeafCode) : Table Code :=
  ls.foldl (fun t l => setEntry t l.sym (BitVec.ofNat 255 l.v)) t

/-- R182: TLEN, TCODE, DEGEN, then `LEN[s] <- TLEN[s]` for every `s` (R184). TCODE of a symbol with no
leaf, unspecified by R51, keeps its value: the model's choice (log 3). -/
def walked (d : Degen) (ls : List LeafCode) (s : State) : State :=
  let tlen := writeTlen (Vector.replicate 256 0) ls
  { s with tlen := tlen, tcode := writeTcode s.tcode ls, degen := d, len := tlen }

/-- R182, `CT_WALK` as a rule calls it; R183 is its single-leaf branch. -/
def walkTree (s : State) : Res Unit :=
  match s.root with
  | none => .ok () (walked .empty [] s)
  | some r =>
    match nodeAt s.node r with
    | .leaf sym _ => .ok () (walked .single [⟨sym, 0, 1⟩] s)
    | .internal _ _ _ =>
      match visit s.node 256 r 0 0 with
      | none => .refuse .notATree
      | some ls => .ok () (walked .normal ls s)

/-- R187: the canonical order, "by (length ascending, byte_value ascending)". -/
abbrev canonBefore (a b : Byte × Nat) : Prop :=
  a.2 < b.2 ∨ (a.2 = b.2 ∧ a.1.toNat ≤ b.1.toNat)

/-- R187: the present symbols in canonical order. -/
def canonOrder (len : Table (BitVec 8)) : List (Byte × Nat) :=
  (present len).insertionSort canonBefore

/-- R188: the codes of the symbols after one of code `c` and length `prev`: `(c + 1) << (L - prev)`,
"next value, widened to the new length". -/
def canonNext (c prev : Nat) : List (Byte × Nat) → List (Byte × Nat)
  | [] => []
  | (s, L) :: rest =>
    let c' := (c + 1) <<< (L - prev)
    (s, c') :: canonNext c' L rest

/-- R188: the canonical codes of the present symbols, in canonical order: the first is 0. -/
def canonCodes : List (Byte × Nat) → List (Byte × Nat)
  | [] => []
  | (s, L) :: rest => (s, 0) :: canonNext 0 L rest

/-- R188: the writes of CT_CANON into CODE. -/
def writeCodes (t : Table Code) (cs : List (Byte × Nat)) : Table Code :=
  cs.foldl (fun t e => setEntry t e.1 (BitVec.ofNat 255 e.2)) t

/-- R189: on a table with a Kraft sum above 1 the written entries are free values (log 12). -/
def writeFreeCodes (t : Table Code) (n : Nat) (cs : List (Byte × Nat)) : Table Code :=
  cs.foldl (fun t e => setEntry t e.1 (Config.freeCode n e.1)) t

/-- R188, `CT_CANON` as a rule calls it: "Reads LEN only; writes CODE". CODE of an absent symbol,
unspecified by R53 where another is present, keeps its value: the model's choice (log 3). -/
def assignCodes (s : State) : State :=
  if kraft255 s.len ≤ 2 ^ 255 then
    { s with code := writeCodes s.code (canonCodes (canonOrder s.len)) }
  else
    { s with code := writeFreeCodes s.code s.free (canonOrder s.len), free := s.free + 1 }

/-- CT_WALK (R182). -/
def execCtWalk (s : State) : Host.Outcome State Fault Refusal :=
  (walkTree s).outcome

/-- CT_CANON (R188). -/
def execCtCanon (s : State) : Host.Outcome State Fault Refusal :=
  .next (assignCodes s)

end Sys2Proof.Machine
end

