-- ==== Sys2Proof/Machine/FormatCodec.lean ====
section
/-! DEFINITION. FormatCodec (spec 44_formatcodec.md): HDR_WRITE, HDR_READ, LEN_CHECK. The field layout
is 30_encoding.md R90; the channels are reached through BitSink and BitSource only (R200). -/

namespace Sys2Proof.Machine

/-- R46: MAGIC as a 32-bit number, bits 39:8 of ID. -/
def State.magic (s : State) : BitVec 32 :=
  s.id.extractLsb' 8 32

/-- R46: VERSION, bits 7:0 of ID. -/
def State.version (s : State) : Byte :=
  s.id.extractLsb' 0 8

/-- R90, R100, R201: the fields of the header in order, each a bit-code. -/
def headerFields (s : State) : List (Nat × Nat) :=
  (s.magic.toNat, 32) :: (s.version.toNat, 8) :: (s.origLen.toNat, 64)
    :: s.len.toList.map fun l => (l.toNat, 8)

/-- R201: one `WRBITS` per field. -/
def writeFields : List (Nat × Nat) → State → Res Unit
  | [], s => .ok () s
  | (v, L) :: fields, s => (writeBits v L s).bind fun _ s' => writeFields fields s'

/-- R201, `HDR_WRITE` as a rule calls it. -/
def writeHeader (s : State) : Res Unit :=
  writeFields (headerFields s) s

/-- R202: one `RDBITS` of the header: EOS raises FormatError(1) (R206). -/
def readField (n : Nat) (s : State) : Res Nat :=
  (readBits n s).bind fun r s' =>
    match r with
    | none => .stop (s'.raise .headerShort)
    | some v => .ok v s'

/-- R202, R203: MAGIC is compared after its four bytes. -/
def readMagic (s : State) : Res Unit :=
  (readField 32 s).bind fun m s' =>
    if m = s'.magic.toNat then .ok () s' else .stop (s'.raise .magicMismatch)

/-- R202, R203: VERSION is compared after its byte. -/
def readVersion (s : State) : Res Unit :=
  (readField 8 s).bind fun v s' =>
    if v = s'.version.toNat then .ok () s' else .stop (s'.raise .versionUnknown)

/-- R202, R204: ORIG_LEN "is taken as read". -/
def readOrigLen (s : State) : Res Unit :=
  (readField 64 s).bind fun n s' => .ok () { s' with origLen := BitVec.ofNat 64 n }

/-- R202, R205: each length entry is taken as read into LEN. -/
def readLens : List Byte → State → Res Unit
  | [], s => .ok () s
  | b :: bs, s =>
    (readField 8 s).bind fun l s' =>
      readLens bs { s' with len := setEntry s'.len b (BitVec.ofNat 8 l) }

/-- R202, `HDR_READ` as a rule calls it; R210: "The checks run in stream order". -/
def readHeader (s : State) : Res Unit :=
  (readMagic s).bind fun _ s1 =>
    (readVersion s1).bind fun _ s2 =>
      (readOrigLen s2).bind fun _ s3 => readLens allBytes s3

/-- R207: what is wrong with a table of `k` present symbols, if anything. -/
def tableFault (len : Table (BitVec 8)) (origLen : Count) : Option Cause :=
  match present len with
  | [] => if origLen = 0 then none else some .noSymbols
  | [e] => if e.2 = 1 then none else some .singleNotOne
  | _ :: _ :: _ =>
    if 2 ^ 255 < kraft255 len then some .oversubscribed
    else if kraft255 len < 2 ^ 255 then some .incomplete
    else none

/-- R207, `LEN_CHECK` as a rule calls it: NSYM is written first, DEGEN where the table is accepted. -/
def checkTable (s : State) : Res Unit :=
  let k := (present s.len).length
  let s := { s with nsym := Fin.ofNat 257 k }
  match tableFault s.len s.origLen with
  | some c => .stop (s.raise c)
  | none => .ok () { s with degen := degenOf k }

/-- HDR_WRITE (R201). -/
def execHdrWrite (s : State) : Host.Outcome State Fault Refusal :=
  (writeHeader s).outcome

/-- HDR_READ (R202). -/
def execHdrRead (s : State) : Host.Outcome State Fault Refusal :=
  (readHeader s).outcome

/-- LEN_CHECK (R207). -/
def execLenCheck (s : State) : Host.Outcome State Fault Refusal :=
  (checkTable s).outcome

end Sys2Proof.Machine
end

