-- ==== Sys2Proof/Machine/Frequency.lean ====
section
/-! DEFINITION. FrequencyTable (spec 41_frequency.md): FQ_CLEAR, FQ_COUNT, FQ_SCAN. -/

namespace Sys2Proof.Machine

/-- R151: `FREQ[b] <- FREQ[b] + 1`. -/
def countByte (b : Byte) (s : State) : State :=
  let r := sumCount (entry s.freq b) 1 s.free
  { s with freq := setEntry s.freq b r.1, free := r.2 }

/-- R153: `ORIG_LEN <- ORIG_LEN + 1`. -/
def countLength (s : State) : State :=
  let r := sumCount s.origLen 1 s.free
  { s with origLen := r.1, free := r.2 }

/-- R153: one turn of pass 1; the result says whether the loop goes on. -/
def scanTurn (s : State) : Res Bool :=
  (inRead s).bind fun r s' =>
    match r with
    | none => .ok false s'
    | some b => .ok true (countLength (countByte b s'))

/-- R153: the loop of FQ_SCAN, for at most `turns` turns. -/
def scanLoop : Nat → State → Res Unit
  | 0, s => .ok () s
  | turns + 1, s =>
    (scanTurn s).bind fun more s' => if more then scanLoop turns s' else .ok () s'

/-- R153, `FQ_SCAN` as a rule calls it: "reads to the end of the channel". -/
def scanInput (s : State) : Res Unit :=
  scanLoop (readTurns s) s

/-- FQ_CLEAR (R150). -/
def execFqClear (s : State) : Host.Outcome State Fault Refusal :=
  .next s.freqClear

/-- FQ_COUNT b (R151). -/
def execFqCount (b : Byte) (s : State) : Host.Outcome State Fault Refusal :=
  .next (countByte b s)

/-- FQ_SCAN (R153). -/
def execFqScan (s : State) : Host.Outcome State Fault Refusal :=
  (scanInput s).outcome

end Sys2Proof.Machine
end

