-- ==== Sys2Proof/Machine/Packer.lean ====
section
/-! DEFINITION. Packer (spec 45_packer.md): ENC_SYM, ENC_PASS and the host command PACK. -/

namespace Sys2Proof.Machine

/-- R227, `ENC_SYM(b)` as a rule calls it: a byte without a code raises IoFailure(5) "before anything
is written for that byte" (R225). -/
def encodeByte (b : Byte) (s : State) : Res Unit :=
  if entry s.len b = 0 then .stop (s.raise .byteWithoutCode)
  else writeBits (entry s.code b).toNat (entry s.len b).toNat s

/-- R224, R244: `EMITTED <- EMITTED + 1`. -/
def countEmitted (s : State) : State :=
  let r := sumCount s.emitted 1 s.free
  { s with emitted := r.1, free := r.2 }

/-- R224: one turn of pass 2; the result says whether the loop goes on. -/
def encodeTurn (s : State) : Res Bool :=
  (inRead s).bind fun r s' =>
    match r with
    | none => .ok false s'
    | some b => (encodeByte b s').bind fun _ s'' => .ok true (countEmitted s'')

/-- R224: the loop of ENC_PASS, for at most `turns` turns. -/
def encodeLoop : Nat → State → Res Unit
  | 0, s => .ok () s
  | turns + 1, s =>
    (encodeTurn s).bind fun more s' => if more then encodeLoop turns s' else .ok () s'

/-- R224, R225: `if EMITTED != ORIG_LEN: raise IoFailure(6)`, at the EOS of pass 2. -/
def passesAgree (s : State) : Res Unit :=
  if s.emitted = s.origLen then .ok () s else .stop (s.raise .passesDiffer)

/-- R224, R244: `EMITTED <- 0`. -/
def State.emittedClear (s : State) : State :=
  { s with emitted := 0 }

/-- R224, `ENC_PASS` as a rule calls it. -/
def encodePass (s : State) : Res Unit :=
  let s := s.emittedClear
  (encodeLoop (readTurns s) s).bind fun _ s' => passesAgree s'

/-- R220: TB_BUILD, CT_WALK, CT_CANON, the steps of P_BUILD. -/
def buildCodes (s : State) : Res Unit :=
  (buildTree s).bind fun _ s => (walkTree s).bind fun _ s => .ok () (assignCodes s)

/-- R220: FLUSH, OutClose, the steps of P_FINISH. -/
def finishPack (s : State) : Res Unit :=
  (flushSink s).bind fun _ s => outClose s

/-- R220: the sequence of PACK after the command start sequence, each step in its PHASE. -/
def packSequence (s : State) : Res Unit :=
  (scanInput (s.enter .pCount)).bind fun _ s =>
  (buildCodes (s.enter .pBuild)).bind fun _ s =>
  (writeHeader (s.enter .pHeader)).bind fun _ s =>
  (inRewind (s.enter .pRewind)).bind fun _ s =>
  (encodePass (s.enter .pEncode)).bind fun _ s =>
  (finishPack (s.enter .pFinish)).bind fun _ s =>
  .ok () (s.enter .done)

/-- ENC_SYM b (R227). -/
def execEncSym (b : Byte) (s : State) : Host.Outcome State Fault Refusal :=
  (encodeByte b s).outcome

/-- ENC_PASS (R224). -/
def execEncPass (s : State) : Host.Outcome State Fault Refusal :=
  (encodePass s).outcome

/-- PACK (R220), the whole host command as one step (R11; log 6). R41, R312: while a command runs it
is ignored. -/
def execPack (s : State) : Host.Outcome State Fault Refusal :=
  if s.accepts then (packSequence (s.startCommand .pCount)).outcome else .next s

end Sys2Proof.Machine
end

