-- ==== Sys2Proof/Machine/Unpacker.lean ====
section
/-! DEFINITION. Unpacker (spec 46_unpacker.md): DEC_SYM, the tree walker, DEC_LOOP and the host
command UNPACK. -/

namespace Sys2Proof.Machine

/-- R54, `DEC(v, L)`: the symbol with that canonical code. It is unique on every table a command
decodes with (R190); where several symbols share the code the spec gives none of them: a free value
(log 13). -/
def decSymbol (v L : Nat) (s : State) : Option Byte :=
  match codedAs s.len s.code v L with
  | [] => none
  | [b] => some b
  | _ :: _ :: _ => some (Config.freeSymbol s.free v L)

/-- R242, "reset to root". -/
def State.atRoot (s : State) : State :=
  { s with pfx := 0, pfxLen := 0 }

/-- R242: "take edge b: 0 left, 1 right": `PFX <- 2*PFX + b ; PFXLEN <- PFXLEN + 1`. -/
def takeEdge (b : Bool) (s : State) : State :=
  { s with
    pfx := (s.pfx <<< 1) ||| BitVec.setWidth 255 (BitVec.ofBool b)
    pfxLen := Fin.ofNat 256 (s.pfxLen.val + 1) }

/-- R242: the node reached is a leaf: its byte is written "at once", then back to the root. -/
def emitSymbol (b : Byte) (s : State) : Res Unit :=
  (outWrite b s).bind fun _ s' => .ok () s'.atRoot

/-- R242: the loop of DEC_SYM. `levels` bounds the depth: at 255 bits nothing is LIVE. -/
def walkBits : Nat → State → Res Unit
  | 0, s => .stop (s.raise .noSuchPath)
  | levels + 1, s =>
    (readBit s).bind fun r s =>
      match r with
      | none => .stop (s.raise .truncated)
      | some b =>
        let s := takeEdge b s
        match decSymbol s.pfx.toNat s.pfxLen.val s with
        | some sym => emitSymbol sym s
        | none =>
          if live s.len s.code s.pfx.toNat s.pfxLen.val then walkBits levels s
          else .stop (s.raise .noSuchPath)

/-- R242, `DEC_SYM` as a rule calls it. -/
def decodeSymbol (s : State) : Res Unit :=
  walkBits 255 s.atRoot

/-- R244: one turn of the decoding loop; the result says whether it made one, that is whether
`EMITTED < ORIG_LEN`. -/
def decodeTurn (s : State) : Res Bool :=
  if s.emitted.toNat < s.origLen.toNat then
    (decodeSymbol s).bind fun _ s' => .ok true (countEmitted s')
  else .ok false s

/-- R244: the loop of DEC_LOOP, for at most `turns` turns. -/
def decodeLoopFrom : Nat → State → Res Unit
  | 0, s => .ok () s
  | turns + 1, s =>
    (decodeTurn s).bind fun more s' => if more then decodeLoopFrom turns s' else .ok () s'

/-- R244, `DEC_LOOP` as a rule calls it. Every turn but the last takes a bit (R242), so there are at
most as many as bits, and the one that ends the loop. -/
def decodeAll (s : State) : Res Unit :=
  let s := s.emittedClear
  decodeLoopFrom (bitsLeft s + 1) s

/-- R240: LEN_CHECK, CT_CANON, the steps of U_BUILD. -/
def rebuildCodes (s : State) : Res Unit :=
  (checkTable s).bind fun _ s => .ok () (assignCodes s)

/-- R240: the sequence of UNPACK after the command start sequence, each step in its PHASE. -/
def unpackSequence (s : State) : Res Unit :=
  (readHeader (s.enter .uHeader)).bind fun _ s =>
  (rebuildCodes (s.enter .uBuild)).bind fun _ s =>
  (decodeAll (s.enter .uDecode)).bind fun _ s =>
  (outClose (s.enter .uFinish)).bind fun _ s =>
  .ok () (s.enter .done)

/-- DEC_SYM (R242). -/
def execDecSym (s : State) : Host.Outcome State Fault Refusal :=
  (decodeSymbol s).outcome

/-- DEC_LOOP (R244). -/
def execDecLoop (s : State) : Host.Outcome State Fault Refusal :=
  (decodeAll s).outcome

/-- UNPACK (R240), the whole host command as one step (R11; log 6). R41, R312: while a command runs it
is ignored. -/
def execUnpack (s : State) : Host.Outcome State Fault Refusal :=
  if s.accepts then (unpackSequence (s.startCommand .uHeader)).outcome else .next s

end Sys2Proof.Machine
end

