-- ==== Sys2Proof/Machine/Dispatch.lean ====
section
/-! DEFINITION. Dispatch: one arm per operation of the CORE. -/

namespace Sys2Proof.Machine

def exec (i : Instr) (s : State) : Host.Outcome State Fault Refusal :=
  match i with
  | .pack => Sys2Proof.Machine.execPack s
  | .unpack => Sys2Proof.Machine.execUnpack s
  | .skInit => Sys2Proof.Machine.execSkInit s
  | .wrbits v L => Sys2Proof.Machine.execWrbits v L s
  | .flush => Sys2Proof.Machine.execFlush s
  | .srInit => Sys2Proof.Machine.execSrInit s
  | .rdbit => Sys2Proof.Machine.execRdbit s
  | .rdbits n => Sys2Proof.Machine.execRdbits n s
  | .fqClear => Sys2Proof.Machine.execFqClear s
  | .fqCount b => Sys2Proof.Machine.execFqCount b s
  | .fqScan => Sys2Proof.Machine.execFqScan s
  | .tbSeed => Sys2Proof.Machine.execTbSeed s
  | .tbMerge => Sys2Proof.Machine.execTbMerge s
  | .tbBuild => Sys2Proof.Machine.execTbBuild s
  | .ctWalk => Sys2Proof.Machine.execCtWalk s
  | .ctCanon => Sys2Proof.Machine.execCtCanon s
  | .hdrWrite => Sys2Proof.Machine.execHdrWrite s
  | .hdrRead => Sys2Proof.Machine.execHdrRead s
  | .lenCheck => Sys2Proof.Machine.execLenCheck s
  | .encSym b => Sys2Proof.Machine.execEncSym b s
  | .encPass => Sys2Proof.Machine.execEncPass s
  | .decSym => Sys2Proof.Machine.execDecSym s
  | .decLoop => Sys2Proof.Machine.execDecLoop s

end Sys2Proof.Machine
end

