-- ==== Sys2Proof/Machine/Registers.lean ====
section
/-! DEFINITION. The command port: the control registers the host reads and writes by number
(10_state.md R40 to R46), the CMD register (R41, R115), and the host's other accesses (R301, R305). -/

namespace Sys2Proof.Machine

/-- R40: what a read of the register of this number returns. "A read of any register has no side
effect", and CMD "reads as 0"; a number not in the table "reads as zero" (log 18). The value is
widened with zeros to 64 bits. -/
def readRegister (number : Nat) (s : State) : BitVec 64 :=
  match number with
  | 1 => s.status.setWidth 64
  | 2 => s.err.number.setWidth 64
  | 3 => s.errInfo.setWidth 64
  | 4 => s.origLen
  | 5 => s.emitted
  | 6 => BitVec.ofNat 64 s.nsym.val
  | 7 => s.id.setWidth 64
  | _ => 0

/-- R41: a write of CMD. 0x01 starts PACK and 0x02 UNPACK when PHASE is IDLE, DONE or ERROR: the start
sequence R303, whose last line is PHASE <- P_COUNT or U_HEADER. A write while BUSY, and a write of
any other value (R115), is ignored: "no state changes" (log 17). -/
def writeCommand (value : Byte) (s : State) : State :=
  if s.accepts then
    if value = 0x01 then s.startCommand .pCount
    else if value = 0x02 then s.startCommand .uHeader
    else s
  else s

/-- R40: a write of the register of this number: "A write to a read-only register is ignored", and so
is one of a number not in the table. -/
def writeRegister (number : Nat) (value : Byte) (s : State) : State :=
  if number = 0 then writeCommand value s else s

/-- R305 (a), (b): the input channel is bound and positioned at the first byte to be consumed. -/
def State.bindInput (bytes : List Byte) (rewound : Option (List Byte)) (s : State) : State :=
  { s with chan := { s.chan with input := bytes, inPos := 0, inRewound := rewound } }

/-- R305 (a), (c): an empty output channel is bound (R64). -/
def State.bindOutput (s : State) : State :=
  { s with chan := { s.chan with out := [], outClosed := false } }

/-- One access of the host that is not a wait. A channel bound while a command runs breaks R305 and
R311, and "this spec says nothing of the result" (log 22). -/
def hostAccess (a : HostAction) (s : State) : Res Unit :=
  match a with
  | .wait => .ok () s
  | .readRegister number => .ok () { s with busData := readRegister number s }
  | .writeRegister number value => .ok () (writeRegister number value s)
  | .bindInput bytes rewound =>
    if s.accepts then .ok () (s.bindInput bytes rewound) else .refuse .boundWhileBusy
  | .bindOutput => if s.accepts then .ok () s.bindOutput else .refuse .boundWhileBusy
  | .reset => .ok () s.powerOn

end Sys2Proof.Machine
end

