-- ==== Sys2Proof/Machine/Sequencer.lean ====
section
/-! DEFINITION. The sequencer of a command started by a write of CMD (10_state.md R30, R31): each step
makes the next part of the sequence of 45_packer.md R220 or 46_unpacker.md R240. R112: "a model may
take either granularity as its step": the three input loops make one turn a step, every other
micro-operation is one step (log 6). -/

namespace Sys2Proof.Machine

/-- PHASE keeps its value and the step inside it advances (log 21). -/
def State.nextSub (s : State) : State :=
  { s with sub := s.sub + 1 }

/-- R31: a phase whose part ran to its end is left for the next one. -/
def thenEnter (p : Phase) (x : Res Unit) : Res Unit :=
  x.bind fun _ s => .ok () (s.enter p)

/-- A loop of R153, R224 or R244 goes on, or it exits by `exit`. -/
def thenLoop (exit : State → Res Unit) (x : Res Bool) : Res Unit :=
  x.bind fun more s => if more then .ok () s else exit s

/-- R220, P_BUILD: TB_BUILD, CT_WALK, CT_CANON. -/
def buildStep (s : State) : Res Unit :=
  match s.sub with
  | 0 => (buildTree s).bind fun _ s => .ok () s.nextSub
  | 1 => (walkTree s).bind fun _ s => .ok () s.nextSub
  | _ + 2 => .ok () ((assignCodes s).enter .pHeader)

/-- R220, P_FINISH: FLUSH, OutClose. -/
def finishStep (s : State) : Res Unit :=
  match s.sub with
  | 0 => (flushSink s).bind fun _ s => .ok () s.nextSub
  | _ + 1 => thenEnter .done (outClose s)

/-- R240, U_BUILD: LEN_CHECK, CT_CANON; then DEC_LOOP starts with `EMITTED <- 0` (R244). -/
def rebuildStep (s : State) : Res Unit :=
  match s.sub with
  | 0 => (checkTable s).bind fun _ s => .ok () s.nextSub
  | _ + 1 => .ok () ((assignCodes s).enter .uDecode).emittedClear

/-- R220, P_REWIND; then ENC_PASS starts with `EMITTED <- 0` (R224). -/
def rewindStep (s : State) : Res Unit :=
  (inRewind s).bind fun _ s => .ok () (s.enter .pEncode).emittedClear

/-- R30, R31: the next step of the running command. In IDLE, DONE and ERROR nothing runs: the block
waits for a CMD write (R300, R304). -/
def phaseStep (s : State) : Res Unit :=
  match s.phase with
  | .idle | .done | .error => .ok () s
  | .pCount => thenLoop (fun s => .ok () (s.enter .pBuild)) (scanTurn s)
  | .pBuild => buildStep s
  | .pHeader => thenEnter .pRewind (writeHeader s)
  | .pRewind => rewindStep s
  | .pEncode => thenLoop (fun s => thenEnter .pFinish (passesAgree s)) (encodeTurn s)
  | .pFinish => finishStep s
  | .uHeader => thenEnter .uBuild (readHeader s)
  | .uBuild => rebuildStep s
  | .uDecode => thenLoop (fun s => .ok () (s.enter .uFinish)) (decodeTurn s)
  | .uFinish => thenEnter .done (outClose s)

end Sys2Proof.Machine
end

