-- ==== Sys2Proof/Machine/Turn.lean ====
section
/-! DEFINITION. Whose turn a step is: an operation issued by its number, else the host's next access,
else the sequencer's next step (logs 4, 5, 22). -/

namespace Sys2Proof.Machine

/-- An operation number that names nothing (R116) or an operand outside R113 is refused. -/
def refusalOf : DecodeError → Refusal
  | .noByte => .operandMissing
  | .reservedNumber number => .reservedNumber number
  | .operandMissing => .operandMissing
  | .codeTooWide => .operandOutOfRange
  | .countTooLarge => .operandOutOfRange

/-- The operation at the front of the issued bytes is decoded, taken off them, and run (log 4). -/
def issueTurn (s : State) : Host.Outcome State Fault Refusal :=
  match decode s.issue with
  | .ok (i, rest) => exec i { s with issue := rest }
  | .error e => .refused (refusalOf e)

/-- The sequencer's turn. While it waits for a transaction that is never answered nothing happens
(R315: "the command never ends"). -/
def sequencerTurn (s : State) : Host.Outcome State Fault Refusal :=
  if s.hung then .next s else (phaseStep s).outcome

/-- The host's next access, or, where it waits or has none left, the sequencer's turn. -/
def hostTurn (s : State) : Host.Outcome State Fault Refusal :=
  match s.host with
  | [] => sequencerTurn s
  | .wait :: rest => sequencerTurn { s with host := rest }
  | a :: rest => (hostAccess a { s with host := rest }).outcome

/-- One step. A sequencer that waits for ever takes no issued operation; only the host's accesses
still happen (R312: reset stops a running command). The issued operations run in any PHASE, also in
ERROR behind one that raised, and a second `raise` overwrites ERR and ERR_INFO: the model's choice (log
32), since the spec issues nothing by number and has its sequencer perform nothing after a `raise`
(R274). -/
def turn (s : State) : Host.Outcome State Fault Refusal :=
  match s.issue with
  | [] => hostTurn s
  | _ :: _ => if s.hung then hostTurn s else issueTurn s

/-- A state whose next step is the operation at the front of these bytes. -/
def placeOperation (bytes : List Byte) (s : State) : State :=
  { s with issue := frontOperation bytes, hung := false }

end Sys2Proof.Machine
end

