-- ==== Sys2Proof/Machine/Step.lean ====
section
/-! DEFINITION. The step of the machine, and where a test places the operation it runs next. -/

namespace Sys2Proof.Machine

/-- One step (R11): one micro-operation, one host command, one access of the host, or one step of the
sequencer of a command started by CMD. -/
def step : State → Host.Outcome State Fault Refusal :=
  turn

/-- `s` with the operation of a table word placed where the step takes its next operation (log 5). -/
def State.withFetchWord (s : State) (nbits w : Nat) : State :=
  placeOperation (layOut nbits w) s

end Sys2Proof.Machine
end

