-- ==== Sys2Proof/Safety.lean ====
section
/-! DEFINITION. The terms claims are made in: what the channels still hold, which draws are Ok, the
container format as byte lists (30_encoding.md R90 to R97), the invariant every step keeps. -/

namespace Sys2Proof.Machine

/-! ### Bits and bytes -/

/-- R71: the bits of a byte, bit 7 first. -/
def byteBits (b : Byte) : List Bool :=
  codeBits b.toNat 8

/-- R132: "the k-th [byte] being bits 8k to 8k+7 of S with bit 8k in byte bit 7", for every full
byte of `S`. -/
def bytesOfBits (S : List Bool) : List Byte :=
  (List.range (S.length / 8)).map fun k => BitVec.ofNat 8 (bitsValue 0 ((S.drop (8 * k)).take 8))

/-- R132: "the last len(S) mod 8 bits of S". -/
def leftBits (S : List Bool) : List Bool :=
  S.drop (8 * (S.length / 8))

/-- R96, R134: the bits with zero bits added up to a full byte. -/
def padBits (S : List Bool) : List Bool :=
  S ++ List.replicate ((8 - S.length % 8) % 8) false

/-- R21: "the bits written but not yet emitted", oldest first. -/
def State.pending (s : State) : List Bool :=
  codeBits s.skAcc.toNat s.skN.val

/-- R22, R136: the bits RDBIT will deliver, in order: those not consumed of SR_ACC, then those of the
bytes left in the input. -/
def State.bitStream (s : State) : List Bool :=
  codeBits s.srAcc.toNat s.srN.val ++ (s.chan.input.drop s.chan.inPos).flatMap byteBits

/-! ### The channels -/

/-- R67: the draws of the next `n` transactions are Ok. -/
def Channels.okFor (n : Nat) (c : Channels) : Prop :=
  ∀ d ∈ c.draws.take n, d = .ok

/-- The bytes the input still holds. -/
def Channels.rest (c : Channels) : List Byte :=
  c.input.drop c.inPos

/-- The channels after these bytes were written, each answered Ok (R65). -/
def Channels.wrote (bs : List Byte) (c : Channels) : Channels :=
  { c with
    out := c.out ++ bs
    draws := c.draws.drop bs.length
    trace := (bs.map fun b => .outWrite b .ok).reverse ++ c.trace }

/-- The channels after the next `n` bytes were read (R61). -/
def Channels.took (n : Nat) (c : Channels) : Channels :=
  { c with
    inPos := c.inPos + n
    draws := c.draws.drop n
    trace := ((c.rest.take n).map fun b => .inRead (.byte b)).reverse ++ c.trace }

/-- The channels after an InRead that answered EOS (R61). -/
def Channels.metEnd (c : Channels) : Channels :=
  c.made (.inRead .eos)

/-- R262: the sub-cause of IoFailure that a Fail answer of a transaction records. -/
def Transaction.failInfo : Transaction → BitVec 8
  | .inRead _ => 1
  | .inRewind _ => 2
  | .outWrite _ _ => 3
  | .outClose _ => 4

/-- The transaction, answered Fail. -/
def Transaction.failed : Transaction → Transaction
  | .inRead _ => .inRead .fail
  | .inRewind _ => .inRewind .fail
  | .outWrite b _ => .outWrite b .fail
  | .outClose _ => .outClose .fail

/-- The byte a transaction writes (R75). -/
def Transaction.bytes : Transaction → List Byte
  | .outWrite b _ => [b]
  | .inRead _ | .inRewind _ | .outClose _ => []

/-! ### The container format -/

/-- R90 to R94: the header of a file: MAGIC and VERSION from ID, ORIG_LEN big-endian, the 256
lengths. -/
def headerBytes (id : BitVec 40) (origLen : Count) (len : Table (BitVec 8)) : List Byte :=
  bytesOfNat 5 id.toNat ++ bytesOfNat 8 origLen.toNat ++ len.toList

/-- R188: the canonical codes of a table of lengths, 0 where a symbol is absent. -/
def canonTable (len : Table (BitVec 8)) : Table Code :=
  writeCodes (Vector.replicate 256 0) (canonCodes (canonOrder len))

/-- R95: the bits of a symbol's canonical code. -/
def symbolBits (len : Table (BitVec 8)) (x : Byte) : List Bool :=
  codeBits (entry (canonTable len) x).toNat (entry len x).toNat

/-- R95: the payload bit string `B`. -/
def payloadBits (len : Table (BitVec 8)) (xs : List Byte) : List Bool :=
  xs.flatMap (symbolBits len)

/-- R95, R96: the payload bytes, the last one zero-padded. -/
def payloadBytes (len : Table (BitVec 8)) (xs : List Byte) : List Byte :=
  bytesOfBits (padBits (payloadBits len xs))

/-- R207: the tables LEN_CHECK accepts. -/
def acceptedTable (len : Table (BitVec 8)) (origLen : Count) : Prop :=
  (present len = [] ∧ origLen = 0) ∨ (∃ x, present len = [(x, 1)]) ∨
    (2 ≤ (present len).length ∧ kraft255 len = 2 ^ 255)

/-! ### Trees -/

/-- A code tree: what the arena under a node stands for (R49, R55). -/
inductive Tree where
  | leaf (x : Byte)
  | node (left right : Tree)
deriving DecidableEq, Repr

/-- The symbols of a tree's leaves, left to right. -/
def Tree.symbols : Tree → List Byte
  | .leaf x => [x]
  | .node l r => l.symbols ++ r.symbols

/-- The depth of a tree's deepest leaf. -/
def Tree.height : Tree → Nat
  | .leaf _ => 0
  | .node l r => max l.height r.height + 1

/-- R181, R182: each leaf's path, the left edge 0, the right edge 1, after the path `(v, L)`. -/
def Tree.codes : Tree → Nat → Nat → List LeafCode
  | .leaf x, v, L => [⟨x, v, L⟩]
  | .node l r, v, L => l.codes (2 * v) (L + 1) ++ r.codes (2 * v + 1) (L + 1)

/-- R55: "A single root owns the whole tree": the arena under the node holds the tree. -/
inductive Represents (nodes : Vector Node 511) : NodeIx → Tree → Prop where
  | leaf (i : NodeIx) (x : Byte) (w : Count) (h : nodeAt nodes i = .leaf x w) :
      Represents nodes i (.leaf x)
  | node (i a b : NodeIx) (w : Count) (l r : Tree) (h : nodeAt nodes i = .internal a b w)
      (hl : Represents nodes a l) (hr : Represents nodes b r) : Represents nodes i (.node l r)

/-- R182: "Precondition: TB_BUILD has run": ROOT is NONE, or holds a tree of depth at most 255 (R170)
over distinct symbols (R55). -/
def State.treed (s : State) : Prop :=
  ∀ r, s.root = some r →
    ∃ T, Represents s.node r T ∧ T.height ≤ 255 ∧ T.symbols.Nodup

/-- R161: the byte values with a nonzero count, in ascending order. -/
def countedBytes (freq : Table Count) : List Byte :=
  allBytes.filter fun b => entry freq b ≠ 0

/-- R154: the sum of all counters. -/
def totalCount (freq : Table Count) : Nat :=
  (allBytes.map fun b => (entry freq b).toNat).sum

/-- The entries CT_WALK makes for a tree: R183 gives a single leaf the code of one 0 bit. -/
def Tree.walkCodes : Tree → List LeafCode
  | .leaf x => [⟨x, 0, 1⟩]
  | .node l r => (Tree.node l r).codes 0 0

/-- R182, R183: DEGEN by the tree. -/
def Tree.degen : Tree → Degen
  | .leaf _ => .single
  | .node _ _ => .normal

/-! ### What an operation leaves -/

/-- R132: what a state holds after `S` was pushed onto an empty sink, each full byte written. -/
def State.sank (S : List Bool) (s : State) : State :=
  { s with
    skAcc := BitVec.ofNat 8 (bitsValue 0 (leftBits S))
    skN := Fin.ofNat 8 S.length
    chan := s.chan.wrote (bytesOfBits S) }

/-- R75: how many bytes BitSource fetches to deliver `n` bits. -/
def State.fetches (n : Nat) (s : State) : Nat :=
  (n - s.srN.val + 7) / 8

/-- What a state holds after `n` bits were delivered, none of them past the end (R136, R137). -/
def State.sourced (n : Nat) (s : State) : State :=
  { s with
    srAcc := if s.fetches n = 0 then s.srAcc else s.chan.rest.getD (s.fetches n - 1) 0
    srN := Fin.ofNat 9 (s.srN.val + 8 * s.fetches n - n)
    chan := s.chan.took (s.fetches n) }

/-- R242: what a state holds after `x` was decoded from `n` bits and written. -/
def State.decoded (x : Byte) (n : Nat) (s : State) : State :=
  { s.sourced n with chan := (s.sourced n).chan.wrote [x], pfx := 0, pfxLen := 0 }

/-- What TB_BUILD can change. -/
def State.sameButTree (s t : State) : Prop :=
  t = { s with
    node := t.node, pq := t.pq, nnodes := t.nnodes, root := t.root, nsym := t.nsym, free := t.free }

/-- What TB_BUILD, CT_WALK and CT_CANON can change. -/
def State.sameButTables (s t : State) : Prop :=
  t = { s with
    node := t.node, pq := t.pq, nnodes := t.nnodes, root := t.root, nsym := t.nsym, free := t.free
    tlen := t.tlen, tcode := t.tcode, degen := t.degen, len := t.len, code := t.code }

/-- What encoding can change. -/
def State.sameButEncoding (s t : State) : Prop :=
  t = { s with
    skAcc := t.skAcc, skN := t.skN, emitted := t.emitted
    chan := { s.chan with
      inPos := t.chan.inPos, out := t.chan.out, draws := t.chan.draws, trace := t.chan.trace } }

/-- What decoding can change. -/
def State.sameButDecoding (s t : State) : Prop :=
  t = { s with
    srAcc := t.srAcc, srN := t.srN, pfx := t.pfx, pfxLen := t.pfxLen, emitted := t.emitted
    chan := { s.chan with
      inPos := t.chan.inPos, out := t.chan.out, draws := t.chan.draws, trace := t.chan.trace } }

/-- CODE holds the canonical codes of LEN, whose Kraft sum is at most 1: what LEN_CHECK and CT_CANON
leave. -/
structure Coded (len : Table (BitVec 8)) (code : Table Code) : Prop where
  kraft : kraft255 len ≤ 2 ^ 255
  code : ∀ x, entry len x ≠ 0 → entry code x = entry (canonTable len) x

/-! ### Whole commands -/

/-- R305, R310: the bindings a PACK or UNPACK needs, with every transaction answered Ok (R67). -/
structure Channels.Bound (c : Channels) : Prop where
  start : c.inPos = 0
  same : c.inRewound = none
  opened : c.outClosed = false
  draws : ∀ d ∈ c.draws, d = .ok

/-- The number of distinct byte values. -/
def distinct (xs : List Byte) : Nat :=
  (allBytes.filter fun b => b ∈ xs).length

/-- Operations run one after the other, each to a next state. -/
def runList : List Instr → State → Host.Outcome State Fault Refusal
  | [], s => .next s
  | i :: is, s =>
    match exec i s with
    | .next t => runList is t
    | .fault e => .fault e
    | .refused r => .refused r

/-- `n` steps of the machine. -/
def runSteps : Nat → State → Host.Outcome State Fault Refusal
  | 0, s => .next s
  | n + 1, s =>
    match step s with
    | .next t => runSteps n t
    | .fault e => .fault e
    | .refused r => .refused r

/-! ### The invariant -/

/-- R43, R44: ERR is nonzero exactly when PHASE = ERROR, and ERR_INFO is 0 when ERR is. -/
def State.errOk (s : State) : Prop :=
  (s.err ≠ .none ↔ s.phase = .error) ∧ (s.err = .none → s.errInfo = 0)

/-- R21: "bits SK_ACC[7:SK_N] are zero" between operations. After an error no register is to be relied
on (R272), and a sequencer that waits inside an operation is not between two. -/
def State.sinkOk (s : State) : Prop :=
  s.phase = .error ∨ s.hung = true ∨ s.skAcc.toNat < 2 ^ s.skN.val

/-- R15, R26: (PFX, PFXLEN) is a bit-code, in ERROR by the values kept there (log 24). -/
def State.walkerOk (s : State) : Prop :=
  s.pfx.toNat < 2 ^ s.pfxLen.val

/-- R60: 0 <= IN_POS <= len(IN). -/
def State.inputOk (s : State) : Prop :=
  s.chan.inPos ≤ s.chan.input.length

/-- R49, R50, R55: the members of PQ and ROOT are valid nodes, PQ names none twice (it is listed in
ascending order), and a child's index is smaller than its parent's. With NNODES 0, as after a reset, PQ
is empty (log 2). -/
def State.arenaOk (s : State) : Prop :=
  s.pq.Pairwise (· < ·) ∧ (∀ i ∈ s.pq, i.val < s.nnodes.val) ∧
    (∀ r, s.root = some r → r.val < s.nnodes.val) ∧
    (∀ (i a b : NodeIx) (w : Count), i.val < s.nnodes.val →
      nodeAt s.node i = .internal a b w → a.val < i.val ∧ b.val < i.val)

/-- The invariant every step keeps. -/
def State.Inv (s : State) : Prop :=
  s.errOk ∧ s.sinkOk ∧ s.walkerOk ∧ s.inputOk ∧ s.arenaOk

end Sys2Proof.Machine
end

