-- ==== Sys2Proof/Certificates/Slice0/Obligations.lean ====
section
/-! DEFINITION. What is claimed of the CORE: encoding, reset and the command port, the
micro-operations unit by unit, the container, the two host commands, and what every step keeps.
Each statement about a next state says the whole state: what it does not name is unchanged. -/

open Sys2Proof Sys2Proof.Machine

/-! ### Operations as bytes (30_encoding.md R110 to R116) -/

/-- The bytes of a well-formed operation, whatever follows them, decode to it. The operand bytes are
the model's own (log 4). -/
def Obligations.DecodeOfEncode : Prop :=
  ∀ (i : Instr) (rest : List Byte), i.wellFormed = true → decode (encode i ++ rest) = .ok (i, rest)

/-- Whatever decodes is a well-formed operation, and the bytes it was read from are its encoding: no
operation has a second spelling (log 4). -/
def Obligations.EncodeOfDecode : Prop :=
  ∀ (bytes rest : List Byte) (i : Instr), decode bytes = .ok (i, rest) →
    i.wellFormed = true ∧ bytes = encode i ++ rest

/-- The 23 numbers of R111 and R112 decode to their operations. Where an operation has operands, one
choice of them stands after the number, in the model's own form (log 4). -/
def Obligations.OperationNumbersDecode : Prop :=
  decode [0x01] = .ok (.pack, []) ∧ decode [0x02] = .ok (.unpack, []) ∧
  decode [0x10] = .ok (.skInit, []) ∧
  decode (0x11 :: 0x03 :: List.replicate 31 0x00 ++ [0x05]) = .ok (.wrbits 5 3, []) ∧
  decode [0x12] = .ok (.flush, []) ∧ decode [0x20] = .ok (.srInit, []) ∧
  decode [0x21] = .ok (.rdbit, []) ∧ decode [0x22, 0x40] = .ok (.rdbits 64, []) ∧
  decode [0x30] = .ok (.fqClear, []) ∧ decode [0x31, 0x61] = .ok (.fqCount 0x61, []) ∧
  decode [0x32] = .ok (.fqScan, []) ∧ decode [0x40] = .ok (.tbSeed, []) ∧
  decode [0x41] = .ok (.tbMerge, []) ∧ decode [0x42] = .ok (.tbBuild, []) ∧
  decode [0x50] = .ok (.ctWalk, []) ∧ decode [0x51] = .ok (.ctCanon, []) ∧
  decode [0x60] = .ok (.hdrWrite, []) ∧ decode [0x61] = .ok (.hdrRead, []) ∧
  decode [0x62] = .ok (.lenCheck, []) ∧ decode [0x70, 0xFF] = .ok (.encSym 0xFF, []) ∧
  decode [0x71] = .ok (.encPass, []) ∧ decode [0x80] = .ok (.decSym, []) ∧
  decode [0x81] = .ok (.decLoop, [])

/-- R116: a number that no operation has is refused by name, whatever follows it (log 4). -/
def Obligations.ReservedOperationsRefused : Prop :=
  ∀ (s : State) (number : Byte) (rest : List Byte), (∀ i : Instr, i.number ≠ number) →
    s.issue = number :: rest → s.hung = false → step s = .refused (.reservedNumber number)

/-- A step takes the operation at the front of the issued bytes off them and runs it, whatever PHASE is,
also ERROR: the issued bytes are the model's own (log 4, log 5, log 32). -/
def Obligations.StepRunsIssuedOperation : Prop :=
  ∀ (s : State) (i : Instr) (rest : List Byte), i.wellFormed = true → s.issue = encode i ++ rest →
    s.hung = false → step s = exec i { s with issue := rest }

/-! ### Reset, the command port, the phases (10_state.md, 70_reset_and_hazards.md) -/

/-- R59, R300: the registers after power-on reset, and that nothing runs after it. Of the tables nothing
is said. ID is MAGIC ++ VERSION (R46); that these are the defaults of the open parameters is the
model's choice (log 1), and that no operation and no access of the host waits is, too (log 5, log 22). -/
def Obligations.ResetLeavesTheBlockIdle : Prop :=
  State.reset.phase = .idle ∧ State.reset.err = .none ∧ State.reset.errInfo = 0 ∧
  State.reset.degen = .normal ∧ State.reset.origLen = 0 ∧ State.reset.emitted = 0 ∧
  State.reset.nsym = 0 ∧ State.reset.nnodes = 0 ∧ State.reset.root = none ∧
  State.reset.skAcc = 0 ∧ State.reset.skN = 0 ∧ State.reset.srAcc = 0 ∧ State.reset.srN = 0 ∧
  State.reset.pfx = 0 ∧ State.reset.pfxLen = 0 ∧ State.reset.id = 0x4855464601 ∧
  step State.reset = .next State.reset

/-- The invariant holds after reset. With NNODES 0 its clause on PQ says that PQ is empty, which R59 calls
unspecified: the model's choice (log 2). -/
def Obligations.InvAtReset : Prop :=
  State.reset.Inv

/-- Every step keeps the invariant: ERR is nonzero exactly in ERROR (R43), ERR_INFO is 0 without an
error (R44), the bits of SK_ACC above the pending ones are zero (R21), (PFX, PFXLEN) is a bit-code
(R26), IN_POS stays in the input (R60), the members of PQ and ROOT are allocated nodes and a child
comes before its parent (R49, R50, R55). The clause on SK_ACC is waived in ERROR and while a
transaction waits. That a reset of the host empties PQ, which R59 calls unspecified, is the model's
choice (log 2); that PFX, PFXLEN, PQ, ROOT and NODE meet their clauses in ERROR, too, rests on the
values they keep there, which are the model's (log 24, R272). -/
def Obligations.StepKeepsInv : Prop :=
  ∀ s t : State, s.Inv → step s = .next t → t.Inv

/-- R41, R303: a write of CMD. Where no command runs, 0x01 and 0x02 clear what R303 lists and enter the
first phase; any other value, and any value while a command runs, changes nothing. That NODE, TCODE
and CODE, which R59 calls unspecified there, keep their values is the model's choice (log 3); that an
ignored write is no refusal, against the advice of R115, is, too (log 17). -/
def Obligations.CommandWriteStartsOrIsIgnored : Prop :=
  ∀ (s : State) (value : Byte) (rest : List HostAction), s.issue = [] →
    s.host = .writeRegister 0 value :: rest →
    (s.busy = true → step s = .next { s with host := rest }) ∧
    (value ≠ 0x01 → value ≠ 0x02 → step s = .next { s with host := rest }) ∧
    (s.busy = false → s.hung = false → ∀ first : Phase,
      (value = 0x01 ∧ first = .pCount) ∨ (value = 0x02 ∧ first = .uHeader) →
      step s = .next { s with
        host := rest
        err := .none, errInfo := 0, degen := .normal
        origLen := 0, emitted := 0, nsym := 0
        nnodes := 0, root := none, pq := []
        pfx := 0, pfxLen := 0
        tlen := Vector.replicate 256 0, len := Vector.replicate 256 0
        skAcc := 0, skN := 0, srAcc := 0, srN := 0
        freq := Vector.replicate 256 0
        phase := first, sub := 0 })

/-- R40, R42, R46, R64, R305: the host's accesses other than a write of CMD and a reset. What it reads
from each register; a read has no side effect and a write of any register but CMD is ignored (log
18). Where no command runs, binding an input places it at its first byte, and binding an output gives
an empty, open one; the draws and the transactions made are kept. `busData` is the model's own field,
and that a binding while a command runs, or while a transaction waits, is refused is the model's
choice (log 22), as is an input that differs after a rewind (log 23). -/
def Obligations.HostAccesses : Prop :=
  ∀ (s : State) (rest : List HostAction), (s.issue = [] ∨ s.hung = true) →
    (∀ (number : Nat) (value : Byte), number ≠ 0 → s.host = .writeRegister number value :: rest →
      step s = .next { s with host := rest }) ∧
    (∀ number : Nat, s.host = .readRegister number :: rest → ∃ d : BitVec 64,
      step s = .next { s with host := rest, busData := d } ∧
      (number = 1 → d.toNat = (if 1 ≤ s.phase.number.toNat ∧ s.phase.number.toNat ≤ 11 then 1 else 0)
        + (if s.phase = .done then 2 else 0) + (if s.phase = .error then 4 else 0)
        + 16 * s.degen.number.toNat + 256 * s.phase.number.toNat) ∧
      (number = 2 → d.toNat = s.err.number.toNat) ∧ (number = 3 → d.toNat = s.errInfo.toNat) ∧
      (number = 4 → d = s.origLen) ∧ (number = 5 → d = s.emitted) ∧
      (number = 6 → d.toNat = s.nsym.val) ∧ (number = 7 → d.toNat = s.id.toNat) ∧
      (number = 0 ∨ 7 < number → d = 0)) ∧
    (∀ (bytes : List Byte) (rewound : Option (List Byte)), s.host = .bindInput bytes rewound :: rest →
      (s.accepts = true → step s = .next { s with
        host := rest
        chan := { s.chan with input := bytes, inPos := 0, inRewound := rewound } }) ∧
      (s.accepts = false → step s = .refused .boundWhileBusy)) ∧
    (s.host = .bindOutput :: rest →
      (s.accepts = true → step s = .next { s with
        host := rest, chan := { s.chan with out := [], outClosed := false } }) ∧
      (s.accepts = false → step s = .refused .boundWhileBusy))

/-- R301, R302: a reset abandons the command: the registers take their power-on values, the channels
are left as they are, and what runs next is nothing. That the tables but PQ keep their values is the
model's choice (log 2); that the issued operations are dropped, too (log 27). -/
def Obligations.HostResetAbandonsTheCommand : Prop :=
  ∀ (s : State) (rest : List HostAction), s.host = .reset :: rest → (s.issue = [] ∨ s.hung = true) →
    ∃ t, step s = .next t ∧
      t = { s with
        host := rest, phase := .idle, sub := 0, hung := false, issue := [], result := .none
        err := .none, errInfo := 0, degen := .normal, origLen := 0, emitted := 0, nsym := 0
        nnodes := 0, root := none, pq := [], skAcc := 0, skN := 0, srAcc := 0, srN := 0
        pfx := 0, pfxLen := 0 } ∧
      (rest = [] → step t = .next t)

/-- R304: in DONE and in ERROR (and in IDLE, R300) the block stays as it is until the host acts, whether
the host has nothing more to do or lets a step pass. -/
def Obligations.BlockWaitsForTheHost : Prop :=
  ∀ s : State, s.issue = [] → s.phase = .idle ∨ s.phase = .done ∨ s.phase = .error →
    (s.host = [] → step s = .next s) ∧
    ∀ rest, s.host = .wait :: rest → step s = .next { s with host := rest }

/-- R31: a step of the sequencer, made where the host has no access to make or lets a step pass, keeps
PHASE, moves it forward to the next phase of the command, or moves it to ERROR. -/
def Obligations.PhaseMovesForward : Prop :=
  ∀ s t : State, s.issue = [] → s.host.headD .wait = .wait → step s = .next t →
    t.phase = s.phase ∨ (s.busy = true ∧ t.phase = .error) ∨
    (s.phase, t.phase) ∈ [(Phase.pCount, Phase.pBuild), (.pBuild, .pHeader), (.pHeader, .pRewind),
      (.pRewind, .pEncode), (.pEncode, .pFinish), (.pFinish, .done), (.uHeader, .uBuild),
      (.uBuild, .uDecode), (.uDecode, .uFinish), (.uFinish, .done)]

/-- R46, R64: no step changes ID; unless the host binds a new output, OUT only grows; the transactions
made stay made (R70). -/
def Obligations.StepOnlyAppendsToOutput : Prop :=
  ∀ s t : State, step s = .next t →
    t.id = s.id ∧ s.chan.trace <:+ t.chan.trace ∧
    ((∀ rest, s.host ≠ .bindOutput :: rest) → s.chan.out <+: t.chan.out)

/-- R80: no step of the sequencer in the phases that use the codes, made where the host has no access to
make or lets a step pass, writes a table. -/
def Obligations.TablesAreReadOnlyWhileUsed : Prop :=
  ∀ s t : State, s.issue = [] → s.host.headD .wait = .wait → step s = .next t →
    s.phase ∈ [Phase.pHeader, .pRewind, .pEncode, .pFinish, .uDecode, .uFinish] →
    t.freq = s.freq ∧ t.node = s.node ∧ t.pq = s.pq ∧ t.tlen = s.tlen ∧ t.tcode = s.tcode ∧
      t.len = s.len ∧ t.code = s.code

/-! ### BitSink and BitSource (40_bitio.md) -/

/-- R131, R135: SK_INIT and SR_INIT, from any state; SR_INIT reads nothing from the channel. -/
def Obligations.InitEmptiesSinkAndSource : Prop :=
  ∀ s : State, exec .skInit s = .next { s with skAcc := 0, skN := 0 } ∧
    exec .srInit s = .next { s with srAcc := 0, srN := 0 }

/-- R132, R133: WRBITS with Ok transactions writes a byte for every eight of the pending bits and the
new ones, the oldest first, and leaves the others pending. That an operand outside R113 is refused is
the model's choice (log 25). -/
def Obligations.WrbitsAppendsTheCode : Prop :=
  ∀ (v L : Nat) (s : State),
    ((255 < L ∨ 2 ^ L ≤ v) → exec (.wrbits v L) s = .refused .operandOutOfRange) ∧
    (L ≤ 255 → v < 2 ^ L → s.skAcc.toNat < 2 ^ s.skN.val → s.chan.outClosed = false →
      s.chan.okFor ((s.skN.val + L) / 8) →
      exec (.wrbits v L) s = .next (s.sank (s.pending ++ codeBits v L)) ∧
      (s.sank (s.pending ++ codeBits v L)).pending = leftBits (s.pending ++ codeBits v L))

/-- R132, R262, R270: where the OutWrite of the j-th byte answers Fail, WRBITS raises IoFailure(3): the
bytes before it stay written, it may or may not be there (R65), and nothing follows it. SK_ACC and
SK_N are not said (log 10); that the other registers and the tables keep their values, of which R272
lets no claim about the hardware be made, is the model's (log 24). -/
def Obligations.WrbitsStopsAtAFailedWrite : Prop :=
  ∀ (v L j : Nat) (landed : Bool) (s : State), L ≤ 255 → v < 2 ^ L →
    s.skAcc.toNat < 2 ^ s.skN.val → s.chan.outClosed = false → j < (s.skN.val + L) / 8 →
    s.chan.okFor j → s.chan.draws[j]? = some (.fail landed) →
    ∃ t, exec (.wrbits v L) s = .next t ∧
      t = { s with
        err := .ioFailure, errInfo := 3, phase := .error, sub := 0
        skAcc := t.skAcc, skN := t.skN, free := t.free
        chan := { s.chan with
          out := s.chan.out ++ (bytesOfBits (s.pending ++ codeBits v L)).take (if landed then j + 1 else j)
          draws := s.chan.draws.drop (j + 1)
          trace := (((bytesOfBits (s.pending ++ codeBits v L)).drop j).take 1).map
              (fun b => Transaction.outWrite b .fail)
            ++ (((bytesOfBits (s.pending ++ codeBits v L)).take j).map
              fun b => Transaction.outWrite b .ok).reverse ++ s.chan.trace } }

/-- R139 (c): two bit-codes one after the other are one bit-code, also where a later OutWrite fails: what
the registers then hold is the model's (log 10, log 24). -/
def Obligations.WrbitsConcatenates : Prop :=
  ∀ (v₁ v₂ L₁ L₂ : Nat) (s t : State), L₁ + L₂ ≤ 255 → v₁ < 2 ^ L₁ → v₂ < 2 ^ L₂ →
    s.skAcc.toNat < 2 ^ s.skN.val → s.chan.outClosed = false →
    s.chan.okFor ((s.skN.val + L₁) / 8) → exec (.wrbits v₁ L₁) s = .next t →
    exec (.wrbits v₂ L₂) t = exec (.wrbits (v₁ * 2 ^ L₂ + v₂) (L₁ + L₂)) s

/-- R134: FLUSH writes one byte, the pending bits in its high positions and zeros below, where bits are
pending, and none where none is; a Fail answer is IoFailure(3). That the registers and the tables
keep their values after it is the model's (log 24, R272). -/
def Obligations.FlushPadsTheLastByte : Prop :=
  ∀ s : State,
    (s.skN = 0 → exec .flush s = .next s) ∧
    (s.skN ≠ 0 → s.chan.outClosed = false → s.chan.draw = .ok →
      ∃ b : Byte, byteBits b = s.pending ++ List.replicate (8 - s.skN.val) false ∧
        exec .flush s = .next { s with skAcc := 0, skN := 0, chan := s.chan.wrote [b] }) ∧
    (∀ landed, s.skN ≠ 0 → s.chan.outClosed = false → s.chan.draw = .fail landed →
      ∃ b : Byte, byteBits b = s.pending ++ List.replicate (8 - s.skN.val) false ∧
        exec .flush s = .next { s with
          err := .ioFailure, errInfo := 3, phase := .error, sub := 0
          chan := { s.chan with
            out := if landed then s.chan.out ++ [b] else s.chan.out
            draws := s.chan.draws.tail, trace := .outWrite b .fail :: s.chan.trace } })

/-- R136: RDBIT delivers the next bit of SR_ACC, or fetches a byte where none is left; at the end of the
channel it delivers EOS and changes no register; a Fail answer is IoFailure(1). The delivered
bit stands in `result`, the model's own field (log 19). That the registers and the tables keep their values
after the error is the model's (log 24, R272). -/
def Obligations.RdbitDeliversTheNextBit : Prop :=
  ∀ s : State,
    (∀ n, s.srN.val = n + 1 → exec .rdbit s =
      .next { s with srN := Fin.ofNat 9 n, result := .bit (s.srAcc.getLsbD n) }) ∧
    (∀ b bs, s.srN = 0 → s.chan.draw = .ok → s.chan.rest = b :: bs → exec .rdbit s =
      .next { s with srAcc := b, srN := 7, chan := s.chan.took 1, result := .bit (b.getLsbD 7) }) ∧
    (s.srN = 0 → s.chan.draw = .ok → s.chan.rest = [] → exec .rdbit s =
      .next { s with chan := s.chan.metEnd, result := .eos }) ∧
    (∀ landed, s.srN = 0 → s.chan.draw = .fail landed → exec .rdbit s =
      .next { s with
        err := .ioFailure, errInfo := 1, phase := .error, sub := 0
        chan := { s.chan with draws := s.chan.draws.tail, trace := .inRead .fail :: s.chan.trace } })

/-- R137, R75, R102: RDBITS delivers the number the next n bits stand for, the first one most
significant, and fetches ceil((n - SR_N) / 8) bytes for them, no more. The value stands in `result`
(log 19). That a count above 64 is refused is the model's choice (log 25). -/
def Obligations.RdbitsReadsAValue : Prop :=
  ∀ (n : Nat) (s : State),
    (64 < n → exec (.rdbits n) s = .refused .operandOutOfRange) ∧
    (n ≤ 64 → n ≤ s.bitStream.length → s.chan.okFor (s.fetches n) →
      exec (.rdbits n) s = .next { s.sourced n with
        result := .value (bitsValue 0 (s.bitStream.take n)) } ∧
      (s.sourced n).bitStream = s.bitStream.drop n)

/-- R138: where fewer than n bits remain RDBITS delivers EOS and the bits it consumed are lost: SR_N is
0 and the input is at its end. -/
def Obligations.RdbitsLosesAShortValue : Prop :=
  ∀ (n : Nat) (s : State), n ≤ 64 → s.bitStream.length < n → s.chan.okFor (s.chan.rest.length + 1) →
    ∃ t, exec (.rdbits n) s = .next t ∧ t.srN = 0 ∧
      t = { s with
        srAcc := t.srAcc, srN := t.srN, result := .eos
        chan := (s.chan.took s.chan.rest.length).metEnd }

/-- R139 (a): what WRBITS and FLUSH write, RDBIT reads: the T written bits in order, then zero bits up
to a full byte, then EOS. -/
def Obligations.BitSourceReadsBackBitSink : Prop :=
  ∀ (codes : List (Nat × Nat)) (s : State), (∀ c ∈ codes, c.2 ≤ 255 ∧ c.1 < 2 ^ c.2) →
    s.skAcc = 0 → s.skN = 0 → s.chan.outClosed = false → (∀ d ∈ s.chan.draws, d = .ok) →
    ∃ t F, runList (codes.map (fun c => .wrbits c.1 c.2) ++ [.flush]) s = .next t ∧
      t.chan.out = s.chan.out ++ F ∧
      F.length = ((codes.map Prod.snd).sum + 7) / 8 ∧
      ∀ u : State, u.srN = 0 → u.chan.rest = F → (∀ d ∈ u.chan.draws, d = .ok) →
        (∀ k < 8 * F.length, ∃ w, runList (List.replicate (k + 1) .rdbit) u = .next w ∧
          w.result = .bit ((codes.flatMap fun c => codeBits c.1 c.2).getD k false)) ∧
        ∃ w, runList (List.replicate (8 * F.length + 1) .rdbit) u = .next w ∧ w.result = .eos

/-! ### FrequencyTable (41_frequency.md) -/

/-- R150, R151, R152: FQ_CLEAR, and FQ_COUNT, which adds one to its byte's counter within the envelope of
R152; outside it that counter alone is a free value (log 11). -/
def Obligations.CountersClearAndCount : Prop :=
  ∀ s : State,
    (∃ t, exec .fqClear s = .next t ∧ (∀ b, entry t.freq b = 0) ∧ t = { s with freq := t.freq }) ∧
    ∀ b : Byte, ∃ t, exec (.fqCount b) s = .next t ∧
      (∀ c, c ≠ b → entry t.freq c = entry s.freq c) ∧
      t = { s with freq := t.freq, free := t.free } ∧
      ((entry s.freq b).toNat + 1 < 2 ^ 64 →
        (entry t.freq b).toNat = (entry s.freq b).toNat + 1 ∧ t.free = s.free)

/-- R153, R154: FQ_SCAN with Ok transactions reads to the end of the input, one InRead a byte and one
for EOS, and counts each byte and all of them; from cleared counters their sum is ORIG_LEN. -/
def Obligations.FqScanCountsTheInput : Prop :=
  ∀ s : State, s.chan.okFor (s.chan.rest.length + 1) →
    (∀ b, (entry s.freq b).toNat + s.chan.rest.count b < 2 ^ 64) →
    s.origLen.toNat + s.chan.rest.length < 2 ^ 64 →
    ∃ t, exec .fqScan s = .next t ∧
      (∀ b, (entry t.freq b).toNat = (entry s.freq b).toNat + s.chan.rest.count b) ∧
      t.origLen.toNat = s.origLen.toNat + s.chan.rest.length ∧
      t = { s with
        freq := t.freq, origLen := t.origLen
        chan := (s.chan.took s.chan.rest.length).metEnd } ∧
      ((∀ b, entry s.freq b = 0) → s.origLen = 0 → totalCount t.freq = t.origLen.toNat)

/-! ### TreeBuilder (42_treebuilder.md) -/

/-- R161: TB_SEED, from any state: one leaf per byte value with a nonzero counter, in ascending order,
all of them in PQ. That the entries of NODE from the new NNODES on, which R49 calls unspecified, keep
their values is the model's choice (log 3). -/
def Obligations.TbSeedPlacesTheLeaves : Prop :=
  ∀ s : State, ∃ t, exec .tbSeed s = .next t ∧
    t = { s with node := t.node, pq := t.pq, root := none, nnodes := t.nnodes, nsym := t.nsym } ∧
    t.nnodes.val = (countedBytes s.freq).length ∧ t.nsym.val = (countedBytes s.freq).length ∧
    t.pq.map Fin.val = List.range (countedBytes s.freq).length ∧
    (∀ i : NodeIx, ∀ b, (countedBytes s.freq)[i.val]? = some b →
      nodeAt t.node i = .leaf b (entry s.freq b)) ∧
    (∀ i : NodeIx, (countedBytes s.freq).length ≤ i.val → nodeAt t.node i = nodeAt s.node i)

/-- R162, R164, R165: TB_MERGE takes the two lowest members out of PQ, the first as left and the second
as right child of a new node, which joins PQ. Lower is: a smaller weight, or the same and a smaller
index. The weight is the sum within R169's envelope, else a free value (log 11). Outside its
precondition it stops by name, the model's choice (log 14); that the entries of NODE after the new one
keep their values is, too (log 3). -/
def Obligations.TbMergeJoinsTheTwoLowest : Prop :=
  ∀ s : State,
    (s.pq.length < 2 → exec .tbMerge s = .refused .mergeNeedsTwoNodes) ∧
    (2 ≤ s.pq.length → s.nnodes.val = 511 → exec .tbMerge s = .fault .nodeArenaFull) ∧
    (2 ≤ s.pq.length → s.nnodes.val < 511 →
      ∃ (a b i : NodeIx) (w : Count) (f : Nat),
        a ∈ s.pq ∧ b ∈ s.pq.erase a ∧ i.val = s.nnodes.val ∧
        (∀ x ∈ s.pq, x = a ∨ (nodeAt s.node a).weight.toNat < (nodeAt s.node x).weight.toNat ∨
          ((nodeAt s.node a).weight = (nodeAt s.node x).weight ∧ a.val < x.val)) ∧
        (∀ x ∈ s.pq.erase a, x = b ∨
          (nodeAt s.node b).weight.toNat < (nodeAt s.node x).weight.toNat ∨
          ((nodeAt s.node b).weight = (nodeAt s.node x).weight ∧ b.val < x.val)) ∧
        ((nodeAt s.node a).weight.toNat + (nodeAt s.node b).weight.toNat < 2 ^ 64 →
          w.toNat = (nodeAt s.node a).weight.toNat + (nodeAt s.node b).weight.toNat ∧ f = s.free) ∧
        exec .tbMerge s = .next { s with
          node := s.node.set i.val (.internal a b w) i.isLt
          pq := (s.pq.erase a).erase b ++ [i]
          nnodes := Fin.ofNat 512 (s.nnodes.val + 1), free := f })

/-- R55, R166 to R170: TB_BUILD, from any state, is TB_SEED, then TB_MERGE NSYM - 1 times, until PQ has at
most one member, which becomes ROOT. With no counted byte there is no tree; else one root holds a tree
in which every counted byte has exactly one leaf, of 2 * NSYM - 1 nodes, ROOT the last, no leaf deeper
than NSYM - 1; the weights are the sums, and the root's is the sum of all counters. The entries of NODE
beyond NNODES are, through TB_SEED and TB_MERGE, the model's choice (log 3). -/
def Obligations.TbBuildMakesOneTree : Prop :=
  ∀ s : State, ∃ t, exec .tbBuild s = .next t ∧ s.sameButTree t ∧
    (∃ u, runList (.tbSeed :: List.replicate ((countedBytes s.freq).length - 1) .tbMerge) s = .next u ∧
      u.pq.length ≤ 1 ∧ t = { u with root := u.pq.head? }) ∧
    t.nsym.val = (countedBytes s.freq).length ∧
    (countedBytes s.freq = [] → t.root = none ∧ t.nnodes = 0 ∧ t.pq = []) ∧
    (countedBytes s.freq ≠ [] → ∃ r T, t.root = some r ∧ t.pq = [r] ∧
      t.nnodes.val = 2 * (countedBytes s.freq).length - 1 ∧ r.val + 1 = t.nnodes.val ∧
      Represents t.node r T ∧ T.symbols.Perm (countedBytes s.freq) ∧
      T.height ≤ (countedBytes s.freq).length - 1 ∧
      (totalCount s.freq < 2 ^ 64 → t.free = s.free ∧
        (nodeAt t.node r).weight.toNat = totalCount s.freq ∧
        ∀ (i a b : NodeIx) (w : Count), i.val < t.nnodes.val → nodeAt t.node i = .internal a b w →
          w.toNat = (nodeAt t.node a).weight.toNat + (nodeAt t.node b).weight.toNat))

/-- R55: after TB_BUILD every node but ROOT is the child of exactly one node, a later one. -/
def Obligations.TreeNodesHaveOneParent : Prop :=
  ∀ (s t : State) (r j : NodeIx), exec .tbBuild s = .next t → t.root = some r →
    j.val < t.nnodes.val → j ≠ r →
    ∃ i : NodeIx, j.val < i.val ∧ i.val < t.nnodes.val ∧
      (∃ a b w, nodeAt t.node i = .internal a b w ∧ (j = a ∨ j = b)) ∧
      ∀ i' : NodeIx, i'.val < t.nnodes.val →
        (∃ a b w, nodeAt t.node i' = .internal a b w ∧ (j = a ∨ j = b)) → i' = i

/-- R171: within the envelope of R169 the tree is a function of FREQ alone. -/
def Obligations.TbBuildIsAFunctionOfFreq : Prop :=
  ∀ s s' : State, s.freq = s'.freq → totalCount s.freq < 2 ^ 64 →
    ∃ t t', exec .tbBuild s = .next t ∧ exec .tbBuild s' = .next t' ∧ t.root = t'.root ∧
      t.nnodes = t'.nnodes ∧ t.nsym = t'.nsym ∧
      ∀ i : NodeIx, i.val < t.nnodes.val → nodeAt t.node i = nodeAt t'.node i

/-! ### CodeTable (43_codetable.md) -/

/-- R181 to R184: CT_WALK gives each leaf's symbol its path, left 0 and right 1, as the tree code and its
depth as the length; a single leaf gets the code of one 0 bit; a symbol with no leaf has length 0. That
TCODE of such a symbol, which R51 calls unspecified, keeps its value is the model's choice (log 3). -/
def Obligations.CtWalkRecordsThePaths : Prop :=
  ∀ s : State, s.treed → ∃ t, exec .ctWalk s = .next t ∧
    t = { s with tlen := t.tlen, tcode := t.tcode, degen := t.degen, len := t.tlen } ∧
    (s.root = none → t.degen = .empty ∧ t.tcode = s.tcode ∧ ∀ x, entry t.tlen x = 0) ∧
    ∀ r T, s.root = some r → Represents s.node r T →
      t.degen = T.degen ∧
      (∀ c ∈ T.walkCodes,
        (entry t.tlen c.sym).toNat = c.L ∧ (entry t.tcode c.sym).toNat = c.v) ∧
      (∀ x, x ∉ T.symbols → entry t.tlen x = 0 ∧ entry t.tcode x = entry s.tcode x)

/-- R184, R186, R192: the lengths TB_BUILD and CT_WALK leave, from any state: exactly the counted bytes
have one; the Kraft sum is 1 for two or more symbols, 1/2 for one, 0 for none; none exceeds
NSYM - 1 where there are two or more. -/
def Obligations.TreeLengthsFillTheCodeSpace : Prop :=
  ∀ s : State, ∃ t, runList [.tbBuild, .ctWalk] s = .next t ∧
    (∀ x, entry t.len x ≠ 0 ↔ entry s.freq x ≠ 0) ∧
    ((countedBytes s.freq).length = 0 → kraft255 t.len = 0) ∧
    ((countedBytes s.freq).length = 1 → kraft255 t.len = 2 ^ 254) ∧
    (2 ≤ (countedBytes s.freq).length → kraft255 t.len = 2 ^ 255 ∧
      ∀ x, (entry t.len x).toNat ≤ (countedBytes s.freq).length - 1)

/-- R185: no tree code is a prefix of another symbol's. -/
def Obligations.TreeCodesArePrefixFree : Prop :=
  ∀ (s t : State) (x y : Byte), runList [.tbBuild, .ctWalk] s = .next t → x ≠ y →
    entry t.tlen x ≠ 0 → entry t.tlen y ≠ 0 →
    isPrefixCode (entry t.tcode x).toNat (entry t.tlen x).toNat
      (entry t.tcode y).toNat (entry t.tlen y).toNat = false

/-- R187 to R189: CT_CANON on a table with a Kraft sum of at most 1. The present symbols in canonical
order are `order`; the first has code 0, each next one `(code + 1) << (length difference)`. That CODE of
an absent symbol, which R53 calls unspecified, is untouched is the model's choice where another symbol
is present (log 3; with none R188 says so). Above 1 the codes are free values (log 12). -/
def Obligations.CtCanonAssignsInCanonicalOrder : Prop :=
  ∀ s : State, ∃ t, exec .ctCanon s = .next t ∧
    t = { s with code := t.code, free := t.free } ∧
    (∀ x, entry s.len x = 0 → entry t.code x = entry s.code x) ∧
    (kraft255 s.len ≤ 2 ^ 255 → t.free = s.free ∧
      ∃ order : List Byte, (∀ x, x ∈ order ↔ entry s.len x ≠ 0) ∧
        order.Pairwise (fun x y => (entry s.len x).toNat < (entry s.len y).toNat ∨
          (entry s.len x = entry s.len y ∧ x.toNat < y.toNat)) ∧
        (∀ x, order[0]? = some x → entry t.code x = 0) ∧
        ∀ n x y, order[n]? = some x → order[n + 1]? = some y →
          (entry t.code y).toNat = ((entry t.code x).toNat + 1)
            * 2 ^ ((entry s.len y).toNat - (entry s.len x).toNat))

/-- R53, R189, R190: CT_CANON on a table with a Kraft sum of at most 1 gives every present symbol a
bit-code, and none is a prefix of another's; so DEC is well defined (R54). -/
def Obligations.CanonicalCodesArePrefixFree : Prop :=
  ∀ s t : State, kraft255 s.len ≤ 2 ^ 255 → exec .ctCanon s = .next t →
    ∀ x, entry t.len x ≠ 0 → (entry t.code x).toNat < 2 ^ (entry t.len x).toNat ∧
      decSymbol (entry t.code x).toNat (entry t.len x).toNat t = some x ∧
      ∀ y, y ≠ x → entry t.len y ≠ 0 →
        isPrefixCode (entry t.code x).toNat (entry t.len x).toNat
          (entry t.code y).toNat (entry t.len y).toNat = false

/-- R191: CT_CANON is a function of LEN alone: two blocks with the same LEN hold the same code for every
present symbol. -/
def Obligations.CtCanonReadsLenAlone : Prop :=
  ∀ s s' : State, s.len = s'.len → kraft255 s.len ≤ 2 ^ 255 →
    ∃ t t', exec .ctCanon s = .next t ∧ exec .ctCanon s' = .next t' ∧
      ∀ x, entry s.len x ≠ 0 → entry t.code x = entry t'.code x

/-! ### FormatCodec (44_formatcodec.md) and the container (30_encoding.md R90 to R97) -/

/-- R90 to R97: the fields of the header at their offsets, big-endian, and bit j of the payload string
in byte floor(j / 8), at bit position 7 - (j mod 8), the last byte padded with zero bits. -/
def Obligations.ContainerLayout : Prop :=
  ∀ (id : BitVec 40) (n : Count) (len : Table (BitVec 8)) (xs : List Byte),
    (headerBytes id n len).length = 269 ∧
    natOfBytes ((headerBytes id n len).take 4) = id.toNat / 2 ^ 8 ∧
    (headerBytes id n len)[4]? = some (BitVec.ofNat 8 id.toNat) ∧
    natOfBytes (((headerBytes id n len).drop 5).take 8) = n.toNat ∧
    (∀ x : Byte, (headerBytes id n len)[13 + x.toNat]? = some (entry len x)) ∧
    (payloadBits len xs).length = (xs.map fun x => (entry len x).toNat).sum ∧
    (payloadBytes len xs).length = ((payloadBits len xs).length + 7) / 8 ∧
    ∀ (j : Nat) (b : Byte), (payloadBytes len xs)[j / 8]? = some b →
      b.getLsbD (7 - j % 8) = (payloadBits len xs).getD j false

/-- R201, R222: HDR_WRITE from an empty sink writes the 269 bytes of the header and leaves the sink
empty. -/
def Obligations.HdrWriteWritesTheHeader : Prop :=
  ∀ s : State, s.skAcc = 0 → s.skN = 0 → s.chan.outClosed = false → s.chan.okFor 269 →
    exec .hdrWrite s = .next { s with chan := s.chan.wrote (headerBytes s.id s.origLen s.len) }

/-- R202, R204, R205, R209: HDR_READ reads back the ORIG_LEN and the LEN of a header with the block's
own MAGIC and VERSION, whatever they are, with 269 InReads, and leaves the source empty. -/
def Obligations.HdrReadRestoresTheHeader : Prop :=
  ∀ (s : State) (n : Count) (len : Table (BitVec 8)) (more : List Byte), s.srN = 0 →
    s.chan.rest = headerBytes s.id n len ++ more → s.chan.okFor 269 →
    exec .hdrRead s = .next { s with
      origLen := n, len := len, srAcc := entry len 0xFF, srN := 0, chan := s.chan.took 269 }

/-- R202, R203, R275: HDR_READ stops at a magic other than its own after exactly four InReads, also where
nothing follows it, and at another version after exactly five, with FormatError(2) and FormatError(3).
What SR_ACC and the other registers and tables hold after the error is the model's (log 24, R272). -/
def Obligations.HdrReadRejectsAnotherFormat : Prop :=
  ∀ (s : State) (m : List Byte), s.srN = 0 → m.length = 4 →
    (∀ more : List Byte, s.chan.rest = m ++ more → s.chan.okFor 4 → natOfBytes m ≠ s.magic.toNat →
      exec .hdrRead s = .next { s with
        err := .formatError, errInfo := 2, phase := .error, sub := 0
        srAcc := m.getD 3 0, srN := 0, chan := s.chan.took 4 }) ∧
    (∀ (v : Byte) (more : List Byte), s.chan.rest = m ++ v :: more → s.chan.okFor 5 →
      natOfBytes m = s.magic.toNat → v ≠ s.version →
      exec .hdrRead s = .next { s with
        err := .formatError, errInfo := 3, phase := .error, sub := 0
        srAcc := v, srN := 0, chan := s.chan.took 5 })

/-- R206: HDR_READ of fewer than four bytes, or of a proper part of a header with the block's own MAGIC
and VERSION, raises FormatError(1) after an InRead that answered EOS. What it leaves in ORIG_LEN, LEN
and SR_ACC is not said; SR_N and the other registers and tables after the error are the model's (log
24, R272). -/
def Obligations.HdrReadRejectsAShortHeader : Prop :=
  ∀ (s : State) (n : Count) (len : Table (BitVec 8)), s.srN = 0 →
    (s.chan.rest.length < 4 ∨
      (s.chan.rest <+: headerBytes s.id n len ∧ s.chan.rest.length < 269)) →
    s.chan.okFor (s.chan.rest.length + 1) →
    ∃ t, exec .hdrRead s = .next t ∧
      t = { s with
        err := .formatError, errInfo := 1, phase := .error, sub := 0
        srAcc := t.srAcc, srN := 0, origLen := t.origLen, len := t.len
        chan := (s.chan.took s.chan.rest.length).metEnd }

/-- R207: LEN_CHECK, from any state: NSYM is the number of nonzero lengths; it accepts the all-zero table
with ORIG_LEN = 0, one nonzero length that is 1, and two or more with a Kraft sum of exactly 1, and
sets DEGEN; every other table raises the FormatError of its row. What NSYM, DEGEN and the other
registers and tables hold after an error is the model's (log 24, R272). -/
def Obligations.LenCheckAcceptsExactly : Prop :=
  ∀ s : State,
    ((present s.len).length = 0 → s.origLen = 0 →
      exec .lenCheck s = .next { s with nsym := 0, degen := .empty }) ∧
    ((present s.len).length = 0 → s.origLen ≠ 0 →
      exec .lenCheck s = .next { s with
        nsym := 0, err := .formatError, errInfo := 4, phase := .error, sub := 0 }) ∧
    (∀ x, present s.len = [(x, 1)] →
      exec .lenCheck s = .next { s with nsym := 1, degen := .single }) ∧
    (∀ x l, present s.len = [(x, l)] → l ≠ 1 →
      exec .lenCheck s = .next { s with
        nsym := 1, err := .formatError, errInfo := 5, phase := .error, sub := 0 }) ∧
    (2 ≤ (present s.len).length → 2 ^ 255 < kraft255 s.len →
      exec .lenCheck s = .next { s with
        nsym := Fin.ofNat 257 (present s.len).length
        err := .formatError, errInfo := 6, phase := .error, sub := 0 }) ∧
    (2 ≤ (present s.len).length → kraft255 s.len < 2 ^ 255 →
      exec .lenCheck s = .next { s with
        nsym := Fin.ofNat 257 (present s.len).length
        err := .formatError, errInfo := 7, phase := .error, sub := 0 }) ∧
    (2 ≤ (present s.len).length → kraft255 s.len = 2 ^ 255 →
      exec .lenCheck s = .next { s with
        nsym := Fin.ofNat 257 (present s.len).length, degen := .normal })

/-! ### Packer (45_packer.md) -/

/-- R227, R225: ENC_SYM writes the code of its byte; a byte with no code raises IoFailure(5) and nothing
is written. That the registers and the tables keep their values after the error is the model's (log
24, R272), and so is what is written where CODE holds no bit-code of that length (log 30). -/
def Obligations.EncSymWritesTheCode : Prop :=
  ∀ (b : Byte) (s : State),
    (entry s.len b = 0 → exec (.encSym b) s =
      .next { s with err := .ioFailure, errInfo := 5, phase := .error, sub := 0 }) ∧
    (entry s.len b ≠ 0 → s.skAcc.toNat < 2 ^ s.skN.val → s.chan.outClosed = false →
      s.chan.okFor ((s.skN.val + (entry s.len b).toNat) / 8) →
      exec (.encSym b) s = .next
        (s.sank (s.pending ++ codeBits (entry s.code b).toNat (entry s.len b).toNat)))

/-- R224: ENC_PASS over an input of ORIG_LEN bytes, each with a canonical code, with Ok transactions:
the payload bits follow the pending ones, EMITTED is ORIG_LEN, the input is read to EOS. -/
def Obligations.EncPassWritesThePayload : Prop :=
  ∀ s : State, Coded s.len s.code → (∀ x ∈ s.chan.rest, entry s.len x ≠ 0) →
    s.skAcc.toNat < 2 ^ s.skN.val → s.chan.outClosed = false → (∀ d ∈ s.chan.draws, d = .ok) →
    s.chan.rest.length = s.origLen.toNat →
    ∃ t, exec .encPass s = .next t ∧ s.sameButEncoding t ∧ t.emitted = s.origLen ∧
      t.chan.out = s.chan.out ++ bytesOfBits (s.pending ++ payloadBits s.len s.chan.rest) ∧
      t.pending = leftBits (s.pending ++ payloadBits s.len s.chan.rest) ∧
      t.chan.inPos = s.chan.inPos + s.chan.rest.length

/-- R225: the two differences from pass 1 that ENC_PASS detects. A byte with no code raises IoFailure(5)
after the bytes before it were encoded; another number of bytes raises IoFailure(6) at the end. An
input of the same length over symbols with codes is not detected (R78): EncPassWritesThePayload holds
of it. What EMITTED holds after the error is the model's (log 24, R272). -/
def Obligations.EncPassDetectsAbsentByteOrOtherCount : Prop :=
  ∀ (s : State) (xs : List Byte), Coded s.len s.code → (∀ x ∈ xs, entry s.len x ≠ 0) →
    xs.length < 2 ^ 64 → s.skAcc.toNat < 2 ^ s.skN.val → s.chan.outClosed = false →
    (∀ d ∈ s.chan.draws, d = .ok) →
    (∀ y ys, s.chan.rest = xs ++ y :: ys → entry s.len y = 0 →
      ∃ t, exec .encPass s = .next t ∧ t.phase = .error ∧ t.err = .ioFailure ∧ t.errInfo = 5 ∧
        t.chan.out = s.chan.out ++ bytesOfBits (s.pending ++ payloadBits s.len xs) ∧
        t.chan.inPos = s.chan.inPos + xs.length + 1) ∧
    (s.chan.rest = xs → xs.length ≠ s.origLen.toNat →
      ∃ t, exec .encPass s = .next t ∧ t.phase = .error ∧ t.err = .ioFailure ∧ t.errInfo = 6 ∧
        t.chan.out = s.chan.out ++ bytesOfBits (s.pending ++ payloadBits s.len xs) ∧
        t.emitted.toNat = xs.length)

/-- R220, R226, R231, R232: PACK of an input of fewer than 2^64 bytes, with Ok transactions, ends in DONE
with the output closed. It wrote the header with the input's length and a table LEN_CHECK accepts,
whose nonzero lengths are those of the input's bytes, then the payload: 269 + ceil(T / 8) bytes; it made
the transactions R231 counts. FREQ holds the counts, LEN the lengths that TB_BUILD and CT_WALK leave on
them (R184, R222), CODE the canonical codes; both accumulators, PFX and ERR_INFO are zero. Of the
model's own fields `sub` is 0 and the others are unchanged. -/
def Obligations.PackCompletes : Prop :=
  ∀ s : State, s.accepts = true → s.chan.Bound → s.chan.input.length < 2 ^ 64 →
    ∃ t, exec .pack s = .next t ∧ t.phase = .done ∧ t.err = .none ∧ t.id = s.id ∧
      t.origLen.toNat = s.chan.input.length ∧ t.emitted = t.origLen ∧
      t.nsym.val = distinct s.chan.input ∧ t.degen = degenOf (distinct s.chan.input) ∧
      (∀ x, entry t.len x ≠ 0 ↔ x ∈ s.chan.input) ∧ acceptedTable t.len t.origLen ∧
      t.chan.out = s.chan.out ++ headerBytes s.id t.origLen t.len
        ++ payloadBytes t.len s.chan.input ∧
      t.chan.outClosed = true ∧ t.chan.input = s.chan.input ∧
      t.chan.inPos = s.chan.input.length ∧
      (∀ b, (entry t.freq b).toNat = s.chan.input.count b) ∧ t.tlen = t.len ∧
      (∃ w, runList [.tbBuild, .ctWalk] { s with freq := t.freq } = .next w ∧
        t.len = w.len ∧ t.root = w.root ∧ t.nnodes = w.nnodes) ∧
      (∀ x ∈ s.chan.input, entry t.code x = entry (canonTable t.len) x) ∧
      (t.errInfo = 0 ∧ t.hung = false ∧ t.skAcc = 0 ∧ t.skN = 0 ∧ t.srAcc = 0 ∧ t.srN = 0 ∧
        t.pfx = 0 ∧ t.pfxLen = 0) ∧
      (t.issue = s.issue ∧ t.host = s.host ∧ t.result = s.result ∧ t.busData = s.busData ∧
        t.sub = 0 ∧ t.free = s.free) ∧
      t.chan.trace.length = s.chan.trace.length + 2 * (s.chan.input.length + 1) + 1
        + (269 + ((payloadBits t.len s.chan.input).length + 7) / 8) + 1

/-- R228, R229: PACK of the empty input writes the 269-byte header with ORIG_LEN 0 and no length, and makes
exactly these transactions in this order. PACK of N copies of one byte value gives it the length 1 and
writes ceil(N / 8) zero bytes after the header. -/
def Obligations.PackOfDegenerateInputs : Prop :=
  ∀ s : State, s.accepts = true → s.chan.Bound →
    (s.chan.input = [] → ∃ t, exec .pack s = .next t ∧ t.phase = .done ∧ t.degen = .empty ∧
      t.nsym = 0 ∧ t.root = none ∧
      t.chan.out = s.chan.out ++ headerBytes s.id 0 (Vector.replicate 256 0) ∧
      t.chan.trace = [.outClose .ok, .inRead .eos, .inRewind .ok]
        ++ ((headerBytes s.id 0 (Vector.replicate 256 0)).map
          fun b => Transaction.outWrite b .ok).reverse
        ++ .inRead .eos :: s.chan.trace) ∧
    ∀ (x : Byte) (n : Nat), 0 < n → n < 2 ^ 64 → s.chan.input = List.replicate n x →
      ∃ t, exec .pack s = .next t ∧ t.phase = .done ∧ t.degen = .single ∧ t.nsym = 1 ∧
        t.chan.out = s.chan.out
          ++ headerBytes s.id (BitVec.ofNat 64 n) (setEntry (Vector.replicate 256 0) x 1)
          ++ List.replicate ((n + 7) / 8) 0

/-- R230, R263: however its transactions are answered, PACK on an open output ends in DONE without an
error, in ERROR with an IoFailure of sub-cause 1 to 6, or waits for ever for an answer (R315). Where
the InRewind answers Fail it is sub-cause 2, with the 269 header bytes written and no more (R222,
R223, R271), said through ORIG_LEN and LEN after the error, whose values there are the model's (log
24, R272); AFailedTransactionStopsTheOperation says the sub-cause of every failed transaction. Of an
input of 2^64 bytes or more the spec says nothing (R152, R314): that a PACK of it ends so is the
model's choice (log 11); that an output whose OutClose is never answered is not closed is, too (log 8). -/
def Obligations.PackEndsInDoneOrIoFailure : Prop :=
  ∀ s : State, s.accepts = true → s.chan.outClosed = false →
    ∃ t, exec .pack s = .next t ∧
      ((t.phase = .done ∧ t.err = .none ∧ t.chan.outClosed = true) ∨
       (t.phase = .error ∧ t.err = .ioFailure ∧ 1 ≤ t.errInfo.toNat ∧ t.errInfo.toNat ≤ 6 ∧
         t.chan.outClosed = false) ∨
       (t.hung = true ∧ t.chan.outClosed = false)) ∧
      ∀ landed, s.chan.okFor (s.chan.rest.length + 1 + 269) →
        s.chan.draws[s.chan.rest.length + 1 + 269]? = some (.fail landed) →
        t.phase = .error ∧ t.err = .ioFailure ∧ t.errInfo = 2 ∧
          t.chan.out = s.chan.out ++ headerBytes s.id t.origLen t.len ∧
          t.chan.trace.head? = some (.inRewind .fail)

/-- R232: what PACK writes is a function of its input and of MAGIC and VERSION alone: two blocks, whatever
their states before, write the same bytes. -/
def Obligations.PackIsDeterministic : Prop :=
  ∀ s s' : State, s.accepts = true → s'.accepts = true → s.chan.Bound → s'.chan.Bound →
    s.id = s'.id → s.chan.input = s'.chan.input → s.chan.input.length < 2 ^ 64 →
    ∃ t t' F, exec .pack s = .next t ∧ exec .pack s' = .next t' ∧
      t.chan.out = s.chan.out ++ F ∧ t'.chan.out = s'.chan.out ++ F

/-- R41, R312: a host command while one runs, or while a transaction is not answered (log 8), is
ignored. -/
def Obligations.CommandsAreIgnoredWhileBusy : Prop :=
  ∀ s : State, s.busy = true ∨ s.hung = true →
    exec .pack s = .next s ∧ exec .unpack s = .next s

/-! ### Unpacker (46_unpacker.md) -/

/-- R242, R249: DEC_SYM with canonical codes and Ok transactions reads exactly LEN bits for the symbol
whose code comes next, writes it and goes back to the root; in a one-symbol table the bit 1 raises
FormatError(8). What PFX, PFXLEN and the other registers and tables hold after the error is the
model's (log 24, R272). -/
def Obligations.DecSymDecodesOneSymbol : Prop :=
  ∀ (s : State) (x : Byte) (tail : List Bool), Coded s.len s.code → s.chan.outClosed = false →
    (entry s.len x ≠ 0 → s.bitStream = symbolBits s.len x ++ tail →
      s.chan.okFor (s.fetches (entry s.len x).toNat + 1) →
      exec .decSym s = .next (s.decoded x (entry s.len x).toNat) ∧
      (s.decoded x (entry s.len x).toNat).bitStream = tail) ∧
    (present s.len = [(x, 1)] → s.bitStream = true :: tail → s.chan.okFor (s.fetches 1) →
      exec .decSym s = .next { s.sourced 1 with
        pfx := 1, pfxLen := 1, err := .formatError, errInfo := 8, phase := .error, sub := 0 })

/-- R248: where the input ends before the next symbol's code does, DEC_SYM raises TruncatedData(1) and
writes nothing. What SR_N, PFX, PFXLEN and the other registers and tables hold after the error is the
model's (log 24, R272). -/
def Obligations.DecSymReportsTruncation : Prop :=
  ∀ (s : State) (x : Byte), Coded s.len s.code → entry s.len x ≠ 0 →
    s.bitStream <+: symbolBits s.len x → s.bitStream ≠ symbolBits s.len x →
    s.chan.okFor (s.chan.rest.length + 1) →
    ∃ t, exec .decSym s = .next t ∧ t.srN = 0 ∧ t.pfxLen.val = s.bitStream.length ∧
      t.pfx.toNat = bitsValue 0 s.bitStream ∧
      t = { s with
        err := .truncatedData, errInfo := 1, phase := .error, sub := 0
        srAcc := t.srAcc, srN := t.srN, pfx := t.pfx, pfxLen := t.pfxLen
        chan := (s.chan.took s.chan.rest.length).metEnd }

/-- R193, R207, R279: with two or more symbols and a Kraft sum of 1 the walk never falls off the tree:
whatever the bits, DEC_SYM never ends with a FormatError. -/
def Obligations.CompleteTablesDecodeAnyBits : Prop :=
  ∀ s t : State, Coded s.len s.code → 2 ≤ (present s.len).length → kraft255 s.len = 2 ^ 255 →
    s.err ≠ .formatError → exec .decSym s = .next t → t.err ≠ .formatError

/-- R244, R245, R247: DEC_LOOP decodes ORIG_LEN symbols, leaves the bits after them, and takes no byte
it needs no bit of. -/
def Obligations.DecLoopDecodesThePayload : Prop :=
  ∀ (s : State) (xs : List Byte) (tail : List Bool), Coded s.len s.code →
    (∀ x ∈ xs, entry s.len x ≠ 0) → s.bitStream = payloadBits s.len xs ++ tail →
    s.origLen.toNat = xs.length → s.chan.outClosed = false → (∀ d ∈ s.chan.draws, d = .ok) →
    ∃ t, exec .decLoop s = .next t ∧ s.sameButDecoding t ∧ t.emitted = s.origLen ∧
      t.chan.out = s.chan.out ++ xs ∧ t.bitStream = tail ∧
      t.chan.inPos = s.chan.inPos + s.fetches (payloadBits s.len xs).length

/-- R240, R246, R247, R250: UNPACK of a container with Ok transactions ends in DONE with the output
closed, having written its symbols; bytes after the payload are left unread, and the pad bits stay in
SR_ACC, which holds the last byte read (R245). CODE holds the canonical codes; FREQ, TLEN, PFX and the
sink are zero and there is no tree (R303); TCODE and NODE are unchanged (log 3). Of the model's own
fields `sub` is 0 and the others are unchanged. -/
def Obligations.UnpackCompletes : Prop :=
  ∀ (s : State) (n : Count) (len : Table (BitVec 8)) (xs extra : List Byte), s.accepts = true →
    s.chan.Bound → acceptedTable len n → (∀ x ∈ xs, entry len x ≠ 0) → n.toNat = xs.length →
    s.chan.input = headerBytes s.id n len ++ payloadBytes len xs ++ extra →
    ∃ t, exec .unpack s = .next t ∧ t.phase = .done ∧ t.err = .none ∧ t.id = s.id ∧ t.origLen = n ∧
      t.emitted = n ∧ t.len = len ∧ t.nsym.val = (present len).length ∧
      t.degen = degenOf (present len).length ∧ t.chan.out = s.chan.out ++ xs ∧
      t.chan.outClosed = true ∧ t.chan.inPos = 269 + ((payloadBits len xs).length + 7) / 8 ∧
      t.srN.val = (8 - (payloadBits len xs).length % 8) % 8 ∧
      t.srAcc = s.chan.input.getD (t.chan.inPos - 1) 0 ∧
      (∀ x, entry len x ≠ 0 → entry t.code x = entry (canonTable len) x) ∧
      (t.errInfo = 0 ∧ t.hung = false ∧ t.skAcc = 0 ∧ t.skN = 0 ∧ t.pfx = 0 ∧ t.pfxLen = 0 ∧
        t.nnodes = 0 ∧ t.root = none ∧ t.pq = []) ∧
      ((∀ b, entry t.freq b = 0) ∧ (∀ b, entry t.tlen b = 0) ∧ t.tcode = s.tcode ∧ t.node = s.node) ∧
      (t.issue = s.issue ∧ t.host = s.host ∧ t.result = s.result ∧ t.busData = s.busData ∧
        t.sub = 0 ∧ t.free = s.free)

/-- R241, R263: however its transactions are answered and whatever the input, UNPACK on an open output
ends in DONE without an error, in ERROR, or waits for ever (R315). Before the decoding loop nothing is
written: an error of the header or the table leaves OUT as it was. What EMITTED and ORIG_LEN hold after
TruncatedData is the model's (log 24, R272); that an output whose OutClose is never answered is not
closed is the model's choice (log 8). -/
def Obligations.UnpackEndsInDoneOrError : Prop :=
  ∀ s : State, s.accepts = true → s.chan.outClosed = false →
    ∃ t, exec .unpack s = .next t ∧ s.chan.out <+: t.chan.out ∧
      ((t.phase = .done ∧ t.err = .none ∧ t.chan.outClosed = true ∧ t.emitted = t.origLen) ∨
       (t.phase = .error ∧ t.chan.outClosed = false ∧
         ((t.err = .ioFailure ∧ (t.errInfo = 1 ∨ t.errInfo = 3 ∨ t.errInfo = 4)) ∨
          (t.err = .formatError ∧ 1 ≤ t.errInfo.toNat ∧ t.errInfo.toNat ≤ 7 ∧
            t.chan.out = s.chan.out) ∨
          (t.err = .formatError ∧ t.errInfo = 8) ∨
          (t.err = .truncatedData ∧ t.errInfo = 1 ∧ t.emitted.toNat < t.origLen.toNat))) ∨
       (t.hung = true ∧ t.chan.outClosed = false))

/-- R251: the round trip. What PACK writes for an input, UNPACK on any block with the same MAGIC and
VERSION turns back into it, whatever bytes follow (R247). -/
def Obligations.UnpackOfPackIsTheInput : Prop :=
  ∀ s u : State, s.accepts = true → s.chan.Bound → s.chan.input.length < 2 ^ 64 →
    s.chan.out = [] → u.accepts = true → u.chan.Bound → u.id = s.id →
    ∃ t, exec .pack s = .next t ∧ t.phase = .done ∧
      ∀ extra, u.chan.input = t.chan.out ++ extra →
        ∃ w, exec .unpack u = .next w ∧ w.phase = .done ∧
          w.chan.out = u.chan.out ++ s.chan.input

/-- R30, R112, R220, R240: a command the host starts by a write of CMD and the sequencer runs step by step
comes to the state the command as one operation gives, PACK and UNPACK alike (log 6). Of a PACK of 2^64
bytes or more the spec says nothing (R152): that it ends so is the model's choice (log 11); what the
registers hold after an error is, too (log 24). -/
def Obligations.SequencerRunsTheCommand : Prop :=
  ∀ (s t : State) (value : Byte) (i : Instr),
    (value = 0x01 ∧ i = .pack) ∨ (value = 0x02 ∧ i = .unpack) →
    s.accepts = true → s.issue = [] → s.host = [.writeRegister 0 value] →
    exec i { s with host := [] } = .next t → t.hung = false →
    ∃ n, runSteps n s = .next t

/-- R67, R230, R262, R270, R271: a transaction that answers Fail stops any operation. Where the operation
with Ok answers makes the transactions `T`, and the first `k` answers are Ok but the next is Fail, it
raises IoFailure with the sub-cause of that transaction's kind (1 InRead, 2 InRewind, 3 OutWrite,
4 OutClose): the transactions before it are made, it is the last one, and OUT holds the bytes written
before it, and its own byte or not (R65, log 9). This covers pass 1 and pass 2, the header, the payload,
the flush, the rewind and the closes of PACK and UNPACK. For a PACK of 2^64 bytes or more it is the
model's choice (log 11, R152). -/
def Obligations.AFailedTransactionStopsTheOperation : Prop :=
  ∀ (i : Instr) (s t₀ : State) (T : List Transaction) (k : Nat) (x : Transaction) (landed : Bool),
    exec i { s with chan := { s.chan with draws := [] } } = .next t₀ →
    t₀.chan.trace = T.reverse ++ s.chan.trace → T[k]? = some x →
    s.chan.okFor k → s.chan.draws[k]? = some (.fail landed) →
    ∃ t, exec i s = .next t ∧ t.phase = .error ∧ t.err = .ioFailure ∧ t.errInfo = x.failInfo ∧
      t.chan.trace = x.failed :: (T.take k).reverse ++ s.chan.trace ∧
      t.chan.out = s.chan.out ++ (T.take k).flatMap Transaction.bytes
        ++ (if landed then x.bytes else []) ∧
      t.chan.outClosed = s.chan.outClosed ∧ t.chan.draws = s.chan.draws.drop (k + 1) ∧
      t.id = s.id ∧ t.hung = s.hung
end

