-- ==== Sys2Proof/Laws/Bits.lean ====
section
/-! SUPPORT. Laws of bit sequences, the numbers they stand for, and their packing into bytes. -/

namespace Sys2Proof.Machine

/-! ### Bit-codes as bit sequences (R15) -/

@[simp] theorem codeBits_length (v L : Nat) : (codeBits v L).length = L := by
  induction L with
  | zero => rfl
  | succ L ih => simp [codeBits, ih]

@[simp] theorem bitsValue_nil (r : Nat) : bitsValue r [] = r := rfl

@[simp] theorem bitsValue_cons (r : Nat) (b : Bool) (bs : List Bool) :
    bitsValue r (b :: bs) = bitsValue (2 * r + b.toNat) bs := rfl

theorem bitsValue_append (r : Nat) (as bs : List Bool) :
    bitsValue r (as ++ bs) = bitsValue (bitsValue r as) bs := by
  simp [bitsValue]

theorem bitsValue_eq (r : Nat) (bs : List Bool) :
    bitsValue r bs = r * 2 ^ bs.length + bitsValue 0 bs := by
  induction bs generalizing r with
  | nil => simp
  | cons b bs ih =>
    rw [bitsValue_cons, ih, bitsValue_cons, ih (2 * 0 + b.toNat), List.length_cons, pow_succ]
    ring

theorem bitsValue_lt (bs : List Bool) : bitsValue 0 bs < 2 ^ bs.length := by
  induction bs with
  | nil => simp
  | cons b bs ih =>
    rw [bitsValue_cons, bitsValue_eq, List.length_cons, pow_succ]
    have : b.toNat ≤ 1 := b.toNat_le
    nlinarith [Nat.two_pow_pos bs.length]

/-- R102: reading the bits of a bit-code gives its value. -/
theorem bitsValue_codeBits (r v L : Nat) : bitsValue r (codeBits v L) = r * 2 ^ L + v % 2 ^ L := by
  induction L generalizing r with
  | zero => simp [codeBits, Nat.mod_one]
  | succ L ih =>
    rw [codeBits, bitsValue_cons, ih, Nat.mod_pow_succ, pow_succ, Nat.toNat_testBit]
    ring

theorem testBit_add_mul (v r L n : Nat) (h : n < L) : (r * 2 ^ L + v).testBit n = v.testBit n := by
  have e : ∀ x : Nat, x.testBit n = (x % 2 ^ L).testBit n := fun x => by
    simp [Nat.testBit_mod_two_pow, h]
  rw [e, e v, Nat.mul_add_mod_self_right]

theorem codeBits_add_mul (v r L : Nat) : codeBits (r * 2 ^ L + v) L = codeBits v L := by
  have key : ∀ n ≤ L, codeBits (r * 2 ^ L + v) n = codeBits v n := by
    intro n hn
    induction n with
    | zero => rfl
    | succ n ih =>
      rw [codeBits, codeBits, ih (by omega), testBit_add_mul _ _ _ _ (by omega)]
  exact key L le_rfl

theorem codeBits_mod (v L : Nat) : codeBits (v % 2 ^ L) L = codeBits v L := by
  conv_rhs => rw [← Nat.div_add_mod v (2 ^ L), mul_comm, codeBits_add_mul]

/-- R15: a bit sequence is the bit-code of its value and its length. -/
theorem codeBits_bitsValue (bs : List Bool) : codeBits (bitsValue 0 bs) bs.length = bs := by
  induction bs with
  | nil => rfl
  | cons b bs ih =>
    rw [bitsValue_cons, bitsValue_eq, List.length_cons, codeBits, codeBits_add_mul, ih]
    congr 1
    rw [mul_comm, Nat.testBit_two_pow_mul_add _ (bitsValue_lt bs)]
    cases b <;> simp

theorem bitsValue_inj {as bs : List Bool} (hl : as.length = bs.length)
    (hv : bitsValue 0 as = bitsValue 0 bs) : as = bs := by
  rw [← codeBits_bitsValue as, ← codeBits_bitsValue bs, hv, hl]

theorem codeBits_append (v₁ v₂ L₁ L₂ : Nat) (h : v₂ < 2 ^ L₂) :
    codeBits (v₁ * 2 ^ L₂ + v₂) (L₁ + L₂) = codeBits v₁ L₁ ++ codeBits v₂ L₂ := by
  induction L₁ with
  | zero => simp [codeBits, codeBits_add_mul]
  | succ L ih =>
    rw [Nat.add_right_comm, codeBits, ih, codeBits, List.cons_append, mul_comm,
      Nat.testBit_two_pow_mul_add _ h]
    simp

theorem codeBits_split (v L₁ L₂ : Nat) :
    codeBits v (L₁ + L₂) = codeBits (v / 2 ^ L₂) L₁ ++ codeBits v L₂ := by
  conv_lhs => rw [← Nat.div_add_mod v (2 ^ L₂), mul_comm]
  rw [codeBits_append _ _ _ _ (Nat.mod_lt _ (by positivity)), codeBits_mod]

/-! ### Bit sequences packed into bytes (R132) -/

@[simp] theorem bytesOfBits_length (S : List Bool) : (bytesOfBits S).length = S.length / 8 := by
  simp [bytesOfBits]

@[simp] theorem leftBits_length (S : List Bool) : (leftBits S).length = S.length % 8 := by
  simp [leftBits]; omega

@[simp] theorem byteBits_length (b : Byte) : (byteBits b).length = 8 := by
  simp [byteBits]

theorem bytesOfBits_short {S : List Bool} (h : S.length < 8) : bytesOfBits S = [] := by
  simp [bytesOfBits, Nat.div_eq_of_lt h]

theorem leftBits_short {S : List Bool} (h : S.length < 8) : leftBits S = S := by
  simp [leftBits, Nat.div_eq_of_lt h]

theorem bytesOfBits_eight {B : List Bool} (S : List Bool) (h : B.length = 8) :
    bytesOfBits (B ++ S) = BitVec.ofNat 8 (bitsValue 0 B) :: bytesOfBits S := by
  have e : (B ++ S).length / 8 = S.length / 8 + 1 := by simp [h]
  rw [bytesOfBits, e, List.range_succ_eq_map, List.map_cons, List.map_map]
  congr 1
  · simp [← h]
  · rw [bytesOfBits]
    apply List.map_congr_left
    intro k _
    have : 8 * (k + 1) = B.length + 8 * k := by omega
    simp only [Function.comp_apply, Nat.succ_eq_add_one, this, List.drop_length_add_append]

theorem leftBits_eight {B : List Bool} (S : List Bool) (h : B.length = 8) :
    leftBits (B ++ S) = leftBits S := by
  have e : (B ++ S).length / 8 = S.length / 8 + 1 := by simp [h]
  have : 8 * ((B ++ S).length / 8) = B.length + 8 * (S.length / 8) := by omega
  rw [leftBits, this, List.drop_length_add_append, leftBits]

theorem bytesOfBits_append {A : List Bool} (S : List Bool) (h : A.length % 8 = 0) :
    bytesOfBits (A ++ S) = bytesOfBits A ++ bytesOfBits S := by
  obtain ⟨n, hn⟩ : ∃ n, A.length = 8 * n := ⟨A.length / 8, by omega⟩
  clear h
  induction n generalizing A with
  | zero =>
    obtain rfl : A = [] := List.length_eq_zero_iff.mp (by omega)
    simp [bytesOfBits_short]
  | succ n ih =>
    have e : A = A.take 8 ++ A.drop 8 := (List.take_append_drop 8 A).symm
    have h8 : (A.take 8).length = 8 := by simp; omega
    rw [e, List.append_assoc, bytesOfBits_eight _ h8, bytesOfBits_eight _ h8, ih (by simp; omega)]
    simp

theorem leftBits_append {A : List Bool} (S : List Bool) (h : A.length % 8 = 0) :
    leftBits (A ++ S) = leftBits S := by
  have : 8 * ((A ++ S).length / 8) = A.length + 8 * (S.length / 8) := by simp; omega
  rw [leftBits, this, List.drop_length_add_append, leftBits]

theorem byteBits_ofNat_bitsValue {B : List Bool} (h : B.length = 8) :
    byteBits (BitVec.ofNat 8 (bitsValue 0 B)) = B := by
  have := bitsValue_lt B
  rw [byteBits, BitVec.toNat_ofNat, Nat.mod_eq_of_lt (by rwa [h] at this), ← h, codeBits_bitsValue]

@[simp] theorem bitsValue_byteBits (b : Byte) : bitsValue 0 (byteBits b) = b.toNat := by
  have := b.isLt
  rw [byteBits, bitsValue_codeBits]; omega

/-- R139 (a): the bytes written hold the bits written, as many as fill whole bytes. -/
theorem bytesOfBits_bits {S : List Bool} (h : S.length % 8 = 0) :
    (bytesOfBits S).flatMap byteBits = S := by
  obtain ⟨n, hn⟩ : ∃ n, S.length = 8 * n := ⟨S.length / 8, by omega⟩
  clear h
  induction n generalizing S with
  | zero =>
    obtain rfl : S = [] := List.length_eq_zero_iff.mp (by omega)
    simp [bytesOfBits_short]
  | succ n ih =>
    have e : S = S.take 8 ++ S.drop 8 := (List.take_append_drop 8 S).symm
    have h8 : (S.take 8).length = 8 := by simp; omega
    rw [e, bytesOfBits_eight _ h8, List.flatMap_cons, byteBits_ofNat_bitsValue h8,
      ih (by simp; omega)]

theorem bytesOfBits_byteBits (l : List Byte) : bytesOfBits (l.flatMap byteBits) = l := by
  induction l with
  | nil => simp [bytesOfBits_short]
  | cons b l ih => simp [bytesOfBits_eight, ih]

@[simp] theorem flatMap_byteBits_length (l : List Byte) : (l.flatMap byteBits).length = 8 * l.length := by
  induction l with
  | nil => rfl
  | cons b l ih => simp [ih]; omega

theorem padBits_length (S : List Bool) : (padBits S).length = 8 * ((S.length + 7) / 8) := by
  simp [padBits]; omega

theorem padBits_mod (S : List Bool) : (padBits S).length % 8 = 0 := by
  rw [padBits_length]; omega

/-- Packing two sequences: the bytes of the first, then those of its left bits with the second. -/
theorem bytesOfBits_append_left (S T : List Bool) :
    bytesOfBits (S ++ T) = bytesOfBits S ++ bytesOfBits (leftBits S ++ T) := by
  have e : S ++ T = S.take (8 * (S.length / 8)) ++ (leftBits S ++ T) := by
    rw [← List.append_assoc, leftBits, List.take_append_drop]
  have h8 : (S.take (8 * (S.length / 8))).length % 8 = 0 := by simp; omega
  have hS : bytesOfBits S = bytesOfBits (S.take (8 * (S.length / 8))) := by
    conv_lhs => rw [← List.take_append_drop (8 * (S.length / 8)) S]
    rw [bytesOfBits_append _ h8, bytesOfBits_short (S := S.drop _) (by rw [List.length_drop]; omega),
      List.append_nil]
  rw [e, bytesOfBits_append _ h8, hS]

theorem leftBits_append_left (S T : List Bool) : leftBits (S ++ T) = leftBits (leftBits S ++ T) := by
  have e : S ++ T = S.take (8 * (S.length / 8)) ++ (leftBits S ++ T) := by
    rw [← List.append_assoc, leftBits, List.take_append_drop]
  have h8 : (S.take (8 * (S.length / 8))).length % 8 = 0 := by simp; omega
  rw [e, leftBits_append _ h8]

/-- The padded sequence: its full bytes, then the padded left bits. -/
theorem bytesOfBits_padBits (S : List Bool) :
    bytesOfBits (padBits S) = bytesOfBits S ++ bytesOfBits (padBits (leftBits S)) := by
  rw [padBits, bytesOfBits_append_left, padBits, leftBits_length, Nat.mod_mod]

/-- The bits of a number in `n` bytes, most significant first (R72, R93). -/
theorem codeBits_bytes (n v : Nat) : codeBits v (8 * n) = (bytesOfNat n v).flatMap byteBits := by
  induction n with
  | zero => rfl
  | succ n ih =>
    have e : 8 * (n + 1) = 8 + 8 * n := by omega
    have h : byteBits (BitVec.ofNat 8 (v / 256 ^ n)) = codeBits (v / 2 ^ (8 * n)) 8 := by
      rw [byteBits, BitVec.toNat_ofNat, codeBits_mod, pow_mul]; norm_num
    rw [e, codeBits_split, bytesOfNat, List.flatMap_cons, ih, h]

theorem bytesOfNat_length (n v : Nat) : (bytesOfNat n v).length = n := by
  induction n with
  | zero => rfl
  | succ n ih => simp [bytesOfNat, ih]

end Sys2Proof.Machine
end

