-- ==== Sys2Proof/Laws/Ops.lean ====
section
/-! SUPPORT. Laws of how an operation ends and of the channel transactions: what each can answer and
what it leaves (20_memory.md R61 to R66). -/

namespace Sys2Proof.Machine

/-! ### How an operation ends -/

@[simp] theorem Res.ok_bind {α β : Type} (a : α) (s : State) (f : α → State → Res β) :
    (Res.ok a s).bind f = f a s := rfl

@[simp] theorem Res.stop_bind {α β : Type} (s : State) (f : α → State → Res β) :
    (Res.stop s : Res α).bind f = .stop s := rfl

@[simp] theorem Res.fault_bind {α β : Type} (e : Fault) (f : α → State → Res β) :
    (Res.fault e : Res α).bind f = .fault e := rfl

@[simp] theorem Res.refuse_bind {α β : Type} (r : Refusal) (f : α → State → Res β) :
    (Res.refuse r : Res α).bind f = .refuse r := rfl

theorem Res.bind_assoc {α β γ : Type} (x : Res α) (f : α → State → Res β) (g : β → State → Res γ) :
    (x.bind f).bind g = x.bind fun a s => (f a s).bind g := by
  cases x <;> rfl

@[simp] theorem Res.ok_outcome {α : Type} (a : α) (s : State) : (Res.ok a s).outcome = .next s := rfl

@[simp] theorem Res.stop_outcome {α : Type} (s : State) : (Res.stop s : Res α).outcome = .next s := rfl

@[simp] theorem Res.fault_outcome {α : Type} (e : Fault) : (Res.fault e : Res α).outcome = .fault e := rfl

@[simp] theorem Res.refuse_outcome {α : Type} (r : Refusal) :
    (Res.refuse r : Res α).outcome = .refused r := rfl

/-- An operation run as one step gives a next state exactly where it ends or stops. -/
theorem Res.outcome_next {α : Type} {x : Res α} {t : State} :
    x.outcome = .next t ↔ (∃ a, x = .ok a t) ∨ x = .stop t := by
  cases x <;> simp [Res.outcome]

theorem Res.bind_ok {α β : Type} {x : Res α} {f : α → State → Res β} {b : β} {t : State} :
    x.bind f = .ok b t ↔ ∃ a s, x = .ok a s ∧ f a s = .ok b t := by
  cases x <;> simp [Res.bind]

theorem Res.bind_stop {α β : Type} {x : Res α} {f : α → State → Res β} {t : State} :
    x.bind f = .stop t ↔ x = .stop t ∨ ∃ a s, x = .ok a s ∧ f a s = .stop t := by
  cases x <;> simp [Res.bind]

/-! ### Draws -/

@[simp] theorem Channels.okFor_zero (c : Channels) : c.okFor 0 := by
  simp [Channels.okFor]

theorem Channels.okFor.mono {c : Channels} {m n : Nat} (h : c.okFor n) (hm : m ≤ n) : c.okFor m :=
  fun d hd => h d (List.take_subset_take_left c.draws hm hd)

theorem Channels.okFor.draw {c : Channels} {n : Nat} (h : c.okFor n) (hn : 0 < n) : c.draw = .ok := by
  unfold Channels.draw
  cases hd : c.draws with
  | nil => rfl
  | cons d ds =>
    apply h
    obtain ⟨m, rfl⟩ : ∃ m, n = m + 1 := ⟨n - 1, by omega⟩
    simp [hd]

theorem Channels.okFor.drop {c : Channels} {m n : Nat} (h : c.okFor (m + n)) :
    ∀ d ∈ (c.draws.drop m).take n, d = .ok := by
  intro d hd
  apply h
  rw [List.take_add]
  exact List.mem_append_right _ hd

theorem Channels.okFor_of_draws {c c' : Channels} {m n : Nat} (h : c.okFor (m + n))
    (hd : c'.draws = c.draws.drop m) : c'.okFor n := by
  rw [Channels.okFor, hd]; exact h.drop

@[simp] theorem Channels.wrote_draws (bs : List Byte) (c : Channels) :
    (c.wrote bs).draws = c.draws.drop bs.length := rfl

@[simp] theorem Channels.took_draws (n : Nat) (c : Channels) : (c.took n).draws = c.draws.drop n := rfl

@[simp] theorem Channels.metEnd_draws (c : Channels) : c.metEnd.draws = c.draws.drop 1 := by
  simp [Channels.metEnd, Channels.made]

@[simp] theorem Channels.wrote_out (bs : List Byte) (c : Channels) : (c.wrote bs).out = c.out ++ bs := rfl
@[simp] theorem Channels.wrote_outClosed (bs : List Byte) (c : Channels) :
    (c.wrote bs).outClosed = c.outClosed := rfl
@[simp] theorem Channels.wrote_input (bs : List Byte) (c : Channels) : (c.wrote bs).input = c.input := rfl
@[simp] theorem Channels.wrote_inPos (bs : List Byte) (c : Channels) : (c.wrote bs).inPos = c.inPos := rfl
@[simp] theorem Channels.wrote_inRewound (bs : List Byte) (c : Channels) :
    (c.wrote bs).inRewound = c.inRewound := rfl
@[simp] theorem Channels.wrote_rest (bs : List Byte) (c : Channels) : (c.wrote bs).rest = c.rest := rfl
@[simp] theorem Channels.took_out (n : Nat) (c : Channels) : (c.took n).out = c.out := rfl
@[simp] theorem Channels.took_outClosed (n : Nat) (c : Channels) : (c.took n).outClosed = c.outClosed := rfl
@[simp] theorem Channels.took_input (n : Nat) (c : Channels) : (c.took n).input = c.input := rfl
@[simp] theorem Channels.took_inPos (n : Nat) (c : Channels) : (c.took n).inPos = c.inPos + n := rfl
@[simp] theorem Channels.took_inRewound (n : Nat) (c : Channels) : (c.took n).inRewound = c.inRewound := rfl
@[simp] theorem Channels.took_rest (n : Nat) (c : Channels) : (c.took n).rest = c.rest.drop n := by
  simp [Channels.rest]
@[simp] theorem Channels.metEnd_out (c : Channels) : c.metEnd.out = c.out := rfl
@[simp] theorem Channels.metEnd_outClosed (c : Channels) : c.metEnd.outClosed = c.outClosed := rfl
@[simp] theorem Channels.metEnd_input (c : Channels) : c.metEnd.input = c.input := rfl
@[simp] theorem Channels.metEnd_inPos (c : Channels) : c.metEnd.inPos = c.inPos := rfl
@[simp] theorem Channels.metEnd_inRewound (c : Channels) : c.metEnd.inRewound = c.inRewound := rfl
@[simp] theorem Channels.metEnd_rest (c : Channels) : c.metEnd.rest = c.rest := rfl

@[simp] theorem Channels.wrote_nil (c : Channels) : c.wrote [] = c := by simp [Channels.wrote]

theorem Channels.wrote_wrote (as bs : List Byte) (c : Channels) :
    (c.wrote as).wrote bs = c.wrote (as ++ bs) := by
  simp [Channels.wrote]

@[simp] theorem Channels.took_zero (c : Channels) : c.took 0 = c := by
  simp [Channels.took]

theorem Channels.took_took (m n : Nat) (c : Channels) : (c.took m).took n = c.took (m + n) := by
  simp only [Channels.took, Channels.rest, List.drop_drop, Nat.add_assoc, Channels.mk.injEq, true_and]
  rw [List.take_add, List.drop_drop]
  simp

/-! ### What each transaction answers -/

theorem Channels.inRead_byte {c : Channels} {b : Byte} {bs : List Byte} (hd : c.draw = .ok)
    (hr : c.rest = b :: bs) : c.inRead = (.byte b, c.took 1) := by
  have hb : c.input[c.inPos]? = some b := by
    have := congrArg (·[0]?) hr
    simpa [Channels.rest] using this
  simp [Channels.inRead, hd, hb, Channels.took, Channels.made, hr]

theorem Channels.inRead_eos {c : Channels} (hd : c.draw = .ok) (hr : c.rest = []) :
    c.inRead = (.eos, c.metEnd) := by
  have hb : c.input[c.inPos]? = none := by
    rw [List.getElem?_eq_none_iff]; simpa [Channels.rest] using hr
  simp [Channels.inRead, hd, hb, Channels.metEnd]

theorem Channels.outWrite_ok {c : Channels} (b : Byte) (hd : c.draw = .ok) :
    c.outWrite b = (.ok, c.wrote [b]) := by
  simp [Channels.outWrite, hd, Channels.wrote, Channels.made]

/-- R61: an InRead with an Ok draw and a byte left delivers it. -/
theorem inRead_byte {s : State} {b : Byte} {bs : List Byte} (hd : s.chan.draw = .ok)
    (hr : s.chan.rest = b :: bs) : inRead s = .ok (some b) { s with chan := s.chan.took 1 } := by
  simp [inRead, Channels.inRead_byte hd hr]

/-- R61, R62: an InRead with an Ok draw and no byte left answers EOS. -/
theorem inRead_eos {s : State} (hd : s.chan.draw = .ok) (hr : s.chan.rest = []) :
    inRead s = .ok none { s with chan := s.chan.metEnd } := by
  simp [inRead, Channels.inRead_eos hd hr]

/-- R65: an OutWrite with an Ok draw appends its byte. -/
theorem outWrite_ok {s : State} (b : Byte) (ho : s.chan.outClosed = false) (hd : s.chan.draw = .ok) :
    outWrite b s = .ok () { s with chan := s.chan.wrote [b] } := by
  simp [outWrite, ho, Channels.outWrite_ok b hd, afterAck]

/-- R61, R67: an InRead that answers Fail. -/
theorem inRead_fail {s : State} {landed : Bool} (hd : s.chan.draw = .fail landed) :
    inRead s = .stop (State.raise .readFailed { s with
      chan := { s.chan with draws := s.chan.draws.tail, trace := .inRead .fail :: s.chan.trace } }) := by
  simp [inRead, Channels.inRead, hd, Channels.made]

/-- R65, R67: an OutWrite that answers Fail. -/
theorem outWrite_fail {s : State} {landed : Bool} (b : Byte) (ho : s.chan.outClosed = false)
    (hd : s.chan.draw = .fail landed) :
    outWrite b s = .stop (State.raise .writeFailed { s with
      chan := { s.chan with
        out := if landed then s.chan.out ++ [b] else s.chan.out
        draws := s.chan.draws.tail, trace := .outWrite b .fail :: s.chan.trace } }) := by
  rw [outWrite, if_neg (by rw [ho]; simp)]
  simp only [Channels.outWrite, hd, afterAck, Channels.made]

/-- R63, R67: an InRewind that answers Fail. -/
theorem inRewind_fail {s : State} {landed : Bool} (hd : s.chan.draw = .fail landed) :
    inRewind s = .stop (State.raise .rewindFailed { s with
      chan := { s.chan with draws := s.chan.draws.tail, trace := .inRewind .fail :: s.chan.trace } }) := by
  simp [inRewind, Channels.rewind, hd, afterAck, Channels.made]

/-- R66, R67: an OutClose that answers Fail. -/
theorem outClose_fail {s : State} {landed : Bool} (ho : s.chan.outClosed = false)
    (hd : s.chan.draw = .fail landed) :
    outClose s = .stop (State.raise .closeFailed { s with
      chan := { s.chan with draws := s.chan.draws.tail, trace := .outClose .fail :: s.chan.trace } }) := by
  rw [outClose, if_neg (by rw [ho]; simp)]
  simp only [Channels.outClose, hd, afterAck, Channels.made]

/-- R67: the draw of the next transaction, after `n` that were Ok. -/
theorem Channels.draw_of_drop {c c' : Channels} {n : Nat} {d : Draw} (hd : c.draws[n]? = some d)
    (hc : c'.draws = c.draws.drop n) : c'.draw = d := by
  have h : (c.draws.drop n).head? = some d := by rw [List.head?_drop]; exact hd
  rw [Channels.draw, hc, List.headD_eq_head?_getD, h]
  rfl

/-! ### What a transaction carries -/

@[simp] theorem Transaction.failInfo_inRead (a : ReadAnswer) : (Transaction.inRead a).failInfo = 1 := rfl
@[simp] theorem Transaction.failInfo_inRewind (a : Ack) : (Transaction.inRewind a).failInfo = 2 := rfl
@[simp] theorem Transaction.failInfo_outWrite (b : Byte) (a : Ack) :
    (Transaction.outWrite b a).failInfo = 3 := rfl
@[simp] theorem Transaction.failInfo_outClose (a : Ack) : (Transaction.outClose a).failInfo = 4 := rfl
@[simp] theorem Transaction.bytes_inRead (a : ReadAnswer) : (Transaction.inRead a).bytes = [] := rfl
@[simp] theorem Transaction.bytes_inRewind (a : Ack) : (Transaction.inRewind a).bytes = [] := rfl
@[simp] theorem Transaction.bytes_outWrite (b : Byte) (a : Ack) :
    (Transaction.outWrite b a).bytes = [b] := rfl
@[simp] theorem Transaction.bytes_outClose (a : Ack) : (Transaction.outClose a).bytes = [] := rfl

/-- Everything an InRead can do (R61, R67, R315). -/
theorem inRead_cases (s : State) :
    (∃ b bs, s.chan.rest = b :: bs ∧ inRead s = .ok (some b) { s with chan := s.chan.took 1 }) ∨
    (s.chan.rest = [] ∧ inRead s = .ok none { s with chan := s.chan.metEnd }) ∨
    inRead s = .stop (State.raise .readFailed { s with chan := s.chan.made (.inRead .fail) }) ∨
    inRead s = .stop (State.hang { s with chan := s.chan.made (.inRead .never) }) := by
  cases hd : s.chan.draw with
  | ok =>
    cases hr : s.chan.rest with
    | nil => exact .inr (.inl ⟨rfl, inRead_eos hd hr⟩)
    | cons b bs => exact .inl ⟨b, bs, rfl, inRead_byte hd hr⟩
  | fail l => exact .inr (.inr (.inl (by simp [inRead, Channels.inRead, hd])))
  | never => exact .inr (.inr (.inr (by simp [inRead, Channels.inRead, hd])))

/-- Everything an OutWrite on an open output can do (R65, R67, R315). -/
theorem outWrite_cases (b : Byte) (s : State) :
    (s.chan.outClosed = true ∧ outWrite b s = .fault .outputClosed) ∨
    (s.chan.outClosed = false ∧
      (outWrite b s = .ok () { s with chan := s.chan.wrote [b] } ∨
      (∃ c : Channels, outWrite b s = .stop (State.raise .writeFailed { s with chan := c }) ∧
        c.input = s.chan.input ∧ c.inPos = s.chan.inPos ∧ c.inRewound = s.chan.inRewound ∧
        c.outClosed = s.chan.outClosed ∧ (c.out = s.chan.out ∨ c.out = s.chan.out ++ [b]) ∧
        c.trace = .outWrite b .fail :: s.chan.trace) ∨
      outWrite b s = .stop (State.hang { s with chan := s.chan.made (.outWrite b .never) }))) := by
  cases ho : s.chan.outClosed with
  | true => exact .inl ⟨rfl, by simp [outWrite, ho]⟩
  | false =>
    refine .inr ⟨rfl, ?_⟩
    cases hd : s.chan.draw with
    | ok => exact .inl (outWrite_ok b ho hd)
    | fail l =>
      refine .inr (.inl ⟨(s.chan.outWrite b).2, ?_⟩)
      cases l <;> simp [outWrite, ho, Channels.outWrite, hd, afterAck, Channels.made]
    | never => exact .inr (.inr (by simp [outWrite, ho, Channels.outWrite, hd, afterAck]))

end Sys2Proof.Machine
end

