-- ==== Sys2Proof/Laws/BitIO.lean ====
section
/-! SUPPORT. Laws of BitSink and BitSource (40_bitio.md R131 to R139). -/

namespace Sys2Proof.Machine

/-! ### BitSink -/

theorem pushAcc_toNat (acc : BitVec 8) (b : Bool) :
    (pushAcc acc b).toNat = (2 * acc.toNat + b.toNat) % 256 := by
  have key : ∀ (a : BitVec 8), ∀ b : Bool, (pushAcc a b).toNat = (2 * a.toNat + b.toNat) % 256 := by
    decide
  exact key acc b

/-- The value of the pending bits, where the bits above them are zero (R21). -/
theorem State.pending_value {s : State} (h : s.skAcc.toNat < 2 ^ s.skN.val) :
    bitsValue 0 s.pending = s.skAcc.toNat := by
  rw [State.pending, bitsValue_codeBits, Nat.mod_eq_of_lt h]; simp

@[simp] theorem State.pending_length (s : State) : s.pending.length = s.skN.val := by
  simp [State.pending]

theorem State.sank_pending_bits (S : List Bool) (s : State) : (s.sank S).pending = leftBits S := by
  have hl : (leftBits S).length < 8 := by simp; omega
  have hv := bitsValue_lt (leftBits S)
  have : (2 : Nat) ^ (leftBits S).length ≤ 2 ^ 8 := Nat.pow_le_pow_right (by omega) (by omega)
  simp only [State.pending, State.sank, BitVec.toNat_ofNat, Fin.val_ofNat]
  rw [Nat.mod_eq_of_lt (by omega), show S.length % 8 = (leftBits S).length by simp,
    codeBits_bitsValue]

/-- R21: the bits above the pending ones are zero again. -/
theorem State.sank_small (S : List Bool) (s : State) :
    (s.sank S).skAcc.toNat < 2 ^ (s.sank S).skN.val := by
  have hv := bitsValue_lt (leftBits S)
  have hl : (leftBits S).length < 8 := by simp; omega
  have : (2 : Nat) ^ (leftBits S).length ≤ 2 ^ 8 := Nat.pow_le_pow_right (by omega) (by omega)
  simp only [State.sank, BitVec.toNat_ofNat, Fin.val_ofNat]
  rw [Nat.mod_eq_of_lt (by omega), show S.length % 8 = (leftBits S).length by simp]
  exact hv

/-- A sink holds what was pushed onto an empty one. -/
theorem State.sank_self {s : State} (h : s.skAcc.toNat < 2 ^ s.skN.val) : s.sank s.pending = s := by
  have hl : s.pending.length < 8 := by simp
  simp only [State.sank, leftBits_short hl, bytesOfBits_short hl, State.pending_value h,
    State.pending_length, Channels.wrote_nil]
  have hn : Fin.ofNat 8 s.skN.val = s.skN := by ext; simp
  simp

theorem State.sank_sank (S T : List Bool) (s : State) :
    (s.sank S).sank ((s.sank S).pending ++ T) = s.sank (S ++ T) := by
  have e : S ++ T = S.take (8 * (S.length / 8)) ++ (leftBits S ++ T) := by
    rw [← List.append_assoc, leftBits, List.take_append_drop]
  have h8 : (S.take (8 * (S.length / 8))).length % 8 = 0 := by simp; omega
  have hS : bytesOfBits S = bytesOfBits (S.take (8 * (S.length / 8))) := by
    conv_lhs => rw [← List.take_append_drop (8 * (S.length / 8)) S]
    rw [bytesOfBits_append _ h8, bytesOfBits_short (S := S.drop _) (by rw [List.length_drop]; omega),
      List.append_nil]
  rw [State.sank_pending_bits]
  simp only [State.sank, Channels.wrote_wrote]
  rw [e, leftBits_append _ h8, bytesOfBits_append _ h8, hS]
  have hn : Fin.ofNat 8 (leftBits S ++ T).length
      = Fin.ofNat 8 (S.take (8 * (S.length / 8)) ++ (leftBits S ++ T)).length := by
    ext; simp; omega
  rw [hn]

/-- R132: one bit pushed, with the sink's bits below SK_N, an open output and an Ok draw for the byte
it may fill. -/
theorem pushBit_ok {s : State} (b : Bool) (hs : s.skAcc.toNat < 2 ^ s.skN.val)
    (ho : s.chan.outClosed = false) (hd : s.chan.okFor ((s.skN.val + 1) / 8)) :
    pushBit b s = .ok () (s.sank (s.pending ++ [b])) := by
  have hlt := s.skN.isLt
  have hpow : (2 : Nat) ^ s.skN.val ≤ 2 ^ 7 := Nat.pow_le_pow_right (by omega) (by omega)
  have hb : b.toNat ≤ 1 := b.toNat_le
  have hacc : (pushAcc s.skAcc b).toNat = 2 * s.skAcc.toNat + b.toNat := by
    rw [pushAcc_toNat, Nat.mod_eq_of_lt (by omega)]
  have hval : bitsValue 0 (s.pending ++ [b]) = (pushAcc s.skAcc b).toNat := by
    rw [bitsValue_append, State.pending_value hs, hacc]; rfl
  have hlen : (s.pending ++ [b]).length = s.skN.val + 1 := by simp
  have hof : BitVec.ofNat 8 (pushAcc s.skAcc b).toNat = pushAcc s.skAcc b := by simp
  unfold pushBit
  split
  · rename_i h
    have hl : (s.pending ++ [b]).length < 8 := by omega
    simp only [State.sank, leftBits_short hl, bytesOfBits_short hl, hval, hof, hlen,
      Channels.wrote_nil]
    congr 2
    ext; simp [Nat.mod_eq_of_lt h]
  · have h8 : (s.pending ++ [b]).length = 8 := by omega
    have hd1 : s.chan.draw = .ok := hd.draw (by omega)
    have e1 : bytesOfBits (s.pending ++ [b]) = [pushAcc s.skAcc b] := by
      have := bytesOfBits_eight [] h8
      rw [List.append_nil, bytesOfBits_short (S := []) (by simp), hval, hof] at this
      exact this
    have e2 : leftBits (s.pending ++ [b]) = [] := by
      have := leftBits_eight [] h8
      rwa [List.append_nil, leftBits_short (S := []) (by simp)] at this
    dsimp only
    rw [outWrite_ok _ ho hd1]
    simp only [State.sank, e1, e2, h8]
    rfl

/-- R132, the "equivalent statement" of WRBITS: the pending bits and the new ones, oldest first, are
written a byte per eight, and the rest is pending. -/
theorem pushBits_ok (bits : List Bool) {s : State} (hs : s.skAcc.toNat < 2 ^ s.skN.val)
    (ho : s.chan.outClosed = false) (hd : s.chan.okFor ((s.skN.val + bits.length) / 8)) :
    pushBits bits s = .ok () (s.sank (s.pending ++ bits)) := by
  induction bits generalizing s with
  | nil => rw [List.append_nil, State.sank_self hs]; rfl
  | cons b bits ih =>
    have h1 := pushBit_ok b hs ho (hd.mono (by simp; omega))
    rw [pushBits, h1, Res.ok_bind]
    have hn : (s.sank (s.pending ++ [b])).skN.val = (s.skN.val + 1) % 8 := by
      simp [State.sank]
    rw [ih (State.sank_small _ _) ho, State.sank_sank, List.append_assoc, List.singleton_append]
    refine Channels.okFor_of_draws (m := (s.skN.val + 1) / 8) (hd.mono ?_) ?_
    · rw [hn, List.length_cons]; omega
    · simp [State.sank]

theorem pushBits_append (as bs : List Bool) (s : State) :
    pushBits (as ++ bs) s = (pushBits as s).bind fun _ t => pushBits bs t := by
  induction as generalizing s with
  | nil => rfl
  | cons a as ih =>
    simp only [List.cons_append, pushBits, Res.bind_assoc, ih]

/-- R132, R133: `WRBITS(v, L)`. -/
theorem writeBits_ok (v L : Nat) {s : State} (hs : s.skAcc.toNat < 2 ^ s.skN.val)
    (ho : s.chan.outClosed = false) (hd : s.chan.okFor ((s.skN.val + L) / 8)) :
    writeBits v L s = .ok () (s.sank (s.pending ++ codeBits v L)) :=
  pushBits_ok _ hs ho (by simpa using hd)

/-- R139 (c): two bit-codes written one after the other are one bit-code written. -/
theorem writeBits_concat (v₁ v₂ L₁ L₂ : Nat) (h : v₂ < 2 ^ L₂) (s : State) :
    writeBits (v₁ * 2 ^ L₂ + v₂) (L₁ + L₂) s
      = (writeBits v₁ L₁ s).bind fun _ t => writeBits v₂ L₂ t := by
  rw [writeBits, codeBits_append _ _ _ _ h, pushBits_append]; rfl

theorem padded_toNat (acc : BitVec 8) (n : Nat) (hn : n ≤ 8) :
    (padded acc n).toNat = (acc.toNat % 2 ^ n) * 2 ^ (8 - n) := by
  rw [padded, BitVec.toNat_shiftLeft, Nat.shiftLeft_eq]
  have : (2 : Nat) ^ 8 = 2 ^ n * 2 ^ (8 - n) := by rw [← pow_add]; congr 1; omega
  rw [this, Nat.mul_mod_mul_right]

/-- R134: FLUSH with bits pending writes one byte: the pending bits, then zeros. -/
theorem flushSink_pending {s : State} (hn : s.skN ≠ 0) (ho : s.chan.outClosed = false)
    (hd : s.chan.draw = .ok) :
    flushSink s = .ok () { s with
      skAcc := 0, skN := 0, chan := s.chan.wrote (bytesOfBits (padBits s.pending)) } := by
  have h0 : s.skN.val ≠ 0 := fun h => hn (Fin.ext h)
  have hlt := s.skN.isLt
  have hmod : s.skN.val % 8 = s.skN.val := Nat.mod_eq_of_lt hlt
  have hpad : padBits s.pending = s.pending ++ List.replicate (8 - s.skN.val) false := by
    rw [padBits, State.pending_length, hmod, Nat.mod_eq_of_lt (by omega)]
  have h8 : (padBits s.pending).length = 8 := by rw [hpad]; simp
  have hz : ∀ n, bitsValue 0 (List.replicate n false) = 0 := by
    intro n
    induction n with
    | zero => rfl
    | succ n ih => simpa [List.replicate_succ] using ih
  have hbyte : bytesOfBits (padBits s.pending) = [padded s.skAcc s.skN.val] := by
    have := bytesOfBits_eight [] h8
    rw [List.append_nil, bytesOfBits_short (S := []) (by simp)] at this
    rw [this]
    congr 1
    apply BitVec.eq_of_toNat_eq
    have hb := bitsValue_lt (padBits s.pending)
    rw [h8] at hb
    rw [BitVec.toNat_ofNat, Nat.mod_eq_of_lt hb, hpad, bitsValue_append, bitsValue_eq, hz,
      List.length_replicate, State.pending, bitsValue_codeBits, padded_toNat _ _ hlt.le]
    simp
  rw [flushSink, if_neg hn, outWrite_ok _ ho hd, hbyte]
  rfl

/-- R134: FLUSH with nothing pending emits no byte. -/
theorem flushSink_empty {s : State} (hn : s.skN = 0) : flushSink s = .ok () s := by
  rw [flushSink, if_pos hn]

/-! ### BitSource -/

@[simp] theorem State.bitStream_length (s : State) :
    s.bitStream.length = s.srN.val + 8 * s.chan.rest.length := by
  rw [State.bitStream, List.length_append, codeBits_length, flatMap_byteBits_length]; rfl

theorem State.sourced_srN (n : Nat) (s : State) :
    (s.sourced n).srN.val = s.srN.val + 8 * s.fetches n - n := by
  have := s.srN.isLt
  simp only [State.sourced, State.fetches, Fin.val_ofNat]
  omega

theorem State.sourced_zero (s : State) : s.sourced 0 = s := by
  have hf : s.fetches 0 = 0 := by simp [State.fetches]
  simp [State.sourced, hf]

theorem State.sourced_sourced (a b : Nat) (s : State) :
    (s.sourced a).sourced b = s.sourced (a + b) := by
  have h := s.srN.isLt
  have hn := s.sourced_srN a
  have hf : s.fetches (a + b) = s.fetches a + (s.sourced a).fetches b := by
    unfold State.fetches at *
    rw [hn]; omega
  have hN : Fin.ofNat 9 ((s.sourced a).srN.val + 8 * (s.sourced a).fetches b - b)
      = Fin.ofNat 9 (s.srN.val + 8 * s.fetches (a + b) - (a + b)) := by
    congr 1
    rw [hf, hn]
    unfold State.fetches at *
    omega
  have hA : (if (s.sourced a).fetches b = 0 then (s.sourced a).srAcc
        else (s.sourced a).chan.rest.getD ((s.sourced a).fetches b - 1) 0)
      = if s.fetches (a + b) = 0 then s.srAcc else s.chan.rest.getD (s.fetches (a + b) - 1) 0 := by
    rw [hf]
    have hc : (s.sourced a).chan.rest = s.chan.rest.drop (s.fetches a) := by simp [State.sourced]
    have hacc : (s.sourced a).srAcc
      = if s.fetches a = 0 then s.srAcc else s.chan.rest.getD (s.fetches a - 1) 0 := rfl
    by_cases hb : (s.sourced a).fetches b = 0
    · simp [hb, hacc]
    · rw [if_neg hb, if_neg (by omega), hc]
      simp only [List.getD_eq_getElem?_getD, List.getElem?_drop]
      congr 2; omega
  have hC : (s.sourced a).chan.took ((s.sourced a).fetches b) = s.chan.took (s.fetches (a + b)) := by
    rw [hf, ← Channels.took_took]; rfl
  rw [State.sourced, hA, hN, hC]
  rfl

theorem State.sourced_one_kept {s : State} (h : s.srN ≠ 0) :
    s.sourced 1 = { s with srN := ⟨s.srN.val - 1, by omega⟩ } := by
  have hlt := s.srN.isLt
  have h0 : s.srN.val ≠ 0 := fun e => h (Fin.ext e)
  have hf : s.fetches 1 = 0 := by unfold State.fetches; omega
  have hn : Fin.ofNat 9 (s.srN.val - 1) = ⟨s.srN.val - 1, by omega⟩ := by
    ext; simp; omega
  simp only [State.sourced, hf, if_true, Nat.mul_zero, Nat.add_zero, Channels.took_zero, hn]

theorem State.sourced_one_fetched {s : State} {b : Byte} {bs : List Byte} (h : s.srN = 0)
    (hr : s.chan.rest = b :: bs) :
    s.sourced 1 = { s with srAcc := b, srN := 7, chan := s.chan.took 1 } := by
  have h0 : s.srN.val = 0 := by rw [h]; rfl
  have hf : s.fetches 1 = 1 := by unfold State.fetches; omega
  simp [State.sourced, hf, hr, h]

/-- R136: RDBIT delivers the first bit of the stream. -/
theorem readBit_ok {s : State} {b : Bool} {bs : List Bool} (hb : s.bitStream = b :: bs)
    (hd : s.srN = 0 → s.chan.draw = .ok) :
    readBit s = .ok (some b) (s.sourced 1) ∧ (s.sourced 1).bitStream = bs := by
  by_cases h : s.srN = 0
  · have h0 : s.srN.val = 0 := by rw [h]; rfl
    cases hr : s.chan.rest with
    | nil =>
      have := congrArg List.length hb
      simp [hr, h0] at this
    | cons x xs =>
      rw [State.sourced_one_fetched h hr]
      have hbits : s.bitStream = byteBits x ++ xs.flatMap byteBits := by
        have : s.chan.input.drop s.chan.inPos = x :: xs := hr
        rw [State.bitStream, h0, this]; rfl
      rw [hbits, byteBits, codeBits] at hb
      simp only [List.cons_append, List.cons.injEq] at hb
      refine ⟨?_, ?_⟩
      · rw [readBit, if_pos h, inRead_byte (hd h) hr]
        simp only [Res.ok_bind, deliver]
        rw [← hb.1]
        rfl
      · rw [← hb.2]
        have : (s.chan.took 1).rest = xs := by simp [hr]
        simp only [State.bitStream]
        rw [show List.drop (s.chan.took 1).inPos (s.chan.took 1).input = xs from this]
        rfl
  · have h0 : s.srN.val ≠ 0 := fun e => h (Fin.ext e)
    obtain ⟨n, hn⟩ : ∃ n, s.srN.val = n + 1 := ⟨s.srN.val - 1, by omega⟩
    rw [State.sourced_one_kept h]
    rw [State.bitStream, hn, codeBits, List.cons_append, List.cons.injEq] at hb
    refine ⟨?_, ?_⟩
    · rw [readBit, if_neg h, deliver, ← hb.1]
      simp only [hn, Nat.add_sub_cancel]
      rfl
    · rw [← hb.2]
      simp [State.bitStream, hn]

theorem State.fetches_add (a b : Nat) (s : State) :
    s.fetches (a + b) = s.fetches a + (s.sourced a).fetches b := by
  have h := s.srN.isLt
  have hn := s.sourced_srN a
  unfold State.fetches at *
  rw [hn]; omega

/-- R137: RDBITS delivers the next `n` bits of the stream, first bit most significant, fetching no more
bytes than it needs (R75). -/
theorem readBitsFrom_ok (r n : Nat) {s : State} (hn : n ≤ s.bitStream.length)
    (hd : s.chan.okFor (s.fetches n)) :
    readBitsFrom r n s = .ok (some (bitsValue r (s.bitStream.take n))) (s.sourced n) ∧
      (s.sourced n).bitStream = s.bitStream.drop n := by
  induction n generalizing r s with
  | zero => simp [readBitsFrom, State.sourced_zero]
  | succ n ih =>
    cases hb : s.bitStream with
    | nil => simp [hb] at hn
    | cons b bs =>
      have hf := s.fetches_add 1 n
      rw [Nat.add_comm 1 n] at hf
      have h1 := readBit_ok hb (fun h => hd.draw (by
        have : s.srN.val = 0 := by rw [h]; rfl
        unfold State.fetches; omega))
      have h2 := ih (2 * r + b.toNat) (s := s.sourced 1) (by
        rw [h1.2]; rw [hb] at hn; simpa using hn)
        (Channels.okFor_of_draws (c := s.chan) (m := s.fetches 1) (by rwa [← hf]) rfl)
      rw [State.sourced_sourced, Nat.add_comm 1 n, h1.2] at h2
      rw [readBitsFrom, h1.1]
      exact h2

/-- R136: RDBIT with no bit left, and an Ok draw, delivers EOS. -/
theorem readBit_eos {s : State} (hb : s.bitStream = []) (hd : s.chan.draw = .ok) :
    readBit s = .ok none { s with chan := s.chan.metEnd } := by
  have hl := congrArg List.length hb
  rw [State.bitStream_length, List.length_nil] at hl
  have h0 : s.srN = 0 := Fin.ext (by simp; omega)
  have hr : s.chan.rest = [] := List.length_eq_zero_iff.mp (by omega)
  rw [readBit, if_pos h0, inRead_eos hd hr]; rfl

/-- R138: where fewer than `n` bits remain RDBITS consumes them and delivers EOS. -/
theorem readBitsFrom_eos (r n : Nat) {s : State} (hn : s.bitStream.length < n)
    (hd : s.chan.okFor (s.chan.rest.length + 1)) :
    readBitsFrom r n s = .ok none { s.sourced s.bitStream.length with
      chan := (s.sourced s.bitStream.length).chan.metEnd } := by
  obtain ⟨m, rfl⟩ : ∃ m, n = s.bitStream.length + (m + 1) := ⟨n - s.bitStream.length - 1, by omega⟩
  clear hn
  generalize hk : s.bitStream.length = k
  induction k generalizing r s with
  | zero =>
    have hb := List.length_eq_zero_iff.mp hk
    rw [Nat.zero_add, readBitsFrom, readBit_eos hb (hd.draw (by omega)), State.sourced_zero]; rfl
  | succ k ih =>
    cases hb : s.bitStream with
    | nil => simp [hb] at hk
    | cons b bs =>
      have h1 := readBit_ok hb (fun _ => hd.draw (by omega))
      have hk1 : (s.sourced 1).bitStream.length = k := by
        rw [h1.2]; rw [hb] at hk; simpa using hk
      have hrest : (s.sourced 1).chan.rest.length = s.chan.rest.length - s.fetches 1 := by
        simp [State.sourced]
      have hf1 : s.fetches 1 ≤ s.chan.rest.length := by
        have := s.bitStream_length
        unfold State.fetches; omega
      have h2 := ih (2 * r + b.toNat) (s := s.sourced 1)
        (Channels.okFor_of_draws (c := s.chan) (m := s.fetches 1) (hd.mono (by omega)) rfl) hk1
      rw [State.sourced_sourced, Nat.add_comm 1 k] at h2
      rw [show k + 1 + (m + 1) = (k + (m + 1)) + 1 by omega, readBitsFrom, h1.1]
      exact h2

end Sys2Proof.Machine
end

