-- ==== Sys2Proof/Laws/Tables.lean ====
section
/-! SUPPORT. Laws of the tables: one entry read and written, all entries in order, the present
symbols (10_state.md R57, R187). -/

namespace Sys2Proof.Machine

/-! ### One entry -/

theorem entry_setEntry {α : Type} (t : Table α) (a b : Byte) (x : α) :
    entry (setEntry t a x) b = if a = b then x else entry t b := by
  unfold entry setEntry
  rw [Vector.getElem_set]
  have : a.toNat = b.toNat ↔ a = b := BitVec.toNat_inj
  simp [this]

@[simp] theorem entry_setEntry_self {α : Type} (t : Table α) (b : Byte) (x : α) :
    entry (setEntry t b x) b = x := by
  simp [entry_setEntry]

theorem entry_setEntry_ne {α : Type} (t : Table α) {a b : Byte} (x : α) (h : a ≠ b) :
    entry (setEntry t a x) b = entry t b := by
  simp [entry_setEntry, h]

@[simp] theorem entry_replicate {α : Type} (x : α) (b : Byte) :
    entry (Vector.replicate 256 x) b = x := by
  simp [entry]

/-- Tables with the same entries are the same table. -/
theorem table_ext {α : Type} {t u : Table α} (h : ∀ b, entry t b = entry u b) : t = u := by
  apply Vector.ext
  intro i hi
  have := h (BitVec.ofNat 8 i)
  simpa [entry, Nat.mod_eq_of_lt hi] using this

/-! ### All symbols -/

@[simp] theorem allBytes_length : allBytes.length = 256 := by simp [allBytes]

theorem allBytes_getElem (i : Nat) (h : i < allBytes.length) :
    allBytes[i] = BitVec.ofNat 8 i := by
  simp [allBytes]

@[simp] theorem mem_allBytes (b : Byte) : b ∈ allBytes := by
  rw [allBytes, List.mem_map]
  exact ⟨b.toNat, List.mem_range.mpr b.isLt, by simp⟩

theorem allBytes_sorted : allBytes.Pairwise fun a b => a.toNat < b.toNat := by
  rw [allBytes, List.pairwise_map]
  refine List.Pairwise.imp_of_mem ?_ List.pairwise_lt_range
  intro a b ha hb hab
  have := List.mem_range.mp ha
  have := List.mem_range.mp hb
  simp only [BitVec.toNat_ofNat]
  omega

theorem allBytes_nodup : allBytes.Nodup :=
  allBytes_sorted.imp fun h e => by rw [e] at h; exact lt_irrefl _ h

/-- The entries of a table are its symbols with their entries, in ascending order. -/
theorem entries_eq {α : Type} (t : Table α) : entries t = allBytes.map fun b => (b, entry t b) := by
  apply List.ext_getElem
  · simp [entries]
  · intro i h1 h2
    have hi : i < 256 := by simpa using h2
    simp [entries, allBytes_getElem, entry, Nat.mod_eq_of_lt hi]

theorem toList_eq {α : Type} (t : Table α) : t.toList = allBytes.map (entry t) := by
  apply List.ext_getElem
  · simp
  · intro i h1 h2
    have hi : i < 256 := by simpa using h2
    simp [allBytes_getElem, entry, Nat.mod_eq_of_lt hi]

/-! ### Present symbols -/

theorem present_eq (len : Table (BitVec 8)) :
    present len = (allBytes.filter fun b => entry len b ≠ 0).map fun b => (b, (entry len b).toNat) := by
  rw [present, entries_eq, List.filterMap_map]
  induction allBytes with
  | nil => rfl
  | cons b bs ih =>
    by_cases h : entry len b = 0 <;> simp_all

theorem mem_present {len : Table (BitVec 8)} {b : Byte} {l : Nat} :
    (b, l) ∈ present len ↔ entry len b ≠ 0 ∧ l = (entry len b).toNat := by
  rw [present_eq]
  simp only [List.mem_map, List.mem_filter, mem_allBytes, Prod.mk.injEq, true_and]
  constructor
  · rintro ⟨a, ha, rfl, rfl⟩; simpa using ha
  · rintro ⟨h, rfl⟩; exact ⟨b, by simpa using h, rfl, rfl⟩

theorem present_sorted (len : Table (BitVec 8)) :
    (present len).Pairwise fun a b => a.1.toNat < b.1.toNat := by
  rw [present_eq, List.pairwise_map]
  exact allBytes_sorted.sublist List.filter_sublist

theorem present_nodup_fst (len : Table (BitVec 8)) : ((present len).map Prod.fst).Nodup := by
  rw [List.nodup_iff_pairwise_ne, List.pairwise_map]
  exact (present_sorted len).imp fun h e => by rw [e] at h; exact lt_irrefl _ h

theorem present_nodup (len : Table (BitVec 8)) : (present len).Nodup :=
  List.Nodup.of_map _ (present_nodup_fst len)

theorem present_length_le (len : Table (BitVec 8)) : (present len).length ≤ 256 := by
  rw [present_eq, List.length_map]
  calc _ ≤ allBytes.length := List.length_filter_le _ _
    _ = 256 := allBytes_length

/-- A present symbol's length is 1 to 255. -/
theorem present_length_range {len : Table (BitVec 8)} {e : Byte × Nat} (h : e ∈ present len) :
    1 ≤ e.2 ∧ e.2 ≤ 255 := by
  obtain ⟨b, l⟩ := e
  obtain ⟨h0, rfl⟩ := mem_present.mp h
  have h1 := (entry len b).isLt
  have : (entry len b).toNat ≠ 0 := fun e => h0 (BitVec.eq_of_toNat_eq (by simpa using e))
  exact ⟨by omega, by omega⟩

/-! ### Many writes -/

/-- An entry no write names keeps its value. -/
theorem entry_foldl_other {α β : Type} (key : β → Byte) (val : β → α) (es : List β) (t : Table α)
    (b : Byte) (h : ∀ e ∈ es, key e ≠ b) :
    entry (es.foldl (fun t e => setEntry t (key e) (val e)) t) b = entry t b := by
  induction es generalizing t with
  | nil => rfl
  | cons e es ih =>
    rw [List.foldl_cons, ih _ fun x hx => h x (List.mem_cons_of_mem _ hx),
      entry_setEntry_ne _ _ (h e List.mem_cons_self)]

/-- Where the writes name each entry at most once, an entry holds what was written to it. -/
theorem entry_foldl_mem {α β : Type} (key : β → Byte) (val : β → α) (es : List β) (t : Table α)
    (hn : (es.map key).Nodup) {e : β} (he : e ∈ es) :
    entry (es.foldl (fun t e => setEntry t (key e) (val e)) t) (key e) = val e := by
  induction es generalizing t with
  | nil => simp at he
  | cons x es ih =>
    rw [List.map_cons, List.nodup_cons] at hn
    rw [List.foldl_cons]
    rcases List.mem_cons.mp he with rfl | he
    · have ho : ∀ y ∈ es, key y ≠ key e := fun y hy hk => hn.1 (hk ▸ List.mem_map_of_mem hy)
      rw [entry_foldl_other key val es _ _ ho, entry_setEntry_self]
    · exact ih _ hn.2 he

end Sys2Proof.Machine
end

