-- ==== Sys2Proof/Laws/Frequency.lean ====
section
/-! SUPPORT. Laws of FrequencyTable (41_frequency.md R151 to R154). -/

namespace Sys2Proof.Machine

theorem count_one : (1 : Count).toNat = 1 := rfl

/-- R17: a 64-bit sum that fits is an ordinary addition. -/
theorem sumCount_fits {a b : Count} (n : Nat) (h : a.toNat + b.toNat < 2 ^ 64) :
    sumCount a b n = (a + b, n) := by
  simp only [sumCount, if_pos h]

/-- Everything a 64-bit sum can do (R17): the sum, or a free value. -/
theorem sumCount_cases (a b : Count) (n : Nat) :
    (a.toNat + b.toNat < 2 ^ 64 ∧ sumCount a b n = (a + b, n)) ∨
    (2 ^ 64 ≤ a.toNat + b.toNat ∧ sumCount a b n = (Config.freeCount n, n + 1)) := by
  by_cases h : a.toNat + b.toNat < 2 ^ 64
  · exact .inl ⟨h, sumCount_fits n h⟩
  · exact .inr ⟨by omega, by simp only [sumCount, if_neg h]⟩

/-- FREQ after these bytes were counted (R151). -/
def countAll (bs : List Byte) (t : Table Count) : Table Count :=
  bs.foldl (fun t b => setEntry t b (entry t b + 1)) t

/-- R154: each counter has grown by the number of occurrences of its byte. -/
theorem entry_countAll (bs : List Byte) (t : Table Count) (b : Byte) :
    entry (countAll bs t) b = entry t b + BitVec.ofNat 64 (bs.count b) := by
  induction bs generalizing t with
  | nil => simp [countAll]
  | cons a bs ih =>
    have : countAll (a :: bs) t = countAll bs (setEntry t a (entry t a + 1)) := rfl
    rw [this, ih, entry_setEntry, List.count_cons]
    by_cases h : a = b
    · subst h
      rw [if_pos rfl, BitVec.add_assoc, Nat.add_comm]
      simp [BitVec.ofNat_add]
    · simp [h]

/-- What a state holds after pass 1 read the rest of the input (R153). -/
def State.scanned (s : State) : State :=
  { s with
    freq := countAll s.chan.rest s.freq
    origLen := s.origLen + BitVec.ofNat 64 s.chan.rest.length
    chan := (s.chan.took s.chan.rest.length).metEnd }

theorem countByte_fits {s : State} {b : Byte} (h : (entry s.freq b).toNat + 1 < 2 ^ 64) :
    countByte b s = { s with freq := setEntry s.freq b (entry s.freq b + 1) } := by
  simp only [countByte]
  rw [sumCount_fits _ (by simpa using h)]

theorem countLength_fits {s : State} (h : s.origLen.toNat + 1 < 2 ^ 64) :
    countLength s = { s with origLen := s.origLen + 1 } := by
  simp only [countLength]
  rw [sumCount_fits _ (by simpa using h)]

/-- R153, R154: pass 1 counts every byte left, and their number, within the envelope of R152. -/
theorem scanLoop_ok (bs : List Byte) {s : State} {turns : Nat} (ht : bs.length < turns)
    (hr : s.chan.rest = bs) (hd : s.chan.okFor (bs.length + 1))
    (hf : ∀ b, (entry s.freq b).toNat + bs.count b < 2 ^ 64)
    (ho : s.origLen.toNat + bs.length < 2 ^ 64) :
    scanLoop turns s = .ok () s.scanned := by
  induction bs generalizing s turns with
  | nil =>
    obtain ⟨turns, rfl⟩ : ∃ k, turns = k + 1 := ⟨turns - 1, by simp at ht; omega⟩
    rw [scanLoop, scanTurn, inRead_eos (hd.draw (by simp)) hr]
    simp [State.scanned, hr, countAll]
  | cons b bs ih =>
    obtain ⟨turns, rfl⟩ : ∃ k, turns = k + 1 := ⟨turns - 1, by simp at ht; omega⟩
    rw [scanLoop, scanTurn, inRead_byte (hd.draw (by simp)) hr]
    simp only [Res.ok_bind, if_true]
    have hb := hf b
    rw [List.count_cons_self] at hb
    rw [List.length_cons] at ho ht hd
    rw [countByte_fits (by simpa using (by omega : (entry s.freq b).toNat + 1 < 2 ^ 64)),
      countLength_fits (by simp only; omega)]
    rw [ih (s := _) (by omega) (by simp [hr])
      (Channels.okFor_of_draws (c := s.chan) (m := 1) (by rwa [Nat.add_comm]) rfl)]
    · simp only [State.scanned, hr, List.length_cons]
      have e : (s.chan.took 1).rest = bs := by simp [hr]
      have e1 : (1 : Count) = BitVec.ofNat 64 1 := rfl
      rw [e, Channels.took_took, Nat.add_comm 1, e1, BitVec.add_assoc, ← BitVec.ofNat_add,
        Nat.add_comm 1]
      rfl
    · intro c
      have hc := hf c
      rw [List.count_cons] at hc
      simp only [entry_setEntry]
      by_cases h : b = c
      · subst h
        simp only [beq_self_eq_true, if_true] at hc
        rw [if_pos rfl, BitVec.toNat_add, count_one]
        omega
      · rw [if_neg h]; omega
    · simp only [BitVec.toNat_add, count_one]
      omega

theorem readTurns_eq (s : State) : readTurns s = s.chan.rest.length + 1 := by
  simp [readTurns, Channels.rest]

/-- R153: `FQ_SCAN`. -/
theorem scanInput_ok {s : State} (hd : s.chan.okFor (s.chan.rest.length + 1))
    (hf : ∀ b, (entry s.freq b).toNat + s.chan.rest.count b < 2 ^ 64)
    (ho : s.origLen.toNat + s.chan.rest.length < 2 ^ 64) :
    scanInput s = .ok () s.scanned :=
  scanLoop_ok s.chan.rest (by rw [readTurns_eq]; omega) rfl hd hf ho

end Sys2Proof.Machine
end

