-- ==== Sys2Proof/Laws/TreeBuilder.lean ====
section
/-! SUPPORT. Laws of TreeBuilder (42_treebuilder.md R161 to R171): the priority order, one merge, and
the forest every merge keeps. -/

namespace Sys2Proof.Machine

/-! ### The priority order (R162) -/

/-- The weight of a node of the arena, as a number. -/
def weightAt (nodes : Vector Node 511) (i : NodeIx) : Nat :=
  (nodeAt nodes i).weight.toNat

theorem lower_iff (nodes : Vector Node 511) (i j : NodeIx) :
    lower nodes i j = true ↔
      weightAt nodes i < weightAt nodes j ∨ (weightAt nodes i = weightAt nodes j ∧ i.val < j.val) := by
  simp [lower, weightAt]

/-- R162: the order is total, so "the lowest" is always unique. -/
theorem lower_total (nodes : Vector Node 511) {i j : NodeIx} (h : i ≠ j) :
    lower nodes i j = true ∨ lower nodes j i = true := by
  rw [lower_iff, lower_iff]
  have : i.val ≠ j.val := fun e => h (Fin.ext e)
  omega

theorem lower_trans {nodes : Vector Node 511} {i j k : NodeIx} (h₁ : lower nodes i j = true)
    (h₂ : lower nodes j k = true) : lower nodes i k = true := by
  rw [lower_iff] at *; omega

theorem lowestFrom_mem (nodes : Vector Node 511) (i : NodeIx) (l : List NodeIx) :
    lowestFrom nodes i l ∈ i :: l := by
  induction l generalizing i with
  | nil => simp [lowestFrom]
  | cons j l ih =>
    have := ih (if lower nodes j i then j else i)
    rw [lowestFrom]
    rcases List.mem_cons.mp this with h | h
    · rw [h]; split <;> simp
    · simp [h]

theorem lowestFrom_lowest (nodes : Vector Node 511) (i : NodeIx) (l : List NodeIx) :
    ∀ x ∈ i :: l, x = lowestFrom nodes i l ∨ lower nodes (lowestFrom nodes i l) x = true := by
  induction l generalizing i with
  | nil => simp [lowestFrom]
  | cons j l ih =>
    have h := ih (if lower nodes j i then j else i)
    rw [lowestFrom]
    generalize lowestFrom nodes (if lower nodes j i then j else i) l = m at *
    have hk := h (if lower nodes j i then j else i) List.mem_cons_self
    have hle : ∀ x, x = (if lower nodes j i then j else i) ∨
        lower nodes (if lower nodes j i then j else i) x = true →
        x = m ∨ lower nodes m x = true := by
      intro x hx
      rcases hx with rfl | hx
      · exact hk
      · rcases hk with e | hk
        · exact .inr (e ▸ hx)
        · exact .inr (lower_trans hk hx)
    intro x hx
    simp only [List.mem_cons] at hx
    rcases hx with rfl | rfl | hx
    · apply hle
      by_cases c : lower nodes j x = true
      · rw [if_pos c]; exact .inr c
      · rw [if_neg c]; exact .inl rfl
    · apply hle
      by_cases c : lower nodes x i = true
      · rw [if_pos c]; exact .inl rfl
      · rw [if_neg c]
        by_cases e : x = i
        · exact .inl e
        · exact .inr ((lower_total nodes e).resolve_left c)
    · exact h x (List.mem_cons_of_mem _ hx)

/-- R164: `extract_min` takes the lowest member out. -/
theorem extractMin_spec {nodes : Vector Node 511} {pq : List NodeIx} (h : pq ≠ []) :
    ∃ m, extractMin nodes pq = some (m, pq.erase m) ∧ m ∈ pq ∧
      ∀ x ∈ pq, x = m ∨ lower nodes m x = true := by
  cases pq with
  | nil => exact absurd rfl h
  | cons i l =>
    exact ⟨lowestFrom nodes i l, rfl, lowestFrom_mem nodes i l, lowestFrom_lowest nodes i l⟩

/-! ### The arena -/

theorem nodeAt_set (nodes : Vector Node 511) (i j : NodeIx) (x : Node) :
    nodeAt (nodes.set i.val x i.isLt) j = if i = j then x else nodeAt nodes j := by
  unfold nodeAt
  rw [Vector.getElem_set]
  simp [Fin.ext_iff]

theorem nodeAt_setIfInBounds (nodes : Vector Node 511) (n : Nat) (j : NodeIx) (x : Node) :
    nodeAt (nodes.setIfInBounds n x) j = if n = j.val then x else nodeAt nodes j := by
  unfold nodeAt
  rw [Vector.getElem_setIfInBounds]

theorem nodeAt_placeFrom (leaves : List Node) (n : Nat) (nodes : Vector Node 511) (j : NodeIx) :
    nodeAt ((leaves.zipIdx n).foldl (fun t e => t.setIfInBounds e.2 e.1) nodes) j
      = if h : n ≤ j.val ∧ j.val - n < leaves.length then leaves[j.val - n]'h.2
        else nodeAt nodes j := by
  induction leaves generalizing n nodes with
  | nil => simp
  | cons x leaves ih =>
    rw [List.zipIdx_cons, List.foldl_cons, ih, nodeAt_setIfInBounds]
    by_cases h : n = j.val
    · subst h
      simp
    · by_cases h1 : n ≤ j.val ∧ j.val - n < (x :: leaves).length
      · have h2 : n + 1 ≤ j.val ∧ j.val - (n + 1) < leaves.length := by
          simp at h1; omega
        rw [dif_pos h1, dif_pos h2]
        have : j.val - n = (j.val - (n + 1)) + 1 := by omega
        simp only [this, List.getElem_cons_succ]
      · have h2 : ¬(n + 1 ≤ j.val ∧ j.val - (n + 1) < leaves.length) := by
          simp at h1 ⊢; omega
        rw [dif_neg h1, dif_neg h2, if_neg h]

/-- R161: the leaves stand in the first entries of the arena, in their order. -/
theorem nodeAt_placeLeaves (nodes : Vector Node 511) (leaves : List Node) (j : NodeIx) :
    nodeAt (placeLeaves nodes leaves) j
      = if h : j.val < leaves.length then leaves[j.val] else nodeAt nodes j := by
  rw [placeLeaves, nodeAt_placeFrom]
  simp

theorem seedLeaves_eq (freq : Table Count) :
    seedLeaves freq = (countedBytes freq).map fun b => .leaf b (entry freq b) := by
  rw [seedLeaves, entries_eq, List.filterMap_map, countedBytes]
  induction allBytes with
  | nil => rfl
  | cons b bs ih => by_cases h : entry freq b = 0 <;> simp_all

theorem countedBytes_nodup (freq : Table Count) : (countedBytes freq).Nodup :=
  allBytes_nodup.filter _

theorem mem_countedBytes {freq : Table Count} {b : Byte} :
    b ∈ countedBytes freq ↔ entry freq b ≠ 0 := by
  simp [countedBytes]

theorem countedBytes_length_le (freq : Table Count) : (countedBytes freq).length ≤ 256 :=
  (List.length_filter_le _ _).trans_eq allBytes_length

/-! ### Trees -/

theorem Tree.symbols_length_pos (T : Tree) : 1 ≤ T.symbols.length := by
  induction T with
  | leaf x => simp [Tree.symbols]
  | node l r hl hr => simp [Tree.symbols]; omega

/-- R170: the depth of any leaf is at most the number of leaves less one. -/
theorem Tree.height_lt (T : Tree) : T.height < T.symbols.length := by
  induction T with
  | leaf x => simp [Tree.symbols, Tree.height]
  | node l r hl hr =>
    have := l.symbols_length_pos
    have := r.symbols_length_pos
    simp [Tree.symbols, Tree.height]; omega

/-- A tree in the arena is not touched by a write above all its nodes. -/
theorem Represents.set {nodes : Vector Node 511} {n : NodeIx} {x : Node}
    (hc : ∀ (i a b : NodeIx) (w : Count), i.val < n.val →
      nodeAt nodes i = .internal a b w → a.val < i.val ∧ b.val < i.val)
    {i : NodeIx} {T : Tree} (h : Represents nodes i T) (hi : i.val < n.val) :
    Represents (nodes.set n.val x n.isLt) i T := by
  induction h with
  | leaf i y w h =>
    refine .leaf i y w ?_
    rw [nodeAt_set, if_neg (by intro e; subst e; exact lt_irrefl _ hi), h]
  | node i a b w l r h hl hr ihl ihr =>
    have hab := hc i a b w hi h
    refine .node i a b w l r ?_ (ihl (by omega)) (ihr (by omega))
    rw [nodeAt_set, if_neg (by intro e; subst e; exact lt_irrefl _ hi), h]

/-! ### The forest every merge keeps -/

/-- What TB_SEED makes and every TB_MERGE keeps: the members of PQ are the roots of trees over the
symbols `syms`, each symbol in exactly one leaf (R55). `tr i` is the tree under the member `i`. -/
structure Forest (syms : List Byte) (s : State) (tr : NodeIx → Tree) : Prop where
  sorted : s.pq.Pairwise (· < ·)
  bound : ∀ i ∈ s.pq, i.val < s.nnodes.val
  count : s.nnodes.val + s.pq.length = 2 * syms.length
  child : ∀ (i a b : NodeIx) (w : Count), i.val < s.nnodes.val →
    nodeAt s.node i = .internal a b w → a.val < i.val ∧ b.val < i.val
  tree : ∀ i ∈ s.pq, Represents s.node i (tr i)
  perm : (s.pq.flatMap fun i => (tr i).symbols).Perm syms
  last : s.pq ≠ [] → ∃ i ∈ s.pq, i.val + 1 = s.nnodes.val

/-- The weights of a forest: those of the members of PQ add up to `total`, and an internal node's is
the sum of its children's (R55, R169). -/
structure Weighed (total : Nat) (s : State) : Prop where
  sum : (s.pq.map (weightAt s.node)).sum = total
  node : ∀ (i a b : NodeIx) (w : Count), i.val < s.nnodes.val →
    nodeAt s.node i = .internal a b w → w.toNat = weightAt s.node a + weightAt s.node b

theorem range_fin_eq (k : Nat) (hk : k ≤ 511) :
    ((List.range k).map (Fin.ofNat 511)).Pairwise (· < ·) := by
  rw [List.pairwise_map]
  refine List.Pairwise.imp_of_mem ?_ List.pairwise_lt_range
  intro a b ha hb hab
  have := List.mem_range.mp ha
  have := List.mem_range.mp hb
  rw [Fin.lt_def, Fin.val_ofNat, Fin.val_ofNat]
  omega

/-- The leaf under a node of a seeded arena. -/
def seedTr (syms : List Byte) (i : NodeIx) : Tree :=
  .leaf (syms.getD i.val 0)

theorem seedTree_nnodes (s : State) : (seedTree s).nnodes.val = (countedBytes s.freq).length := by
  have := countedBytes_length_le s.freq
  simp only [seedTree, Fin.val_ofNat, seedLeaves_eq, List.length_map]
  omega

theorem seedTree_nsym (s : State) : (seedTree s).nsym.val = (countedBytes s.freq).length := by
  have := countedBytes_length_le s.freq
  simp only [seedTree, Fin.val_ofNat, seedLeaves_eq, List.length_map]
  omega

theorem seedTree_pq (s : State) :
    (seedTree s).pq = (List.range (countedBytes s.freq).length).map (Fin.ofNat 511) := by
  simp only [seedTree, seedLeaves_eq, List.length_map]

theorem seedTree_nodeAt (s : State) (i : NodeIx) :
    nodeAt (seedTree s).node i =
      if h : i.val < (countedBytes s.freq).length then
        .leaf (countedBytes s.freq)[i.val] (entry s.freq (countedBytes s.freq)[i.val])
      else nodeAt s.node i := by
  simp only [seedTree, nodeAt_placeLeaves, seedLeaves_eq, List.length_map, List.getElem_map]

/-- R161: what TB_SEED makes is a forest of leaves. -/
theorem seedTree_forest (s : State) :
    Forest (countedBytes s.freq) (seedTree s) (seedTr (countedBytes s.freq)) := by
  have hle := countedBytes_length_le s.freq
  refine ⟨?_, ?_, ?_, ?_, ?_, ?_, ?_⟩
  · rw [seedTree_pq]; exact range_fin_eq _ (by omega)
  · intro i hi
    rw [seedTree_pq] at hi
    obtain ⟨n, hn, rfl⟩ := List.mem_map.mp hi
    have := List.mem_range.mp hn
    rw [seedTree_nnodes, Fin.val_ofNat]; omega
  · rw [seedTree_nnodes, seedTree_pq]; simp; omega
  · intro i a b w hi h
    rw [seedTree_nnodes] at hi
    rw [seedTree_nodeAt, dif_pos hi] at h
    exact absurd h (by simp)
  · intro i hi
    rw [seedTree_pq] at hi
    obtain ⟨n, hn, rfl⟩ := List.mem_map.mp hi
    have hn := List.mem_range.mp hn
    have hv : (Fin.ofNat 511 n).val = n := by rw [Fin.val_ofNat]; omega
    have hg : (countedBytes s.freq).getD n 0 = (countedBytes s.freq)[n] := by
      simp [hn]
    rw [seedTr, hv, hg]
    refine .leaf _ _ (entry s.freq (countedBytes s.freq)[n]) ?_
    rw [seedTree_nodeAt, dif_pos (by rw [hv]; exact hn)]
    simp only [hv]
  · rw [seedTree_pq]
    have : ((List.range (countedBytes s.freq).length).map (Fin.ofNat 511)).flatMap
        (fun i => (seedTr (countedBytes s.freq) i).symbols) = countedBytes s.freq := by
      have e : ∀ l : List NodeIx, l.flatMap (fun i => (seedTr (countedBytes s.freq) i).symbols)
          = l.map fun i => (countedBytes s.freq).getD i.val 0 := by
        intro l
        induction l with
        | nil => rfl
        | cons x l ih => simp only [List.flatMap_cons, ih, List.map_cons]; rfl
      rw [e]
      apply List.ext_getElem
      · simp
      · intro n h1 h2
        simp [Nat.mod_eq_of_lt (show n < 511 by omega), h2]
    rw [this]
  · intro hne
    rw [seedTree_pq] at hne ⊢
    have hpos : 0 < (countedBytes s.freq).length := by
      rcases Nat.eq_zero_or_pos (countedBytes s.freq).length with e | e
      · rw [e] at hne; exact absurd rfl hne
      · exact e
    refine ⟨Fin.ofNat 511 ((countedBytes s.freq).length - 1), List.mem_map_of_mem ?_, ?_⟩
    · rw [List.mem_range]; omega
    · rw [seedTree_nnodes, Fin.val_ofNat]; omega

/-! ### One merge -/

/-- R165: what a state holds after `a` and `b` were merged into the new node `i`. -/
def State.merged (a b i : NodeIx) (s : State) : State :=
  { s with
    node := s.node.set i.val
      (.internal a b (sumCount (nodeAt s.node a).weight (nodeAt s.node b).weight s.free).1) i.isLt
    pq := (s.pq.erase a).erase b ++ [i]
    nnodes := Fin.ofNat 512 (s.nnodes.val + 1)
    free := (sumCount (nodeAt s.node a).weight (nodeAt s.node b).weight s.free).2 }

/-- R165: TB_MERGE takes the two lowest members out and puts the new node in. -/
theorem mergeLowest_ok {s : State} (h2 : 2 ≤ s.pq.length) (hn : s.nnodes.val < 511) :
    ∃ a b, a ∈ s.pq ∧ b ∈ s.pq.erase a ∧
      (∀ x ∈ s.pq, x = a ∨ lower s.node a x = true) ∧
      (∀ x ∈ s.pq.erase a, x = b ∨ lower s.node b x = true) ∧
      mergeLowest s = .ok () (s.merged a b ⟨s.nnodes.val, hn⟩) := by
  obtain ⟨a, ha, ham, hal⟩ := extractMin_spec (nodes := s.node) (pq := s.pq)
    (by intro e; rw [e] at h2; simp at h2)
  have hlen : (s.pq.erase a).length = s.pq.length - 1 := List.length_erase_of_mem ham
  obtain ⟨b, hb, hbm, hbl⟩ := extractMin_spec (nodes := s.node) (pq := s.pq.erase a)
    (by intro e; rw [e] at hlen; simp at hlen; omega)
  refine ⟨a, b, ham, hbm, hal, hbl, ?_⟩
  have hN : (⟨s.nnodes.val + 1, by omega⟩ : Fin 512) = Fin.ofNat 512 (s.nnodes.val + 1) := by
    ext; simp; omega
  simp only [mergeLowest, ha, hb, mergeInto, dif_pos hn, State.merged, hN]

theorem merged_nnodes {a b i : NodeIx} {s : State} (hn : s.nnodes.val < 511) :
    (s.merged a b i).nnodes.val = s.nnodes.val + 1 := by
  simp only [State.merged, Fin.val_ofNat]; omega

theorem merged_nodeAt (a b i j : NodeIx) (s : State) :
    nodeAt (s.merged a b i).node j = if i = j then
      .internal a b (sumCount (nodeAt s.node a).weight (nodeAt s.node b).weight s.free).1
      else nodeAt s.node j :=
  nodeAt_set _ _ _ _

/-- The trees after a merge. -/
def mergedTr (tr : NodeIx → Tree) (a b i : NodeIx) : NodeIx → Tree :=
  fun j => if j = i then .node (tr a) (tr b) else tr j

theorem Forest.merge {syms : List Byte} {s : State} {tr : NodeIx → Tree} (h : Forest syms s tr)
    {a b : NodeIx} (ha : a ∈ s.pq) (hb : b ∈ s.pq.erase a) (hn : s.nnodes.val < 511) :
    Forest syms (s.merged a b ⟨s.nnodes.val, hn⟩) (mergedTr tr a b ⟨s.nnodes.val, hn⟩) := by
  have hba := List.mem_of_mem_erase hb
  have hrest : ∀ x ∈ (s.pq.erase a).erase b, x ∈ s.pq := fun x hx =>
    List.mem_of_mem_erase (List.mem_of_mem_erase hx)
  have hl1 : (s.pq.erase a).length = s.pq.length - 1 := List.length_erase_of_mem ha
  have hl2 : ((s.pq.erase a).erase b).length = (s.pq.erase a).length - 1 :=
    List.length_erase_of_mem hb
  have hp1 := List.length_pos_of_mem hb
  have hc := h.count
  refine ⟨?_, ?_, ?_, ?_, ?_, ?_, ?_⟩
  · show ((s.pq.erase a).erase b ++ [_]).Pairwise _
    rw [List.pairwise_append]
    refine ⟨(h.sorted.sublist List.erase_sublist).sublist List.erase_sublist, by simp, ?_⟩
    intro x hx y hy
    rw [List.mem_singleton] at hy
    subst hy
    exact h.bound x (hrest x hx)
  · intro x hx
    rw [merged_nnodes hn]
    rcases List.mem_append.mp hx with hx | hx
    · have := h.bound x (hrest x hx); omega
    · rw [List.mem_singleton] at hx; subst hx; simp
  · rw [merged_nnodes hn]
    show _ + ((s.pq.erase a).erase b ++ [_]).length = _
    rw [List.length_append, hl2, hl1, List.length_singleton]
    omega
  · intro x y z w hx hnode
    rw [merged_nnodes hn] at hx
    rw [merged_nodeAt] at hnode
    split at hnode
    · rename_i e
      subst e
      simp only [Node.internal.injEq] at hnode
      obtain ⟨rfl, rfl, -⟩ := hnode
      exact ⟨h.bound _ ha, h.bound _ hba⟩
    · rename_i e
      refine h.child x y z w ?_ hnode
      have : x.val ≠ s.nnodes.val := fun e' => e (Fin.ext e'.symm)
      omega
  · intro x hx
    have hset : ∀ y ∈ s.pq, Represents (s.merged a b ⟨s.nnodes.val, hn⟩).node y (tr y) :=
      fun y hy => (h.tree y hy).set (n := ⟨s.nnodes.val, hn⟩) h.child (h.bound y hy)
    rcases List.mem_append.mp hx with hx | hx
    · have hlt := h.bound x (hrest x hx)
      rw [mergedTr, if_neg (by intro e; rw [e] at hlt; exact lt_irrefl _ hlt)]
      exact hset x (hrest x hx)
    · rw [List.mem_singleton] at hx
      subst hx
      rw [mergedTr, if_pos rfl]
      exact .node _ a b _ _ _ (by rw [merged_nodeAt, if_pos rfl]) (hset a ha) (hset b hba)
  · have hcong : ((s.pq.erase a).erase b).flatMap
        (fun j => (mergedTr tr a b ⟨s.nnodes.val, hn⟩ j).symbols)
        = ((s.pq.erase a).erase b).flatMap fun j => (tr j).symbols := by
      refine List.flatMap_congr fun x hx => ?_
      have hlt := h.bound x (hrest x hx)
      rw [mergedTr, if_neg (by intro e; rw [e] at hlt; exact lt_irrefl _ hlt)]
    show (((s.pq.erase a).erase b ++ [_]).flatMap _).Perm _
    rw [List.flatMap_append, hcong]
    refine List.Perm.trans ?_ h.perm
    have e1 : s.pq.Perm (a :: b :: (s.pq.erase a).erase b) :=
      (List.perm_cons_erase ha).trans ((List.perm_cons_erase hb).cons a)
    refine List.Perm.trans ?_ (e1.flatMap_right _).symm
    simp only [List.flatMap_cons, List.flatMap_nil, List.append_nil, mergedTr, if_pos, Tree.symbols,
      ← List.append_assoc]
    rw [List.append_assoc]
    exact List.perm_append_comm
  · exact fun _ => ⟨⟨s.nnodes.val, hn⟩, by simp [State.merged], (merged_nnodes hn).symm⟩

theorem Weighed.merge {syms : List Byte} {total : Nat} {s : State} {tr : NodeIx → Tree}
    (h : Forest syms s tr) (hw : Weighed total s) (ht : total < 2 ^ 64)
    {a b : NodeIx} (ha : a ∈ s.pq) (hb : b ∈ s.pq.erase a) (hn : s.nnodes.val < 511) :
    Weighed total (s.merged a b ⟨s.nnodes.val, hn⟩) ∧
      (s.merged a b ⟨s.nnodes.val, hn⟩).free = s.free := by
  have hba := List.mem_of_mem_erase hb
  have hrest : ∀ x ∈ (s.pq.erase a).erase b, x ∈ s.pq := fun x hx =>
    List.mem_of_mem_erase (List.mem_of_mem_erase hx)
  have e1 : s.pq.Perm (a :: b :: (s.pq.erase a).erase b) :=
    (List.perm_cons_erase ha).trans ((List.perm_cons_erase hb).cons a)
  have hs := hw.sum
  rw [(e1.map _).sum_eq] at hs
  simp only [List.map_cons, List.sum_cons] at hs
  have hlt : (nodeAt s.node a).weight.toNat + (nodeAt s.node b).weight.toNat < 2 ^ 64 := by
    unfold weightAt at hs; omega
  have hsum : sumCount (nodeAt s.node a).weight (nodeAt s.node b).weight s.free
      = ((nodeAt s.node a).weight + (nodeAt s.node b).weight, s.free) := by
    rw [sumCount, if_pos hlt]
  have hold : ∀ x : NodeIx, x.val < s.nnodes.val →
      nodeAt (s.merged a b ⟨s.nnodes.val, hn⟩).node x = nodeAt s.node x := by
    intro x hx
    rw [merged_nodeAt, if_neg (by intro e; subst e; exact lt_irrefl _ hx)]
  have hnew : weightAt (s.merged a b ⟨s.nnodes.val, hn⟩).node ⟨s.nnodes.val, hn⟩
      = weightAt s.node a + weightAt s.node b := by
    rw [weightAt, merged_nodeAt, if_pos rfl, hsum]
    show ((nodeAt s.node a).weight + (nodeAt s.node b).weight).toNat = _
    rw [BitVec.toNat_add, Nat.mod_eq_of_lt hlt]
    rfl
  refine ⟨⟨?_, ?_⟩, ?_⟩
  · show (((s.pq.erase a).erase b ++ [_]).map _).sum = _
    rw [List.map_append, List.sum_append]
    have : ((s.pq.erase a).erase b).map
        (weightAt (s.merged a b ⟨s.nnodes.val, hn⟩).node)
        = ((s.pq.erase a).erase b).map (weightAt s.node) := by
      refine List.map_congr_left fun x hx => ?_
      rw [weightAt, hold x (h.bound x (hrest x hx)), weightAt]
    rw [this, List.map_singleton, hnew, List.sum_singleton]
    omega
  · intro x y z w hx hnode
    rw [merged_nnodes hn] at hx
    by_cases hxn : x.val < s.nnodes.val
    · rw [hold x hxn] at hnode
      have hc := h.child x y z w hxn hnode
      rw [weightAt, weightAt, hold y (by omega), hold z (by omega)]
      exact hw.node x y z w hxn hnode
    · have hxe : x = ⟨s.nnodes.val, hn⟩ := Fin.ext (by simp; omega)
      subst hxe
      have hwt := hnew
      rw [weightAt, hnode] at hwt
      rw [merged_nodeAt, if_pos rfl, Node.internal.injEq] at hnode
      obtain ⟨rfl, rfl, -⟩ := hnode
      rw [weightAt, weightAt, hold a (h.bound a ha), hold b (h.bound b hba)]
      exact hwt
  · simp only [State.merged, hsum]

/-! ### The loop, and TB_BUILD -/

theorem sameButTree_trans {s t u : State} (h₁ : s.sameButTree t) (h₂ : t.sameButTree u) :
    s.sameButTree u := by
  unfold State.sameButTree at *
  rw [h₂, h₁]

/-- R166: the loop ends with one member, or none where there was none. -/
theorem mergeLoop_ok (turns : Nat) {syms : List Byte} {s : State} {tr : NodeIx → Tree}
    (h : Forest syms s tr) (hk : syms.length ≤ 256) (ht : s.pq.length ≤ turns + 1) :
    ∃ t tr', mergeLoop turns s = .ok () t ∧ Forest syms t tr' ∧ t.pq.length ≤ 1 ∧
      (s.pq ≠ [] → t.pq ≠ []) ∧ s.sameButTree t ∧ t.nsym = s.nsym ∧
      ∀ total, total < 2 ^ 64 → Weighed total s → Weighed total t ∧ t.free = s.free := by
  induction turns generalizing s tr with
  | zero =>
    exact ⟨s, tr, rfl, h, by omega, id, rfl, rfl, fun _ _ hw => ⟨hw, rfl⟩⟩
  | succ turns ih =>
    by_cases h2 : 2 ≤ s.pq.length
    · have hn : s.nnodes.val < 511 := by have := h.count; omega
      obtain ⟨a, b, ha, hb, -, -, hm⟩ := mergeLowest_ok h2 hn
      have hf := h.merge ha hb hn
      have hl1 : (s.pq.erase a).length = s.pq.length - 1 := List.length_erase_of_mem ha
      have hl2 : ((s.pq.erase a).erase b).length = (s.pq.erase a).length - 1 :=
        List.length_erase_of_mem hb
      have hlen : (s.merged a b ⟨s.nnodes.val, hn⟩).pq.length = s.pq.length - 1 := by
        show ((s.pq.erase a).erase b ++ [_]).length = _
        rw [List.length_append, hl2, hl1, List.length_singleton]; omega
      obtain ⟨t, tr', e, ft, l1, hne, hsame, hns, hwt⟩ := ih hf (by omega)
      refine ⟨t, tr', ?_, ft, l1, fun _ => hne ?_, sameButTree_trans (t := s.merged a b _) rfl hsame,
        hns, ?_⟩
      · rw [mergeLoop, if_pos h2, hm]; exact e
      · intro e'; rw [e'] at hlen; simp at hlen; omega
      · intro total htot hw
        have h1 := Weighed.merge h hw htot ha hb hn
        have h3 := hwt total htot h1.1
        exact ⟨h3.1, h3.2.trans h1.2⟩
    · refine ⟨s, tr, ?_, h, by omega, id, rfl, rfl, fun _ _ hw => ⟨hw, rfl⟩⟩
      rw [mergeLoop, if_neg h2]

theorem totalCount_eq (freq : Table Count) :
    totalCount freq = ((countedBytes freq).map fun b => (entry freq b).toNat).sum := by
  rw [totalCount, countedBytes]
  induction allBytes with
  | nil => rfl
  | cons b bs ih =>
    rw [List.map_cons, List.sum_cons, ih]
    by_cases h : entry freq b = 0
    · rw [List.filter_cons_of_neg (by simpa using h), h]; simp
    · rw [List.filter_cons_of_pos (by simpa using h), List.map_cons, List.sum_cons]

theorem seedTree_weighed (s : State) : Weighed (totalCount s.freq) (seedTree s) := by
  have hle := countedBytes_length_le s.freq
  refine ⟨?_, ?_⟩
  · rw [seedTree_pq, totalCount_eq]
    congr 1
    apply List.ext_getElem
    · simp
    · intro n h1 h2
      have hn : n < (countedBytes s.freq).length := by simpa using h2
      have hv : (Fin.ofNat 511 n).val = n := by rw [Fin.val_ofNat]; omega
      simp only [List.getElem_map, List.getElem_range, weightAt, seedTree_nodeAt]
      rw [dif_pos (by rw [hv]; exact hn)]
      simp only [Node.weight, hv]
  · intro i a b w hi h
    rw [seedTree_nnodes] at hi
    rw [seedTree_nodeAt, dif_pos hi] at h
    exact absurd h (by simp)

/-- R55, R169, R170: TB_BUILD runs to its end from any state, and leaves one root over all the
counted bytes, or none. -/
theorem buildTree_ok (s : State) :
    ∃ t, buildTree s = .ok () t ∧ s.sameButTree t ∧
      t.nsym.val = (countedBytes s.freq).length ∧
      (countedBytes s.freq = [] → t.root = none ∧ t.nnodes = 0 ∧ t.pq = []) ∧
      (countedBytes s.freq ≠ [] → ∃ r T, t.root = some r ∧ t.pq = [r] ∧
        t.nnodes.val = 2 * (countedBytes s.freq).length - 1 ∧ r.val + 1 = t.nnodes.val ∧
        Represents t.node r T ∧ T.symbols.Perm (countedBytes s.freq) ∧
        (totalCount s.freq < 2 ^ 64 → weightAt t.node r = totalCount s.freq ∧ t.free = s.free)) ∧
      (∀ (i a b : NodeIx) (w : Count), i.val < t.nnodes.val →
        nodeAt t.node i = .internal a b w → a.val < i.val ∧ b.val < i.val) := by
  have hle := countedBytes_length_le s.freq
  have hs := seedTree_forest s
  obtain ⟨t, tr', e, ft, l1, hne, hsame, hns, hwt⟩ :=
    mergeLoop_ok (seedTree s).pq.length hs hle (by omega)
  have hc := ft.count
  refine ⟨takeRoot t, by rw [buildTree, e]; rfl, ?_, ?_, ?_, ?_, ft.child⟩
  · have h1 : s.sameButTree (seedTree s) := rfl
    have h3 : t.sameButTree (takeRoot t) := rfl
    exact sameButTree_trans (sameButTree_trans h1 hsame) h3
  · show t.nsym.val = _
    rw [hns, seedTree_nsym]
  · intro h0
    rw [h0] at hc
    have hp : t.pq = [] := List.eq_nil_of_length_eq_zero (by rw [List.length_nil] at hc; omega)
    refine ⟨by simp only [takeRoot, hp], Fin.ext ?_, hp⟩
    show t.nnodes.val = 0
    simp at hc; omega
  · intro h0
    have hk : 0 < (countedBytes s.freq).length := List.length_pos_iff.mpr h0
    have hp : t.pq ≠ [] := hne (by
      rw [seedTree_pq]; intro e
      have := congrArg List.length e
      rw [List.length_map, List.length_range, List.length_nil] at this
      omega)
    obtain ⟨r, hr⟩ : ∃ r, t.pq = [r] := by
      have := List.length_pos_iff.mpr hp
      exact List.length_eq_one_iff.mp (by omega)
    rw [hr, List.length_singleton] at hc
    obtain ⟨i, hi, hlast⟩ := ft.last hp
    rw [hr, List.mem_singleton] at hi
    subst hi
    refine ⟨i, tr' i, by simp only [takeRoot, hr], hr, ?_, hlast, ft.tree i (by simp [hr]), ?_, ?_⟩
    · show t.nnodes.val = _
      omega
    · have := ft.perm
      rw [hr] at this
      simpa using this
    · intro htot
      have hw := hwt _ htot (seedTree_weighed s)
      refine ⟨?_, hw.2⟩
      show weightAt t.node i = _
      have := hw.1.sum
      rw [hr] at this
      simpa using this

end Sys2Proof.Machine
end

