-- ==== Sys2Proof/Laws/CodeTable.lean ====
section
/-! SUPPORT. Laws of CT_WALK (43_codetable.md R180 to R185): the traversal lists a tree's codes; tree
codes are bit-codes, prefix-free, with Kraft sum 1. -/

namespace Sys2Proof.Machine

/-! ### The traversal -/

/-- R182: `visit` lists the codes of the tree under the node. -/
theorem visit_codes {nodes : Vector Node 511} {i : NodeIx} {T : Tree} (h : Represents nodes i T)
    {levels : Nat} (hl : T.height < levels) (v L : Nat) :
    visit nodes levels i v L = some (T.codes v L) := by
  induction h generalizing levels v L with
  | leaf i x w h =>
    obtain ⟨n, rfl⟩ : ∃ n, levels = n + 1 := ⟨levels - 1, by omega⟩
    simp only [visit, h, Tree.codes]
  | node i a b w l r h hl' hr ihl ihr =>
    obtain ⟨n, rfl⟩ : ∃ n, levels = n + 1 := ⟨levels - 1, by omega⟩
    simp only [Tree.height] at hl
    simp only [visit, h, Tree.codes, ihl (show l.height < n by omega),
      ihr (show r.height < n by omega)]

/-- A node has one tree. -/
theorem Represents.unique {nodes : Vector Node 511} {i : NodeIx} {T U : Tree}
    (h : Represents nodes i T) (h' : Represents nodes i U) : T = U := by
  induction h generalizing U with
  | leaf i x w h =>
    cases h' with
    | leaf _ y w' h' => rw [h] at h'; cases h'; rfl
    | node _ a b w' l r h' => rw [h] at h'; cases h'
  | node i a b w l r h hl hr ihl ihr =>
    cases h' with
    | leaf _ y w' h' => rw [h] at h'; cases h'
    | node _ a' b' w' l' r' h' hl' hr' =>
      rw [h] at h'; cases h'
      rw [ihl hl', ihr hr']

theorem walkTree_none {s : State} (h : s.root = none) : walkTree s = .ok () (walked .empty [] s) := by
  simp only [walkTree, h]

theorem walkTree_some {s : State} {r : NodeIx} {T : Tree} (h : s.root = some r)
    (hT : Represents s.node r T) (hh : T.height ≤ 255) :
    walkTree s = .ok () (walked T.degen T.walkCodes s) := by
  cases hT with
  | leaf _ x w hn => simp only [walkTree, h, hn, Tree.degen, Tree.walkCodes]
  | node _ a b w l r' hn hl hr =>
    have := visit_codes (.node r a b w l r' hn hl hr) (levels := 256) (by omega) 0 0
    simp only [walkTree, h, hn, this, Tree.degen, Tree.walkCodes]

/-! ### The codes of a tree -/

theorem Tree.codes_symbols (T : Tree) (v L : Nat) :
    (T.codes v L).map LeafCode.sym = T.symbols := by
  induction T generalizing v L with
  | leaf x => rfl
  | node l r hl hr => rw [Tree.codes, List.map_append, hl, hr, Tree.symbols]

theorem Tree.walkCodes_symbols (T : Tree) : T.walkCodes.map LeafCode.sym = T.symbols := by
  cases T with
  | leaf x => rfl
  | node l r => exact Tree.codes_symbols _ 0 0

/-- Each code goes on from the path it starts at, and is at most the tree's height longer. -/
theorem Tree.codes_under {T : Tree} {v L : Nat} {c : LeafCode} (h : c ∈ T.codes v L) :
    L ≤ c.L ∧ c.L ≤ L + T.height ∧ c.v / 2 ^ (c.L - L) = v := by
  induction T generalizing v L with
  | leaf x =>
    rw [Tree.codes, List.mem_singleton] at h
    subst h
    simp
  | node l r hl hr =>
    have key : ∀ b : Nat, b ≤ 1 → L + 1 ≤ c.L → c.v / 2 ^ (c.L - (L + 1)) = 2 * v + b →
        c.v / 2 ^ (c.L - L) = v := by
      intro b hb hL hv
      have e : c.L - L = (c.L - (L + 1)) + 1 := by omega
      rw [e, pow_succ, ← Nat.div_div_eq_div_mul, hv]
      omega
    rw [Tree.codes, List.mem_append] at h
    rcases h with h | h
    · have h1 := hl h
      simp only [Tree.height]
      exact ⟨by omega, by omega, key 0 (by omega) h1.1 (by simpa using h1.2.2)⟩
    · have h1 := hr h
      simp only [Tree.height]
      exact ⟨by omega, by omega, key 1 (by omega) h1.1 h1.2.2⟩

/-- R15: the codes of a tree are bit-codes. -/
theorem Tree.codes_lt {T : Tree} {c : LeafCode} (h : c ∈ T.codes 0 0) : c.v < 2 ^ c.L := by
  have h1 := (Tree.codes_under h).2.2
  rw [Nat.sub_zero] at h1
  exact (Nat.div_eq_zero_iff_lt (by positivity)).mp h1

/-- A leaf of an internal node has depth 1 at least. -/
theorem Tree.codes_node_pos {l r : Tree} {c : LeafCode} (h : c ∈ (Tree.node l r).codes 0 0) :
    1 ≤ c.L := by
  rw [Tree.codes, List.mem_append] at h
  rcases h with h | h <;> exact (Tree.codes_under h).1

/-- R184: with `M` at least the tree's height, the leaves' shares of 2^M add up to it. -/
theorem Tree.kraft (T : Tree) (v L M : Nat) (h : L + T.height ≤ M) :
    ((T.codes v L).map fun c => 2 ^ (M - c.L)).sum = 2 ^ (M - L) := by
  induction T generalizing v L with
  | leaf x => simp [Tree.codes]
  | node l r hl hr =>
    simp only [Tree.height] at h
    rw [Tree.codes, List.map_append, List.sum_append, hl _ _ (by omega), hr _ _ (by omega),
      ← two_mul, ← pow_succ']
    congr 1; omega

theorem isPrefixCode_iff (v1 L1 v2 L2 : Nat) :
    isPrefixCode v1 L1 v2 L2 = true ↔ L1 ≤ L2 ∧ v2 / 2 ^ (L2 - L1) = v1 := by
  simp [isPrefixCode]

/-- R185: no code of a tree is a prefix of another leaf's. -/
theorem Tree.codes_prefix_free (T : Tree) (v L : Nat) :
    (T.codes v L).Pairwise fun c d =>
      isPrefixCode c.v c.L d.v d.L = false ∧ isPrefixCode d.v d.L c.v c.L = false := by
  induction T generalizing v L with
  | leaf x => simp [Tree.codes]
  | node l r hl hr =>
    rw [Tree.codes, List.pairwise_append]
    refine ⟨hl _ _, hr _ _, ?_⟩
    intro c hc d hd
    obtain ⟨hc1, -, hc2⟩ := Tree.codes_under hc
    obtain ⟨hd1, -, hd2⟩ := Tree.codes_under hd
    constructor <;>
    · rw [Bool.eq_false_iff, Ne, isPrefixCode_iff]
      rintro ⟨hle, hv⟩
      first
        | rw [← hv, Nat.div_div_eq_div_mul, ← pow_add,
            show d.L - c.L + (c.L - (L + 1)) = d.L - (L + 1) by omega, hd2] at hc2
          omega
        | rw [← hv, Nat.div_div_eq_div_mul, ← pow_add,
            show c.L - d.L + (d.L - (L + 1)) = c.L - (L + 1) by omega, hc2] at hd2
          omega

end Sys2Proof.Machine
end

