-- ==== Sys2Proof/Laws/Canonical.lean ====
section
/-! SUPPORT. Laws of CT_CANON and of DEC and LIVE (43_codetable.md R187 to R191, 10_state.md R54): a
canonical code begins where the shares of the codes before it end, so where the Kraft sum is at most 1
the codes are bit-codes and prefix-free. -/

namespace Sys2Proof.Machine

/-! ### Canonical order -/

/-- A length's share of the code space, scaled by 2^255 (R207). -/
def share (e : Byte × Nat) : Nat :=
  2 ^ (255 - e.2)

/-- The code space taken by these symbols. -/
def shares (es : List (Byte × Nat)) : Nat :=
  (es.map share).sum

theorem shares_cons (e : Byte × Nat) (es : List (Byte × Nat)) :
    shares (e :: es) = share e + shares es := rfl

theorem shares_append (es fs : List (Byte × Nat)) : shares (es ++ fs) = shares es + shares fs := by
  simp [shares]

theorem kraft255_eq (len : Table (BitVec 8)) : kraft255 len = shares (present len) := rfl

theorem share_pos (e : Byte × Nat) : 0 < share e := Nat.two_pow_pos _

theorem canonOrder_perm (len : Table (BitVec 8)) : (canonOrder len).Perm (present len) :=
  List.perm_insertionSort _ _

theorem canonOrder_shares (len : Table (BitVec 8)) : shares (canonOrder len) = kraft255 len :=
  ((canonOrder_perm len).map share).sum_eq

theorem mem_canonOrder {len : Table (BitVec 8)} {e : Byte × Nat} :
    e ∈ canonOrder len ↔ e ∈ present len :=
  (canonOrder_perm len).mem_iff

/-- R187: the canonical order is ascending in the length, then in the byte value. -/
theorem canonOrder_sorted (len : Table (BitVec 8)) : (canonOrder len).Pairwise canonBefore := by
  have h1 : ∀ a b : Byte × Nat, canonBefore a b ∨ canonBefore b a := by
    intro a b; simp only [canonBefore]; omega
  have h2 : ∀ a b c : Byte × Nat, canonBefore a b → canonBefore b c → canonBefore a c := by
    intro a b c; simp only [canonBefore]; omega
  have : Std.Total canonBefore := ⟨h1⟩
  have : IsTrans (Byte × Nat) canonBefore := ⟨h2⟩
  exact List.pairwise_insertionSort _ _

theorem canonOrder_lengths (len : Table (BitVec 8)) :
    (canonOrder len).Pairwise fun a b => a.2 ≤ b.2 :=
  (canonOrder_sorted len).imp fun h => by simp only [canonBefore] at h; omega

/-! ### Where a canonical code begins -/

/-- R188: each code of `canonNext` begins where the shares before it end. -/
theorem canonNext_spec (es : List (Byte × Nat)) (c prev : Nat) (h : ∀ e ∈ es, prev ≤ e.2)
    (hs : es.Pairwise fun a b => a.2 ≤ b.2) (hl : ∀ e ∈ es, e.2 ≤ 255)
    (pre : List (Byte × Nat)) (e : Byte × Nat) (post : List (Byte × Nat)) (he : es = pre ++ e :: post) :
    ∃ v, (e.1, v) ∈ canonNext c prev es ∧
      v * share e = (c + 1) * 2 ^ (255 - prev) + shares pre := by
  induction es generalizing c prev pre with
  | nil => simp at he
  | cons f es ih =>
    obtain ⟨s, L⟩ := f
    have hp : prev ≤ L := h (s, L) List.mem_cons_self
    have hL : L ≤ 255 := hl (s, L) List.mem_cons_self
    have hkey : ((c + 1) <<< (L - prev)) * 2 ^ (255 - L) = (c + 1) * 2 ^ (255 - prev) := by
      rw [Nat.shiftLeft_eq, mul_assoc, ← pow_add]; congr 2; omega
    cases pre with
    | nil =>
      simp only [List.nil_append, List.cons.injEq] at he
      obtain ⟨rfl, rfl⟩ := he
      exact ⟨_, List.mem_cons_self, by simpa [share, shares] using hkey⟩
    | cons p pre =>
      simp only [List.cons_append, List.cons.injEq] at he
      obtain ⟨rfl, he⟩ := he
      rw [List.pairwise_cons] at hs
      obtain ⟨v, hv, hv2⟩ := ih ((c + 1) <<< (L - prev)) L hs.1 hs.2
        (fun e he => hl e (List.mem_cons_of_mem _ he)) pre he
      refine ⟨v, List.mem_cons_of_mem _ hv, ?_⟩
      rw [hv2, shares_cons, Nat.add_mul, Nat.one_mul, hkey]
      simp only [share]
      omega

/-- R188: each canonical code begins where the shares before it end. -/
theorem canonCodes_spec {es : List (Byte × Nat)} (hs : es.Pairwise fun a b => a.2 ≤ b.2)
    (hl : ∀ e ∈ es, e.2 ≤ 255) {pre : List (Byte × Nat)} {e : Byte × Nat}
    {post : List (Byte × Nat)} (he : es = pre ++ e :: post) :
    ∃ v, (e.1, v) ∈ canonCodes es ∧ v * share e = shares pre := by
  cases es with
  | nil => simp at he
  | cons f es =>
    obtain ⟨s, L⟩ := f
    rw [List.pairwise_cons] at hs
    cases pre with
    | nil =>
      simp only [List.nil_append, List.cons.injEq] at he
      obtain ⟨rfl, rfl⟩ := he
      exact ⟨0, List.mem_cons_self, by simp [shares]⟩
    | cons p pre =>
      simp only [List.cons_append, List.cons.injEq] at he
      obtain ⟨rfl, he⟩ := he
      obtain ⟨v, hv, hv2⟩ := canonNext_spec es 0 L hs.1 hs.2
        (fun e he => hl e (List.mem_cons_of_mem _ he)) pre e post he
      exact ⟨v, List.mem_cons_of_mem _ hv, by rw [hv2, shares_cons]; simp only [share]; omega⟩

theorem canonNext_fst (c prev : Nat) (es : List (Byte × Nat)) :
    (canonNext c prev es).map Prod.fst = es.map Prod.fst := by
  induction es generalizing c prev with
  | nil => rfl
  | cons e es ih => simp [canonNext, ih]

/-- R188: CT_CANON writes the entry of each present symbol once. -/
theorem canonCodes_fst (es : List (Byte × Nat)) :
    (canonCodes es).map Prod.fst = es.map Prod.fst := by
  cases es with
  | nil => rfl
  | cons e es => simp [canonCodes, canonNext_fst]

theorem canonOrder_fst_nodup (len : Table (BitVec 8)) : ((canonOrder len).map Prod.fst).Nodup :=
  ((canonOrder_perm len).map Prod.fst).nodup_iff.mpr (present_nodup_fst len)

/-- R188: a symbol CT_CANON does not write is one that is not present. -/
theorem writeCodes_absent (t : Table Code) {len : Table (BitVec 8)} {x : Byte} (h : entry len x = 0) :
    entry (writeCodes t (canonCodes (canonOrder len))) x = entry t x := by
  refine entry_foldl_other Prod.fst (fun e : Byte × Nat => BitVec.ofNat 255 e.2) _ t x ?_
  intro e he hx
  have h1 : x ∈ (canonCodes (canonOrder len)).map Prod.fst := hx ▸ List.mem_map_of_mem he
  rw [canonCodes_fst] at h1
  obtain ⟨⟨y, l⟩, hf, rfl⟩ := List.mem_map.mp h1
  exact (mem_present.mp (mem_canonOrder.mp hf)).1 h

/-- The canonical order before and after a symbol. -/
theorem canonOrder_split {len : Table (BitVec 8)} {x : Byte} (h : entry len x ≠ 0) :
    ∃ pre post, canonOrder len = pre ++ (x, (entry len x).toNat) :: post :=
  List.append_of_mem (mem_canonOrder.mpr (mem_present.mpr ⟨h, rfl⟩))

/-- R188: where the Kraft sum is at most 1 a symbol's code begins where the shares of the symbols
before it, in canonical order, end. -/
theorem writeCodes_start (t : Table Code) {len : Table (BitVec 8)} (hk : kraft255 len ≤ 2 ^ 255)
    {x : Byte} {pre post : List (Byte × Nat)}
    (he : canonOrder len = pre ++ (x, (entry len x).toNat) :: post) :
    (entry (writeCodes t (canonCodes (canonOrder len))) x).toNat * 2 ^ (255 - (entry len x).toNat)
      = shares pre := by
  have hmem : ∀ e ∈ canonOrder len, e.2 ≤ 255 := fun e he =>
    (present_length_range (mem_canonOrder.mp he)).2
  obtain ⟨v, hv, hs⟩ := canonCodes_spec (canonOrder_lengths len) hmem he
  have hle : shares pre + share (x, (entry len x).toNat) ≤ 2 ^ 255 := by
    have := canonOrder_shares len
    rw [he, shares_append, shares_cons] at this
    omega
  have hlen : (entry len x).toNat ≤ 255 := by have := (entry len x).isLt; omega
  have hvlt : v < 2 ^ 255 := by
    have h1 := share_pos (x, (entry len x).toNat)
    have h2 : v * 1 ≤ v * share (x, (entry len x).toNat) := Nat.mul_le_mul_left _ h1
    omega
  have hw : entry (writeCodes t (canonCodes (canonOrder len))) x = BitVec.ofNat 255 v :=
    entry_foldl_mem Prod.fst (fun e : Byte × Nat => BitVec.ofNat 255 e.2) _ t
      (by rw [canonCodes_fst]; exact canonOrder_fst_nodup len) hv
  rw [hw, BitVec.toNat_ofNat, Nat.mod_eq_of_lt hvlt]
  exact hs

theorem canon_absent {len : Table (BitVec 8)} {x : Byte} (h : entry len x = 0) :
    entry (canonTable len) x = 0 := by
  rw [canonTable, writeCodes_absent _ h]
  have hx := x.isLt
  simp [entry]

/-- CT_CANON gives every present symbol the code of `canonTable`, whatever CODE held (R191). -/
theorem writeCodes_present (t : Table Code) {len : Table (BitVec 8)} (hk : kraft255 len ≤ 2 ^ 255)
    {x : Byte} (h : entry len x ≠ 0) :
    entry (writeCodes t (canonCodes (canonOrder len))) x = entry (canonTable len) x := by
  obtain ⟨pre, post, he⟩ := canonOrder_split h
  have h1 := writeCodes_start t hk he
  have h2 := writeCodes_start (Vector.replicate 256 0) hk he
  rw [← h2] at h1
  exact BitVec.eq_of_toNat_eq (Nat.eq_of_mul_eq_mul_right (Nat.two_pow_pos _) h1)

/-- R189: where the Kraft sum is at most 1 every canonical code is a bit-code. -/
theorem canon_lt {len : Table (BitVec 8)} (hk : kraft255 len ≤ 2 ^ 255) {x : Byte}
    (h : entry len x ≠ 0) : (entry (canonTable len) x).toNat < 2 ^ (entry len x).toNat := by
  obtain ⟨pre, post, he⟩ := canonOrder_split h
  have h1 := writeCodes_start (Vector.replicate 256 0) hk he
  have h2 := canonOrder_shares len
  rw [he, shares_append, shares_cons, share] at h2
  have hl : (entry len x).toNat ≤ 255 := by have := (entry len x).isLt; omega
  have h3 : (2 : Nat) ^ 255 = 2 ^ (entry len x).toNat * 2 ^ (255 - (entry len x).toNat) := by
    rw [← pow_add]; congr 1; omega
  have h4 := Nat.two_pow_pos (255 - (entry len x).toNat)
  refine Nat.lt_of_mul_lt_mul_right (a := 2 ^ (255 - (entry len x).toNat)) ?_
  rw [← h3]
  change (entry (canonTable len) x).toNat * _ = _ at h1
  rw [h1]
  simp only at h2 h4
  omega

/-- Two symbols' codes, the one that is earlier in canonical order first. -/
theorem canon_apart {len : Table (BitVec 8)} (hk : kraft255 len ≤ 2 ^ 255) {x y : Byte}
    (hx : entry len x ≠ 0) (hy : entry len y ≠ 0) (hne : x ≠ y) :
    (((entry (canonTable len) x).toNat + 1) * 2 ^ (255 - (entry len x).toNat)
        ≤ (entry (canonTable len) y).toNat * 2 ^ (255 - (entry len y).toNat) ∧
      (entry len x).toNat ≤ (entry len y).toNat) ∨
    (((entry (canonTable len) y).toNat + 1) * 2 ^ (255 - (entry len y).toNat)
        ≤ (entry (canonTable len) x).toNat * 2 ^ (255 - (entry len x).toNat) ∧
      (entry len y).toNat ≤ (entry len x).toNat) := by
  have key : ∀ {x y : Byte} {pre post : List (Byte × Nat)}, entry len y ≠ 0 →
      canonOrder len = pre ++ (x, (entry len x).toNat) :: post →
      (y, (entry len y).toNat) ∈ post →
      ((entry (canonTable len) x).toNat + 1) * 2 ^ (255 - (entry len x).toNat)
        ≤ (entry (canonTable len) y).toNat * 2 ^ (255 - (entry len y).toNat) ∧
      (entry len x).toNat ≤ (entry len y).toNat := by
    intro x y pre post hy he hm
    obtain ⟨mid, post', rfl⟩ := List.append_of_mem hm
    have h1 := writeCodes_start (Vector.replicate 256 0) hk he
    have he2 : canonOrder len
        = (pre ++ (x, (entry len x).toNat) :: mid) ++ (y, (entry len y).toNat) :: post' := by
      rw [he]; simp
    have h2 := writeCodes_start (Vector.replicate 256 0) hk he2
    rw [shares_append, shares_cons, share] at h2
    change (entry (canonTable len) x).toNat * _ = _ at h1
    change (entry (canonTable len) y).toNat * _ = _ at h2
    refine ⟨?_, ?_⟩
    · rw [h2, Nat.add_mul, h1, Nat.one_mul]; simp only; omega
    · have := canonOrder_lengths len
      rw [he, List.pairwise_append] at this
      exact (List.pairwise_cons.mp this.2.1).1 _ hm
  obtain ⟨pre, post, he⟩ := canonOrder_split hx
  have hm : (y, (entry len y).toNat) ∈ canonOrder len :=
    mem_canonOrder.mpr (mem_present.mpr ⟨hy, rfl⟩)
  rw [he, List.mem_append, List.mem_cons] at hm
  rcases hm with hm | hm | hm
  · right
    obtain ⟨pre', mid, rfl⟩ := List.append_of_mem hm
    refine key (pre := pre') (post := mid ++ (x, (entry len x).toNat) :: post) hx ?_ (by simp)
    rw [he]; simp
  · exact absurd (congrArg Prod.fst hm).symm hne
  · exact .inl (key hy he hm)

/-- R190: canonical codes with a Kraft sum of at most 1 are prefix-free. -/
theorem canon_prefix_free {len : Table (BitVec 8)} (hk : kraft255 len ≤ 2 ^ 255) {x y : Byte}
    (hx : entry len x ≠ 0) (hy : entry len y ≠ 0) (hne : x ≠ y) :
    isPrefixCode (entry (canonTable len) x).toNat (entry len x).toNat
      (entry (canonTable len) y).toNat (entry len y).toNat = false := by
  rw [Bool.eq_false_iff, Ne, isPrefixCode_iff]
  rintro ⟨hle, hv⟩
  have hly : (entry len y).toNat ≤ 255 := by have := (entry len y).isLt; omega
  have hw : (2 : Nat) ^ (255 - (entry len x).toNat)
      = 2 ^ ((entry len y).toNat - (entry len x).toNat) * 2 ^ (255 - (entry len y).toNat) := by
    rw [← pow_add]; congr 1; omega
  have h1 := Nat.div_add_mod (entry (canonTable len) y).toNat
    (2 ^ ((entry len y).toNat - (entry len x).toNat))
  have h2 := Nat.mod_lt (entry (canonTable len) y).toNat
    (Nat.two_pow_pos ((entry len y).toNat - (entry len x).toNat))
  rw [hv] at h1
  have hp := Nat.two_pow_pos (255 - (entry len y).toNat)
  rcases canon_apart hk hx hy hne with h | h
  · have h3 := h.1
    rw [hw, ← mul_assoc] at h3
    have h4 := Nat.le_of_mul_le_mul_right h3 hp
    rw [Nat.add_mul, mul_comm] at h4
    omega
  · have he : (entry len y).toNat = (entry len x).toNat := by omega
    rw [he, Nat.sub_self, pow_zero] at h1 h2
    rw [he] at h
    have h4 := Nat.le_of_mul_le_mul_right h.1 (by rw [← he]; exact hp)
    omega

end Sys2Proof.Machine
end

