-- ==== Sys2Proof/Laws/Decoding.lean ====
section
/-! SUPPORT. Laws of the tree walker and of DEC_LOOP (46_unpacker.md R242 to R246): the payload of a
sequence of present symbols decodes to it. -/

namespace Sys2Proof.Machine

/-! ### DEC and LIVE on canonical codes -/

theorem coded_assignCodes {s : State} (h : kraft255 s.len ≤ 2 ^ 255) :
    Coded (assignCodes s).len (assignCodes s).code := by
  have e : assignCodes s = { s with code := writeCodes s.code (canonCodes (canonOrder s.len)) } := by
    rw [assignCodes, if_pos h]
  rw [e]
  exact ⟨h, fun x hx => writeCodes_present s.code h hx⟩

theorem mem_codedAs {len : Table (BitVec 8)} {code : Table Code} {v L : Nat} {x : Byte} :
    x ∈ codedAs len code v L ↔
      entry len x ≠ 0 ∧ (entry len x).toNat = L ∧ (entry code x).toNat = v := by
  simp only [codedAs, List.mem_map, List.mem_filter, Bool.and_eq_true, beq_iff_eq]
  constructor
  · rintro ⟨⟨y, l⟩, ⟨hm, h1, h2⟩, rfl⟩
    obtain ⟨h0, rfl⟩ := mem_present.mp hm
    exact ⟨h0, h1, h2⟩
  · rintro ⟨h0, h1, h2⟩
    exact ⟨(x, (entry len x).toNat), ⟨mem_present.mpr ⟨h0, rfl⟩, h1, h2⟩, rfl⟩

theorem codedAs_nodup (len : Table (BitVec 8)) (code : Table Code) (v L : Nat) :
    (codedAs len code v L).Nodup :=
  (present_nodup_fst len).sublist (List.filter_sublist.map Prod.fst)

/-- R54, R190: the code of a present symbol is its own alone. -/
theorem codedAs_own {len : Table (BitVec 8)} {code : Table Code} (hc : Coded len code) {x : Byte}
    (hx : entry len x ≠ 0) : codedAs len code (entry code x).toNat (entry len x).toNat = [x] := by
  have hmem : x ∈ codedAs len code (entry code x).toNat (entry len x).toNat :=
    mem_codedAs.mpr ⟨hx, rfl, rfl⟩
  have honly : ∀ y ∈ codedAs len code (entry code x).toNat (entry len x).toNat, y = x := by
    intro y hy
    obtain ⟨h0, h1, h2⟩ := mem_codedAs.mp hy
    by_contra hne
    have := canon_prefix_free hc.kraft h0 hx hne
    rw [hc.code y h0, hc.code x hx] at h2
    rw [Bool.eq_false_iff, Ne, isPrefixCode_iff] at this
    exact this ⟨h1.le, by rw [h1, Nat.sub_self, pow_zero, Nat.div_one, h2]⟩
  have hn := codedAs_nodup len code (entry code x).toNat (entry len x).toNat
  generalize codedAs len code (entry code x).toNat (entry len x).toNat = l at *
  cases l with
  | nil => simp at hmem
  | cons a l =>
    have ha := honly a List.mem_cons_self
    subst ha
    cases l with
    | nil => rfl
    | cons b l =>
      have hb := honly b (by simp)
      subst hb
      simp at hn

/-- R190: a proper prefix of a canonical code is no code. -/
theorem codedAs_proper {len : Table (BitVec 8)} {code : Table Code} (hc : Coded len code) {x : Byte}
    (hx : entry len x ≠ 0) {v L : Nat} (hL : L < (entry len x).toNat)
    (hv : (entry code x).toNat / 2 ^ ((entry len x).toNat - L) = v) : codedAs len code v L = [] := by
  rw [List.eq_nil_iff_forall_not_mem]
  intro y hy
  obtain ⟨h0, h1, h2⟩ := mem_codedAs.mp hy
  have hne : y ≠ x := by rintro rfl; omega
  have := canon_prefix_free hc.kraft h0 hx hne
  rw [Bool.eq_false_iff, Ne, isPrefixCode_iff] at this
  refine this ⟨by omega, ?_⟩
  rw [← hc.code y h0, ← hc.code x hx, h1, h2, hv]

theorem live_iff {len : Table (BitVec 8)} {code : Table Code} {v L : Nat} :
    live len code v L = true ↔ ∃ x, entry len x ≠ 0 ∧ L < (entry len x).toNat ∧
      (entry code x).toNat / 2 ^ ((entry len x).toNat - L) = v := by
  simp only [live, List.any_eq_true, Bool.and_eq_true, decide_eq_true_eq, isPrefixCode_iff]
  constructor
  · rintro ⟨⟨y, l⟩, hm, h1, -, h2⟩
    obtain ⟨h0, rfl⟩ := mem_present.mp hm
    exact ⟨y, h0, h1, h2⟩
  · rintro ⟨x, h0, h1, h2⟩
    exact ⟨(x, _), mem_present.mpr ⟨h0, rfl⟩, h1, h1.le, h2⟩

/-! ### One symbol -/

theorem takeEdge_pfx {s : State} (b : Bool) (h : s.pfx.toNat < 2 ^ 254) :
    (takeEdge b s).pfx.toNat = 2 * s.pfx.toNat + b.toNat := by
  have hb : (BitVec.setWidth 255 (BitVec.ofBool b)).toNat = b.toNat := by cases b <;> rfl
  have e : (takeEdge b s).pfx = (s.pfx <<< 1) ||| BitVec.setWidth 255 (BitVec.ofBool b) := rfl
  rw [e, BitVec.toNat_or, hb, BitVec.toNat_shiftLeft, Nat.shiftLeft_eq,
    Nat.mod_eq_of_lt (by omega), mul_comm]
  cases b with
  | false => simp
  | true =>
    have := Nat.two_pow_add_eq_or_of_lt (i := 1) (b := 1) (by norm_num) s.pfx.toNat
    simpa using this.symm

theorem takeEdge_pfxLen {s : State} (b : Bool) (h : s.pfxLen.val < 255) :
    (takeEdge b s).pfxLen.val = s.pfxLen.val + 1 := by
  simp only [takeEdge, Fin.val_ofNat]
  omega

theorem State.decoded_edge (x : Byte) (b : Bool) (n : Nat) (s : State) :
    (takeEdge b (s.sourced 1)).decoded x n = s.decoded x (1 + n) := by
  have e : (takeEdge b (s.sourced 1)).decoded x n = State.atRoot
      { (s.sourced 1).sourced n with chan := ((s.sourced 1).sourced n).chan.wrote [x] } := rfl
  rw [e, State.sourced_sourced]
  rfl

theorem symbolBits_length (len : Table (BitVec 8)) (x : Byte) :
    (symbolBits len x).length = (entry len x).toNat := by
  simp [symbolBits]

/-- R242: from a node on the path of `x`, its remaining bits lead to its leaf. -/
theorem walkBits_ok {x : Byte} (rest : List Bool) (pre tail : List Bool) {levels : Nat} {s : State}
    (hc : Coded s.len s.code) (hx : entry s.len x ≠ 0)
    (hb : symbolBits s.len x = pre ++ rest) (hr : rest ≠ []) (hl : rest.length ≤ levels)
    (hp : s.pfx.toNat = bitsValue 0 pre) (hpl : s.pfxLen.val = pre.length)
    (hs : s.bitStream = rest ++ tail) (ho : s.chan.outClosed = false)
    (hd : s.chan.okFor (s.fetches rest.length + 1)) :
    walkBits levels s = .ok () (s.decoded x rest.length) ∧
      (s.decoded x rest.length).bitStream = tail := by
  induction rest generalizing pre levels s with
  | nil => exact absurd rfl hr
  | cons b rest ih =>
    obtain ⟨levels, rfl⟩ : ∃ k, levels = k + 1 := ⟨levels - 1, by simp at hl; omega⟩
    have hlen := congrArg List.length hb
    rw [symbolBits_length, List.length_append, List.length_cons] at hlen
    have hlx : (entry s.len x).toNat ≤ 255 := by have := (entry s.len x).isLt; omega
    have hpv := bitsValue_lt pre
    have hpp : (2 : Nat) ^ pre.length ≤ 2 ^ 254 := Nat.pow_le_pow_right (by omega) (by omega)
    have hfa := s.fetches_add 1 rest.length
    have hf1 : s.srN = 0 → 1 ≤ s.fetches 1 := by
      intro h0
      have : s.srN.val = 0 := by rw [h0]; rfl
      unfold State.fetches; omega
    obtain ⟨hrb, hrs⟩ := readBit_ok (s := s) (b := b) (bs := rest ++ tail) hs
      (fun h => hd.draw (by omega))
    have hpe : (takeEdge b (s.sourced 1)).pfx.toNat = bitsValue 0 (pre ++ [b]) := by
      have h0 : (s.sourced 1).pfx = s.pfx := rfl
      rw [takeEdge_pfx _ (by rw [h0, hp]; omega), h0, hp, bitsValue_append]
      rfl
    have hple : (takeEdge b (s.sourced 1)).pfxLen.val = pre.length + 1 := by
      have h0 : (s.sourced 1).pfxLen = s.pfxLen := rfl
      rw [takeEdge_pfxLen _ (by rw [h0, hpl]; omega), h0, hpl]
    -- the code's value, cut after `pre ++ [b]`
    have hcode : (entry s.code x).toNat = bitsValue 0 (pre ++ b :: rest) := by
      rw [← hb, symbolBits, bitsValue_codeBits, hc.code x hx,
        Nat.mod_eq_of_lt (canon_lt hc.kraft hx)]
      omega
    have hcut : (entry s.code x).toNat / 2 ^ rest.length = bitsValue 0 (pre ++ [b]) := by
      have h1 : pre ++ b :: rest = (pre ++ [b]) ++ rest := by simp
      rw [hcode, h1, bitsValue_append, bitsValue_eq, mul_comm,
        Nat.mul_add_div (Nat.two_pow_pos _), Nat.div_eq_of_lt (bitsValue_lt rest), Nat.add_zero]
    rw [walkBits, hrb]
    simp only [Res.ok_bind]
    have hlen' : (takeEdge b (s.sourced 1)).len = s.len := rfl
    have hcode' : (takeEdge b (s.sourced 1)).code = s.code := rfl
    cases rest with
    | nil =>
      rw [List.length_nil, pow_zero, Nat.div_one] at hcut
      rw [List.length_nil, Nat.add_zero] at hlen
      have hd1 : decSymbol (takeEdge b (s.sourced 1)).pfx.toNat
          (takeEdge b (s.sourced 1)).pfxLen.val (takeEdge b (s.sourced 1)) = some x := by
        simp only [decSymbol, hlen', hcode', hpe, hple, ← hcut]
        rw [show pre.length + 1 = (entry s.len x).toNat by omega, codedAs_own hc hx]
      rw [hd1]
      have how : (takeEdge b (s.sourced 1)).chan.outClosed = false := ho
      have hdw : (takeEdge b (s.sourced 1)).chan.draw = .ok := by
        have : (s.sourced 1).chan.okFor 1 := by
          refine Channels.okFor_of_draws (c := s.chan) (m := s.fetches 1) ?_ rfl
          simpa using hd
        exact this.draw (by omega)
      refine ⟨?_, ?_⟩
      · simp only [emitSymbol, outWrite_ok x how hdw, Res.ok_bind]
        rfl
      · show (s.sourced 1).bitStream = tail
        simpa using hrs
    | cons b' rest =>
      have hd1 : decSymbol (takeEdge b (s.sourced 1)).pfx.toNat
          (takeEdge b (s.sourced 1)).pfxLen.val (takeEdge b (s.sourced 1)) = none := by
        simp only [decSymbol, hlen', hcode', hpe, hple]
        rw [List.length_cons] at hcut hlen
        rw [codedAs_proper hc hx (by omega)]
        rw [← hcut]
        congr 2; omega
      have hlv : live s.len s.code (bitsValue 0 (pre ++ [b])) (pre.length + 1) = true := by
        rw [List.length_cons] at hcut hlen
        refine live_iff.mpr ⟨x, hx, by omega, ?_⟩
        rw [← hcut]
        congr 2; omega
      rw [hd1]
      simp only [hlen', hcode', hpe, hple, hlv, if_true]
      have := ih (pre ++ [b]) (levels := levels) (s := takeEdge b (s.sourced 1)) hc hx
        (by rw [hlen']; simpa using hb) (by simp)
        (by simp only [List.length_cons] at hl ⊢; omega) hpe (by simpa using hple)
        hrs ho
        (Channels.okFor_of_draws (c := s.chan) (m := s.fetches 1) (hd.mono (by
          have e : (takeEdge b (s.sourced 1)).fetches (b' :: rest).length
            = (s.sourced 1).fetches (b' :: rest).length := rfl
          have e1 : (b :: b' :: rest).length = 1 + (b' :: rest).length := Nat.add_comm _ _
          rw [e, e1, hfa]
          omega)) rfl)
      rw [State.decoded_edge] at this
      rw [List.length_cons (a := b), Nat.add_comm _ 1]
      exact this

/-- R242: `DEC_SYM` decodes the first symbol of a payload. -/
theorem decodeSymbol_ok {x : Byte} {tail : List Bool} {s : State} (hc : Coded s.len s.code)
    (hx : entry s.len x ≠ 0) (hs : s.bitStream = symbolBits s.len x ++ tail)
    (ho : s.chan.outClosed = false)
    (hd : s.chan.okFor (s.fetches (entry s.len x).toNat + 1)) :
    decodeSymbol s = .ok () (s.decoded x (entry s.len x).toNat) ∧
      (s.decoded x (entry s.len x).toNat).bitStream = tail := by
  have hlx := (entry s.len x).isLt
  have h0 : (entry s.len x).toNat ≠ 0 := fun e => hx (BitVec.eq_of_toNat_eq (by simpa using e))
  have := walkBits_ok (x := x) (symbolBits s.len x) [] tail (levels := 255) (s := s.atRoot) hc hx rfl
    (by intro e; have := congrArg List.length e; rw [symbolBits_length] at this; simp at this; omega)
    (by rw [symbolBits_length]; omega) rfl rfl hs ho (by rw [symbolBits_length]; exact hd)
  rw [symbolBits_length] at this
  exact this

/-! ### A whole payload -/

theorem State.sameButDecoding_trans {s t u : State} (h₁ : s.sameButDecoding t)
    (h₂ : t.sameButDecoding u) : s.sameButDecoding u := by
  unfold State.sameButDecoding at *
  rw [h₂, h₁]

theorem countEmitted_fits {s : State} (h : s.emitted.toNat + 1 < 2 ^ 64) :
    countEmitted s = { s with emitted := s.emitted + 1 } := by
  simp only [countEmitted]
  rw [sumCount_fits _ (by simpa using h)]

theorem Channels.okAll_okFor {c : Channels} (h : ∀ d ∈ c.draws, d = .ok) (n : Nat) : c.okFor n :=
  fun d hd => h d (List.mem_of_mem_take hd)

/-- R244, R246: `DEC_LOOP` decodes a payload to its symbols, and leaves the bits after it. -/
theorem decodeLoop_ok (xs : List Byte) (tail : List Bool) {turns : Nat} {s : State}
    (hc : Coded s.len s.code) (hx : ∀ x ∈ xs, entry s.len x ≠ 0)
    (hs : s.bitStream = payloadBits s.len xs ++ tail) (hn : s.emitted.toNat + xs.length = s.origLen.toNat)
    (ht : xs.length < turns) (ho : s.chan.outClosed = false) (hd : ∀ d ∈ s.chan.draws, d = .ok) :
    ∃ t, decodeLoopFrom turns s = .ok () t ∧ s.sameButDecoding t ∧ t.emitted = s.origLen ∧
      t.chan.out = s.chan.out ++ xs ∧ t.bitStream = tail ∧ (∀ d ∈ t.chan.draws, d = .ok) ∧
      (s.walkerOk → t.walkerOk) := by
  induction xs generalizing s turns with
  | nil =>
    obtain ⟨turns, rfl⟩ : ∃ k, turns = k + 1 := ⟨turns - 1, by simp at ht; omega⟩
    have he : s.emitted = s.origLen := BitVec.eq_of_toNat_eq (by simpa using hn)
    refine ⟨s, ?_, rfl, he, by simp, by simpa [payloadBits] using hs, hd, id⟩
    rw [decodeLoopFrom, decodeTurn, if_neg (by rw [he]; omega)]
    rfl
  | cons x xs ih =>
    obtain ⟨turns, rfl⟩ : ∃ k, turns = k + 1 := ⟨turns - 1, by simp at ht; omega⟩
    rw [List.length_cons] at hn ht
    have hx0 := hx x List.mem_cons_self
    have hs' : s.bitStream = symbolBits s.len x ++ (payloadBits s.len xs ++ tail) := by
      rw [hs, payloadBits, List.flatMap_cons, List.append_assoc]; rfl
    obtain ⟨h1, h2⟩ := decodeSymbol_ok hc hx0 hs' ho (Channels.okAll_okFor hd _)
    have hol := s.origLen.isLt
    generalize hu : s.decoded x (entry s.len x).toNat = u at h1 h2
    have hue : u.emitted = s.emitted := by rw [← hu]; rfl
    have huo : u.origLen = s.origLen := by rw [← hu]; rfl
    have hul : u.len = s.len := by rw [← hu]; rfl
    have huc : u.code = s.code := by rw [← hu]; rfl
    have huout : u.chan.out = s.chan.out ++ [x] := by rw [← hu]; rfl
    have hucl : u.chan.outClosed = false := by rw [← hu]; exact ho
    have hudr : ∀ d ∈ u.chan.draws, d = .ok := by
      rw [← hu]
      exact fun d hm => hd d (List.mem_of_mem_drop (List.mem_of_mem_drop hm))
    have hus : s.sameButDecoding u := by rw [← hu]; rfl
    have huw : u.pfx = 0 ∧ u.pfxLen = 0 := by rw [← hu]; exact ⟨rfl, rfl⟩
    obtain ⟨t, ht1, ht2, ht3, ht4, ht5, ht6, ht7⟩ := ih (turns := turns)
      (s := { u with emitted := u.emitted + 1 }) (by simpa only [hul, huc] using hc)
      (fun y hy => by simp only [hul]; exact hx y (List.mem_cons_of_mem _ hy))
      (by simp only [hul]; exact h2)
      (by
        simp only [hue, huo]
        rw [BitVec.toNat_add, count_one, Nat.mod_eq_of_lt (by omega)]
        omega)
      (by omega) hucl hudr
    refine ⟨t, ?_, ?_, ?_, ?_, ht5, ht6, ?_⟩
    · rw [decodeLoopFrom, decodeTurn, if_pos (by omega), h1, Res.ok_bind, Res.ok_bind,
        countEmitted_fits (by rw [hue]; omega)]
      exact ht1
    · refine State.sameButDecoding_trans hus (State.sameButDecoding_trans ?_ ht2)
      rfl
    · rw [ht3]; exact huo
    · rw [ht4]; simp [huout]
    · intro _
      refine ht7 ?_
      simp only [State.walkerOk, huw.1, huw.2]
      decide

end Sys2Proof.Machine
end

