-- ==== Sys2Proof/Laws/Encoding.lean ====
section
/-! SUPPORT. Laws of ENC_SYM and ENC_PASS (45_packer.md R224 to R227): pass 2 writes the payload bits
of the bytes it reads. -/

namespace Sys2Proof.Machine

theorem encodeByte_ok {x : Byte} {s : State} (hc : Coded s.len s.code) (hx : entry s.len x ≠ 0)
    (hs : s.skAcc.toNat < 2 ^ s.skN.val) (ho : s.chan.outClosed = false)
    (hd : s.chan.okFor ((s.skN.val + (entry s.len x).toNat) / 8)) :
    encodeByte x s = .ok () (s.sank (s.pending ++ symbolBits s.len x)) := by
  rw [encodeByte, if_neg hx, writeBits_ok _ _ hs ho hd, hc.code x hx]
  rfl

theorem State.sameButEncoding_trans {s t u : State} (h₁ : s.sameButEncoding t)
    (h₂ : t.sameButEncoding u) : s.sameButEncoding u := by
  unfold State.sameButEncoding at *
  rw [h₂, h₁]

/-- R224: the loop of ENC_PASS. -/
theorem encodeLoop_ok (xs : List Byte) {turns : Nat} {s : State} (hc : Coded s.len s.code)
    (hx : ∀ x ∈ xs, entry s.len x ≠ 0) (hr : s.chan.rest = xs) (ht : xs.length < turns)
    (hs : s.skAcc.toNat < 2 ^ s.skN.val) (ho : s.chan.outClosed = false)
    (hd : ∀ d ∈ s.chan.draws, d = .ok) (hn : s.emitted.toNat + xs.length < 2 ^ 64) :
    ∃ t, encodeLoop turns s = .ok () t ∧ s.sameButEncoding t ∧
      t.emitted = s.emitted + BitVec.ofNat 64 xs.length ∧
      t.chan.out = s.chan.out ++ bytesOfBits (s.pending ++ payloadBits s.len xs) ∧
      t.pending = leftBits (s.pending ++ payloadBits s.len xs) ∧
      t.skAcc.toNat < 2 ^ t.skN.val ∧ t.chan.inPos = s.chan.inPos + xs.length ∧
      (∀ d ∈ t.chan.draws, d = .ok) := by
  induction xs generalizing s turns with
  | nil =>
    obtain ⟨turns, rfl⟩ : ∃ k, turns = k + 1 := ⟨turns - 1, by simp at ht; omega⟩
    refine ⟨{ s with chan := s.chan.metEnd }, ?_, rfl, by simp, ?_, ?_, hs, rfl, ?_⟩
    · rw [encodeLoop, encodeTurn, inRead_eos (Channels.okFor.draw (Channels.okAll_okFor hd 1) (by omega)) hr]
      rfl
    · have : s.pending.length < 8 := by simp
      simp [payloadBits, bytesOfBits_short this]
    · have : s.pending.length < 8 := by simp
      simp only [payloadBits, List.flatMap_nil, List.append_nil, leftBits_short this]
      rfl
    · intro d hm
      simp only [Channels.metEnd_draws] at hm
      exact hd d (List.mem_of_mem_drop hm)
  | cons x xs ih =>
    obtain ⟨turns, rfl⟩ : ∃ k, turns = k + 1 := ⟨turns - 1, by simp at ht; omega⟩
    rw [List.length_cons] at ht hn
    have hx0 := hx x List.mem_cons_self
    have hd1 : ∀ d ∈ (s.chan.took 1).draws, d = .ok := fun d hm => hd d (List.mem_of_mem_drop hm)
    have he := encodeByte_ok (x := x) (s := { s with chan := s.chan.took 1 }) hc hx0 hs ho
      (Channels.okAll_okFor hd1 _)
    generalize hu : State.sank (State.pending { s with chan := s.chan.took 1 } ++ symbolBits s.len x)
      { s with chan := s.chan.took 1 } = u at he
    have hup : u.pending = leftBits (s.pending ++ symbolBits s.len x) := by
      rw [← hu, State.sank_pending_bits]; rfl
    have hus : u.skAcc.toNat < 2 ^ u.skN.val := by rw [← hu]; exact State.sank_small _ _
    have huo : u.chan.out = s.chan.out ++ bytesOfBits (s.pending ++ symbolBits s.len x) := by
      rw [← hu]; rfl
    have hul : u.len = s.len := by rw [← hu]; rfl
    have huc : u.code = s.code := by rw [← hu]; rfl
    have hue : u.emitted = s.emitted := by rw [← hu]; rfl
    have hur : u.chan.rest = xs := by
      rw [← hu]
      show (s.chan.took 1).rest = xs
      rw [Channels.took_rest, hr]; rfl
    have hucl : u.chan.outClosed = false := by rw [← hu]; exact ho
    have hup1 : u.chan.inPos = s.chan.inPos + 1 := by rw [← hu]; rfl
    have hud : ∀ d ∈ u.chan.draws, d = .ok := by
      rw [← hu]
      exact fun d hm => hd1 d (List.mem_of_mem_drop hm)
    have huse : s.sameButEncoding u := by rw [← hu]; rfl
    have hsum : (s.emitted + 1).toNat = s.emitted.toNat + 1 := by
      rw [BitVec.toNat_add, count_one]; omega
    obtain ⟨t, t1, t2, t3, t4, t5, t6, t7, t8⟩ := ih (turns := turns)
      (s := { u with emitted := u.emitted + 1 }) (by simpa only [hul, huc] using hc)
      (fun y hy => by simp only [hul]; exact hx y (List.mem_cons_of_mem _ hy)) hur (by omega) hus hucl
      hud (by simp only [hue, hsum]; omega)
    have t4' : t.chan.out = u.chan.out ++ bytesOfBits (u.pending ++ payloadBits s.len xs) := by
      rw [← hul]; exact t4
    have t5' : t.pending = leftBits (u.pending ++ payloadBits s.len xs) := by
      rw [← hul]; exact t5
    have hpay : s.pending ++ payloadBits s.len (x :: xs)
        = (s.pending ++ symbolBits s.len x) ++ payloadBits s.len xs := by
      rw [payloadBits, List.flatMap_cons, List.append_assoc]; rfl
    refine ⟨t, ?_, ?_, ?_, ?_, ?_, t6, ?_, t8⟩
    · rw [encodeLoop, encodeTurn,
        inRead_byte (Channels.okFor.draw (Channels.okAll_okFor hd 1) (by omega)) hr]
      simp only [Res.ok_bind, he, if_true]
      rw [countEmitted_fits (by rw [hue]; omega)]
      exact t1
    · exact State.sameButEncoding_trans huse (State.sameButEncoding_trans
        (t := { u with emitted := u.emitted + 1 }) rfl t2)
    · have e1 : (1 : Count) = BitVec.ofNat 64 1 := rfl
      rw [t3, hue, e1, BitVec.add_assoc, ← BitVec.ofNat_add, List.length_cons, Nat.add_comm 1]
    · rw [t4', hup, huo, hpay, bytesOfBits_append_left (s.pending ++ symbolBits s.len x), List.append_assoc]
    · rw [t5', hup, hpay, leftBits_append_left (s.pending ++ symbolBits s.len x)]
    · rw [t7]
      simp only [hup1, List.length_cons]
      omega

/-- R224, R226: ENC_PASS over an input of as many bytes as ORIG_LEN, all of them with a code. -/
theorem encodePass_ok {s : State} (hc : Coded s.len s.code)
    (hx : ∀ x ∈ s.chan.rest, entry s.len x ≠ 0) (hs : s.skAcc.toNat < 2 ^ s.skN.val)
    (ho : s.chan.outClosed = false) (hd : ∀ d ∈ s.chan.draws, d = .ok)
    (hn : s.chan.rest.length = s.origLen.toNat) :
    ∃ t, encodePass s = .ok () t ∧ s.sameButEncoding t ∧ t.emitted = s.origLen ∧
      t.chan.out = s.chan.out ++ bytesOfBits (s.pending ++ payloadBits s.len s.chan.rest) ∧
      t.pending = leftBits (s.pending ++ payloadBits s.len s.chan.rest) ∧
      t.skAcc.toNat < 2 ^ t.skN.val ∧ t.chan.inPos = s.chan.inPos + s.chan.rest.length ∧
      (∀ d ∈ t.chan.draws, d = .ok) := by
  have hol := s.origLen.isLt
  have h0 : (s.emittedClear).emitted = 0 := rfl
  obtain ⟨t, t1, t2, t3, t4⟩ := encodeLoop_ok s.chan.rest (turns := readTurns s)
    (s := s.emittedClear) hc hx rfl (by rw [readTurns_eq]; omega) hs ho hd
    (by rw [h0, hn]; simpa using hol)
  have te : t.emitted = s.origLen := by
    rw [t3, h0, hn]; simp
  have tol : t.origLen = s.origLen := by rw [t2]; rfl
  refine ⟨t, ?_, State.sameButEncoding_trans (t := s.emittedClear) rfl t2, te, t4⟩
  have e : readTurns s.emittedClear = readTurns s := rfl
  simp only [encodePass, e, t1, Res.ok_bind, passesAgree]
  rw [if_pos (te.trans tol.symm)]

end Sys2Proof.Machine
end

