-- ==== Sys2Proof/Laws/Header.lean ====
section
/-! SUPPORT. Laws of FormatCodec (44_formatcodec.md R201 to R210): the header HDR_WRITE writes is the
269 bytes of R90, and HDR_READ reads them back. -/

namespace Sys2Proof.Machine

/-! ### Writing -/

/-- The bits of a list of fields, in order. -/
def fieldBits (fields : List (Nat × Nat)) : List Bool :=
  fields.flatMap fun f => codeBits f.1 f.2

theorem writeFields_ok (fields : List (Nat × Nat)) {s : State} (hs : s.skAcc.toNat < 2 ^ s.skN.val)
    (ho : s.chan.outClosed = false)
    (hd : s.chan.okFor ((s.skN.val + (fieldBits fields).length) / 8)) :
    writeFields fields s = .ok () (s.sank (s.pending ++ fieldBits fields)) := by
  have e : ∀ fs : List (Nat × Nat), ∀ s : State, writeFields fs s = pushBits (fieldBits fs) s := by
    intro fs
    induction fs with
    | nil => intro s; rfl
    | cons f fs ih =>
      intro s
      obtain ⟨v, L⟩ := f
      simp only [writeFields, fieldBits, List.flatMap_cons, pushBits_append, writeBits]
      exact congrArg _ (funext fun _ => funext fun t => ih t)
  rw [e]
  exact pushBits_ok _ hs ho hd

theorem State.id_toNat (s : State) : s.id.toNat = s.magic.toNat * 2 ^ 8 + s.version.toNat := by
  have h := s.id.isLt
  simp only [State.magic, State.version, BitVec.extractLsb'_toNat]
  rw [Nat.shiftRight_eq_div_pow, Nat.shiftRight_zero]
  omega

theorem fieldBits_header (s : State) :
    fieldBits (headerFields s) = (headerBytes s.id s.origLen s.len).flatMap byteBits := by
  have h1 : codeBits s.magic.toNat 32 ++ codeBits s.version.toNat 8
      = (bytesOfNat 5 s.id.toNat).flatMap byteBits := by
    rw [← codeBits_bytes 5, ← codeBits_append _ _ _ _ s.version.isLt, ← State.id_toNat]
  have h2 := codeBits_bytes 8 s.origLen.toNat
  have h3 : ∀ l : List (BitVec 8), fieldBits (l.map fun l => (l.toNat, 8)) = l.flatMap byteBits := by
    intro l
    induction l with
    | nil => rfl
    | cons a l ih =>
      simp only [fieldBits, List.map_cons, List.flatMap_cons] at ih ⊢
      rw [ih]; rfl
  have h4 : fieldBits (headerFields s) = codeBits s.magic.toNat 32 ++ (codeBits s.version.toNat 8 ++
      (codeBits s.origLen.toNat 64 ++ fieldBits (s.len.toList.map fun l => (l.toNat, 8)))) := rfl
  rw [h4, h3, headerBytes, List.flatMap_append, List.flatMap_append, ← h1, ← h2]
  simp only [List.append_assoc]

@[simp] theorem headerBytes_length (id : BitVec 40) (n : Count) (len : Table (BitVec 8)) :
    (headerBytes id n len).length = 269 := by
  simp [headerBytes, bytesOfNat_length]

/-- R201: HDR_WRITE writes the 269 bytes of the header, after what was pending. -/
theorem writeHeader_ok {s : State} (hs : s.skAcc.toNat < 2 ^ s.skN.val)
    (ho : s.chan.outClosed = false) (hd : s.chan.okFor 269) :
    writeHeader s = .ok ()
      (s.sank (s.pending ++ (headerBytes s.id s.origLen s.len).flatMap byteBits)) := by
  rw [writeHeader, writeFields_ok _ hs ho, fieldBits_header]
  refine hd.mono ?_
  have := s.skN.isLt
  rw [fieldBits_header, flatMap_byteBits_length, headerBytes_length]
  omega

/-! ### Reading -/

theorem readField_ok {n v : Nat} {tail : List Bool} {s : State} (hv : v < 2 ^ n)
    (hb : s.bitStream = codeBits v n ++ tail) (hd : s.chan.okFor (s.fetches n)) :
    readField n s = .ok v (s.sourced n) ∧ (s.sourced n).bitStream = tail := by
  have hl := congrArg List.length hb
  rw [List.length_append, codeBits_length] at hl
  obtain ⟨h1, h2⟩ := readBitsFrom_ok 0 n (s := s) (by omega) hd
  have ht : s.bitStream.take n = codeBits v n := by
    rw [hb, List.take_append_of_le_length (by simp), List.take_of_length_le (by simp)]
  have hdr : s.bitStream.drop n = tail := by
    rw [hb, List.drop_append_of_le_length (by simp), List.drop_of_length_le (by simp)]; rfl
  rw [ht, bitsValue_codeBits, Nat.mod_eq_of_lt hv, Nat.zero_mul, Nat.zero_add] at h1
  rw [hdr] at h2
  exact ⟨by rw [readField, readBits, h1]; rfl, h2⟩

/-- R202, R205: the length entries, one byte each. -/
theorem readLens_ok (bs : List Byte) (val : Byte → BitVec 8) (tail : List Bool) {s : State}
    (hb : s.bitStream = (bs.map val).flatMap byteBits ++ tail)
    (hd : s.chan.okFor (s.fetches (8 * bs.length))) :
    readLens bs s = .ok () { s.sourced (8 * bs.length) with
        len := bs.foldl (fun t b => setEntry t b (val b)) s.len } ∧
      (s.sourced (8 * bs.length)).bitStream = tail := by
  induction bs generalizing s with
  | nil =>
    refine ⟨?_, ?_⟩
    · simp only [readLens, List.length_nil, Nat.mul_zero, State.sourced_zero, List.foldl_nil]
    · simpa [State.sourced_zero] using hb
  | cons b bs ih =>
    have e : 8 * (b :: bs).length = 8 + 8 * bs.length := by simp; omega
    have hf := s.fetches_add 8 (8 * bs.length)
    rw [e, hf] at hd
    have hb' : s.bitStream = codeBits (val b).toNat 8 ++ ((bs.map val).flatMap byteBits ++ tail) := by
      rw [hb, List.map_cons, List.flatMap_cons, List.append_assoc]; rfl
    obtain ⟨h1, h2⟩ := readField_ok (val b).isLt hb' (hd.mono (by omega))
    have h3 := ih (s := { s.sourced 8 with len := setEntry s.len b (val b) }) h2
      (Channels.okFor_of_draws (c := s.chan) (m := s.fetches 8) hd rfl)
    rw [readLens, h1, Res.ok_bind, e, ← State.sourced_sourced]
    simp only [BitVec.ofNat_toNat, BitVec.setWidth_eq, List.foldl_cons]
    exact h3

theorem foldl_allBytes {α : Type} (t u : Table α) :
    allBytes.foldl (fun t b => setEntry t b (entry u b)) t = u := by
  refine table_ext fun b => ?_
  exact entry_foldl_mem (fun b => b) (entry u) allBytes t (by simpa using allBytes_nodup)
    (mem_allBytes b)

/-- R202, R209: HDR_READ reads back the header that HDR_WRITE writes, with the same ID. -/
theorem readHeader_ok {n : Count} {len : Table (BitVec 8)} {tail : List Bool} {s : State}
    (hb : s.bitStream = (headerBytes s.id n len).flatMap byteBits ++ tail)
    (hd : s.chan.okFor (s.fetches (8 * 269))) :
    readHeader s = .ok () { s.sourced (8 * 269) with origLen := n, len := len } ∧
      (s.sourced (8 * 269)).bitStream = tail := by
  have h1 : codeBits s.magic.toNat 32 ++ codeBits s.version.toNat 8
      = (bytesOfNat 5 s.id.toNat).flatMap byteBits := by
    rw [← codeBits_bytes 5, ← codeBits_append _ _ _ _ s.version.isLt, ← State.id_toNat]
  have h2 := codeBits_bytes 8 n.toNat
  rw [headerBytes, List.flatMap_append, List.flatMap_append, ← h1, ← h2, toList_eq] at hb
  simp only [List.append_assoc] at hb
  have f1 := s.fetches_add 32 (8 + (64 + 2048))
  have f2 := (s.sourced 32).fetches_add 8 (64 + 2048)
  have f3 := ((s.sourced 32).sourced 8).fetches_add 64 2048
  rw [show 8 * 269 = 32 + (8 + (64 + 2048)) by norm_num] at hd ⊢
  obtain ⟨a1, b1⟩ := readField_ok s.magic.isLt hb (hd.mono (by omega))
  have hd1 : (s.sourced 32).chan.okFor ((s.sourced 32).fetches (8 + (64 + 2048))) :=
    Channels.okFor_of_draws (c := s.chan) (m := s.fetches 32) (by rwa [← f1]) rfl
  obtain ⟨a2, b2⟩ := readField_ok s.version.isLt b1 (hd1.mono (by omega))
  have hd2 : ((s.sourced 32).sourced 8).chan.okFor
      (((s.sourced 32).sourced 8).fetches (64 + 2048)) :=
    Channels.okFor_of_draws (c := (s.sourced 32).chan) (m := (s.sourced 32).fetches 8)
      (by rwa [← f2]) rfl
  obtain ⟨a3, b3⟩ := readField_ok n.isLt b2 (hd2.mono (by omega))
  have hd3 : (((s.sourced 32).sourced 8).sourced 64).chan.okFor
      ((((s.sourced 32).sourced 8).sourced 64).fetches 2048) :=
    Channels.okFor_of_draws (c := ((s.sourced 32).sourced 8).chan)
      (m := ((s.sourced 32).sourced 8).fetches 64) (by rwa [← f3]) rfl
  have b3' : (State.bitStream { ((s.sourced 32).sourced 8).sourced 64 with origLen := n })
      = (allBytes.map (entry len)).flatMap byteBits ++ tail := b3
  obtain ⟨a4, b4⟩ := readLens_ok allBytes (entry len) tail
    (s := { ((s.sourced 32).sourced 8).sourced 64 with origLen := n }) b3'
    (by rw [allBytes_length]; exact hd3)
  rw [allBytes_length, foldl_allBytes] at a4
  rw [allBytes_length] at b4
  have m1 : (s.sourced 32).magic = s.magic := rfl
  have m2 : ((s.sourced 32).sourced 8).version = s.version := rfl
  have e1 : readMagic s = .ok () (s.sourced 32) := by
    rw [readMagic, a1, Res.ok_bind, m1, if_pos rfl]
  have e2 : readVersion (s.sourced 32) = .ok () ((s.sourced 32).sourced 8) := by
    rw [readVersion, a2, Res.ok_bind, m2, if_pos rfl]
  have e3 : readOrigLen ((s.sourced 32).sourced 8)
      = .ok () { ((s.sourced 32).sourced 8).sourced 64 with origLen := n } := by
    rw [readOrigLen, a3, Res.ok_bind]
    simp only [BitVec.ofNat_toNat, BitVec.setWidth_eq]
  refine ⟨?_, ?_⟩
  · rw [readHeader, e1, Res.ok_bind, e2, Res.ok_bind, e3, Res.ok_bind, a4, ← State.sourced_sourced,
      ← State.sourced_sourced, ← State.sourced_sourced]
    rfl
  · rw [← State.sourced_sourced, ← State.sourced_sourced, ← State.sourced_sourced]
    exact b4

end Sys2Proof.Machine
end

