-- ==== Sys2Proof/Laws/Walk.lean ====
section
/-! SUPPORT. Laws of the tables CT_WALK leaves (43_codetable.md R182 to R185) and of TB_BUILD, CT_WALK
and CT_CANON run one after the other (45_packer.md R220). -/

namespace Sys2Proof.Machine

theorem Tree.walkCodes_range {T : Tree} (hh : T.height ≤ 255) {c : LeafCode} (h : c ∈ T.walkCodes) :
    1 ≤ c.L ∧ c.L ≤ 255 := by
  cases T with
  | leaf x =>
    rw [Tree.walkCodes, List.mem_singleton] at h
    subst h
    simp
  | node l r =>
    have h1 := Tree.codes_node_pos h
    have h2 := Tree.codes_under h
    exact ⟨h1, by omega⟩

/-- R184: the length of a leaf's symbol is the depth of the leaf, 1 for a single leaf. -/
theorem walked_len_mem {T : Tree} (hn : T.symbols.Nodup) (d : Degen) (s : State) {c : LeafCode}
    (h : c ∈ T.walkCodes) : entry (walked d T.walkCodes s).len c.sym = BitVec.ofNat 8 c.L :=
  entry_foldl_mem LeafCode.sym (fun l => BitVec.ofNat 8 l.L) T.walkCodes _
    (by rw [Tree.walkCodes_symbols]; exact hn) h

theorem walked_tcode_mem {T : Tree} (hn : T.symbols.Nodup) (d : Degen) (s : State) {c : LeafCode}
    (h : c ∈ T.walkCodes) : entry (walked d T.walkCodes s).tcode c.sym = BitVec.ofNat 255 c.v :=
  entry_foldl_mem LeafCode.sym (fun l => BitVec.ofNat 255 l.v) T.walkCodes _
    (by rw [Tree.walkCodes_symbols]; exact hn) h

/-- R182: a symbol with no leaf has length 0. -/
theorem walked_len_absent (T : Tree) (d : Degen) (s : State) {x : Byte} (h : x ∉ T.symbols) :
    entry (walked d T.walkCodes s).len x = 0 := by
  have : entry (walked d T.walkCodes s).len x = entry (Vector.replicate 256 (0 : BitVec 8)) x :=
    entry_foldl_other LeafCode.sym (fun l => BitVec.ofNat 8 l.L) T.walkCodes _ x fun c hc e => by
      apply h
      rw [← Tree.walkCodes_symbols, ← e]
      exact List.mem_map_of_mem hc
  rw [this, entry_replicate]

/-- R184: the present symbols are the leaves' symbols, each with its depth. -/
theorem walked_present {T : Tree} (hn : T.symbols.Nodup) (hh : T.height ≤ 255) (d : Degen)
    (s : State) :
    (present (walked d T.walkCodes s).len).Perm (T.walkCodes.map fun c => (c.sym, c.L)) := by
  have hnd : (T.walkCodes.map fun c => (c.sym, c.L)).Nodup := by
    apply List.Nodup.of_map Prod.fst
    rw [List.map_map, show Prod.fst ∘ (fun c : LeafCode => (c.sym, c.L)) = LeafCode.sym from rfl,
      Tree.walkCodes_symbols]
    exact hn
  rw [List.perm_ext_iff_of_nodup (present_nodup _) hnd]
  rintro ⟨x, l⟩
  rw [mem_present]
  have hval : ∀ c ∈ T.walkCodes, (BitVec.ofNat 8 c.L).toNat = c.L := fun c hc => by
    have := Tree.walkCodes_range hh hc
    rw [BitVec.toNat_ofNat]; omega
  constructor
  · rintro ⟨h0, rfl⟩
    have hx : x ∈ T.symbols := by
      by_contra hx
      exact h0 (walked_len_absent T d s hx)
    rw [← Tree.walkCodes_symbols] at hx
    obtain ⟨c, hc, rfl⟩ := List.mem_map.mp hx
    rw [walked_len_mem hn d s hc, hval c hc]
    exact List.mem_map.mpr ⟨c, hc, rfl⟩
  · intro h
    obtain ⟨c, hc, e⟩ := List.mem_map.mp h
    simp only [Prod.mk.injEq] at e
    obtain ⟨rfl, rfl⟩ := e
    have hr := Tree.walkCodes_range hh hc
    rw [walked_len_mem hn d s hc]
    refine ⟨?_, (hval c hc).symm⟩
    intro e
    have := congrArg BitVec.toNat e
    rw [hval c hc] at this
    simp at this
    omega

theorem walked_kraft {T : Tree} (hn : T.symbols.Nodup) (hh : T.height ≤ 255) (d : Degen) (s : State) :
    kraft255 (walked d T.walkCodes s).len = (T.walkCodes.map fun c => 2 ^ (255 - c.L)).sum := by
  rw [kraft255_eq, shares, ((walked_present hn hh d s).map share).sum_eq, List.map_map]
  rfl

/-- R184: a tree of two leaves or more gives lengths with a Kraft sum of exactly 1. -/
theorem walked_kraft_node {l r : Tree} (hn : (Tree.node l r).symbols.Nodup)
    (hh : (Tree.node l r).height ≤ 255) (d : Degen) (s : State) :
    kraft255 (walked d (Tree.node l r).walkCodes s).len = 2 ^ 255 := by
  rw [walked_kraft hn hh]
  exact Tree.kraft _ 0 0 255 (by omega)

/-- R184, R220: the tables of P_BUILD, from any state. -/
theorem buildCodes_ok (s : State) :
    ∃ t, buildCodes s = .ok () t ∧ s.sameButTables t ∧ Coded t.len t.code ∧
      (∀ x, entry t.len x ≠ 0 ↔ entry s.freq x ≠ 0) ∧
      (present t.len).length = (countedBytes s.freq).length ∧
      (2 ≤ (countedBytes s.freq).length → kraft255 t.len = 2 ^ 255) ∧
      (∀ x, countedBytes s.freq = [x] → present t.len = [(x, 1)]) ∧
      t.degen = degenOf (countedBytes s.freq).length ∧
      t.nsym.val = (countedBytes s.freq).length := by
  obtain ⟨b, hb, hsame, hns, hempty, hfull, -⟩ := buildTree_ok s
  have hle := countedBytes_length_le s.freq
  have finish : ∀ w : State, walkTree b = .ok () w → kraft255 w.len ≤ 2 ^ 255 →
      buildCodes s = .ok () (assignCodes w) ∧
      assignCodes w = { w with code := (assignCodes w).code } ∧
      Coded (assignCodes w).len (assignCodes w).code := by
    intro w hw hk
    refine ⟨?_, ?_, coded_assignCodes hk⟩
    · rw [buildCodes, hb, Res.ok_bind, hw]; rfl
    · rw [assignCodes, if_pos hk]
  have hpresent : ∀ (len : Table (BitVec 8)), (present len).length
      = (allBytes.filter fun x => entry len x ≠ 0).length := by
    intro len; rw [present_eq, List.length_map]
  have hcount : ∀ (len : Table (BitVec 8)), (∀ x, entry len x ≠ 0 ↔ entry s.freq x ≠ 0) →
      (present len).length = (countedBytes s.freq).length := by
    intro len h
    rw [hpresent, countedBytes]
    congr 2
    funext x
    exact decide_eq_decide.mpr (h x)
  by_cases h0 : countedBytes s.freq = []
  · obtain ⟨hr, -, -⟩ := hempty h0
    have hl : (walked .empty [] b).len = Vector.replicate 256 0 := rfl
    have hp : present (Vector.replicate 256 (0 : BitVec 8)) = [] := by
      rw [present_eq]; simp
    have hk : kraft255 (walked .empty [] b).len ≤ 2 ^ 255 := by
      rw [hl, kraft255, hp]; simp
    obtain ⟨e1, e2, e3⟩ := finish _ (walkTree_none hr) hk
    have hzero : ∀ x, entry s.freq x = 0 := by
      intro x
      by_contra hx
      have := mem_countedBytes.mpr hx
      rw [h0] at this
      simp at this
    have hiff : ∀ x, entry (assignCodes (walked .empty [] b)).len x ≠ 0 ↔ entry s.freq x ≠ 0 := by
      intro x
      rw [e2]
      simp [hl, hzero]
    refine ⟨_, e1, ?_, e3, hiff, hcount _ hiff, ?_, ?_, ?_, ?_⟩
    · rw [e2, State.sameButTables, hsame]; rfl
    · intro h; rw [h0] at h; simp at h
    · intro x hx; rw [h0] at hx; simp at hx
    · rw [e2, h0]; rfl
    · rw [e2]; exact hns
  · obtain ⟨r, T, hr, -, -, -, hT, hperm, -⟩ := hfull h0
    have hnd : T.symbols.Nodup := hperm.nodup_iff.mpr (countedBytes_nodup _)
    have hlen := hperm.length_eq
    have hh : T.height ≤ 255 := by have := T.height_lt; omega
    have hw := walkTree_some hr hT hh
    have hk : kraft255 (walked T.degen T.walkCodes b).len ≤ 2 ^ 255 := by
      cases T with
      | leaf x =>
        rw [walked_kraft hnd hh]
        simp [Tree.walkCodes]
      | node l r' => exact (walked_kraft_node hnd hh _ _).le
    obtain ⟨e1, e2, e3⟩ := finish _ hw hk
    have hl : (assignCodes (walked T.degen T.walkCodes b)).len = (walked T.degen T.walkCodes b).len := by
      rw [e2]
    have hpp := walked_present hnd hh T.degen b
    have hiff : ∀ x, entry (assignCodes (walked T.degen T.walkCodes b)).len x ≠ 0
        ↔ entry s.freq x ≠ 0 := by
      intro x
      rw [hl, ← mem_countedBytes, ← hperm.mem_iff]
      constructor
      · intro hx
        by_contra hx'
        exact hx (walked_len_absent T _ b hx')
      · intro hx
        rw [← Tree.walkCodes_symbols] at hx
        obtain ⟨c, hc, rfl⟩ := List.mem_map.mp hx
        have hm : (c.sym, c.L) ∈ present (walked T.degen T.walkCodes b).len :=
          hpp.mem_iff.mpr (List.mem_map.mpr ⟨c, hc, rfl⟩)
        exact (mem_present.mp hm).1
    refine ⟨_, e1, ?_, e3, hiff, hcount _ hiff, ?_, ?_, ?_, ?_⟩
    · rw [e2, State.sameButTables, hsame]; rfl
    · intro h2
      rw [hl]
      cases T with
      | leaf x => simp [Tree.symbols] at hlen; omega
      | node l r' => exact walked_kraft_node hnd hh _ _
    · intro x hx
      rw [hl]
      cases T with
      | leaf y =>
        rw [hx] at hperm
        have : y = x := by simpa [Tree.symbols] using hperm
        subst this
        exact List.perm_singleton.mp (by simpa [Tree.walkCodes] using hpp)
      | node l r' =>
        rw [hx] at hlen
        have h1 := l.symbols_length_pos
        have h2 := r'.symbols_length_pos
        simp [Tree.symbols] at hlen
        omega
    · rw [e2]
      show T.degen = _
      cases T with
      | leaf y => rw [← hlen]; rfl
      | node l r' =>
        have h1 := l.symbols_length_pos
        have h2 := r'.symbols_length_pos
        rw [← hlen, Tree.symbols, List.length_append]
        obtain ⟨n, hn⟩ : ∃ n, l.symbols.length + r'.symbols.length = n + 2 :=
          ⟨l.symbols.length + r'.symbols.length - 2, by omega⟩
        rw [hn]; rfl
    · rw [e2]; exact hns

end Sys2Proof.Machine
end

