-- ==== Sys2Proof/Laws/Commands.lean ====
section
/-! SUPPORT. Laws of the host commands PACK and UNPACK run as one step (45_packer.md R220, R231,
46_unpacker.md R240, R247, R251). -/

namespace Sys2Proof.Machine

theorem outClose_ok {s : State} (ho : s.chan.outClosed = false) (hd : s.chan.draw = .ok) :
    outClose s = .ok ()
      { s with chan := { s.chan.made (.outClose .ok) with outClosed := true } } := by
  simp [outClose, ho, Channels.outClose, hd, afterAck]

theorem inRewind_ok {s : State} (hd : s.chan.draw = .ok) :
    inRewind s = .ok () { s with chan := { s.chan.made (.inRewind .ok) with
      inPos := 0, input := s.chan.inRewound.getD s.chan.input, inRewound := none } } := by
  simp [inRewind, Channels.rewind, hd, afterAck]

theorem payload_pad (S : List Bool) (out : List Byte) {p : List Bool} (hp : p = leftBits S) :
    (p = [] → out ++ bytesOfBits S = out ++ bytesOfBits (padBits S)) ∧
    (p ≠ [] → out ++ bytesOfBits S ++ bytesOfBits (padBits p) = out ++ bytesOfBits (padBits S)) := by
  subst hp
  constructor
  · intro h
    have := congrArg List.length h
    rw [leftBits_length, List.length_nil] at this
    rw [padBits, this]; simp
  · intro _
    rw [bytesOfBits_padBits S, List.append_assoc]

/-- R226, R220: FLUSH and OutClose. -/
theorem finishPack_ok {s : State} (ho : s.chan.outClosed = false) (hd : ∀ d ∈ s.chan.draws, d = .ok)
    (S : List Bool) (out : List Byte) (hp : s.pending = leftBits S)
    (hout : s.chan.out = out ++ bytesOfBits S) :
    ∃ t, finishPack s = .ok () t ∧ t.chan.out = out ++ bytesOfBits (padBits S) ∧
      t.chan.outClosed = true ∧ t.skN = 0 ∧
      t = { s with skAcc := t.skAcc, skN := t.skN, chan := { s.chan with
        out := t.chan.out, outClosed := true, draws := t.chan.draws, trace := t.chan.trace } } := by
  have hpp := payload_pad S out hp
  have hok : ∀ n, s.chan.okFor n := fun n => Channels.okAll_okFor hd n
  have hlen := congrArg List.length hp
  rw [State.pending_length] at hlen
  by_cases hn : s.skN = 0
  · have hp0 : s.pending = [] := by
      apply List.eq_nil_of_length_eq_zero
      rw [State.pending_length, hn]; rfl
    rw [finishPack, flushSink_empty hn, Res.ok_bind, outClose_ok ho ((hok 1).draw (by omega))]
    exact ⟨_, rfl, by simpa [Channels.made, hout] using hpp.1 hp0, rfl, hn, rfl⟩
  · have hp0 : s.pending ≠ [] := by
      intro e
      apply hn
      have := congrArg List.length e
      rw [State.pending_length] at this
      exact Fin.ext this
    rw [finishPack, flushSink_pending hn ho ((hok 1).draw (by omega)), Res.ok_bind]
    refine ⟨_, outClose_ok (by exact ho) ?_, ?_, rfl, rfl, rfl⟩
    rotate_left
    · simp only [Channels.made, Channels.wrote_out, hout]
      exact hpp.2 hp0
    · refine (Channels.okFor_of_draws (c := s.chan) (n := 1)
        (m := (bytesOfBits (padBits s.pending)).length) (hok _) rfl).draw (by omega)

theorem mem_iff_count_freq {xs : List Byte} {x : Byte} (h : xs.length < 2 ^ 64) :
    BitVec.ofNat 64 (xs.count x) ≠ 0 ↔ x ∈ xs := by
  have hc : xs.count x ≤ xs.length := List.count_le_length
  rw [← List.count_pos_iff, Ne, ← BitVec.toNat_inj, BitVec.toNat_ofNat]
  rw [Nat.mod_eq_of_lt (by omega)]
  simp [Nat.pos_iff_ne_zero]

/-- R220, R231: a PACK whose transactions are all answered Ok. -/
theorem packSequence_ok {s : State} (hb : s.chan.Bound) (hl : s.chan.input.length < 2 ^ 64) :
    ∃ t, packSequence (s.startCommand .pCount) = .ok () t ∧ t.phase = .done ∧ t.err = .none ∧
      t.errInfo = 0 ∧ t.id = s.id ∧ t.origLen = BitVec.ofNat 64 s.chan.input.length ∧
      t.emitted = t.origLen ∧ t.nsym.val = distinct s.chan.input ∧
      t.degen = degenOf (distinct s.chan.input) ∧
      (∀ x, entry t.len x ≠ 0 ↔ x ∈ s.chan.input) ∧
      (present t.len).length = distinct s.chan.input ∧
      (2 ≤ distinct s.chan.input → kraft255 t.len = 2 ^ 255) ∧
      (distinct s.chan.input = 1 → ∃ x, present t.len = [(x, 1)]) ∧
      Coded t.len t.code ∧
      t.chan.out = s.chan.out ++ headerBytes s.id t.origLen t.len
        ++ payloadBytes t.len s.chan.input ∧
      t.chan.outClosed = true ∧ t.chan.input = s.chan.input ∧
      t.chan.inPos = s.chan.input.length ∧ t.hung = s.hung := by
  have hrest : s.chan.rest = s.chan.input := by rw [Channels.rest, hb.start]; rfl
  -- pass 1
  have hz : ∀ b : Byte, entry (Vector.replicate 256 (0 : Count)) b = 0 := fun b => by simp
  have h1 : scanInput ((s.startCommand .pCount).enter .pCount)
      = .ok () ((s.startCommand .pCount).enter .pCount).scanned := by
    refine scanInput_ok (Channels.okAll_okFor hb.draws _) ?_ ?_
    · intro b
      have hc : s.chan.rest.count b ≤ s.chan.rest.length := List.count_le_length
      show (entry (Vector.replicate 256 (0 : Count)) b).toNat + s.chan.rest.count b < _
      rw [hz, hrest] at *
      have : (0 : Count).toNat = 0 := rfl
      omega
    · show (0 : Count).toNat + s.chan.rest.length < _
      rw [hrest]
      have : (0 : Count).toNat = 0 := rfl
      omega
  generalize hs1 : ((s.startCommand .pCount).enter .pCount).scanned = s1 at h1
  have f1 : ∀ x, entry s1.freq x = BitVec.ofNat 64 (s.chan.input.count x) := by
    intro x
    rw [← hs1]
    show entry (countAll s.chan.rest (Vector.replicate 256 0)) x = _
    rw [entry_countAll, hz, hrest]; simp
  have o1 : s1.origLen = BitVec.ofNat 64 s.chan.input.length := by
    rw [← hs1]
    show 0 + BitVec.ofNat 64 s.chan.rest.length = _
    rw [hrest]; simp
  have i1 : s1.id = s.id ∧ s1.err = .none ∧ s1.errInfo = 0 ∧ s1.skAcc = 0 ∧ s1.skN = 0 ∧
      s1.hung = s.hung ∧ s1.chan.out = s.chan.out ∧ s1.chan.outClosed = false ∧
      s1.chan.input = s.chan.input ∧ s1.chan.inRewound = none := by
    rw [← hs1]
    exact ⟨rfl, rfl, rfl, rfl, rfl, rfl, rfl, hb.opened, rfl, hb.same⟩
  have d1 : ∀ d ∈ s1.chan.draws, d = .ok := by
    rw [← hs1]
    intro d hd
    have hd' : d ∈ ((s.chan.took s.chan.rest.length).metEnd).draws := hd
    simp only [Channels.metEnd_draws, Channels.took_draws] at hd'
    exact hb.draws d (List.mem_of_mem_drop (List.mem_of_mem_drop hd'))
  have hscan := h1
  clear h1
  obtain ⟨i1id, i1e, i1f, i1a, i1n, i1h, i1o, i1c, i1i, i1r⟩ := i1
  have hcb : countedBytes s1.freq = allBytes.filter fun b => b ∈ s.chan.input := by
    rw [countedBytes]
    congr 1
    funext x
    exact decide_eq_decide.mpr (by rw [f1, mem_iff_count_freq hl])
  -- P_BUILD
  obtain ⟨s2, h2, e2, c2, p2, n2, k2, u2, g2, m2⟩ := buildCodes_ok (s1.enter .pBuild)
  have hf : (s1.enter .pBuild).freq = s1.freq := rfl
  rw [hf, hcb] at n2 k2 u2 g2 m2
  rw [hf] at p2
  have q2 : s2.id = s.id ∧ s2.err = .none ∧ s2.errInfo = 0 ∧ s2.skAcc = 0 ∧ s2.skN = 0 ∧
      s2.hung = s.hung ∧ s2.chan = s1.chan ∧ s2.origLen = s1.origLen := by
    rw [e2]
    exact ⟨i1id, i1e, i1f, i1a, i1n, i1h, rfl, rfl⟩
  obtain ⟨i2id, i2e, i2f, i2a, i2n, i2h, i2c, i2l⟩ := q2
  have x2 : ∀ x, entry s2.len x ≠ 0 ↔ x ∈ s.chan.input := by
    intro x; rw [p2, f1, mem_iff_count_freq hl]
  -- P_HEADER
  have hp2 : (s2.enter .pHeader).pending = [] := by
    apply List.eq_nil_of_length_eq_zero
    rw [State.pending_length]
    show s2.skN.val = 0
    rw [i2n]; rfl
  have h3 := writeHeader_ok (s := s2.enter .pHeader)
    (by show s2.skAcc.toNat < 2 ^ s2.skN.val; rw [i2a, i2n]; decide)
    (by show s2.chan.outClosed = false; rw [i2c]; exact i1c)
    (Channels.okAll_okFor (by show ∀ d ∈ s2.chan.draws, d = .ok; rw [i2c]; exact d1) _)
  rw [hp2, List.nil_append] at h3
  generalize hs3 : State.sank ((headerBytes (s2.enter .pHeader).id (s2.enter .pHeader).origLen
    (s2.enter .pHeader).len).flatMap byteBits) (s2.enter .pHeader) = s3 at h3
  have hH : ∀ l : List Byte, l.length = 269 → bytesOfBits (l.flatMap byteBits) = l ∧
      leftBits (l.flatMap byteBits) = [] ∧ (l.flatMap byteBits).length = 8 * 269 := by
    intro l hl
    refine ⟨bytesOfBits_byteBits l, List.eq_nil_of_length_eq_zero ?_, ?_⟩
    · rw [leftBits_length, flatMap_byteBits_length]; omega
    · rw [flatMap_byteBits_length, hl]
  obtain ⟨hh1, hh2, hh3⟩ := hH (headerBytes s2.id s2.origLen s2.len) (by simp)
  have e3 : s3.chan.out = s.chan.out ++ headerBytes s2.id s2.origLen s2.len := by
    rw [← hs3]
    show s2.chan.out ++ bytesOfBits ((headerBytes s2.id s2.origLen s2.len).flatMap byteBits) = _
    rw [hh1, i2c, i1o]
  have n3 : s3.skN = 0 := by
    rw [← hs3]
    show Fin.ofNat 8 ((headerBytes s2.id s2.origLen s2.len).flatMap byteBits).length = 0
    rw [hh3]; rfl
  have a3 : s3.skAcc = 0 := by
    rw [← hs3]
    show BitVec.ofNat 8 (bitsValue 0 (leftBits
      ((headerBytes s2.id s2.origLen s2.len).flatMap byteBits))) = 0
    rw [hh2]; rfl
  have w3 : s3.chan.draws = s2.chan.draws.drop
      (bytesOfBits ((headerBytes s2.id s2.origLen s2.len).flatMap byteBits)).length := by
    rw [← hs3]; rfl
  have d3 : ∀ d ∈ s3.chan.draws, d = .ok := by
    rw [w3, i2c]
    exact fun d hd => d1 d (List.mem_of_mem_drop hd)
  have r3 : s3 = { s2 with
      phase := .pHeader, sub := 0, skAcc := s3.skAcc, skN := s3.skN
      chan := { s2.chan with out := s3.chan.out, draws := s3.chan.draws, trace := s3.chan.trace } } := by
    rw [← hs3]; rfl
  clear hs3
  -- P_REWIND
  have h4 := inRewind_ok (s := s3.enter .pRewind)
    ((Channels.okAll_okFor d3 1).draw (by omega))
  generalize hs4 : ({ s3.enter .pRewind with chan :=
    { (s3.enter .pRewind).chan.made (.inRewind .ok) with
      inPos := 0
      input := (s3.enter .pRewind).chan.inRewound.getD (s3.enter .pRewind).chan.input
      inRewound := none } } : State) = s4 at h4
  have c4 : s4.chan.rest = s.chan.input ∧ s4.chan.input = s.chan.input ∧ s4.chan.inPos = 0 ∧
      s4.chan.outClosed = false ∧ s4.chan.out = s3.chan.out ∧ s4.chan.draws = s3.chan.draws.tail := by
    rw [← hs4]
    have ei : s3.chan.inRewound.getD s3.chan.input = s.chan.input := by
      rw [r3]
      show s2.chan.inRewound.getD s2.chan.input = _
      rw [i2c, i1r, i1i]; rfl
    refine ⟨ei, ei, rfl, ?_, rfl, rfl⟩
    rw [r3]
    show s2.chan.outClosed = false
    rw [i2c]; exact i1c
  obtain ⟨c4r, c4i, c4p, c4c, c4o, c4d⟩ := c4
  have d4 : ∀ d ∈ s4.chan.draws, d = .ok := by
    rw [c4d]
    exact fun d hd => d3 d (List.mem_of_mem_tail hd)
  have r4 : s4 = { s2 with phase := .pRewind, sub := 0, skAcc := 0, skN := 0, chan := s4.chan } := by
    rw [← hs4, ← a3, ← n3]
    generalize s3 = u at r3
    rw [r3]; rfl
  clear hs4
  -- P_ENCODE
  have l4 : s4.len = s2.len ∧ s4.code = s2.code ∧ s4.origLen = s2.origLen ∧ s4.skAcc = 0 ∧
      s4.skN = 0 := by
    rw [r4]; exact ⟨rfl, rfl, rfl, rfl, rfl⟩
  obtain ⟨l4l, l4c, l4o, l4a, l4n⟩ := l4
  obtain ⟨s5, h5, e5, m5, o5, p5, -, i5, d5⟩ := encodePass_ok (s := s4.enter .pEncode)
    (by show Coded s4.len s4.code; rw [l4l, l4c]; exact c2)
    (by
      show ∀ x ∈ s4.chan.rest, entry s4.len x ≠ 0
      rw [c4r, l4l]; exact fun x hx => (x2 x).mpr hx)
    (by show s4.skAcc.toNat < 2 ^ s4.skN.val; rw [l4a, l4n]; decide) c4c d4
    (by
      show s4.chan.rest.length = s4.origLen.toNat
      rw [c4r, l4o, i2l, o1, BitVec.toNat_ofNat, Nat.mod_eq_of_lt hl])
  have pend4 : (s4.enter .pEncode).pending = [] := by
    apply List.eq_nil_of_length_eq_zero
    rw [State.pending_length]
    show s4.skN.val = 0
    rw [l4n]; rfl
  have rest4 : (s4.enter .pEncode).chan.rest = s.chan.input := c4r
  have len4 : (s4.enter .pEncode).len = s2.len := l4l
  rw [pend4, List.nil_append, rest4, len4] at o5 p5
  have out4 : (s4.enter .pEncode).chan.out = s.chan.out ++ headerBytes s2.id s2.origLen s2.len :=
    c4o.trans e3
  rw [out4] at o5
  -- P_FINISH
  obtain ⟨s6, h6, o6, c6, n6, e6⟩ := finishPack_ok (s := s5.enter .pFinish)
    (by show s5.chan.outClosed = false; rw [e5]; exact c4c) d5 (payloadBits s2.len s.chan.input)
    (s.chan.out ++ headerBytes s2.id s2.origLen s2.len) p5 o5
  have r5 : s5 = { s2 with
      phase := .pEncode, sub := 0, skAcc := s5.skAcc, skN := s5.skN, emitted := s5.emitted
      chan := s5.chan } := by
    rw [r4] at e5
    rw [e5]; rfl
  have r6 : s6 = { s2 with
      phase := .pFinish, sub := 0, skAcc := s6.skAcc, skN := s6.skN, emitted := s5.emitted
      chan := s6.chan } := by
    rw [r5] at e6
    rw [e6]; rfl
  have ip5 : s5.chan.inPos = s.chan.input.length ∧ s5.chan.input = s.chan.input := by
    rw [i5]
    refine ⟨?_, ?_⟩
    · show s4.chan.inPos + s4.chan.rest.length = _
      rw [c4p, c4r]; omega
    · rw [e5]; exact c4i
  refine ⟨s6.enter .done, ?_, rfl, ?_⟩
  · rw [packSequence, hscan, Res.ok_bind, h2, Res.ok_bind, h3, Res.ok_bind, h4, Res.ok_bind, h5,
      Res.ok_bind, h6, Res.ok_bind]
  have g : (s6.enter .done).err = s2.err ∧ (s6.enter .done).errInfo = s2.errInfo ∧
      (s6.enter .done).id = s2.id ∧ (s6.enter .done).origLen = s2.origLen ∧
      (s6.enter .done).emitted = s5.emitted ∧ (s6.enter .done).nsym = s2.nsym ∧
      (s6.enter .done).degen = s2.degen ∧ (s6.enter .done).len = s2.len ∧
      (s6.enter .done).code = s2.code ∧ (s6.enter .done).hung = s2.hung := by
    rw [r6]; exact ⟨rfl, rfl, rfl, rfl, rfl, rfl, rfl, rfl, rfl, rfl⟩
  obtain ⟨ge, gf, gi, gl, gm, gn, gd, gle, gc, gh⟩ := g
  have hone : distinct s.chan.input = 1 → ∃ x, present s2.len = [(x, 1)] := by
    intro h
    obtain ⟨x, hx⟩ := List.length_eq_one_iff.mp h
    exact ⟨x, u2 x hx⟩
  have m5' : s5.emitted = s2.origLen := m5.trans l4o
  refine ⟨ge.trans i2e, gf.trans i2f, gi.trans i2id, gl.trans (i2l.trans o1), ?_, ?_, ?_, ?_, ?_, ?_,
    ?_, ?_, ?_, c6, ?_, ?_, gh.trans i2h⟩
  · rw [gm, gl, m5']
  · rw [gn]; exact m2
  · rw [gd]; exact g2
  · rw [gle]; exact x2
  · rw [gle]; exact n2
  · rw [gle]; exact k2
  · rw [gle]; exact hone
  · rw [gle, gc]; exact c2
  · rw [gle, gl, ← i2id]; exact o6
  · show s6.chan.input = _
    rw [e6]; exact ip5.2
  · show s6.chan.inPos = _
    rw [e6]; exact ip5.1

/-! ### UNPACK -/

theorem tableFault_none {len : Table (BitVec 8)} {n : Count} (h : acceptedTable len n) :
    tableFault len n = none := by
  rcases h with ⟨h, rfl⟩ | ⟨x, h⟩ | ⟨h2, hk⟩
  · simp [tableFault, h]
  · simp [tableFault, h]
  · cases hp : present len with
    | nil => simp [hp] at h2
    | cons a l =>
      cases l with
      | nil => simp [hp] at h2
      | cons b l => simp [tableFault, hp, hk]

theorem acceptedTable_kraft {len : Table (BitVec 8)} {n : Count} (h : acceptedTable len n) :
    kraft255 len ≤ 2 ^ 255 := by
  rcases h with ⟨h, -⟩ | ⟨x, h⟩ | ⟨-, hk⟩
  · rw [kraft255, h]; simp
  · rw [kraft255, h]; simp
  · exact hk.le

theorem payloadBits_length_ge {len : Table (BitVec 8)} {xs : List Byte}
    (h : ∀ x ∈ xs, entry len x ≠ 0) : xs.length ≤ (payloadBits len xs).length := by
  induction xs with
  | nil => simp
  | cons x xs ih =>
    have h1 := ih fun y hy => h y (List.mem_cons_of_mem _ hy)
    have h2 := h x List.mem_cons_self
    have h3 : (entry len x).toNat ≠ 0 := fun e => h2 (BitVec.eq_of_toNat_eq (by simpa using e))
    have e : payloadBits len (x :: xs) = symbolBits len x ++ payloadBits len xs := by
      rw [payloadBits, List.flatMap_cons]; rfl
    rw [e, List.length_append, symbolBits_length, List.length_cons]
    omega

theorem bitsLeft_eq (s : State) : bitsLeft s = s.bitStream.length := by
  rw [State.bitStream_length, bitsLeft, Channels.rest, List.length_drop]; omega

/-- R240, R246, R247: an UNPACK of a container whose transactions are all answered Ok; bytes after the
payload are left unread. -/
theorem unpackSequence_ok {s : State} (hb : s.chan.Bound) {n : Count} {len : Table (BitVec 8)}
    {xs extra : List Byte} (ha : acceptedTable len n) (hx : ∀ x ∈ xs, entry len x ≠ 0)
    (hn : n.toNat = xs.length)
    (hi : s.chan.input = headerBytes s.id n len ++ payloadBytes len xs ++ extra) :
    ∃ t, unpackSequence (s.startCommand .uHeader) = .ok () t ∧ t.phase = .done ∧ t.err = .none ∧
      t.errInfo = 0 ∧ t.id = s.id ∧ t.origLen = n ∧ t.emitted = n ∧ t.len = len ∧
      t.nsym.val = (present len).length ∧ t.degen = degenOf (present len).length ∧
      t.chan.out = s.chan.out ++ xs ∧ t.chan.outClosed = true ∧ t.chan.input = s.chan.input ∧
      t.hung = s.hung := by
  have hrest : s.chan.rest = s.chan.input := by rw [Channels.rest, hb.start]; rfl
  have hpad : (payloadBytes len xs).flatMap byteBits = padBits (payloadBits len xs) :=
    bytesOfBits_bits (padBits_mod _)
  have hstream : ((s.startCommand .uHeader).enter .uHeader).bitStream
      = (headerBytes s.id n len).flatMap byteBits ++ (payloadBits len xs ++
        (List.replicate ((8 - (payloadBits len xs).length % 8) % 8) false
          ++ extra.flatMap byteBits)) := by
    have e : ((s.startCommand .uHeader).enter .uHeader).bitStream = s.chan.rest.flatMap byteBits := rfl
    rw [e, hrest, hi, List.flatMap_append, List.flatMap_append, hpad, padBits]
    simp only [List.append_assoc]
  obtain ⟨h1, b1⟩ := readHeader_ok (s := (s.startCommand .uHeader).enter .uHeader) hstream
    (Channels.okAll_okFor hb.draws _)
  generalize hs1 : ({ ((s.startCommand .uHeader).enter .uHeader).sourced (8 * 269) with
    origLen := n, len := len } : State) = s1 at h1
  have b1' : s1.bitStream = payloadBits len xs ++
      (List.replicate ((8 - (payloadBits len xs).length % 8) % 8) false
        ++ extra.flatMap byteBits) := by rw [← hs1]; exact b1
  have d1 : ∀ d ∈ s1.chan.draws, d = .ok := by
    rw [← hs1]
    exact fun d hd => hb.draws d (List.mem_of_mem_drop hd)
  have i1 : s1.id = s.id ∧ s1.err = .none ∧ s1.errInfo = 0 ∧ s1.len = len ∧ s1.origLen = n ∧
      s1.chan.out = s.chan.out ∧ s1.chan.outClosed = false ∧ s1.chan.input = s.chan.input ∧
      s1.hung = s.hung := by
    rw [← hs1]
    exact ⟨rfl, rfl, rfl, rfl, rfl, rfl, hb.opened, rfl, rfl⟩
  clear hs1 b1
  obtain ⟨i1i, i1e, i1f, i1l, i1n, i1o, i1c, i1in, i1h⟩ := i1
  -- U_BUILD
  have hcheck : checkTable (s1.enter .uBuild) = .ok () { s1.enter .uBuild with
      nsym := Fin.ofNat 257 (present len).length, degen := degenOf (present len).length } := by
    have e : (s1.enter .uBuild).len = len := i1l
    have e' : (s1.enter .uBuild).origLen = n := i1n
    simp only [checkTable, e, e', tableFault_none ha]
  have hk : kraft255 len ≤ 2 ^ 255 := acceptedTable_kraft ha
  have h2 : rebuildCodes (s1.enter .uBuild) = .ok () (assignCodes { s1.enter .uBuild with
      nsym := Fin.ofNat 257 (present len).length, degen := degenOf (present len).length }) := by
    rw [rebuildCodes, hcheck]; rfl
  have c2 := coded_assignCodes (s := { s1.enter .uBuild with
    nsym := Fin.ofNat 257 (present len).length, degen := degenOf (present len).length })
    (by show kraft255 s1.len ≤ _; rw [i1l]; exact hk)
  have r2 : assignCodes { s1.enter .uBuild with
      nsym := Fin.ofNat 257 (present len).length, degen := degenOf (present len).length }
      = { s1.enter .uBuild with
        nsym := Fin.ofNat 257 (present len).length, degen := degenOf (present len).length
        code := (assignCodes { s1.enter .uBuild with
          nsym := Fin.ofNat 257 (present len).length
          degen := degenOf (present len).length }).code } := by
    rw [assignCodes, if_pos (by show kraft255 s1.len ≤ _; rw [i1l]; exact hk)]
  generalize assignCodes { s1.enter .uBuild with
    nsym := Fin.ofNat 257 (present len).length, degen := degenOf (present len).length } = s2
    at h2 c2 r2
  have i2 : s2.id = s.id ∧ s2.err = .none ∧ s2.errInfo = 0 ∧ s2.len = len ∧ s2.origLen = n ∧
      s2.chan = s1.chan ∧ s2.hung = s.hung ∧ s2.nsym = Fin.ofNat 257 (present len).length ∧
      s2.degen = degenOf (present len).length ∧ s2.bitStream = s1.bitStream := by
    rw [r2]; exact ⟨i1i, i1e, i1f, i1l, i1n, rfl, i1h, rfl, rfl, rfl⟩
  clear r2
  obtain ⟨i2i, i2e, i2f, i2l, i2n, i2c, i2h, i2s, i2d, i2b⟩ := i2
  rw [i2l] at c2
  -- U_DECODE
  have b2 : (s2.enter .uDecode).emittedClear.bitStream = payloadBits len xs ++
      (List.replicate ((8 - (payloadBits len xs).length % 8) % 8) false
        ++ extra.flatMap byteBits) := i2b.trans b1'
  have hturn : xs.length < bitsLeft (s2.enter .uDecode).emittedClear + 1 := by
    rw [bitsLeft_eq, b2, List.length_append]
    have := payloadBits_length_ge hx
    omega
  obtain ⟨s3, h3, e3, m3, o3, -, d3, -⟩ := decodeLoop_ok xs _ (s := (s2.enter .uDecode).emittedClear)
    (by show Coded s2.len s2.code; rw [i2l]; exact c2)
    (by show ∀ x ∈ xs, entry s2.len x ≠ 0; rw [i2l]; exact hx)
    (by
      show State.bitStream (s2.enter .uDecode).emittedClear = payloadBits s2.len xs ++ _
      rw [i2l]; exact b2)
    (by
      show (0 : Count).toNat + xs.length = s2.origLen.toNat
      rw [i2n, hn]; simp)
    hturn (by show s2.chan.outClosed = false; rw [i2c]; exact i1c)
    (by show ∀ d ∈ s2.chan.draws, d = .ok; rw [i2c]; exact d1)
  have h3' : decodeAll (s2.enter .uDecode) = .ok () s3 := h3
  have c3 : s3.chan.outClosed = false := by
    rw [e3]; show s2.chan.outClosed = false; rw [i2c]; exact i1c
  have h4 := outClose_ok (s := s3.enter .uFinish) c3 ((Channels.okAll_okFor d3 1).draw (by omega))
  generalize hs4 : ({ s3.enter .uFinish with chan :=
    { (s3.enter .uFinish).chan.made (.outClose .ok) with outClosed := true } } : State) = s4 at h4
  refine ⟨s4.enter .done, ?_, rfl, ?_⟩
  · rw [unpackSequence, h1, Res.ok_bind, h2, Res.ok_bind, h3', Res.ok_bind, h4, Res.ok_bind]
  have hle := present_length_le len
  have hns : s2.nsym.val = (present len).length := by rw [i2s, Fin.val_ofNat]; omega
  have g : s3.err = s2.err ∧ s3.errInfo = s2.errInfo ∧ s3.id = s2.id ∧ s3.origLen = s2.origLen ∧
      s3.len = s2.len ∧ s3.nsym = s2.nsym ∧ s3.degen = s2.degen ∧ s3.hung = s2.hung ∧
      s3.chan.input = s2.chan.input := by
    rw [e3]; exact ⟨rfl, rfl, rfl, rfl, rfl, rfl, rfl, rfl, rfl⟩
  obtain ⟨ge, gf, gi, gn, gl, gs, gd, gh, gin⟩ := g
  rw [← hs4]
  refine ⟨ge.trans i2e, gf.trans i2f, gi.trans i2i, gn.trans i2n, m3.trans i2n, gl.trans i2l, ?_,
    gd.trans i2d, ?_, rfl, ?_, gh.trans i2h⟩
  · show s3.nsym.val = _
    rw [gs]; exact hns
  · show s3.chan.out = _
    rw [o3]
    show s2.chan.out ++ xs = _
    rw [i2c, i1o]
  · show s3.chan.input = _
    rw [gin, i2c, i1in]

end Sys2Proof.Machine
end

