-- ==== Sys2Proof/Laws/Decode.lean ====
section
/-! SUPPORT. Laws of the operations as bytes: numbers in bytes, most significant first, what is well
formed, the operations without operand. -/

namespace Sys2Proof

theorem wellFormed_wrbits {v L : Nat} :
    (Instr.wrbits v L).wellFormed = true ↔ L ≤ 255 ∧ v < 2 ^ L := by
  rw [Instr.wellFormed, Bool.and_eq_true, decide_eq_true_iff, decide_eq_true_iff]
  rfl

theorem wellFormed_rdbits {n : Nat} : (Instr.rdbits n).wellFormed = true ↔ n ≤ 64 := by
  rw [Instr.wellFormed, decide_eq_true_iff]

theorem natOfBytes_cons (b : Byte) (bs : List Byte) :
    natOfBytes (b :: bs) = b.toNat * 256 ^ bs.length + natOfBytes bs := by
  have key : ∀ (bs : List Byte) (a : Nat), bs.foldl (fun n b => n * 256 + b.toNat) a
      = a * 256 ^ bs.length + natOfBytes bs := by
    intro bs
    induction bs with
    | nil => simp [natOfBytes]
    | cons b bs ih =>
      intro a
      have e : natOfBytes (b :: bs) = (0 * 256 + b.toNat) * 256 ^ bs.length + natOfBytes bs := by
        rw [← ih]; rfl
      rw [List.foldl_cons, ih, e, List.length_cons, pow_succ]; ring
  rw [natOfBytes, List.foldl_cons, key]; simp

theorem natOfBytes_lt (bs : List Byte) : natOfBytes bs < 256 ^ bs.length := by
  induction bs with
  | nil => simp [natOfBytes]
  | cons b bs ih =>
    rw [natOfBytes_cons, List.length_cons, pow_succ]
    have := b.isLt
    nlinarith

/-- The bytes of a number stand for it. -/
theorem natOfBytes_bytesOfNat (n v : Nat) : natOfBytes (bytesOfNat n v) = v % 256 ^ n := by
  have hl : ∀ n v, (bytesOfNat n v).length = n := by
    intro n v
    induction n with
    | zero => rfl
    | succ n ih => simp [bytesOfNat, ih]
  induction n with
  | zero => simp [bytesOfNat, natOfBytes, Nat.mod_one]
  | succ n ih =>
    have h8 : (2 : Nat) ^ 8 = 256 := by norm_num
    have h1 : v % 256 ^ (n + 1) = v % 256 ^ n + 256 ^ n * (v / 256 ^ n % 256) := by
      rw [pow_succ]; exact Nat.mod_mul
    rw [bytesOfNat, natOfBytes_cons, ih, hl, BitVec.toNat_ofNat, h8, h1, Nat.add_comm, Nat.mul_comm]

/-- A number's bytes are those it was read from. -/
theorem bytesOfNat_natOfBytes (bs : List Byte) : bytesOfNat bs.length (natOfBytes bs) = bs := by
  have key : ∀ (bs : List Byte) (k : Nat),
      bytesOfNat bs.length (k * 256 ^ bs.length + natOfBytes bs) = bs := by
    intro bs
    induction bs with
    | nil => intro k; rfl
    | cons b bs ih =>
      intro k
      have e : k * 256 ^ (bs.length + 1) + (b.toNat * 256 ^ bs.length + natOfBytes bs)
          = (k * 256 + b.toNat) * 256 ^ bs.length + natOfBytes bs := by ring
      rw [List.length_cons, bytesOfNat, natOfBytes_cons, e, ih, mul_comm,
        Nat.mul_add_div (by positivity), Nat.div_eq_of_lt (natOfBytes_lt bs)]
      congr 1
      apply BitVec.eq_of_toNat_eq
      rw [BitVec.toNat_ofNat]
      have := b.isLt
      omega
  simpa using key bs 0

/-- R111, R112: an operation without operand is what its number says. -/
theorem plainOperation_spec {number : Byte} {i : Instr} (h : plainOperation number = some i) :
    i.wellFormed = true ∧ i.number = number ∧ i.operandBytes = [] := by
  have key : ∀ b : Byte, (match plainOperation b with
      | some i => decide (i.wellFormed = true ∧ i.number = b ∧ i.operandBytes = [])
      | none => true) = true := by decide
  have := key number
  rw [h] at this
  simpa using this

end Sys2Proof
end

