-- ==== Sys2Proof/Laws/PerInstr.lean ====
section
/-! SUPPORT. What holds of every operation as syntax, one lemma per constructor: its encoding starts
with the number of R111 or R112 and is at most as long as the longest operation (log 4). -/

namespace Sys2Proof.Laws.Encoded

/-- The encoding of an operation starts with its number and has at most 34 bytes. -/
def Statement (i : Instr) : Prop :=
  (encode i).head? = some i.number ∧ (encode i).length ≤ longestOperation

theorem pack : Statement .pack := ⟨rfl, by decide⟩
theorem unpack : Statement .unpack := ⟨rfl, by decide⟩
theorem skInit : Statement .skInit := ⟨rfl, by decide⟩
theorem wrbits (v L : Nat) : Statement (.wrbits v L) :=
  ⟨rfl, by simp [encode, Instr.operandBytes, Machine.bytesOfNat_length, longestOperation, codeBytes]⟩
theorem flush : Statement .flush := ⟨rfl, by decide⟩
theorem srInit : Statement .srInit := ⟨rfl, by decide⟩
theorem rdbit : Statement .rdbit := ⟨rfl, by decide⟩
theorem rdbits (n : Nat) : Statement (.rdbits n) :=
  ⟨rfl, by simp [encode, Instr.operandBytes, longestOperation, codeBytes]⟩
theorem fqClear : Statement .fqClear := ⟨rfl, by decide⟩
theorem fqCount (b : Byte) : Statement (.fqCount b) :=
  ⟨rfl, by simp [encode, Instr.operandBytes, longestOperation, codeBytes]⟩
theorem fqScan : Statement .fqScan := ⟨rfl, by decide⟩
theorem tbSeed : Statement .tbSeed := ⟨rfl, by decide⟩
theorem tbMerge : Statement .tbMerge := ⟨rfl, by decide⟩
theorem tbBuild : Statement .tbBuild := ⟨rfl, by decide⟩
theorem ctWalk : Statement .ctWalk := ⟨rfl, by decide⟩
theorem ctCanon : Statement .ctCanon := ⟨rfl, by decide⟩
theorem hdrWrite : Statement .hdrWrite := ⟨rfl, by decide⟩
theorem hdrRead : Statement .hdrRead := ⟨rfl, by decide⟩
theorem lenCheck : Statement .lenCheck := ⟨rfl, by decide⟩
theorem encSym (b : Byte) : Statement (.encSym b) :=
  ⟨rfl, by simp [encode, Instr.operandBytes, longestOperation, codeBytes]⟩
theorem encPass : Statement .encPass := ⟨rfl, by decide⟩
theorem decSym : Statement .decSym := ⟨rfl, by decide⟩
theorem decLoop : Statement .decLoop := ⟨rfl, by decide⟩

end Sys2Proof.Laws.Encoded
end

