-- ==== Sys2Proof/Laws/State.lean ====
section
/-! SUPPORT. One law per field of State for each named update: what the field holds after it. -/

namespace Sys2Proof.Machine

/-! ### State.enter -/

@[simp] theorem State.enter_phase (p : Phase) (s : State) : (s.enter p).phase = p := rfl
@[simp] theorem State.enter_err (p : Phase) (s : State) : (s.enter p).err = s.err := rfl
@[simp] theorem State.enter_errInfo (p : Phase) (s : State) : (s.enter p).errInfo = s.errInfo := rfl
@[simp] theorem State.enter_degen (p : Phase) (s : State) : (s.enter p).degen = s.degen := rfl
@[simp] theorem State.enter_origLen (p : Phase) (s : State) : (s.enter p).origLen = s.origLen := rfl
@[simp] theorem State.enter_emitted (p : Phase) (s : State) : (s.enter p).emitted = s.emitted := rfl
@[simp] theorem State.enter_nsym (p : Phase) (s : State) : (s.enter p).nsym = s.nsym := rfl
@[simp] theorem State.enter_nnodes (p : Phase) (s : State) : (s.enter p).nnodes = s.nnodes := rfl
@[simp] theorem State.enter_root (p : Phase) (s : State) : (s.enter p).root = s.root := rfl
@[simp] theorem State.enter_skAcc (p : Phase) (s : State) : (s.enter p).skAcc = s.skAcc := rfl
@[simp] theorem State.enter_skN (p : Phase) (s : State) : (s.enter p).skN = s.skN := rfl
@[simp] theorem State.enter_srAcc (p : Phase) (s : State) : (s.enter p).srAcc = s.srAcc := rfl
@[simp] theorem State.enter_srN (p : Phase) (s : State) : (s.enter p).srN = s.srN := rfl
@[simp] theorem State.enter_pfx (p : Phase) (s : State) : (s.enter p).pfx = s.pfx := rfl
@[simp] theorem State.enter_pfxLen (p : Phase) (s : State) : (s.enter p).pfxLen = s.pfxLen := rfl
@[simp] theorem State.enter_freq (p : Phase) (s : State) : (s.enter p).freq = s.freq := rfl
@[simp] theorem State.enter_node (p : Phase) (s : State) : (s.enter p).node = s.node := rfl
@[simp] theorem State.enter_pq (p : Phase) (s : State) : (s.enter p).pq = s.pq := rfl
@[simp] theorem State.enter_tlen (p : Phase) (s : State) : (s.enter p).tlen = s.tlen := rfl
@[simp] theorem State.enter_tcode (p : Phase) (s : State) : (s.enter p).tcode = s.tcode := rfl
@[simp] theorem State.enter_len (p : Phase) (s : State) : (s.enter p).len = s.len := rfl
@[simp] theorem State.enter_code (p : Phase) (s : State) : (s.enter p).code = s.code := rfl
@[simp] theorem State.enter_id (p : Phase) (s : State) : (s.enter p).id = s.id := rfl
@[simp] theorem State.enter_chan (p : Phase) (s : State) : (s.enter p).chan = s.chan := rfl
@[simp] theorem State.enter_hung (p : Phase) (s : State) : (s.enter p).hung = s.hung := rfl
@[simp] theorem State.enter_sub (p : Phase) (s : State) : (s.enter p).sub = 0 := rfl
@[simp] theorem State.enter_issue (p : Phase) (s : State) : (s.enter p).issue = s.issue := rfl
@[simp] theorem State.enter_result (p : Phase) (s : State) : (s.enter p).result = s.result := rfl
@[simp] theorem State.enter_host (p : Phase) (s : State) : (s.enter p).host = s.host := rfl
@[simp] theorem State.enter_busData (p : Phase) (s : State) : (s.enter p).busData = s.busData := rfl
@[simp] theorem State.enter_free (p : Phase) (s : State) : (s.enter p).free = s.free := rfl

/-! ### State.raise -/

@[simp] theorem State.raise_phase (c : Cause) (s : State) : (s.raise c).phase = .error := rfl
@[simp] theorem State.raise_err (c : Cause) (s : State) : (s.raise c).err = c.kind := rfl
@[simp] theorem State.raise_errInfo (c : Cause) (s : State) : (s.raise c).errInfo = c.info := rfl
@[simp] theorem State.raise_degen (c : Cause) (s : State) : (s.raise c).degen = s.degen := rfl
@[simp] theorem State.raise_origLen (c : Cause) (s : State) : (s.raise c).origLen = s.origLen := rfl
@[simp] theorem State.raise_emitted (c : Cause) (s : State) : (s.raise c).emitted = s.emitted := rfl
@[simp] theorem State.raise_nsym (c : Cause) (s : State) : (s.raise c).nsym = s.nsym := rfl
@[simp] theorem State.raise_nnodes (c : Cause) (s : State) : (s.raise c).nnodes = s.nnodes := rfl
@[simp] theorem State.raise_root (c : Cause) (s : State) : (s.raise c).root = s.root := rfl
@[simp] theorem State.raise_skAcc (c : Cause) (s : State) : (s.raise c).skAcc = s.skAcc := rfl
@[simp] theorem State.raise_skN (c : Cause) (s : State) : (s.raise c).skN = s.skN := rfl
@[simp] theorem State.raise_srAcc (c : Cause) (s : State) : (s.raise c).srAcc = s.srAcc := rfl
@[simp] theorem State.raise_srN (c : Cause) (s : State) : (s.raise c).srN = s.srN := rfl
@[simp] theorem State.raise_pfx (c : Cause) (s : State) : (s.raise c).pfx = s.pfx := rfl
@[simp] theorem State.raise_pfxLen (c : Cause) (s : State) : (s.raise c).pfxLen = s.pfxLen := rfl
@[simp] theorem State.raise_freq (c : Cause) (s : State) : (s.raise c).freq = s.freq := rfl
@[simp] theorem State.raise_node (c : Cause) (s : State) : (s.raise c).node = s.node := rfl
@[simp] theorem State.raise_pq (c : Cause) (s : State) : (s.raise c).pq = s.pq := rfl
@[simp] theorem State.raise_tlen (c : Cause) (s : State) : (s.raise c).tlen = s.tlen := rfl
@[simp] theorem State.raise_tcode (c : Cause) (s : State) : (s.raise c).tcode = s.tcode := rfl
@[simp] theorem State.raise_len (c : Cause) (s : State) : (s.raise c).len = s.len := rfl
@[simp] theorem State.raise_code (c : Cause) (s : State) : (s.raise c).code = s.code := rfl
@[simp] theorem State.raise_id (c : Cause) (s : State) : (s.raise c).id = s.id := rfl
@[simp] theorem State.raise_chan (c : Cause) (s : State) : (s.raise c).chan = s.chan := rfl
@[simp] theorem State.raise_hung (c : Cause) (s : State) : (s.raise c).hung = s.hung := rfl
@[simp] theorem State.raise_sub (c : Cause) (s : State) : (s.raise c).sub = 0 := rfl
@[simp] theorem State.raise_issue (c : Cause) (s : State) : (s.raise c).issue = s.issue := rfl
@[simp] theorem State.raise_result (c : Cause) (s : State) : (s.raise c).result = s.result := rfl
@[simp] theorem State.raise_host (c : Cause) (s : State) : (s.raise c).host = s.host := rfl
@[simp] theorem State.raise_busData (c : Cause) (s : State) : (s.raise c).busData = s.busData := rfl
@[simp] theorem State.raise_free (c : Cause) (s : State) : (s.raise c).free = s.free := rfl

/-! ### State.hang -/

@[simp] theorem State.hang_phase (s : State) : (s.hang).phase = s.phase := rfl
@[simp] theorem State.hang_err (s : State) : (s.hang).err = s.err := rfl
@[simp] theorem State.hang_errInfo (s : State) : (s.hang).errInfo = s.errInfo := rfl
@[simp] theorem State.hang_degen (s : State) : (s.hang).degen = s.degen := rfl
@[simp] theorem State.hang_origLen (s : State) : (s.hang).origLen = s.origLen := rfl
@[simp] theorem State.hang_emitted (s : State) : (s.hang).emitted = s.emitted := rfl
@[simp] theorem State.hang_nsym (s : State) : (s.hang).nsym = s.nsym := rfl
@[simp] theorem State.hang_nnodes (s : State) : (s.hang).nnodes = s.nnodes := rfl
@[simp] theorem State.hang_root (s : State) : (s.hang).root = s.root := rfl
@[simp] theorem State.hang_skAcc (s : State) : (s.hang).skAcc = s.skAcc := rfl
@[simp] theorem State.hang_skN (s : State) : (s.hang).skN = s.skN := rfl
@[simp] theorem State.hang_srAcc (s : State) : (s.hang).srAcc = s.srAcc := rfl
@[simp] theorem State.hang_srN (s : State) : (s.hang).srN = s.srN := rfl
@[simp] theorem State.hang_pfx (s : State) : (s.hang).pfx = s.pfx := rfl
@[simp] theorem State.hang_pfxLen (s : State) : (s.hang).pfxLen = s.pfxLen := rfl
@[simp] theorem State.hang_freq (s : State) : (s.hang).freq = s.freq := rfl
@[simp] theorem State.hang_node (s : State) : (s.hang).node = s.node := rfl
@[simp] theorem State.hang_pq (s : State) : (s.hang).pq = s.pq := rfl
@[simp] theorem State.hang_tlen (s : State) : (s.hang).tlen = s.tlen := rfl
@[simp] theorem State.hang_tcode (s : State) : (s.hang).tcode = s.tcode := rfl
@[simp] theorem State.hang_len (s : State) : (s.hang).len = s.len := rfl
@[simp] theorem State.hang_code (s : State) : (s.hang).code = s.code := rfl
@[simp] theorem State.hang_id (s : State) : (s.hang).id = s.id := rfl
@[simp] theorem State.hang_chan (s : State) : (s.hang).chan = s.chan := rfl
@[simp] theorem State.hang_hung (s : State) : (s.hang).hung = true := rfl
@[simp] theorem State.hang_sub (s : State) : (s.hang).sub = s.sub := rfl
@[simp] theorem State.hang_issue (s : State) : (s.hang).issue = s.issue := rfl
@[simp] theorem State.hang_result (s : State) : (s.hang).result = s.result := rfl
@[simp] theorem State.hang_host (s : State) : (s.hang).host = s.host := rfl
@[simp] theorem State.hang_busData (s : State) : (s.hang).busData = s.busData := rfl
@[simp] theorem State.hang_free (s : State) : (s.hang).free = s.free := rfl

/-! ### State.sinkInit -/

@[simp] theorem State.sinkInit_phase (s : State) : (s.sinkInit).phase = s.phase := rfl
@[simp] theorem State.sinkInit_err (s : State) : (s.sinkInit).err = s.err := rfl
@[simp] theorem State.sinkInit_errInfo (s : State) : (s.sinkInit).errInfo = s.errInfo := rfl
@[simp] theorem State.sinkInit_degen (s : State) : (s.sinkInit).degen = s.degen := rfl
@[simp] theorem State.sinkInit_origLen (s : State) : (s.sinkInit).origLen = s.origLen := rfl
@[simp] theorem State.sinkInit_emitted (s : State) : (s.sinkInit).emitted = s.emitted := rfl
@[simp] theorem State.sinkInit_nsym (s : State) : (s.sinkInit).nsym = s.nsym := rfl
@[simp] theorem State.sinkInit_nnodes (s : State) : (s.sinkInit).nnodes = s.nnodes := rfl
@[simp] theorem State.sinkInit_root (s : State) : (s.sinkInit).root = s.root := rfl
@[simp] theorem State.sinkInit_skAcc (s : State) : (s.sinkInit).skAcc = 0 := rfl
@[simp] theorem State.sinkInit_skN (s : State) : (s.sinkInit).skN = 0 := rfl
@[simp] theorem State.sinkInit_srAcc (s : State) : (s.sinkInit).srAcc = s.srAcc := rfl
@[simp] theorem State.sinkInit_srN (s : State) : (s.sinkInit).srN = s.srN := rfl
@[simp] theorem State.sinkInit_pfx (s : State) : (s.sinkInit).pfx = s.pfx := rfl
@[simp] theorem State.sinkInit_pfxLen (s : State) : (s.sinkInit).pfxLen = s.pfxLen := rfl
@[simp] theorem State.sinkInit_freq (s : State) : (s.sinkInit).freq = s.freq := rfl
@[simp] theorem State.sinkInit_node (s : State) : (s.sinkInit).node = s.node := rfl
@[simp] theorem State.sinkInit_pq (s : State) : (s.sinkInit).pq = s.pq := rfl
@[simp] theorem State.sinkInit_tlen (s : State) : (s.sinkInit).tlen = s.tlen := rfl
@[simp] theorem State.sinkInit_tcode (s : State) : (s.sinkInit).tcode = s.tcode := rfl
@[simp] theorem State.sinkInit_len (s : State) : (s.sinkInit).len = s.len := rfl
@[simp] theorem State.sinkInit_code (s : State) : (s.sinkInit).code = s.code := rfl
@[simp] theorem State.sinkInit_id (s : State) : (s.sinkInit).id = s.id := rfl
@[simp] theorem State.sinkInit_chan (s : State) : (s.sinkInit).chan = s.chan := rfl
@[simp] theorem State.sinkInit_hung (s : State) : (s.sinkInit).hung = s.hung := rfl
@[simp] theorem State.sinkInit_sub (s : State) : (s.sinkInit).sub = s.sub := rfl
@[simp] theorem State.sinkInit_issue (s : State) : (s.sinkInit).issue = s.issue := rfl
@[simp] theorem State.sinkInit_result (s : State) : (s.sinkInit).result = s.result := rfl
@[simp] theorem State.sinkInit_host (s : State) : (s.sinkInit).host = s.host := rfl
@[simp] theorem State.sinkInit_busData (s : State) : (s.sinkInit).busData = s.busData := rfl
@[simp] theorem State.sinkInit_free (s : State) : (s.sinkInit).free = s.free := rfl

/-! ### State.sourceInit -/

@[simp] theorem State.sourceInit_phase (s : State) : (s.sourceInit).phase = s.phase := rfl
@[simp] theorem State.sourceInit_err (s : State) : (s.sourceInit).err = s.err := rfl
@[simp] theorem State.sourceInit_errInfo (s : State) : (s.sourceInit).errInfo = s.errInfo := rfl
@[simp] theorem State.sourceInit_degen (s : State) : (s.sourceInit).degen = s.degen := rfl
@[simp] theorem State.sourceInit_origLen (s : State) : (s.sourceInit).origLen = s.origLen := rfl
@[simp] theorem State.sourceInit_emitted (s : State) : (s.sourceInit).emitted = s.emitted := rfl
@[simp] theorem State.sourceInit_nsym (s : State) : (s.sourceInit).nsym = s.nsym := rfl
@[simp] theorem State.sourceInit_nnodes (s : State) : (s.sourceInit).nnodes = s.nnodes := rfl
@[simp] theorem State.sourceInit_root (s : State) : (s.sourceInit).root = s.root := rfl
@[simp] theorem State.sourceInit_skAcc (s : State) : (s.sourceInit).skAcc = s.skAcc := rfl
@[simp] theorem State.sourceInit_skN (s : State) : (s.sourceInit).skN = s.skN := rfl
@[simp] theorem State.sourceInit_srAcc (s : State) : (s.sourceInit).srAcc = 0 := rfl
@[simp] theorem State.sourceInit_srN (s : State) : (s.sourceInit).srN = 0 := rfl
@[simp] theorem State.sourceInit_pfx (s : State) : (s.sourceInit).pfx = s.pfx := rfl
@[simp] theorem State.sourceInit_pfxLen (s : State) : (s.sourceInit).pfxLen = s.pfxLen := rfl
@[simp] theorem State.sourceInit_freq (s : State) : (s.sourceInit).freq = s.freq := rfl
@[simp] theorem State.sourceInit_node (s : State) : (s.sourceInit).node = s.node := rfl
@[simp] theorem State.sourceInit_pq (s : State) : (s.sourceInit).pq = s.pq := rfl
@[simp] theorem State.sourceInit_tlen (s : State) : (s.sourceInit).tlen = s.tlen := rfl
@[simp] theorem State.sourceInit_tcode (s : State) : (s.sourceInit).tcode = s.tcode := rfl
@[simp] theorem State.sourceInit_len (s : State) : (s.sourceInit).len = s.len := rfl
@[simp] theorem State.sourceInit_code (s : State) : (s.sourceInit).code = s.code := rfl
@[simp] theorem State.sourceInit_id (s : State) : (s.sourceInit).id = s.id := rfl
@[simp] theorem State.sourceInit_chan (s : State) : (s.sourceInit).chan = s.chan := rfl
@[simp] theorem State.sourceInit_hung (s : State) : (s.sourceInit).hung = s.hung := rfl
@[simp] theorem State.sourceInit_sub (s : State) : (s.sourceInit).sub = s.sub := rfl
@[simp] theorem State.sourceInit_issue (s : State) : (s.sourceInit).issue = s.issue := rfl
@[simp] theorem State.sourceInit_result (s : State) : (s.sourceInit).result = s.result := rfl
@[simp] theorem State.sourceInit_host (s : State) : (s.sourceInit).host = s.host := rfl
@[simp] theorem State.sourceInit_busData (s : State) : (s.sourceInit).busData = s.busData := rfl
@[simp] theorem State.sourceInit_free (s : State) : (s.sourceInit).free = s.free := rfl

/-! ### State.freqClear -/

@[simp] theorem State.freqClear_phase (s : State) : (s.freqClear).phase = s.phase := rfl
@[simp] theorem State.freqClear_err (s : State) : (s.freqClear).err = s.err := rfl
@[simp] theorem State.freqClear_errInfo (s : State) : (s.freqClear).errInfo = s.errInfo := rfl
@[simp] theorem State.freqClear_degen (s : State) : (s.freqClear).degen = s.degen := rfl
@[simp] theorem State.freqClear_origLen (s : State) : (s.freqClear).origLen = s.origLen := rfl
@[simp] theorem State.freqClear_emitted (s : State) : (s.freqClear).emitted = s.emitted := rfl
@[simp] theorem State.freqClear_nsym (s : State) : (s.freqClear).nsym = s.nsym := rfl
@[simp] theorem State.freqClear_nnodes (s : State) : (s.freqClear).nnodes = s.nnodes := rfl
@[simp] theorem State.freqClear_root (s : State) : (s.freqClear).root = s.root := rfl
@[simp] theorem State.freqClear_skAcc (s : State) : (s.freqClear).skAcc = s.skAcc := rfl
@[simp] theorem State.freqClear_skN (s : State) : (s.freqClear).skN = s.skN := rfl
@[simp] theorem State.freqClear_srAcc (s : State) : (s.freqClear).srAcc = s.srAcc := rfl
@[simp] theorem State.freqClear_srN (s : State) : (s.freqClear).srN = s.srN := rfl
@[simp] theorem State.freqClear_pfx (s : State) : (s.freqClear).pfx = s.pfx := rfl
@[simp] theorem State.freqClear_pfxLen (s : State) : (s.freqClear).pfxLen = s.pfxLen := rfl
@[simp] theorem State.freqClear_freq (s : State) :
    (s.freqClear).freq = Vector.replicate 256 0 := rfl
@[simp] theorem State.freqClear_node (s : State) : (s.freqClear).node = s.node := rfl
@[simp] theorem State.freqClear_pq (s : State) : (s.freqClear).pq = s.pq := rfl
@[simp] theorem State.freqClear_tlen (s : State) : (s.freqClear).tlen = s.tlen := rfl
@[simp] theorem State.freqClear_tcode (s : State) : (s.freqClear).tcode = s.tcode := rfl
@[simp] theorem State.freqClear_len (s : State) : (s.freqClear).len = s.len := rfl
@[simp] theorem State.freqClear_code (s : State) : (s.freqClear).code = s.code := rfl
@[simp] theorem State.freqClear_id (s : State) : (s.freqClear).id = s.id := rfl
@[simp] theorem State.freqClear_chan (s : State) : (s.freqClear).chan = s.chan := rfl
@[simp] theorem State.freqClear_hung (s : State) : (s.freqClear).hung = s.hung := rfl
@[simp] theorem State.freqClear_sub (s : State) : (s.freqClear).sub = s.sub := rfl
@[simp] theorem State.freqClear_issue (s : State) : (s.freqClear).issue = s.issue := rfl
@[simp] theorem State.freqClear_result (s : State) : (s.freqClear).result = s.result := rfl
@[simp] theorem State.freqClear_host (s : State) : (s.freqClear).host = s.host := rfl
@[simp] theorem State.freqClear_busData (s : State) : (s.freqClear).busData = s.busData := rfl
@[simp] theorem State.freqClear_free (s : State) : (s.freqClear).free = s.free := rfl

/-! ### State.startCommand -/

@[simp] theorem State.startCommand_phase (p : Phase) (s : State) :
    (s.startCommand p).phase = p := rfl
@[simp] theorem State.startCommand_err (p : Phase) (s : State) :
    (s.startCommand p).err = .none := rfl
@[simp] theorem State.startCommand_errInfo (p : Phase) (s : State) :
    (s.startCommand p).errInfo = 0 := rfl
@[simp] theorem State.startCommand_degen (p : Phase) (s : State) :
    (s.startCommand p).degen = .normal := rfl
@[simp] theorem State.startCommand_origLen (p : Phase) (s : State) :
    (s.startCommand p).origLen = 0 := rfl
@[simp] theorem State.startCommand_emitted (p : Phase) (s : State) :
    (s.startCommand p).emitted = 0 := rfl
@[simp] theorem State.startCommand_nsym (p : Phase) (s : State) : (s.startCommand p).nsym = 0 := rfl
@[simp] theorem State.startCommand_nnodes (p : Phase) (s : State) :
    (s.startCommand p).nnodes = 0 := rfl
@[simp] theorem State.startCommand_root (p : Phase) (s : State) :
    (s.startCommand p).root = none := rfl
@[simp] theorem State.startCommand_skAcc (p : Phase) (s : State) :
    (s.startCommand p).skAcc = 0 := rfl
@[simp] theorem State.startCommand_skN (p : Phase) (s : State) : (s.startCommand p).skN = 0 := rfl
@[simp] theorem State.startCommand_srAcc (p : Phase) (s : State) :
    (s.startCommand p).srAcc = 0 := rfl
@[simp] theorem State.startCommand_srN (p : Phase) (s : State) : (s.startCommand p).srN = 0 := rfl
@[simp] theorem State.startCommand_pfx (p : Phase) (s : State) : (s.startCommand p).pfx = 0 := rfl
@[simp] theorem State.startCommand_pfxLen (p : Phase) (s : State) :
    (s.startCommand p).pfxLen = 0 := rfl
@[simp] theorem State.startCommand_freq (p : Phase) (s : State) :
    (s.startCommand p).freq = Vector.replicate 256 0 := rfl
@[simp] theorem State.startCommand_node (p : Phase) (s : State) :
    (s.startCommand p).node = s.node := rfl
@[simp] theorem State.startCommand_pq (p : Phase) (s : State) : (s.startCommand p).pq = [] := rfl
@[simp] theorem State.startCommand_tlen (p : Phase) (s : State) :
    (s.startCommand p).tlen = Vector.replicate 256 0 := rfl
@[simp] theorem State.startCommand_tcode (p : Phase) (s : State) :
    (s.startCommand p).tcode = s.tcode := rfl
@[simp] theorem State.startCommand_len (p : Phase) (s : State) :
    (s.startCommand p).len = Vector.replicate 256 0 := rfl
@[simp] theorem State.startCommand_code (p : Phase) (s : State) :
    (s.startCommand p).code = s.code := rfl
@[simp] theorem State.startCommand_id (p : Phase) (s : State) : (s.startCommand p).id = s.id := rfl
@[simp] theorem State.startCommand_chan (p : Phase) (s : State) :
    (s.startCommand p).chan = s.chan := rfl
@[simp] theorem State.startCommand_hung (p : Phase) (s : State) :
    (s.startCommand p).hung = s.hung := rfl
@[simp] theorem State.startCommand_sub (p : Phase) (s : State) : (s.startCommand p).sub = 0 := rfl
@[simp] theorem State.startCommand_issue (p : Phase) (s : State) :
    (s.startCommand p).issue = s.issue := rfl
@[simp] theorem State.startCommand_result (p : Phase) (s : State) :
    (s.startCommand p).result = s.result := rfl
@[simp] theorem State.startCommand_host (p : Phase) (s : State) :
    (s.startCommand p).host = s.host := rfl
@[simp] theorem State.startCommand_busData (p : Phase) (s : State) :
    (s.startCommand p).busData = s.busData := rfl
@[simp] theorem State.startCommand_free (p : Phase) (s : State) :
    (s.startCommand p).free = s.free := rfl

/-! ### State.powerOn -/

@[simp] theorem State.powerOn_phase (s : State) : (s.powerOn).phase = .idle := rfl
@[simp] theorem State.powerOn_err (s : State) : (s.powerOn).err = .none := rfl
@[simp] theorem State.powerOn_errInfo (s : State) : (s.powerOn).errInfo = 0 := rfl
@[simp] theorem State.powerOn_degen (s : State) : (s.powerOn).degen = .normal := rfl
@[simp] theorem State.powerOn_origLen (s : State) : (s.powerOn).origLen = 0 := rfl
@[simp] theorem State.powerOn_emitted (s : State) : (s.powerOn).emitted = 0 := rfl
@[simp] theorem State.powerOn_nsym (s : State) : (s.powerOn).nsym = 0 := rfl
@[simp] theorem State.powerOn_nnodes (s : State) : (s.powerOn).nnodes = 0 := rfl
@[simp] theorem State.powerOn_root (s : State) : (s.powerOn).root = none := rfl
@[simp] theorem State.powerOn_skAcc (s : State) : (s.powerOn).skAcc = 0 := rfl
@[simp] theorem State.powerOn_skN (s : State) : (s.powerOn).skN = 0 := rfl
@[simp] theorem State.powerOn_srAcc (s : State) : (s.powerOn).srAcc = 0 := rfl
@[simp] theorem State.powerOn_srN (s : State) : (s.powerOn).srN = 0 := rfl
@[simp] theorem State.powerOn_pfx (s : State) : (s.powerOn).pfx = 0 := rfl
@[simp] theorem State.powerOn_pfxLen (s : State) : (s.powerOn).pfxLen = 0 := rfl
@[simp] theorem State.powerOn_freq (s : State) : (s.powerOn).freq = s.freq := rfl
@[simp] theorem State.powerOn_node (s : State) : (s.powerOn).node = s.node := rfl
@[simp] theorem State.powerOn_pq (s : State) : (s.powerOn).pq = [] := rfl
@[simp] theorem State.powerOn_tlen (s : State) : (s.powerOn).tlen = s.tlen := rfl
@[simp] theorem State.powerOn_tcode (s : State) : (s.powerOn).tcode = s.tcode := rfl
@[simp] theorem State.powerOn_len (s : State) : (s.powerOn).len = s.len := rfl
@[simp] theorem State.powerOn_code (s : State) : (s.powerOn).code = s.code := rfl
@[simp] theorem State.powerOn_id (s : State) : (s.powerOn).id = s.id := rfl
@[simp] theorem State.powerOn_chan (s : State) : (s.powerOn).chan = s.chan := rfl
@[simp] theorem State.powerOn_hung (s : State) : (s.powerOn).hung = false := rfl
@[simp] theorem State.powerOn_sub (s : State) : (s.powerOn).sub = 0 := rfl
@[simp] theorem State.powerOn_issue (s : State) : (s.powerOn).issue = [] := rfl
@[simp] theorem State.powerOn_result (s : State) : (s.powerOn).result = .none := rfl
@[simp] theorem State.powerOn_host (s : State) : (s.powerOn).host = s.host := rfl
@[simp] theorem State.powerOn_busData (s : State) : (s.powerOn).busData = s.busData := rfl
@[simp] theorem State.powerOn_free (s : State) : (s.powerOn).free = s.free := rfl

/-! ### State.emittedClear -/

@[simp] theorem State.emittedClear_phase (s : State) : (s.emittedClear).phase = s.phase := rfl
@[simp] theorem State.emittedClear_err (s : State) : (s.emittedClear).err = s.err := rfl
@[simp] theorem State.emittedClear_errInfo (s : State) : (s.emittedClear).errInfo = s.errInfo := rfl
@[simp] theorem State.emittedClear_degen (s : State) : (s.emittedClear).degen = s.degen := rfl
@[simp] theorem State.emittedClear_origLen (s : State) : (s.emittedClear).origLen = s.origLen := rfl
@[simp] theorem State.emittedClear_emitted (s : State) : (s.emittedClear).emitted = 0 := rfl
@[simp] theorem State.emittedClear_nsym (s : State) : (s.emittedClear).nsym = s.nsym := rfl
@[simp] theorem State.emittedClear_nnodes (s : State) : (s.emittedClear).nnodes = s.nnodes := rfl
@[simp] theorem State.emittedClear_root (s : State) : (s.emittedClear).root = s.root := rfl
@[simp] theorem State.emittedClear_skAcc (s : State) : (s.emittedClear).skAcc = s.skAcc := rfl
@[simp] theorem State.emittedClear_skN (s : State) : (s.emittedClear).skN = s.skN := rfl
@[simp] theorem State.emittedClear_srAcc (s : State) : (s.emittedClear).srAcc = s.srAcc := rfl
@[simp] theorem State.emittedClear_srN (s : State) : (s.emittedClear).srN = s.srN := rfl
@[simp] theorem State.emittedClear_pfx (s : State) : (s.emittedClear).pfx = s.pfx := rfl
@[simp] theorem State.emittedClear_pfxLen (s : State) : (s.emittedClear).pfxLen = s.pfxLen := rfl
@[simp] theorem State.emittedClear_freq (s : State) : (s.emittedClear).freq = s.freq := rfl
@[simp] theorem State.emittedClear_node (s : State) : (s.emittedClear).node = s.node := rfl
@[simp] theorem State.emittedClear_pq (s : State) : (s.emittedClear).pq = s.pq := rfl
@[simp] theorem State.emittedClear_tlen (s : State) : (s.emittedClear).tlen = s.tlen := rfl
@[simp] theorem State.emittedClear_tcode (s : State) : (s.emittedClear).tcode = s.tcode := rfl
@[simp] theorem State.emittedClear_len (s : State) : (s.emittedClear).len = s.len := rfl
@[simp] theorem State.emittedClear_code (s : State) : (s.emittedClear).code = s.code := rfl
@[simp] theorem State.emittedClear_id (s : State) : (s.emittedClear).id = s.id := rfl
@[simp] theorem State.emittedClear_chan (s : State) : (s.emittedClear).chan = s.chan := rfl
@[simp] theorem State.emittedClear_hung (s : State) : (s.emittedClear).hung = s.hung := rfl
@[simp] theorem State.emittedClear_sub (s : State) : (s.emittedClear).sub = s.sub := rfl
@[simp] theorem State.emittedClear_issue (s : State) : (s.emittedClear).issue = s.issue := rfl
@[simp] theorem State.emittedClear_result (s : State) : (s.emittedClear).result = s.result := rfl
@[simp] theorem State.emittedClear_host (s : State) : (s.emittedClear).host = s.host := rfl
@[simp] theorem State.emittedClear_busData (s : State) : (s.emittedClear).busData = s.busData := rfl
@[simp] theorem State.emittedClear_free (s : State) : (s.emittedClear).free = s.free := rfl

/-! ### State.atRoot -/

@[simp] theorem State.atRoot_phase (s : State) : (s.atRoot).phase = s.phase := rfl
@[simp] theorem State.atRoot_err (s : State) : (s.atRoot).err = s.err := rfl
@[simp] theorem State.atRoot_errInfo (s : State) : (s.atRoot).errInfo = s.errInfo := rfl
@[simp] theorem State.atRoot_degen (s : State) : (s.atRoot).degen = s.degen := rfl
@[simp] theorem State.atRoot_origLen (s : State) : (s.atRoot).origLen = s.origLen := rfl
@[simp] theorem State.atRoot_emitted (s : State) : (s.atRoot).emitted = s.emitted := rfl
@[simp] theorem State.atRoot_nsym (s : State) : (s.atRoot).nsym = s.nsym := rfl
@[simp] theorem State.atRoot_nnodes (s : State) : (s.atRoot).nnodes = s.nnodes := rfl
@[simp] theorem State.atRoot_root (s : State) : (s.atRoot).root = s.root := rfl
@[simp] theorem State.atRoot_skAcc (s : State) : (s.atRoot).skAcc = s.skAcc := rfl
@[simp] theorem State.atRoot_skN (s : State) : (s.atRoot).skN = s.skN := rfl
@[simp] theorem State.atRoot_srAcc (s : State) : (s.atRoot).srAcc = s.srAcc := rfl
@[simp] theorem State.atRoot_srN (s : State) : (s.atRoot).srN = s.srN := rfl
@[simp] theorem State.atRoot_pfx (s : State) : (s.atRoot).pfx = 0 := rfl
@[simp] theorem State.atRoot_pfxLen (s : State) : (s.atRoot).pfxLen = 0 := rfl
@[simp] theorem State.atRoot_freq (s : State) : (s.atRoot).freq = s.freq := rfl
@[simp] theorem State.atRoot_node (s : State) : (s.atRoot).node = s.node := rfl
@[simp] theorem State.atRoot_pq (s : State) : (s.atRoot).pq = s.pq := rfl
@[simp] theorem State.atRoot_tlen (s : State) : (s.atRoot).tlen = s.tlen := rfl
@[simp] theorem State.atRoot_tcode (s : State) : (s.atRoot).tcode = s.tcode := rfl
@[simp] theorem State.atRoot_len (s : State) : (s.atRoot).len = s.len := rfl
@[simp] theorem State.atRoot_code (s : State) : (s.atRoot).code = s.code := rfl
@[simp] theorem State.atRoot_id (s : State) : (s.atRoot).id = s.id := rfl
@[simp] theorem State.atRoot_chan (s : State) : (s.atRoot).chan = s.chan := rfl
@[simp] theorem State.atRoot_hung (s : State) : (s.atRoot).hung = s.hung := rfl
@[simp] theorem State.atRoot_sub (s : State) : (s.atRoot).sub = s.sub := rfl
@[simp] theorem State.atRoot_issue (s : State) : (s.atRoot).issue = s.issue := rfl
@[simp] theorem State.atRoot_result (s : State) : (s.atRoot).result = s.result := rfl
@[simp] theorem State.atRoot_host (s : State) : (s.atRoot).host = s.host := rfl
@[simp] theorem State.atRoot_busData (s : State) : (s.atRoot).busData = s.busData := rfl
@[simp] theorem State.atRoot_free (s : State) : (s.atRoot).free = s.free := rfl

/-! ### State.nextSub -/

@[simp] theorem State.nextSub_phase (s : State) : (s.nextSub).phase = s.phase := rfl
@[simp] theorem State.nextSub_err (s : State) : (s.nextSub).err = s.err := rfl
@[simp] theorem State.nextSub_errInfo (s : State) : (s.nextSub).errInfo = s.errInfo := rfl
@[simp] theorem State.nextSub_degen (s : State) : (s.nextSub).degen = s.degen := rfl
@[simp] theorem State.nextSub_origLen (s : State) : (s.nextSub).origLen = s.origLen := rfl
@[simp] theorem State.nextSub_emitted (s : State) : (s.nextSub).emitted = s.emitted := rfl
@[simp] theorem State.nextSub_nsym (s : State) : (s.nextSub).nsym = s.nsym := rfl
@[simp] theorem State.nextSub_nnodes (s : State) : (s.nextSub).nnodes = s.nnodes := rfl
@[simp] theorem State.nextSub_root (s : State) : (s.nextSub).root = s.root := rfl
@[simp] theorem State.nextSub_skAcc (s : State) : (s.nextSub).skAcc = s.skAcc := rfl
@[simp] theorem State.nextSub_skN (s : State) : (s.nextSub).skN = s.skN := rfl
@[simp] theorem State.nextSub_srAcc (s : State) : (s.nextSub).srAcc = s.srAcc := rfl
@[simp] theorem State.nextSub_srN (s : State) : (s.nextSub).srN = s.srN := rfl
@[simp] theorem State.nextSub_pfx (s : State) : (s.nextSub).pfx = s.pfx := rfl
@[simp] theorem State.nextSub_pfxLen (s : State) : (s.nextSub).pfxLen = s.pfxLen := rfl
@[simp] theorem State.nextSub_freq (s : State) : (s.nextSub).freq = s.freq := rfl
@[simp] theorem State.nextSub_node (s : State) : (s.nextSub).node = s.node := rfl
@[simp] theorem State.nextSub_pq (s : State) : (s.nextSub).pq = s.pq := rfl
@[simp] theorem State.nextSub_tlen (s : State) : (s.nextSub).tlen = s.tlen := rfl
@[simp] theorem State.nextSub_tcode (s : State) : (s.nextSub).tcode = s.tcode := rfl
@[simp] theorem State.nextSub_len (s : State) : (s.nextSub).len = s.len := rfl
@[simp] theorem State.nextSub_code (s : State) : (s.nextSub).code = s.code := rfl
@[simp] theorem State.nextSub_id (s : State) : (s.nextSub).id = s.id := rfl
@[simp] theorem State.nextSub_chan (s : State) : (s.nextSub).chan = s.chan := rfl
@[simp] theorem State.nextSub_hung (s : State) : (s.nextSub).hung = s.hung := rfl
@[simp] theorem State.nextSub_sub (s : State) : (s.nextSub).sub = s.sub + 1 := rfl
@[simp] theorem State.nextSub_issue (s : State) : (s.nextSub).issue = s.issue := rfl
@[simp] theorem State.nextSub_result (s : State) : (s.nextSub).result = s.result := rfl
@[simp] theorem State.nextSub_host (s : State) : (s.nextSub).host = s.host := rfl
@[simp] theorem State.nextSub_busData (s : State) : (s.nextSub).busData = s.busData := rfl
@[simp] theorem State.nextSub_free (s : State) : (s.nextSub).free = s.free := rfl

/-! ### State.bindOutput -/

@[simp] theorem State.bindOutput_phase (s : State) : (s.bindOutput).phase = s.phase := rfl
@[simp] theorem State.bindOutput_err (s : State) : (s.bindOutput).err = s.err := rfl
@[simp] theorem State.bindOutput_errInfo (s : State) : (s.bindOutput).errInfo = s.errInfo := rfl
@[simp] theorem State.bindOutput_degen (s : State) : (s.bindOutput).degen = s.degen := rfl
@[simp] theorem State.bindOutput_origLen (s : State) : (s.bindOutput).origLen = s.origLen := rfl
@[simp] theorem State.bindOutput_emitted (s : State) : (s.bindOutput).emitted = s.emitted := rfl
@[simp] theorem State.bindOutput_nsym (s : State) : (s.bindOutput).nsym = s.nsym := rfl
@[simp] theorem State.bindOutput_nnodes (s : State) : (s.bindOutput).nnodes = s.nnodes := rfl
@[simp] theorem State.bindOutput_root (s : State) : (s.bindOutput).root = s.root := rfl
@[simp] theorem State.bindOutput_skAcc (s : State) : (s.bindOutput).skAcc = s.skAcc := rfl
@[simp] theorem State.bindOutput_skN (s : State) : (s.bindOutput).skN = s.skN := rfl
@[simp] theorem State.bindOutput_srAcc (s : State) : (s.bindOutput).srAcc = s.srAcc := rfl
@[simp] theorem State.bindOutput_srN (s : State) : (s.bindOutput).srN = s.srN := rfl
@[simp] theorem State.bindOutput_pfx (s : State) : (s.bindOutput).pfx = s.pfx := rfl
@[simp] theorem State.bindOutput_pfxLen (s : State) : (s.bindOutput).pfxLen = s.pfxLen := rfl
@[simp] theorem State.bindOutput_freq (s : State) : (s.bindOutput).freq = s.freq := rfl
@[simp] theorem State.bindOutput_node (s : State) : (s.bindOutput).node = s.node := rfl
@[simp] theorem State.bindOutput_pq (s : State) : (s.bindOutput).pq = s.pq := rfl
@[simp] theorem State.bindOutput_tlen (s : State) : (s.bindOutput).tlen = s.tlen := rfl
@[simp] theorem State.bindOutput_tcode (s : State) : (s.bindOutput).tcode = s.tcode := rfl
@[simp] theorem State.bindOutput_len (s : State) : (s.bindOutput).len = s.len := rfl
@[simp] theorem State.bindOutput_code (s : State) : (s.bindOutput).code = s.code := rfl
@[simp] theorem State.bindOutput_id (s : State) : (s.bindOutput).id = s.id := rfl
@[simp] theorem State.bindOutput_chan (s : State) :
    (s.bindOutput).chan = { s.chan with out := [], outClosed := false } := rfl
@[simp] theorem State.bindOutput_hung (s : State) : (s.bindOutput).hung = s.hung := rfl
@[simp] theorem State.bindOutput_sub (s : State) : (s.bindOutput).sub = s.sub := rfl
@[simp] theorem State.bindOutput_issue (s : State) : (s.bindOutput).issue = s.issue := rfl
@[simp] theorem State.bindOutput_result (s : State) : (s.bindOutput).result = s.result := rfl
@[simp] theorem State.bindOutput_host (s : State) : (s.bindOutput).host = s.host := rfl
@[simp] theorem State.bindOutput_busData (s : State) : (s.bindOutput).busData = s.busData := rfl
@[simp] theorem State.bindOutput_free (s : State) : (s.bindOutput).free = s.free := rfl

/-! ### countByte -/

@[simp] theorem countByte_phase (b : Byte) (s : State) : (countByte b s).phase = s.phase := rfl
@[simp] theorem countByte_err (b : Byte) (s : State) : (countByte b s).err = s.err := rfl
@[simp] theorem countByte_errInfo (b : Byte) (s : State) :
    (countByte b s).errInfo = s.errInfo := rfl
@[simp] theorem countByte_degen (b : Byte) (s : State) : (countByte b s).degen = s.degen := rfl
@[simp] theorem countByte_origLen (b : Byte) (s : State) :
    (countByte b s).origLen = s.origLen := rfl
@[simp] theorem countByte_emitted (b : Byte) (s : State) :
    (countByte b s).emitted = s.emitted := rfl
@[simp] theorem countByte_nsym (b : Byte) (s : State) : (countByte b s).nsym = s.nsym := rfl
@[simp] theorem countByte_nnodes (b : Byte) (s : State) : (countByte b s).nnodes = s.nnodes := rfl
@[simp] theorem countByte_root (b : Byte) (s : State) : (countByte b s).root = s.root := rfl
@[simp] theorem countByte_skAcc (b : Byte) (s : State) : (countByte b s).skAcc = s.skAcc := rfl
@[simp] theorem countByte_skN (b : Byte) (s : State) : (countByte b s).skN = s.skN := rfl
@[simp] theorem countByte_srAcc (b : Byte) (s : State) : (countByte b s).srAcc = s.srAcc := rfl
@[simp] theorem countByte_srN (b : Byte) (s : State) : (countByte b s).srN = s.srN := rfl
@[simp] theorem countByte_pfx (b : Byte) (s : State) : (countByte b s).pfx = s.pfx := rfl
@[simp] theorem countByte_pfxLen (b : Byte) (s : State) : (countByte b s).pfxLen = s.pfxLen := rfl
@[simp] theorem countByte_freq (b : Byte) (s : State) :
    (countByte b s).freq = setEntry s.freq b (sumCount (entry s.freq b) 1 s.free).1 := rfl
@[simp] theorem countByte_node (b : Byte) (s : State) : (countByte b s).node = s.node := rfl
@[simp] theorem countByte_pq (b : Byte) (s : State) : (countByte b s).pq = s.pq := rfl
@[simp] theorem countByte_tlen (b : Byte) (s : State) : (countByte b s).tlen = s.tlen := rfl
@[simp] theorem countByte_tcode (b : Byte) (s : State) : (countByte b s).tcode = s.tcode := rfl
@[simp] theorem countByte_len (b : Byte) (s : State) : (countByte b s).len = s.len := rfl
@[simp] theorem countByte_code (b : Byte) (s : State) : (countByte b s).code = s.code := rfl
@[simp] theorem countByte_id (b : Byte) (s : State) : (countByte b s).id = s.id := rfl
@[simp] theorem countByte_chan (b : Byte) (s : State) : (countByte b s).chan = s.chan := rfl
@[simp] theorem countByte_hung (b : Byte) (s : State) : (countByte b s).hung = s.hung := rfl
@[simp] theorem countByte_sub (b : Byte) (s : State) : (countByte b s).sub = s.sub := rfl
@[simp] theorem countByte_issue (b : Byte) (s : State) : (countByte b s).issue = s.issue := rfl
@[simp] theorem countByte_result (b : Byte) (s : State) : (countByte b s).result = s.result := rfl
@[simp] theorem countByte_host (b : Byte) (s : State) : (countByte b s).host = s.host := rfl
@[simp] theorem countByte_busData (b : Byte) (s : State) :
    (countByte b s).busData = s.busData := rfl
@[simp] theorem countByte_free (b : Byte) (s : State) :
    (countByte b s).free = (sumCount (entry s.freq b) 1 s.free).2 := rfl

/-! ### countLength -/

@[simp] theorem countLength_phase (s : State) : (countLength s).phase = s.phase := rfl
@[simp] theorem countLength_err (s : State) : (countLength s).err = s.err := rfl
@[simp] theorem countLength_errInfo (s : State) : (countLength s).errInfo = s.errInfo := rfl
@[simp] theorem countLength_degen (s : State) : (countLength s).degen = s.degen := rfl
@[simp] theorem countLength_origLen (s : State) :
    (countLength s).origLen = (sumCount s.origLen 1 s.free).1 := rfl
@[simp] theorem countLength_emitted (s : State) : (countLength s).emitted = s.emitted := rfl
@[simp] theorem countLength_nsym (s : State) : (countLength s).nsym = s.nsym := rfl
@[simp] theorem countLength_nnodes (s : State) : (countLength s).nnodes = s.nnodes := rfl
@[simp] theorem countLength_root (s : State) : (countLength s).root = s.root := rfl
@[simp] theorem countLength_skAcc (s : State) : (countLength s).skAcc = s.skAcc := rfl
@[simp] theorem countLength_skN (s : State) : (countLength s).skN = s.skN := rfl
@[simp] theorem countLength_srAcc (s : State) : (countLength s).srAcc = s.srAcc := rfl
@[simp] theorem countLength_srN (s : State) : (countLength s).srN = s.srN := rfl
@[simp] theorem countLength_pfx (s : State) : (countLength s).pfx = s.pfx := rfl
@[simp] theorem countLength_pfxLen (s : State) : (countLength s).pfxLen = s.pfxLen := rfl
@[simp] theorem countLength_freq (s : State) : (countLength s).freq = s.freq := rfl
@[simp] theorem countLength_node (s : State) : (countLength s).node = s.node := rfl
@[simp] theorem countLength_pq (s : State) : (countLength s).pq = s.pq := rfl
@[simp] theorem countLength_tlen (s : State) : (countLength s).tlen = s.tlen := rfl
@[simp] theorem countLength_tcode (s : State) : (countLength s).tcode = s.tcode := rfl
@[simp] theorem countLength_len (s : State) : (countLength s).len = s.len := rfl
@[simp] theorem countLength_code (s : State) : (countLength s).code = s.code := rfl
@[simp] theorem countLength_id (s : State) : (countLength s).id = s.id := rfl
@[simp] theorem countLength_chan (s : State) : (countLength s).chan = s.chan := rfl
@[simp] theorem countLength_hung (s : State) : (countLength s).hung = s.hung := rfl
@[simp] theorem countLength_sub (s : State) : (countLength s).sub = s.sub := rfl
@[simp] theorem countLength_issue (s : State) : (countLength s).issue = s.issue := rfl
@[simp] theorem countLength_result (s : State) : (countLength s).result = s.result := rfl
@[simp] theorem countLength_host (s : State) : (countLength s).host = s.host := rfl
@[simp] theorem countLength_busData (s : State) : (countLength s).busData = s.busData := rfl
@[simp] theorem countLength_free (s : State) :
    (countLength s).free = (sumCount s.origLen 1 s.free).2 := rfl

/-! ### countEmitted -/

@[simp] theorem countEmitted_phase (s : State) : (countEmitted s).phase = s.phase := rfl
@[simp] theorem countEmitted_err (s : State) : (countEmitted s).err = s.err := rfl
@[simp] theorem countEmitted_errInfo (s : State) : (countEmitted s).errInfo = s.errInfo := rfl
@[simp] theorem countEmitted_degen (s : State) : (countEmitted s).degen = s.degen := rfl
@[simp] theorem countEmitted_origLen (s : State) : (countEmitted s).origLen = s.origLen := rfl
@[simp] theorem countEmitted_emitted (s : State) :
    (countEmitted s).emitted = (sumCount s.emitted 1 s.free).1 := rfl
@[simp] theorem countEmitted_nsym (s : State) : (countEmitted s).nsym = s.nsym := rfl
@[simp] theorem countEmitted_nnodes (s : State) : (countEmitted s).nnodes = s.nnodes := rfl
@[simp] theorem countEmitted_root (s : State) : (countEmitted s).root = s.root := rfl
@[simp] theorem countEmitted_skAcc (s : State) : (countEmitted s).skAcc = s.skAcc := rfl
@[simp] theorem countEmitted_skN (s : State) : (countEmitted s).skN = s.skN := rfl
@[simp] theorem countEmitted_srAcc (s : State) : (countEmitted s).srAcc = s.srAcc := rfl
@[simp] theorem countEmitted_srN (s : State) : (countEmitted s).srN = s.srN := rfl
@[simp] theorem countEmitted_pfx (s : State) : (countEmitted s).pfx = s.pfx := rfl
@[simp] theorem countEmitted_pfxLen (s : State) : (countEmitted s).pfxLen = s.pfxLen := rfl
@[simp] theorem countEmitted_freq (s : State) : (countEmitted s).freq = s.freq := rfl
@[simp] theorem countEmitted_node (s : State) : (countEmitted s).node = s.node := rfl
@[simp] theorem countEmitted_pq (s : State) : (countEmitted s).pq = s.pq := rfl
@[simp] theorem countEmitted_tlen (s : State) : (countEmitted s).tlen = s.tlen := rfl
@[simp] theorem countEmitted_tcode (s : State) : (countEmitted s).tcode = s.tcode := rfl
@[simp] theorem countEmitted_len (s : State) : (countEmitted s).len = s.len := rfl
@[simp] theorem countEmitted_code (s : State) : (countEmitted s).code = s.code := rfl
@[simp] theorem countEmitted_id (s : State) : (countEmitted s).id = s.id := rfl
@[simp] theorem countEmitted_chan (s : State) : (countEmitted s).chan = s.chan := rfl
@[simp] theorem countEmitted_hung (s : State) : (countEmitted s).hung = s.hung := rfl
@[simp] theorem countEmitted_sub (s : State) : (countEmitted s).sub = s.sub := rfl
@[simp] theorem countEmitted_issue (s : State) : (countEmitted s).issue = s.issue := rfl
@[simp] theorem countEmitted_result (s : State) : (countEmitted s).result = s.result := rfl
@[simp] theorem countEmitted_host (s : State) : (countEmitted s).host = s.host := rfl
@[simp] theorem countEmitted_busData (s : State) : (countEmitted s).busData = s.busData := rfl
@[simp] theorem countEmitted_free (s : State) :
    (countEmitted s).free = (sumCount s.emitted 1 s.free).2 := rfl

end Sys2Proof.Machine
end

