-- ==== Sys2Proof/Laws/Turn.lean ====
section
/-! SUPPORT. Laws of the step: whose turn it is (the operation issued, the host, the sequencer). -/

namespace Sys2Proof.Machine

/-- With nothing issued the step is the host's turn, else the sequencer's. -/
theorem step_host {s : State} (hi : s.issue = []) : step s = hostTurn s := by
  simp only [step, turn, hi]

/-- A sequencer that waits for ever leaves the turn to the host. -/
theorem step_hung {s : State} (hh : s.hung = true) : step s = hostTurn s := by
  simp only [step, turn]
  split
  · rfl
  · rw [if_pos hh]

/-- With something issued and no transaction waiting, the step runs it. -/
theorem step_issue {s : State} (hi : s.issue ≠ []) (hh : s.hung = false) : step s = issueTurn s := by
  simp only [step, turn]
  split
  · exact absurd (by assumption) hi
  · rw [if_neg (by rw [hh]; simp)]

/-- An access of the host. -/
theorem hostTurn_access {s : State} {a : HostAction} {rest : List HostAction} (ha : a ≠ .wait)
    (hh : s.host = a :: rest) : hostTurn s = (hostAccess a { s with host := rest }).outcome := by
  unfold hostTurn
  rw [hh]
  cases a <;> first | rfl | exact absurd rfl ha

theorem hostTurn_wait {s : State} {rest : List HostAction} (hh : s.host = .wait :: rest) :
    hostTurn s = sequencerTurn { s with host := rest } := by
  unfold hostTurn
  rw [hh]

theorem hostTurn_none {s : State} (hh : s.host = []) : hostTurn s = sequencerTurn s := by
  unfold hostTurn
  rw [hh]

/-- With nothing issued and no access of the host, the step is the sequencer's. -/
theorem step_sequencer {s : State} (hi : s.issue = []) (hh : s.host = []) :
    step s = sequencerTurn s := by
  rw [step_host hi, hostTurn_none hh]

theorem sequencerTurn_runs {s : State} (hh : s.hung = false) :
    sequencerTurn s = (phaseStep s).outcome := by
  rw [sequencerTurn, if_neg (by rw [hh]; simp)]

theorem sequencerTurn_hung {s : State} (hh : s.hung = true) : sequencerTurn s = .next s := by
  rw [sequencerTurn, if_pos hh]

end Sys2Proof.Machine
end

