-- ==== Sys2Proof/Tests/Slice0.lean ====
section
/-! SUPPORT. Tests of the model. Expected results are those of the spec's examples, of its vectors
(95_test_vectors.md), or of a hand calculation from the rule named. After them, for every statement
with hypotheses, a witness that meets them. -/

namespace Sys2Proof.Tests

open Sys2Proof.Machine

set_option Elab.async false

/-! ### Helpers -/

/-- The next state satisfies `P`. -/
def nextIs (o : Host.Outcome State Fault Refusal) (P : State → Bool) : Bool :=
  match o with
  | .next t => P t
  | .fault _ => false
  | .refused _ => false

theorem nextIs_exists {o : Host.Outcome State Fault Refusal} {P : State → Bool}
    (h : nextIs o P = true) : ∃ t, o = .next t ∧ P t = true := by
  cases o with
  | next t => exact ⟨t, rfl, h⟩
  | fault _ => cases h
  | refused _ => cases h

/-- The refusal of an outcome. -/
def refusal (o : Host.Outcome State Fault Refusal) : Option Refusal :=
  match o with
  | .refused r => some r
  | .next _ => none
  | .fault _ => none

/-- The fault of an outcome. -/
def faultOf (o : Host.Outcome State Fault Refusal) : Option Fault :=
  match o with
  | .fault e => some e
  | .next _ => none
  | .refused _ => none

/-- The machine after reset with an input bound, its transactions answered as `draws` says. -/
def feed (input : List Byte) (draws : List Draw) : State :=
  { State.reset with chan := { Channels.unbound with input := input, draws := draws } }

/-- A table that is zero but for the entries named. -/
def table {n : Nat} (es : List (Byte × BitVec n)) : Table (BitVec n) :=
  es.foldl (fun t e => setEntry t e.1 e.2) (Vector.replicate 256 0)

/-- R188's example: the lengths of a, b, c, d, r for "abracadabra". -/
def lenAbra : Table (BitVec 8) :=
  table [(0x61, 1), (0x62, 3), (0x63, 3), (0x64, 3), (0x72, 3)]

/-- R207's example: a and b, of length 1. -/
def lenAb : Table (BitVec 8) :=
  table [(0x61, 1), (0x62, 1)]

/-- R161's example: the counters of "abracadabra". -/
def freqAbra : Table Count :=
  table [(0x61, 5), (0x62, 2), (0x63, 1), (0x64, 1), (0x72, 2)]

/-- A state whose LEN and CODE hold the canonical codes of a table. -/
def coded (len : Table (BitVec 8)) (s : State) : State :=
  { s with len := len, code := canonTable len }

/-! ### Ill-formed operations are refused (R113) -/

theorem test_wellFormed_count_too_long : Instr.wellFormed (.wrbits 0 256) = false := by decide
theorem test_wellFormed_value_too_large : Instr.wellFormed (.wrbits 8 3) = false := by decide
theorem test_wellFormed_value_fits : Instr.wellFormed (.wrbits 7 3) = true := by decide
theorem test_wellFormed_empty_code : Instr.wellFormed (.wrbits 1 0) = false := by decide
theorem test_wellFormed_bit_count : Instr.wellFormed (.rdbits 65) = false := by decide
theorem test_wellFormed_bit_count_64 : Instr.wellFormed (.rdbits 64) = true := by decide
theorem test_wrbits_refused :
    refusal (exec (.wrbits 8 3) State.reset) = some .operandOutOfRange := by decide +kernel
theorem test_rdbits_refused :
    refusal (exec (.rdbits 65) State.reset) = some .operandOutOfRange := by decide +kernel

/-! ### Numbers (R111, R112), the number in the first byte -/

theorem test_decode_commands :
    decodeTableWord 8 0b00000001 = some .pack ∧ decodeTableWord 8 0b00000010 = some .unpack := by
  decide +kernel

theorem test_decode_bit_units :
    decodeTableWord 8 0b00010000 = some .skInit ∧ decodeTableWord 8 0b00010010 = some .flush ∧
    decodeTableWord 8 0b00100000 = some .srInit ∧ decodeTableWord 8 0b00100001 = some .rdbit := by
  decide +kernel

theorem test_decode_frequency :
    decodeTableWord 8 0b00110000 = some .fqClear ∧
    decodeTableWord 8 0b00110010 = some .fqScan := by decide +kernel

theorem test_decode_tree :
    decodeTableWord 8 0b01000000 = some .tbSeed ∧ decodeTableWord 8 0b01000001 = some .tbMerge ∧
    decodeTableWord 8 0b01000010 = some .tbBuild ∧ decodeTableWord 8 0b01010000 = some .ctWalk ∧
    decodeTableWord 8 0b01010001 = some .ctCanon := by decide +kernel

theorem test_decode_format :
    decodeTableWord 8 0b01100000 = some .hdrWrite ∧ decodeTableWord 8 0b01100001 = some .hdrRead ∧
    decodeTableWord 8 0b01100010 = some .lenCheck := by decide +kernel

theorem test_decode_packer_unpacker :
    decodeTableWord 8 0b01110001 = some .encPass ∧ decodeTableWord 8 0b10000000 = some .decSym ∧
    decodeTableWord 8 0b10000001 = some .decLoop := by decide +kernel

/-- The numbers with an operand, all of it zero (log 4). -/
theorem test_decode_zero_operands :
    decodeTableWord 8 0b00010001 = some (.wrbits 0 0) ∧
    decodeTableWord 8 0b00100010 = some (.rdbits 0) ∧
    decodeTableWord 8 0b00110001 = some (.fqCount 0) ∧
    decodeTableWord 8 0b01110000 = some (.encSym 0) := by decide +kernel

/-- `WRBITS 0b101, 3`, `RDBITS 64`, `FQ_COUNT 0x61`, `ENC_SYM 0xFF` with their operand bytes (log 4). -/
theorem test_decode_operands :
    (decode (0x11 :: 0x03 :: List.replicate 31 0x00 ++ [0x05])).toOption = some (.wrbits 5 3, []) ∧
    (decode [0x22, 0x40]).toOption = some (.rdbits 64, []) ∧
    (decode [0x31, 0x61]).toOption = some (.fqCount 0x61, []) ∧
    (decode [0x70, 0xFF]).toOption = some (.encSym 0xFF, []) := by decide +kernel

theorem test_decode_reserved :
    decodeTableWord 8 0x00 = none ∧ decodeTableWord 8 0x03 = none ∧
    decodeTableWord 8 0x13 = none ∧ decodeTableWord 8 0x82 = none ∧
    decodeTableWord 8 0xFF = none := by decide +kernel

theorem test_withFetchWord_runs :
    nextIs (step ({ State.reset with skAcc := 5, skN := 3 }.withFetchWord 8 0x10))
      (fun t => t.skAcc == 0 && t.skN == 0 && t.issue == []) = true := by decide +kernel

/-! ### BitSink and BitSource -/

/-- R131's example. -/
theorem test_skInit : nextIs (exec .skInit { State.reset with skAcc := 5, skN := 3 })
    (fun t => t.skAcc == 0 && t.skN == 0) = true := by decide +kernel

/-- R132's example: from an empty sink three bits emit nothing. -/
theorem test_wrbits_pending : nextIs (exec (.wrbits 0b101 3) State.reset)
    (fun t => t.skAcc == 0x05 && t.skN == 3 && t.chan.out == []) = true := by decide +kernel

/-- 95_test_vectors.md P7: five more complete a byte. -/
theorem test_wrbits_full_byte : nextIs (exec (.wrbits 0b11111 5) { State.reset with skAcc := 5, skN := 3 })
    (fun t => t.skAcc == 0 && t.skN == 0 && t.chan.out == [0xbf]) = true := by decide +kernel

/-- R134's example. -/
theorem test_flush : nextIs (exec .flush { State.reset with skAcc := 5, skN := 3 })
    (fun t => t.skAcc == 0 && t.skN == 0 && t.chan.out == [0xA0]) = true := by decide +kernel

/-- R134: a failed write of the last byte is IoFailure(3). -/
theorem test_flush_fails :
    nextIs (exec .flush { feed [] [.fail false] with skAcc := 1, skN := 1, phase := .pFinish })
      (fun t => t.phase == .error && t.err == .ioFailure && t.errInfo == 3 && t.chan.out == [])
      = true := by decide +kernel

theorem test_srInit : nextIs (exec .srInit { feed [0x80] [] with srAcc := 0xbf, srN := 5 })
    (fun t => t.srAcc == 0 && t.srN == 0 && t.chan.inPos == 0) = true := by decide +kernel

/-- 95_test_vectors.md P7: the first bit of 80. -/
theorem test_rdbit : nextIs (exec .rdbit (feed [0x80] []))
    (fun t => t.result == .bit true && t.srAcc == 0x80 && t.srN == 7) = true := by decide +kernel

theorem test_rdbit_end : nextIs (exec .rdbit (feed [] []))
    (fun t => t.result == .eos && t.srN == 0 && t.phase == .idle) = true := by decide +kernel

/-- 95_test_vectors.md P7: `RDBITS 3 -> 0b101`, SR = (0xbf, 5). -/
theorem test_rdbits : nextIs (exec (.rdbits 3) (feed [0xbf, 0x80] []))
    (fun t => t.result == .value 0b101 && t.srAcc == 0xbf && t.srN == 5) = true := by decide +kernel

/-- R138: nine bits of one byte: EOS, and its bits are lost. -/
theorem test_rdbits_short : nextIs (exec (.rdbits 9) (feed [0xbf] []))
    (fun t => t.result == .eos && t.srN == 0 && t.chan.inPos == 1) = true := by decide +kernel

/-! ### FrequencyTable -/

theorem test_fqClear : nextIs (exec .fqClear { State.reset with freq := freqAbra })
    (fun t => entry t.freq 0x61 == 0 && entry t.freq 0x72 == 0) = true := by decide +kernel

/-- R151's example. -/
theorem test_fqCount : nextIs (exec (.fqCount 0x61) { State.reset with freq := table [(0x61, 4)] })
    (fun t => entry t.freq 0x61 == 5 && entry t.freq 0x60 == 0) = true := by decide +kernel

/-- R153's example. -/
theorem test_fqScan : nextIs (exec .fqScan (feed [0x61, 0x62, 0x61] []))
    (fun t => entry t.freq 0x61 == 2 && entry t.freq 0x62 == 1 && t.origLen == 3 &&
      t.chan.trace.length == 4) = true := by decide +kernel

/-- R153: a failed InRead is IoFailure(1). -/
theorem test_fqScan_fails : nextIs (exec .fqScan (feed [0x61] [.ok, .fail false]))
    (fun t => t.phase == .error && t.errInfo == 1 && t.origLen == 1) = true := by decide +kernel

/-! ### TreeBuilder and CodeTable -/

/-- R161's example. -/
theorem test_tbSeed : nextIs (exec .tbSeed { State.reset with freq := freqAbra })
    (fun t => t.nsym == 5 && t.nnodes == 5 && t.pq == [0, 1, 2, 3, 4] &&
      nodeAt t.node 4 == .leaf 0x72 2) = true := by decide +kernel

/-- R165's example: the first merge after R161's seeding. -/
theorem test_tbMerge :
    nextIs (exec .tbMerge (seedTree { State.reset with freq := freqAbra }))
      (fun t => nodeAt t.node 5 == .internal 2 3 2 && t.pq == [0, 1, 4, 5] && t.nnodes == 6)
      = true := by decide +kernel

theorem test_tbMerge_refused :
    refusal (exec .tbMerge { State.reset with pq := [0], nnodes := 1 })
      = some .mergeNeedsTwoNodes := by decide +kernel

/-- R166's example. -/
theorem test_tbBuild : nextIs (exec .tbBuild { State.reset with freq := freqAbra })
    (fun t => t.nnodes == 9 && t.root == some 8 && nodeAt t.node 6 == .internal 1 4 4 &&
      nodeAt t.node 8 == .internal 0 7 11) = true := by decide +kernel

/-- R172: among equal weights the earlier insertions go first. -/
theorem test_tbBuild_ties :
    nextIs (exec .tbBuild { State.reset with
        freq := table [(0x61, 1), (0x62, 1), (0x63, 2), (0x64, 2)] })
      (fun t => nodeAt t.node 5 == .internal 2 3 4 && nodeAt t.node 6 == .internal 4 5 6) = true := by
  decide +kernel

/-- R182's example: the tree codes of "abracadabra". -/
theorem test_ctWalk :
    nextIs (runList [.tbBuild, .ctWalk] { State.reset with freq := freqAbra })
      (fun t => (entry t.tcode 0x62, entry t.tlen 0x62) == (0b110, 3) &&
        (entry t.tcode 0x63, entry t.tlen 0x63) == (0b100, 3) && entry t.len 0x61 == 1 &&
        t.degen == .normal) = true := by decide +kernel

/-- R183: a single leaf has the code `(0, 1)`. -/
theorem test_ctWalk_single :
    nextIs (runList [.tbBuild, .ctWalk] { State.reset with freq := table [(0x61, 9)] })
      (fun t => entry t.tlen 0x61 == 1 && entry t.tcode 0x61 == 0 && t.degen == .single) = true := by
  decide +kernel

/-- R188's example. -/
theorem test_ctCanon : nextIs (exec .ctCanon { State.reset with len := lenAbra })
    (fun t => entry t.code 0x61 == 0 && entry t.code 0x62 == 0b100 && entry t.code 0x63 == 0b101 &&
      entry t.code 0x64 == 0b110 && entry t.code 0x72 == 0b111) = true := by decide +kernel

/-! ### FormatCodec -/

/-- R201's example: the first 13 bytes of a header with ORIG_LEN 11. -/
theorem test_hdrWrite : nextIs (exec .hdrWrite { State.reset with origLen := 11, len := lenAbra })
    (fun t => t.chan.out.length == 269 && t.skN == 0 && t.chan.out[110]? == some 1 &&
      t.chan.out.take 13 == [0x48, 0x55, 0x46, 0x46, 0x01, 0, 0, 0, 0, 0, 0, 0, 0x0B]) = true := by
  decide +kernel

/-- R202's example: another version, after five InReads. -/
theorem test_hdrRead_version : nextIs (exec .hdrRead (feed [0x48, 0x55, 0x46, 0x46, 0x02, 0, 0] []))
    (fun t => t.phase == .error && t.err == .formatError && t.errInfo == 3 && t.chan.inPos == 5)
    = true := by decide +kernel

/-- R207's example. -/
theorem test_lenCheck : nextIs (exec .lenCheck { State.reset with len := lenAb })
    (fun t => t.nsym == 2 && t.degen == .normal && t.phase == .idle) = true := by decide +kernel

/-- 95_test_vectors.md U18: three codes of length 1. -/
theorem test_lenCheck_oversubscribed :
    nextIs (exec .lenCheck { State.reset with len := table [(0x61, 1), (0x62, 1), (0x63, 1)] })
      (fun t => t.nsym == 3 && t.phase == .error && t.err == .formatError && t.errInfo == 6)
      = true := by decide +kernel

/-! ### Packer and Unpacker -/

/-- R227's example. -/
theorem test_encSym : nextIs (exec (.encSym 0x62) (coded lenAbra State.reset))
    (fun t => t.skAcc == 0b100 && t.skN == 3) = true := by decide +kernel

/-- R227: a byte without a code. -/
theorem test_encSym_absent : nextIs (exec (.encSym 0x65) (coded lenAbra State.reset))
    (fun t => t.phase == .error && t.err == .ioFailure && t.errInfo == 5 && t.skN == 0) = true := by
  decide +kernel

/-- R224's example: the bits 0, 1, 0. -/
theorem test_encPass :
    nextIs (exec .encPass { coded lenAb (feed [0x61, 0x62, 0x61] []) with origLen := 3 })
      (fun t => t.skAcc == 0b010 && t.skN == 3 && t.emitted == 3 && t.chan.out == [] &&
        t.phase == .idle) = true := by decide +kernel

/-- R225: pass 2 is one byte longer. -/
theorem test_encPass_longer :
    nextIs (exec .encPass { coded lenAb (feed [0x61, 0x62, 0x61] []) with origLen := 2 })
      (fun t => t.phase == .error && t.errInfo == 6 && t.emitted == 3 && t.skN == 3) = true := by
  decide +kernel

/-- 95_test_vectors.md U1: the first symbol of `4e`, a. -/
theorem test_decSym : nextIs (exec .decSym (coded lenAbra (feed [0x4e, 0xac, 0x9c] [])))
    (fun t => t.chan.out == [0x61] && t.srN == 7 && t.pfxLen == 0) = true := by decide +kernel

/-- 95_test_vectors.md U23: in a one-symbol table the bit 1 leads nowhere. -/
theorem test_decSym_no_path : nextIs (exec .decSym (coded (table [(0x61, 1)]) (feed [0x80] [])))
    (fun t => t.phase == .error && t.err == .formatError && t.errInfo == 8 && t.chan.out == [])
    = true := by decide +kernel

/-- 95_test_vectors.md U1: "abracadabra". -/
theorem test_decLoop :
    nextIs (exec .decLoop { coded lenAbra (feed [0x4e, 0xac, 0x9c] []) with origLen := 11 })
      (fun t => t.emitted == 11 && t.srAcc == 0x9C && t.srN == 1 && t.chan.out ==
        [0x61, 0x62, 0x72, 0x61, 0x63, 0x61, 0x64, 0x61, 0x62, 0x72, 0x61]) = true := by
  decide +kernel

/-- 95_test_vectors.md P6: EOS after eight symbols. -/
theorem test_decLoop_truncated :
    nextIs (exec .decLoop { coded lenAbra (feed [0x4e, 0xac] []) with origLen := 11 })
      (fun t => t.phase == .error && t.err == .truncatedData && t.errInfo == 1 && t.emitted == 8)
      = true := by decide +kernel

/-- 95_test_vectors.md K9: "aab". -/
theorem test_pack : nextIs (exec .pack (feed [0x61, 0x61, 0x62] []))
    (fun t => t.phase == .done && t.chan.outClosed && t.chan.out.drop 269 == [0x20] &&
      entry t.len 0x62 == 1 && t.status == 0x0E02) = true := by decide +kernel

/-- 95_test_vectors.md K38: the very first InRead fails. -/
theorem test_pack_read_fails : nextIs (exec .pack (feed [0x61, 0x62] [.fail false]))
    (fun t => t.phase == .error && t.err == .ioFailure && t.errInfo == 1 && t.chan.out == [])
    = true := by decide +kernel

/-- 95_test_vectors.md U26: `a5` with the symbols 00 and ff. -/
theorem test_unpack :
    nextIs (exec .unpack (feed
        (headerBytes State.reset.id 8 (table [(0x00, 1), (0xFF, 1)]) ++ [0xa5]) []))
      (fun t => t.phase == .done && t.chan.outClosed && t.srN == 0 &&
        t.chan.out == [0xff, 0, 0xff, 0, 0, 0xff, 0, 0xff]) = true := by decide +kernel

/-- 95_test_vectors.md U4: another magic. -/
theorem test_unpack_magic : nextIs (exec .unpack (feed [0x49, 0x55, 0x46, 0x46, 0x01, 0] []))
    (fun t => t.status == 0x0F04 && t.err == .formatError && t.errInfo == 2 && t.chan.inPos == 4)
    = true := by decide +kernel

/-! ### Witnesses: the hypotheses of each statement can be met together

One theorem per statement with hypotheses, named after it; where it has several clauses, one
conjunct or one theorem per clause. -/

theorem no_operation_has_82 : ∀ i : Instr, i.number ≠ 0x82 := by
  intro i; cases i <;> simp only [Instr.number] <;> decide

theorem feed_okFor (input : List Byte) (n : Nat) : (feed input []).chan.okFor n := by
  simp [Channels.okFor, feed]

theorem feed_draws (input : List Byte) : ∀ d ∈ (feed input []).chan.draws, d = Draw.ok := by
  simp [feed]

theorem feed_bound (input : List Byte) : (feed input []).chan.Bound :=
  ⟨rfl, rfl, rfl, feed_draws input⟩

/-- The code of the largest value and length (R113), the largest bit count, the empty bit-code. -/
theorem witness_DecodeOfEncode :
    Instr.wellFormed (.wrbits (2 ^ 255 - 1) 255) = true ∧ Instr.wellFormed (.rdbits 64) = true ∧
    Instr.wellFormed (.wrbits 0 0) = true ∧ Instr.wellFormed (.encSym 0xFF) = true := by decide +kernel

theorem witness_EncodeOfDecode : decode [0x22, 0x40, 0x99] = .ok (.rdbits 64, [0x99]) := rfl

theorem witness_ReservedOperationsRefused : ∃ s : State,
    (∀ i : Instr, i.number ≠ 0x82) ∧ s.issue = 0x82 :: [0x10] ∧ s.hung = false :=
  ⟨{ State.reset with issue := [0x82, 0x10] }, no_operation_has_82, rfl, rfl⟩

theorem witness_StepRunsIssuedOperation : ∃ s : State,
    Instr.wellFormed (.rdbits 64) = true ∧ s.issue = encode (.rdbits 64) ++ [0x12] ∧ s.hung = false :=
  ⟨{ State.reset with issue := encode (.rdbits 64) ++ [0x12] }, by decide, rfl, rfl⟩

theorem reset_inv_parts (s : State) (he : s.err = .none) (hi : s.errInfo = 0) (hp : s.phase ≠ .error)
    (hk : s.skAcc = 0) (hx : s.pfx = 0) (hc : s.chan.inPos ≤ s.chan.input.length) (hq : s.pq = [])
    (hr : s.root = none) (hn : s.nnodes = 0) : s.Inv := by
  refine ⟨⟨by simp [he, hp], fun _ => hi⟩, .inr (.inr ?_), ?_, hc, ?_⟩
  · rw [hk]; simp
  · rw [State.walkerOk, hx]; simp
  · refine ⟨by simp [hq], by simp [hq], by simp [hr], ?_⟩
    intro i a b w h
    simp [hn] at h

theorem witness_StepKeepsInv : ∃ s t : State, s.Inv ∧ step s = .next t ∧ t.phase = .pCount := by
  have h : nextIs (step { feed [0x61] [] with host := [.writeRegister 0 0x01] })
      (fun t => t.phase == .pCount) = true := by decide +kernel
  obtain ⟨t, ht, hp⟩ := nextIs_exists h
  exact ⟨_, t, reset_inv_parts _ rfl rfl (by decide) rfl rfl (by decide) rfl rfl rfl, ht, by
    simpa using hp⟩

theorem witness_CommandWriteStartsOrIsIgnored_busy : ∃ s : State, s.issue = [] ∧
    s.host = [.writeRegister 0 0x02] ∧ s.busy = true :=
  ⟨{ State.reset with host := [.writeRegister 0 0x02], phase := .uFinish }, rfl, rfl, by decide⟩

theorem witness_CommandWriteStartsOrIsIgnored_reserved : ∃ s : State, s.issue = [] ∧
    s.host = [.writeRegister 0 0x03] ∧ (0x03 : Byte) ≠ 0x01 ∧ (0x03 : Byte) ≠ 0x02 :=
  ⟨{ State.reset with host := [.writeRegister 0 0x03] }, rfl, rfl, by decide, by decide⟩

theorem witness_CommandWriteStartsOrIsIgnored_accepted : ∃ s u : State,
    (s.issue = [] ∧ s.host = [.writeRegister 0 0x01] ∧ s.busy = false ∧ s.hung = false) ∧
    (u.issue = [] ∧ u.host = [.writeRegister 0 0x02] ∧ u.busy = false ∧ u.hung = false) :=
  ⟨{ State.reset with host := [.writeRegister 0 0x01] },
    { State.reset with host := [.writeRegister 0 0x02], phase := .error },
    ⟨rfl, rfl, by decide, rfl⟩, ⟨rfl, rfl, by decide, rfl⟩⟩

theorem witness_HostAccesses_write : ∃ s : State, s.issue = [] ∧ (7 : Nat) ≠ 0 ∧
    s.host = [.writeRegister 7 0x01] :=
  ⟨{ State.reset with host := [.writeRegister 7 0x01] }, rfl, by decide, rfl⟩

/-- For each register number of R40, and 8, the first that is none. -/
theorem witness_HostAccesses_read (number : Nat) : ∃ s : State, s.issue = [] ∧
    s.host = [.readRegister number] :=
  ⟨{ State.reset with host := [.readRegister number] }, rfl, rfl⟩

/-- A binding that is accepted, and one that a command (with an operation issued and a transaction
waiting) refuses. -/
theorem witness_HostAccesses_bind : ∃ s u v w : State,
    (s.issue = [] ∧ s.host = [.bindInput [0x61] none] ∧ s.accepts = true) ∧
    (u.hung = true ∧ u.host = [.bindInput [0x61] none] ∧ u.accepts = false) ∧
    (v.issue = [] ∧ v.host = [.bindOutput] ∧ v.accepts = true) ∧
    (w.issue = [] ∧ w.host = [.bindOutput] ∧ w.accepts = false) :=
  ⟨{ State.reset with host := [.bindInput [0x61] none] },
    { State.reset with host := [.bindInput [0x61] none], hung := true, issue := [0x10] },
    { State.reset with host := [.bindOutput], phase := .done },
    { State.reset with host := [.bindOutput], phase := .pEncode },
    ⟨rfl, rfl, by decide⟩, ⟨rfl, rfl, by decide⟩, ⟨rfl, rfl, by decide⟩, rfl, rfl, by decide⟩

/-- What those reads give after reset, by hand from R40: STATUS, ID, CMD, and register 8. -/
theorem test_register_reads :
    nextIs (step { State.reset with host := [.readRegister 1], phase := .error, degen := .single })
      (fun t => t.busData == 0x0F24) = true ∧
    nextIs (step { State.reset with host := [.readRegister 7] })
      (fun t => t.busData == 0x4855464601) = true ∧
    nextIs (step { State.reset with host := [.readRegister 0], busData := 9 })
      (fun t => t.busData == 0) = true ∧
    nextIs (step { State.reset with host := [.readRegister 8], busData := 9 })
      (fun t => t.busData == 0) = true := by decide +kernel

theorem witness_HostResetAbandonsTheCommand : ∃ s u : State,
    (s.host = [.reset] ∧ s.issue = [] ∧ s.phase = .pEncode) ∧ (u.host = [.reset] ∧ u.hung = true) :=
  ⟨{ State.reset with host := [.reset], phase := .pEncode },
    { State.reset with host := [.reset], hung := true, issue := [0x10] },
    ⟨rfl, rfl, rfl⟩, ⟨rfl, rfl⟩⟩

theorem witness_BlockWaitsForTheHost : ∃ s u : State,
    (s.issue = [] ∧ s.host = [] ∧ s.phase = .done) ∧
    (u.issue = [] ∧ u.host = [.wait] ∧ u.phase = .error) :=
  ⟨{ State.reset with phase := .done }, { State.reset with phase := .error, host := [.wait] },
    ⟨rfl, rfl, rfl⟩, ⟨rfl, rfl, rfl⟩⟩

/-- A step that moves PHASE on, and one, made while the host waits, that moves it to ERROR. -/
theorem witness_PhaseMovesForward : ∃ s t u v : State,
    (s.issue = [] ∧ s.host.headD .wait = .wait ∧ step s = .next t ∧ s.phase = .pCount ∧
      t.phase = .pBuild) ∧
    (u.issue = [] ∧ u.host.headD .wait = .wait ∧ step u = .next v ∧ u.host = [.wait, .reset] ∧
      u.phase = .pCount ∧ v.phase = .error) := by
  have h : nextIs (step { feed [] [] with phase := .pCount }) (fun t => t.phase == .pBuild) = true := by
    decide +kernel
  have h' : nextIs (step { feed [] [.fail false] with phase := .pCount, host := [.wait, .reset] })
      (fun t => t.phase == .error) = true := by decide +kernel
  obtain ⟨t, ht, hp⟩ := nextIs_exists h
  obtain ⟨v, hv, hq⟩ := nextIs_exists h'
  exact ⟨_, t, _, v, ⟨rfl, rfl, ht, rfl, by simpa using hp⟩,
    ⟨rfl, rfl, hv, rfl, rfl, by simpa using hq⟩⟩

/-- A step that writes a byte. -/
theorem witness_StepOnlyAppendsToOutput : ∃ s t : State, step s = .next t ∧
    (∀ rest, s.host ≠ .bindOutput :: rest) ∧ t.chan.out = [0x80] := by
  have h : nextIs (step { State.reset with phase := .pFinish, skAcc := 1, skN := 1 })
      (fun t => t.chan.out == [0x80]) = true := by decide +kernel
  obtain ⟨t, ht, hp⟩ := nextIs_exists h
  exact ⟨_, t, ht, by simp [State.reset], by simpa using hp⟩

theorem witness_TablesAreReadOnlyWhileUsed : ∃ s t : State, s.issue = [] ∧
    s.host.headD .wait = .wait ∧ step s = .next t ∧
    s.phase ∈ [Phase.pHeader, .pRewind, .pEncode, .pFinish, .uDecode, .uFinish] ∧
    t.phase = .done := by
  have h : nextIs (step { State.reset with phase := .uFinish, host := [.wait] })
      (fun t => t.phase == .done) = true := by decide +kernel
  obtain ⟨t, ht, hp⟩ := nextIs_exists h
  exact ⟨_, t, rfl, rfl, ht, by decide, by simpa using hp⟩

/-- The operands R113 excludes, at their boundaries; and the longest bit-code onto a full sink. -/
theorem witness_WrbitsAppendsTheCode :
    (255 < 256 ∨ 2 ^ 256 ≤ 0) ∧ (255 < 3 ∨ 2 ^ 3 ≤ 8) ∧ ∃ s : State,
      (255 : Nat) ≤ 255 ∧ 2 ^ 255 - 1 < 2 ^ 255 ∧ s.skAcc.toNat < 2 ^ s.skN.val ∧
      s.chan.outClosed = false ∧ s.chan.okFor ((s.skN.val + 255) / 8) :=
  ⟨.inl (by decide), .inr (by decide), { feed [] [] with skAcc := 0x7f, skN := 7 }, by decide,
    by decide +kernel, by decide, rfl, feed_okFor [] _⟩

theorem witness_WrbitsStopsAtAFailedWrite : ∃ s : State, (16 : Nat) ≤ 255 ∧ 0xABCD < 2 ^ 16 ∧
    s.skAcc.toNat < 2 ^ s.skN.val ∧ s.chan.outClosed = false ∧ 1 < (s.skN.val + 16) / 8 ∧
    s.chan.okFor 1 ∧ s.chan.draws[1]? = some (.fail true) :=
  ⟨feed [] [.ok, .fail true], by decide, by decide, by decide, rfl, by decide,
    by simp [Channels.okFor, feed], rfl⟩

theorem witness_WrbitsConcatenates : ∃ s t : State, 3 + 252 ≤ 255 ∧ 5 < 2 ^ 3 ∧ 0 < 2 ^ 252 ∧
    s.skAcc.toNat < 2 ^ s.skN.val ∧ s.chan.outClosed = false ∧ s.chan.okFor ((s.skN.val + 3) / 8) ∧
    exec (.wrbits 5 3) s = .next t := by
  have h : nextIs (exec (.wrbits 5 3) { feed [] [] with skAcc := 0x1f, skN := 5 })
      (fun t => t.skN == 0) = true := by decide +kernel
  obtain ⟨t, ht, -⟩ := nextIs_exists h
  exact ⟨{ feed [] [] with skAcc := 0x1f, skN := 5 }, t, by decide, by decide, by decide, by decide,
    rfl, feed_okFor [] _, ht⟩

theorem witness_FlushPadsTheLastByte : ∃ s u v : State, s.skN = 0 ∧
    (u.skN ≠ 0 ∧ u.chan.outClosed = false ∧ u.chan.draw = .ok) ∧
    (v.skN ≠ 0 ∧ v.chan.outClosed = false ∧ v.chan.draw = .fail true) :=
  ⟨State.reset, { State.reset with skN := 7 }, { feed [] [.fail true] with skN := 1 }, rfl,
    ⟨by decide, rfl, rfl⟩, ⟨by decide, rfl, rfl⟩⟩

theorem witness_RdbitDeliversTheNextBit : ∃ s u v w : State, s.srN.val = 7 + 1 ∧
    (u.srN = 0 ∧ u.chan.draw = .ok ∧ u.chan.rest = 0x80 :: [0x01]) ∧
    (v.srN = 0 ∧ v.chan.draw = .ok ∧ v.chan.rest = []) ∧
    (w.srN = 0 ∧ w.chan.draw = .fail false) :=
  ⟨{ State.reset with srN := 8 }, feed [0x80, 0x01] [], State.reset, feed [0x80] [.fail false], rfl,
    ⟨rfl, rfl, rfl⟩, ⟨rfl, rfl, rfl⟩, ⟨rfl, rfl⟩⟩

theorem witness_RdbitsReadsAValue : 64 < 65 ∧ ∃ s : State, (64 : Nat) ≤ 64 ∧
    64 ≤ s.bitStream.length ∧ s.chan.okFor (s.fetches 64) :=
  ⟨by decide, feed [1, 2, 3, 4, 5, 6, 7, 8] [], by decide, by decide +kernel, feed_okFor _ _⟩

theorem witness_RdbitsLosesAShortValue : ∃ s : State, (64 : Nat) ≤ 64 ∧ s.bitStream.length < 64 ∧
    s.chan.okFor (s.chan.rest.length + 1) :=
  ⟨feed [1, 2, 3, 4, 5, 6, 7] [], by decide, by decide +kernel, feed_okFor _ _⟩

theorem witness_BitSourceReadsBackBitSink (F : List Byte) : ∃ s u : State,
    (∀ c ∈ [(5, 3), (0, 0), (2 ^ 255 - 1, 255)], c.2 ≤ 255 ∧ c.1 < 2 ^ c.2) ∧ s.skAcc = 0 ∧
    s.skN = 0 ∧ s.chan.outClosed = false ∧ (∀ d ∈ s.chan.draws, d = .ok) ∧
    u.srN = 0 ∧ u.chan.rest = F ∧ (∀ d ∈ u.chan.draws, d = .ok) :=
  ⟨State.reset, feed F [], by decide +kernel, rfl, rfl, rfl, feed_draws [], rfl, rfl, feed_draws F⟩

/-- A counter at the upper end of R152's envelope. -/
theorem witness_CountersClearAndCount :
    (entry (table [(0x61, (2 ^ 64 - 2 : Count))]) 0x61).toNat + 1 < 2 ^ 64 := by decide +kernel

theorem witness_FqScanCountsTheInput : ∃ s : State, s.chan.rest = [0x61, 0x62, 0x61] ∧
    s.chan.okFor (s.chan.rest.length + 1) ∧
    (∀ b, (entry s.freq b).toNat + s.chan.rest.count b < 2 ^ 64) ∧
    s.origLen.toNat + s.chan.rest.length < 2 ^ 64 ∧ (∀ b, entry s.freq b = 0) ∧ s.origLen = 0 := by
  have hf : ∀ b, entry (feed [0x61, 0x62, 0x61] []).freq b = 0 := fun b => by
    simp [feed, State.reset, entry_replicate]
  refine ⟨feed [0x61, 0x62, 0x61] [], rfl, feed_okFor _ _, fun b => ?_, by decide, hf, rfl⟩
  rw [hf b]
  have hc : List.count b (feed [0x61, 0x62, 0x61] []).chan.rest ≤ 3 := List.count_le_length
  exact Nat.lt_of_le_of_lt (by simpa using hc) (by decide : 3 < 2 ^ 64)

theorem witness_TbMergeJoinsTheTwoLowest : ∃ s u v : State, s.pq.length < 2 ∧
    (2 ≤ u.pq.length ∧ u.nnodes.val = 511) ∧ (2 ≤ v.pq.length ∧ v.nnodes.val < 511 ∧
      (nodeAt v.node 0).weight.toNat + (nodeAt v.node 1).weight.toNat < 2 ^ 64) :=
  ⟨{ State.reset with pq := [0] }, { State.reset with pq := [0, 1], nnodes := 511 },
    { State.reset with pq := [0, 1], nnodes := 510 }, by decide, by decide, by decide +kernel⟩

/-- TB_MERGE with all 511 entries allocated. -/
theorem test_tbMerge_full :
    faultOf (exec .tbMerge { State.reset with pq := [0, 1], nnodes := 511 }) = some .nodeArenaFull := by
  decide +kernel

/-- Every byte value counted once. -/
def freqOnes : Table Count :=
  Vector.replicate 256 1

theorem countedBytes_zero : countedBytes State.reset.freq = [] := by
  simp [countedBytes, State.reset]

theorem countedBytes_ones : countedBytes freqOnes = allBytes := by
  simp [countedBytes, freqOnes]

theorem totalCount_ones : totalCount freqOnes = 256 := by
  simp only [totalCount, freqOnes, entry_replicate]
  decide +kernel

theorem witness_TbBuildMakesOneTree : countedBytes State.reset.freq = [] ∧
    countedBytes freqOnes ≠ [] ∧ totalCount freqOnes < 2 ^ 64 :=
  ⟨countedBytes_zero, by rw [countedBytes_ones]; simp [allBytes], by rw [totalCount_ones]; decide⟩

theorem witness_TreeNodesHaveOneParent : ∃ (s t : State) (r j : NodeIx),
    exec .tbBuild s = .next t ∧ t.root = some r ∧ j.val < t.nnodes.val ∧ j ≠ r := by
  have h : nextIs (exec .tbBuild { State.reset with freq := freqAbra })
      (fun t => t.root == some 8 && t.nnodes == 9) = true := by decide +kernel
  obtain ⟨t, ht, hp⟩ := nextIs_exists h
  simp only [Bool.and_eq_true, beq_iff_eq] at hp
  exact ⟨_, t, 8, 7, ht, hp.1, by rw [hp.2]; decide, by decide⟩

theorem witness_TbBuildIsAFunctionOfFreq : ∃ s s' : State, s.freq = s'.freq ∧
    totalCount s.freq < 2 ^ 64 ∧ s.nnodes ≠ s'.nnodes :=
  ⟨{ State.reset with freq := freqOnes }, { State.reset with freq := freqOnes, nnodes := 3 }, rfl,
    by show totalCount freqOnes < 2 ^ 64; rw [totalCount_ones]; decide, by decide⟩

/-- An arena with a, b and their parent. -/
def twoLeaves : State :=
  { State.reset with
    node := ((State.reset.node.set 0 (.leaf 0x61 1)).set 1 (.leaf 0x62 1)).set 2 (.internal 0 1 2)
    nnodes := 3, root := some 2, pq := [2] }

theorem twoLeaves_tree : Represents twoLeaves.node 2 (.node (.leaf 0x61) (.leaf 0x62)) :=
  .node 2 0 1 2 _ _ (by decide +kernel) (.leaf 0 0x61 1 (by decide +kernel))
    (.leaf 1 0x62 1 (by decide +kernel))

theorem witness_CtWalkRecordsThePaths : ∃ s u : State, (s.treed ∧ s.root = none) ∧ u.treed ∧
    ∃ r T, u.root = some r ∧ Represents u.node r T ∧ T.walkCodes.length = 2 ∧ (0x63 : Byte) ∉ T.symbols := by
  refine ⟨State.reset, twoLeaves, ⟨fun r h => by simp [State.reset] at h, rfl⟩, ?_, 2, _, rfl,
    twoLeaves_tree, by decide, by decide⟩
  intro r h
  obtain rfl : (2 : NodeIx) = r := by simpa [twoLeaves] using h
  exact ⟨_, twoLeaves_tree, by decide, by decide⟩

theorem countedBytes_one (x : Byte) :
    (countedBytes (setEntry (Vector.replicate 256 0) x 9)).length = 1 := by
  have h : ∀ b ∈ allBytes,
      decide (entry (setEntry (Vector.replicate 256 (0 : Count)) x 9) b ≠ 0) = (b == x) := by
    intro b _
    by_cases hb : x = b
    · subst hb; simp
    · rw [entry_setEntry_ne _ _ hb]; simp [Ne.symm hb]
  rw [countedBytes, List.filter_congr h, ← List.countP_eq_length_filter]
  exact List.count_eq_one_of_mem allBytes_nodup (mem_allBytes x)

/-- Zero, one and two counted bytes. -/
theorem witness_TreeLengthsFillTheCodeSpace :
    (countedBytes State.reset.freq).length = 0 ∧
    (countedBytes (setEntry (Vector.replicate 256 0) 0xFF 9)).length = 1 ∧
    2 ≤ (countedBytes freqOnes).length :=
  ⟨by rw [countedBytes_zero]; rfl, countedBytes_one 0xFF, by rw [countedBytes_ones]; simp⟩

theorem witness_TreeCodesArePrefixFree : ∃ s t : State, runList [.tbBuild, .ctWalk] s = .next t ∧
    (0x61 : Byte) ≠ 0x62 ∧ entry t.tlen 0x61 ≠ 0 ∧ entry t.tlen 0x62 ≠ 0 := by
  have h : nextIs (runList [.tbBuild, .ctWalk] { State.reset with freq := freqAbra })
      (fun t => entry t.tlen 0x61 == 1 && entry t.tlen 0x62 == 3) = true := by decide +kernel
  obtain ⟨t, ht, hp⟩ := nextIs_exists h
  simp only [Bool.and_eq_true, beq_iff_eq] at hp
  exact ⟨_, t, ht, by decide, by rw [hp.1]; decide, by rw [hp.2]; decide⟩

/-- A Kraft sum of exactly 1, and one of 1/2. -/
theorem witness_CtCanonAssignsInCanonicalOrder : kraft255 lenAbra = 2 ^ 255 ∧
    kraft255 (table [(0x61, (1 : BitVec 8))]) ≤ 2 ^ 255 ∧ entry lenAbra 0x65 = 0 := by decide +kernel

theorem witness_CanonicalCodesArePrefixFree : ∃ s t : State, kraft255 s.len ≤ 2 ^ 255 ∧
    exec .ctCanon s = .next t ∧ entry t.len 0x61 ≠ 0 ∧ (0x62 : Byte) ≠ 0x61 ∧ entry t.len 0x62 ≠ 0 := by
  have h : nextIs (exec .ctCanon { State.reset with len := lenAbra })
      (fun t => entry t.len 0x61 == 1 && entry t.len 0x62 == 3) = true := by decide +kernel
  obtain ⟨t, ht, hp⟩ := nextIs_exists h
  simp only [Bool.and_eq_true, beq_iff_eq] at hp
  exact ⟨_, t, by decide +kernel, ht, by rw [hp.1]; decide, by decide, by rw [hp.2]; decide⟩

theorem witness_CtCanonReadsLenAlone : ∃ s s' : State, s.len = s'.len ∧ kraft255 s.len ≤ 2 ^ 255 ∧
    entry s.len 0x61 ≠ 0 ∧ s.origLen ≠ s'.origLen :=
  ⟨{ State.reset with len := lenAbra }, { State.reset with len := lenAbra, origLen := 7 }, rfl,
    by decide +kernel, by decide +kernel, by decide⟩

/-- 95_test_vectors.md K10, the payload of "abc": `b0`. -/
theorem witness_ContainerLayout :
    (payloadBytes (table [(0x61, (2 : BitVec 8)), (0x62, 2), (0x63, 1)]) [0x61, 0x62, 0x63])[7 / 8]?
      = some 0xb0 := by decide +kernel

theorem witness_HdrWriteWritesTheHeader : ∃ s : State, s.skAcc = 0 ∧ s.skN = 0 ∧
    s.chan.outClosed = false ∧ s.chan.okFor 269 :=
  ⟨feed [] [], rfl, rfl, rfl, feed_okFor [] _⟩

theorem witness_HdrReadRestoresTheHeader : ∃ s : State, s.srN = 0 ∧
    s.chan.rest = headerBytes s.id (2 ^ 64 - 1) lenAbra ++ [0x4e] ∧ s.chan.okFor 269 :=
  ⟨feed (headerBytes State.reset.id (2 ^ 64 - 1) lenAbra ++ [0x4e]) [], rfl, rfl, feed_okFor _ _⟩

/-- A magic that is one too large, in an input of exactly four bytes, and the magic with version 02. -/
theorem witness_HdrReadRejectsAnotherFormat : ∃ s u : State,
    (s.srN = 0 ∧ s.chan.rest = [0x48, 0x55, 0x46, 0x47] ++ [] ∧ s.chan.okFor 4 ∧
      natOfBytes [0x48, 0x55, 0x46, 0x47] ≠ s.magic.toNat) ∧
    (u.srN = 0 ∧ u.chan.rest = [0x48, 0x55, 0x46, 0x46] ++ 0x02 :: [] ∧ u.chan.okFor 5 ∧
      natOfBytes [0x48, 0x55, 0x46, 0x46] = u.magic.toNat ∧ (0x02 : Byte) ≠ u.version) :=
  ⟨feed [0x48, 0x55, 0x46, 0x47] [], feed [0x48, 0x55, 0x46, 0x46, 0x02] [],
    ⟨rfl, rfl, feed_okFor _ _, by decide +kernel⟩,
    ⟨rfl, rfl, feed_okFor _ _, by decide +kernel, by decide +kernel⟩⟩

/-- Three bytes that need be no magic, and a header without its last byte. -/
theorem witness_HdrReadRejectsAShortHeader : ∃ s u : State,
    (s.srN = 0 ∧ s.chan.rest.length < 4 ∧ s.chan.okFor (s.chan.rest.length + 1)) ∧
    (u.srN = 0 ∧ u.chan.rest <+: headerBytes u.id 11 lenAbra ∧ u.chan.rest.length = 268 ∧
      u.chan.okFor (u.chan.rest.length + 1)) :=
  ⟨feed [0x49, 0x55, 0x46] [], feed ((headerBytes State.reset.id 11 lenAbra).take 268) [],
    ⟨rfl, by decide, feed_okFor _ _⟩,
    ⟨rfl, List.take_prefix _ _, by decide +kernel, feed_okFor _ _⟩⟩

/-- A table for each row of R207. -/
theorem witness_LenCheckAcceptsExactly :
    (present (table ([] : List (Byte × BitVec 8)))).length = 0 ∧
    present (table [(0xFF, (1 : BitVec 8))]) = [(0xFF, 1)] ∧
    present (table [(0x00, (255 : BitVec 8))]) = [(0x00, 255)] ∧
    (2 ≤ (present (table [(0x61, (1 : BitVec 8)), (0x62, 1), (0x63, 255)])).length ∧
      2 ^ 255 < kraft255 (table [(0x61, (1 : BitVec 8)), (0x62, 1), (0x63, 255)])) ∧
    (2 ≤ (present (table [(0x61, (1 : BitVec 8)), (0x62, 2)])).length ∧
      kraft255 (table [(0x61, (1 : BitVec 8)), (0x62, 2)]) < 2 ^ 255) ∧
    (2 ≤ (present lenAb).length ∧ kraft255 lenAb = 2 ^ 255) := by decide +kernel

theorem lenAbra_coded : Coded lenAbra (canonTable lenAbra) :=
  ⟨by decide +kernel, fun _ _ => rfl⟩

theorem witness_EncSymWritesTheCode : ∃ s : State, entry s.len 0x65 = 0 ∧ entry s.len 0x61 ≠ 0 ∧
    s.skAcc.toNat < 2 ^ s.skN.val ∧ s.chan.outClosed = false ∧
    s.chan.okFor ((s.skN.val + (entry s.len 0x61).toNat) / 8) :=
  ⟨coded lenAbra (feed [] []), by decide +kernel, by decide +kernel, by decide, rfl, feed_okFor [] _⟩

theorem witness_EncPassWritesThePayload : ∃ s : State, Coded s.len s.code ∧
    (∀ x ∈ s.chan.rest, entry s.len x ≠ 0) ∧ s.skAcc.toNat < 2 ^ s.skN.val ∧
    s.chan.outClosed = false ∧ (∀ d ∈ s.chan.draws, d = .ok) ∧ s.chan.rest.length = s.origLen.toNat :=
  ⟨{ coded lenAbra (feed [0x61, 0x72] []) with origLen := 2 }, lenAbra_coded, by decide +kernel,
    by decide, rfl, feed_draws _, rfl⟩

theorem witness_EncPassDetectsAbsentByteOrOtherCount : ∃ s u : State,
    (Coded s.len s.code ∧ (∀ x ∈ [0x61], entry s.len x ≠ 0) ∧ s.chan.outClosed = false ∧
      s.skAcc.toNat < 2 ^ s.skN.val ∧ (∀ d ∈ s.chan.draws, d = .ok) ∧
      s.chan.rest = [0x61] ++ 0x65 :: [0x61] ∧ entry s.len 0x65 = 0) ∧
    (Coded u.len u.code ∧ (∀ x ∈ u.chan.rest, entry u.len x ≠ 0) ∧ u.chan.outClosed = false ∧
      u.skAcc.toNat < 2 ^ u.skN.val ∧ (∀ d ∈ u.chan.draws, d = .ok) ∧
      u.chan.rest = [0x61] ∧ [(0x61 : Byte)].length ≠ u.origLen.toNat) :=
  ⟨coded lenAbra (feed [0x61, 0x65, 0x61] []),
    { coded lenAbra (feed [0x61] []) with origLen := 2 },
    ⟨lenAbra_coded, by decide +kernel, rfl, by decide, feed_draws _, rfl, by decide +kernel⟩,
    ⟨lenAbra_coded, by decide +kernel, rfl, by decide, feed_draws _, rfl, by decide⟩⟩

/-- PACK's premises: three bytes, and none. -/
theorem witness_PackCompletes : ∃ s u : State,
    (s.accepts = true ∧ s.chan.Bound ∧ s.chan.input = [0x61, 0x62, 0x61] ∧
      s.chan.input.length < 2 ^ 64) ∧ (u.accepts = true ∧ u.chan.Bound ∧ u.chan.input = []) :=
  ⟨feed [0x61, 0x62, 0x61] [], feed [] [], ⟨by decide, feed_bound _, rfl, by decide⟩, by decide,
    feed_bound _, rfl⟩

theorem witness_PackOfDegenerateInputs : ∃ s u : State,
    (s.accepts = true ∧ s.chan.Bound ∧ s.chan.input = []) ∧
    (u.accepts = true ∧ u.chan.Bound ∧ 0 < 9 ∧ 9 < 2 ^ 64 ∧ u.chan.input = List.replicate 9 0x61) :=
  ⟨feed [] [], feed (List.replicate 9 0x61) [], ⟨by decide, feed_bound _, rfl⟩, by decide,
    feed_bound _, by decide, by decide, rfl⟩

theorem okFor_replicate (n : Nat) (c : Channels) {ds : List Draw}
    (h : c.draws = List.replicate n .ok ++ ds) : c.okFor n := by
  intro d hd
  rw [h, List.take_left' (by simp)] at hd
  exact (List.mem_replicate.mp hd).2

theorem witness_PackEndsInDoneOrIoFailure : ∃ s u : State,
    (s.accepts = true ∧ s.chan.outClosed = false ∧ s.chan.draws = [.ok, .fail true, .never]) ∧
    (u.accepts = true ∧ u.chan.outClosed = false ∧ u.chan.okFor (u.chan.rest.length + 1 + 269) ∧
      u.chan.draws[u.chan.rest.length + 1 + 269]? = some (.fail false)) :=
  ⟨feed [0x61] [.ok, .fail true, .never], feed [0x61] (List.replicate 271 .ok ++ [.fail false]),
    ⟨by decide, rfl, rfl⟩, by decide +kernel, rfl,
    okFor_replicate 271 _ rfl, by decide +kernel⟩

theorem witness_PackIsDeterministic : ∃ s s' : State, s.accepts = true ∧ s'.accepts = true ∧
    s.chan.Bound ∧ s'.chan.Bound ∧ s.id = s'.id ∧ s.chan.input = s'.chan.input ∧
    s.chan.input.length < 2 ^ 64 ∧ s.phase ≠ s'.phase :=
  ⟨feed [0x61, 0x62] [], { feed [0x61, 0x62] [] with phase := .error }, by decide, by decide,
    feed_bound _, feed_bound _, rfl, rfl, by decide, by decide⟩

theorem witness_CommandsAreIgnoredWhileBusy : ∃ s u : State, s.busy = true ∧ u.hung = true :=
  ⟨{ State.reset with phase := .pCount }, { State.reset with hung := true }, by decide, rfl⟩

/-- "abracadabra": `4e` starts with the one bit of a; `c` is 101, the first bits of `a0`; and the bit 1
of a one-symbol table. -/
theorem witness_DecSymDecodesOneSymbol : ∃ s u : State,
    (Coded s.len s.code ∧ s.chan.outClosed = false ∧ entry s.len 0x63 ≠ 0 ∧
      s.bitStream = symbolBits s.len 0x63 ++ List.replicate 5 false ∧
      s.chan.okFor (s.fetches (entry s.len 0x63).toNat + 1)) ∧
    (Coded u.len u.code ∧ u.chan.outClosed = false ∧ present u.len = [(0x61, 1)] ∧
      u.bitStream = true :: List.replicate 7 false ∧ u.chan.okFor (u.fetches 1)) :=
  ⟨coded lenAbra (feed [0xa0] []), coded (table [(0x61, 1)]) (feed [0x80] []),
    ⟨lenAbra_coded, rfl, by decide +kernel, by decide +kernel, feed_okFor [0xa0] _⟩,
    ⟨by decide +kernel, fun _ _ => rfl⟩, rfl, by decide +kernel, by decide +kernel,
    feed_okFor [0x80] _⟩

/-- Two of the three bits of c are left. -/
theorem witness_DecSymReportsTruncation : ∃ s : State, Coded s.len s.code ∧ entry s.len 0x63 ≠ 0 ∧
    s.bitStream <+: symbolBits s.len 0x63 ∧ s.bitStream ≠ symbolBits s.len 0x63 ∧
    s.chan.okFor (s.chan.rest.length + 1) :=
  ⟨{ coded lenAbra (feed [] []) with srAcc := 2, srN := 2 }, lenAbra_coded, by decide +kernel,
    ⟨[true], by decide +kernel⟩, by decide +kernel, feed_okFor [] _⟩

theorem witness_CompleteTablesDecodeAnyBits : ∃ s t : State, Coded s.len s.code ∧
    2 ≤ (present s.len).length ∧ kraft255 s.len = 2 ^ 255 ∧ s.err ≠ .formatError ∧
    exec .decSym s = .next t := by
  have h : nextIs (exec .decSym (coded lenAbra (feed [0xff] []))) (fun t => t.srN == 5) = true := by
    decide +kernel
  obtain ⟨t, ht, -⟩ := nextIs_exists h
  exact ⟨_, t, lenAbra_coded, by decide +kernel, by decide +kernel, by decide, ht⟩

/-- The payload `4e` up to the bits 110 of d: a, b, r, a. -/
theorem witness_DecLoopDecodesThePayload : ∃ s : State, Coded s.len s.code ∧
    (∀ x ∈ [0x61, 0x62, 0x72, 0x61], entry s.len x ≠ 0) ∧
    s.bitStream = payloadBits s.len [0x61, 0x62, 0x72, 0x61] ++ [] ∧ s.origLen.toNat = 4 ∧
    s.chan.outClosed = false ∧ (∀ d ∈ s.chan.draws, d = .ok) :=
  ⟨{ coded lenAbra (feed [0x4e] []) with origLen := 4 }, lenAbra_coded, by decide +kernel,
    by decide +kernel, rfl, rfl, feed_draws _⟩

/-- A container of "ab" with a byte after it; and one of nothing. -/
theorem witness_UnpackCompletes : ∃ s u : State,
    (s.accepts = true ∧ s.chan.Bound ∧ acceptedTable lenAb 2 ∧
      (∀ x ∈ [0x61, 0x62], entry lenAb x ≠ 0) ∧
      s.chan.input = headerBytes s.id 2 lenAb ++ payloadBytes lenAb [0x61, 0x62] ++ [0xde]) ∧
    (u.accepts = true ∧ u.chan.Bound ∧ acceptedTable (table []) 0 ∧
      u.chan.input = headerBytes u.id 0 (table []) ++ payloadBytes (table []) [] ++ []) :=
  ⟨feed (headerBytes State.reset.id 2 lenAb ++ payloadBytes lenAb [0x61, 0x62] ++ [0xde]) [],
    feed (headerBytes State.reset.id 0 (table []) ++ payloadBytes (table []) [] ++ []) [],
    ⟨by decide, feed_bound _, .inr (.inr (by decide +kernel)), by decide +kernel, rfl⟩,
    by decide, feed_bound _, .inl ⟨by decide +kernel, rfl⟩, rfl⟩

theorem witness_UnpackEndsInDoneOrError : ∃ s : State, s.accepts = true ∧ s.chan.outClosed = false ∧
    s.chan.draws = [.ok, .never] :=
  ⟨feed [0x48, 0x55] [.ok, .never], by decide, rfl, rfl⟩

theorem witness_UnpackOfPackIsTheInput (F : List Byte) : ∃ s u : State, s.accepts = true ∧
    s.chan.Bound ∧ s.chan.input = [0x61, 0x62] ∧ s.chan.input.length < 2 ^ 64 ∧ s.chan.out = [] ∧
    u.accepts = true ∧ u.chan.Bound ∧ u.id = s.id ∧ u.chan.input = F ++ [0xde] :=
  ⟨feed [0x61, 0x62] [], feed (F ++ [0xde]) [], rfl, feed_bound _, rfl, by decide, rfl, rfl,
    feed_bound _, rfl, rfl⟩

theorem witness_SequencerRunsTheCommand : ∃ s t : State, s.accepts = true ∧ s.issue = [] ∧
    s.host = [.writeRegister 0 0x02] ∧ exec .unpack { s with host := [] } = .next t ∧
    t.hung = false := by
  have h : nextIs (exec .unpack (feed [0x48] [])) (fun t => t.hung == false) = true := by decide +kernel
  obtain ⟨t, ht, hp⟩ := nextIs_exists h
  exact ⟨{ feed [0x48] [] with host := [.writeRegister 0 0x02] }, t, by decide, rfl, rfl, ht, by
    simpa using hp⟩

/-- A failed OutWrite, the second of a WRBITS, and the InRewind and the OutClose of PACK of the empty
input, its transactions 271 and, after an InRead, 273. -/
theorem witness_AFailedTransactionStopsTheOperation :
    (∃ (s t₀ : State) (T : List Transaction),
      exec (.wrbits 0xABCD 16) { s with chan := { s.chan with draws := [] } } = .next t₀ ∧
      t₀.chan.trace = T.reverse ++ s.chan.trace ∧ T[1]? = some (.outWrite 0xCD .ok) ∧
      s.chan.okFor 1 ∧ s.chan.draws[1]? = some (.fail true)) ∧
    ∃ t₀ : State, exec .pack (feed [] []) = .next t₀ ∧
      t₀.chan.trace.reverse[270]? = some (.inRewind .ok) ∧
      t₀.chan.trace.reverse[272]? = some (.outClose .ok) := by
  have h : nextIs (exec (.wrbits 0xABCD 16) (feed [] [])) (fun t =>
      t.chan.trace == [.outWrite 0xCD .ok, .outWrite 0xAB .ok]) = true := by decide +kernel
  have h' : nextIs (exec .pack (feed [] [])) (fun t =>
      t.chan.trace.reverse[270]? == some (.inRewind .ok) &&
      t.chan.trace.reverse[272]? == some (.outClose .ok)) = true := by decide +kernel
  obtain ⟨t, ht, hp⟩ := nextIs_exists h
  obtain ⟨u, hu, hq⟩ := nextIs_exists h'
  simp only [Bool.and_eq_true, beq_iff_eq] at hp hq
  exact ⟨⟨feed [] [.ok, .fail true], t, [.outWrite 0xAB .ok, .outWrite 0xCD .ok], ht, hp, rfl,
    by simp [Channels.okFor, feed], rfl⟩, u, hu, hq⟩

end Sys2Proof.Tests
end

namespace Sys2Proof.Machine

/-! ### The invariant and the updates of the state

A state is compared with another through the fields the invariant reads, so an update of any other
field keeps it by unfolding alone. -/

/-- The invariant at a state of PHASE `p`: what an operation that runs in `p` starts from, and what
it leaves where it runs to its end. -/
def State.InvIn (p : Phase) (s : State) : Prop :=
  s.Inv ∧ s.phase = p

/-- The states a sequencer stops in: an error was raised (R270), or a transaction is never answered
(R315). -/
def State.Halted (s : State) : Prop :=
  s.Inv ∧ (s.phase = .error ∨ s.hung = true)

theorem Cause.kind_ne_none (c : Cause) : c.kind ≠ .none := by
  cases c <;> decide

/-- With no node allocated there is nothing the arena has to meet. -/
theorem State.arenaOk_of_empty {s : State} (hq : s.pq = []) (hr : s.root = none)
    (hn : s.nnodes = 0) : s.arenaOk := by
  refine ⟨by simp [hq], by simp [hq], by simp [hr], ?_⟩
  intro i a b w hi
  simp [hn] at hi

theorem State.Inv.raise {s : State} (h : s.Inv) (c : Cause) : (s.raise c).Halted := by
  obtain ⟨-, -, hw, hi, ha⟩ := h
  have he : (s.raise c).errOk := ⟨iff_of_true c.kind_ne_none rfl, fun e => absurd e c.kind_ne_none⟩
  exact ⟨⟨he, .inl rfl, hw, hi, ha⟩, .inl rfl⟩

theorem State.Inv.hang {s : State} (h : s.Inv) : s.hang.Halted := by
  obtain ⟨he, -, hw, hi, ha⟩ := h
  exact ⟨⟨he, .inr (.inl rfl), hw, hi, ha⟩, .inr rfl⟩

theorem State.Inv.inPos_le {s : State} (h : s.Inv) : s.chan.inPos ≤ s.chan.input.length := by
  obtain ⟨-, -, -, hi, -⟩ := h
  exact hi

theorem State.Inv.withIssue {s : State} (h : s.Inv) (bytes : List Byte) :
    State.Inv { s with issue := bytes } := h

theorem State.Inv.withHost {s : State} (h : s.Inv) (actions : List HostAction) :
    State.Inv { s with host := actions } := h

theorem State.Inv.withChan {s : State} (h : s.Inv) {c : Channels} (hc : c.inPos ≤ c.input.length) :
    State.Inv { s with chan := c } := by
  obtain ⟨he, hs, hw, -, ha⟩ := h
  exact ⟨he, hs, hw, hc, ha⟩

theorem State.Inv.withSink {s : State} (h : s.Inv) {acc : BitVec 8} {n : Fin 8}
    (hacc : acc.toNat < 2 ^ n.val) : State.Inv { s with skAcc := acc, skN := n } := by
  obtain ⟨he, -, hw, hi, ha⟩ := h
  exact ⟨he, .inr (.inr hacc), hw, hi, ha⟩

/-- R272: in a stopped sequencer the sink holds anything. -/
theorem State.Halted.withSink {s : State} (h : s.Halted) (acc : BitVec 8) (n : Fin 8) (f : Nat) :
    State.Halted { s with skAcc := acc, skN := n, free := f } := by
  obtain ⟨⟨he, -, hw, hi, ha⟩, hstop⟩ := h
  refine ⟨⟨he, ?_, hw, hi, ha⟩, hstop⟩
  exact hstop.imp_right .inl

theorem State.InvIn.sinkInit {p : Phase} {s : State} (h : s.InvIn p) : s.sinkInit.InvIn p :=
  ⟨h.1.withSink (by decide), h.2⟩

theorem State.InvIn.atRoot {p : Phase} {s : State} (h : s.InvIn p) : s.atRoot.InvIn p := by
  obtain ⟨⟨he, hs, -, hi, ha⟩, hp⟩ := h
  exact ⟨⟨he, hs, by simp [State.walkerOk], hi, ha⟩, hp⟩

/-- R31: outside ERROR no error is recorded, so every phase but ERROR may be entered. -/
theorem State.InvIn.enter {p q : Phase} {s : State} (h : s.InvIn p) (hp : p ≠ .error)
    (hq : q ≠ .error) : (s.enter q).InvIn q := by
  obtain ⟨⟨⟨herr, hinfo⟩, hs, hw, hi, ha⟩, rfl⟩ := h
  have hnone : s.err = .none := not_not.mp fun e => hp (herr.mp e)
  have he : (s.enter q).errOk := ⟨iff_of_false (not_not.mpr hnone) hq, hinfo⟩
  exact ⟨⟨he, .inr (hs.resolve_left hp), hw, hi, ha⟩, rfl⟩

theorem State.Inv.startCommand {s : State} (h : s.Inv) {first : Phase} (hf : first ≠ .error) :
    (s.startCommand first).InvIn first := by
  obtain ⟨-, -, -, hi, -⟩ := h
  have he : (s.startCommand first).errOk := ⟨iff_of_false (fun e => e rfl) hf, fun _ => rfl⟩
  exact ⟨⟨he, .inr (.inr (Nat.two_pow_pos _)), by simp [State.walkerOk], hi,
    State.arenaOk_of_empty rfl rfl rfl⟩, rfl⟩

theorem State.Inv.powerOn {s : State} (h : s.Inv) : s.powerOn.Inv := by
  obtain ⟨-, -, -, hi, -⟩ := h
  have he : s.powerOn.errOk := ⟨iff_of_false (fun e => e rfl) (by simp), fun _ => rfl⟩
  exact ⟨he, .inr (.inr (Nat.two_pow_pos _)), by simp [State.walkerOk], hi,
    State.arenaOk_of_empty rfl rfl rfl⟩

/-! ### What an operation keeps -/

/-- Where the operation runs to its end it leaves a state with `P`, and where the sequencer stops
inside it, it stops in a `Halted` state. -/
def Res.Keeps {α : Type} (P : State → Prop) : Res α → Prop
  | .ok _ t => P t
  | .stop t => t.Halted
  | .fault _ => True
  | .refuse _ => True

theorem Res.Keeps.bind {α β : Type} {P Q : State → Prop} {x : Res α} {f : α → State → Res β}
    (hx : x.Keeps P) (hf : ∀ a s, P s → (f a s).Keeps Q) : (x.bind f).Keeps Q := by
  cases x with
  | ok a s => exact hf a s hx
  | stop s => exact hx
  | fault e => trivial
  | refuse r => trivial

/-- One turn of a loop: it goes on by `f`, or it ends by `g`. -/
theorem Res.Keeps.bindIf {β : Type} {P Q : State → Prop} {x : Res Bool} {f g : State → Res β}
    (hx : x.Keeps P) (hf : ∀ s, P s → (f s).Keeps Q) (hg : ∀ s, P s → (g s).Keeps Q) :
    (x.bind fun more s => if more then f s else g s).Keeps Q := by
  refine hx.bind fun more s hs => ?_
  cases more with
  | true => exact hf s hs
  | false => exact hg s hs

theorem Res.Keeps.mono {α : Type} {P Q : State → Prop} {x : Res α} (hx : x.Keeps P)
    (hPQ : ∀ s, P s → Q s) : x.Keeps Q := by
  cases x with
  | ok a s => exact hPQ s hx
  | stop s => exact hx
  | fault e => trivial
  | refuse r => trivial

/-- The next state of a step, where there is one, has the invariant. -/
def NextInv (o : Host.Outcome State Fault Refusal) : Prop :=
  ∀ t, o = .next t → t.Inv

theorem nextInv_next {s : State} (h : s.Inv) : NextInv (.next s) := by
  rintro t ⟨⟩
  exact h

theorem nextInv_refused (r : Refusal) : NextInv (.refused r) := by
  rintro t ⟨⟩

theorem Res.Keeps.nextInv {α : Type} {x : Res α} (hx : x.Keeps State.Inv) : NextInv x.outcome := by
  intro t ht
  rcases Res.outcome_next.mp ht with ⟨a, rfl⟩ | rfl
  · exact hx
  · exact hx.1

/-- An operation that keeps the invariant and PHASE, run as one step. -/
theorem Res.Keeps.nextInvIn {α : Type} {p : Phase} {x : Res α} (hx : x.Keeps (State.InvIn p)) :
    NextInv x.outcome :=
  (hx.mono fun _ h => h.1).nextInv

/-! ### The transactions -/

/-- The invariant at a state of PHASE `p` with `n` bits of a code taken (R26). -/
def State.Walking (p : Phase) (n : Nat) (s : State) : Prop :=
  s.InvIn p ∧ s.pfxLen.val = n

theorem afterAck_keeps {p : Phase} {s : State} (h : s.InvIn p) (c : Cause) {r : Ack × Channels}
    (hr : r.2.inPos ≤ r.2.input.length) : (afterAck c s r).Keeps (State.InvIn p) := by
  have hi := h.1.withChan hr
  obtain ⟨ack, chan⟩ := r
  cases ack with
  | ok => exact ⟨hi, h.2⟩
  | fail => exact hi.raise c
  | never => exact hi.hang

/-- R61: InRead leaves all but the channels; IN_POS advances only past a byte there is. -/
theorem inRead_walking {p : Phase} {n : Nat} {s : State} (h : s.Walking p n) :
    (inRead s).Keeps (State.Walking p n) := by
  obtain ⟨⟨hinv, hp⟩, hn⟩ := h
  have hpos := hinv.inPos_le
  rcases inRead_cases s with ⟨b, bs, hr, e⟩ | ⟨-, e⟩ | e | e
  · have hlt : s.chan.inPos < s.chan.input.length := by
      have := congrArg List.length hr
      simp only [Channels.rest, List.length_drop, List.length_cons] at this
      omega
    rw [e]
    exact ⟨⟨hinv.withChan hlt, hp⟩, hn⟩
  · rw [e]
    exact ⟨⟨hinv.withChan hpos, hp⟩, hn⟩
  · rw [e]
    exact (hinv.withChan hpos).raise _
  · rw [e]
    exact (hinv.withChan hpos).hang

theorem inRead_keeps {p : Phase} {s : State} (h : s.InvIn p) : (inRead s).Keeps (State.InvIn p) :=
  (inRead_walking ⟨h, rfl⟩).mono fun _ ht => ht.1

theorem inRewind_keeps {p : Phase} {s : State} (h : s.InvIn p) :
    (inRewind s).Keeps (State.InvIn p) := by
  have hpos := h.1.inPos_le
  refine afterAck_keeps h _ ?_
  unfold Channels.rewind
  cases s.chan.draw with
  | ok => exact Nat.zero_le _
  | fail landed => exact hpos
  | never => exact hpos

theorem outWrite_keeps {p : Phase} {s : State} (h : s.InvIn p) (b : Byte) :
    (outWrite b s).Keeps (State.InvIn p) := by
  have hpos := h.1.inPos_le
  unfold outWrite
  split
  · trivial
  · refine afterAck_keeps h _ ?_
    unfold Channels.outWrite
    cases s.chan.draw with
    | ok => exact hpos
    | fail landed => exact hpos
    | never => exact hpos

theorem outClose_keeps {p : Phase} {s : State} (h : s.InvIn p) :
    (outClose s).Keeps (State.InvIn p) := by
  have hpos := h.1.inPos_le
  unfold outClose
  split
  · trivial
  · refine afterAck_keeps h _ ?_
    unfold Channels.outClose
    cases s.chan.draw with
    | ok => exact hpos
    | fail landed => exact hpos
    | never => exact hpos

/-! ### BitSink and BitSource -/

/-- R132: one more bit pending; the bits above it stay zero (R21). -/
theorem pushAcc_lt {acc : BitVec 8} {n : Nat} (b : Bool) (h : acc.toNat < 2 ^ n) :
    (pushAcc acc b).toNat < 2 ^ (n + 1) := by
  have hb : b.toNat ≤ 1 := b.toNat_le
  rw [pushAcc_toNat, pow_succ]
  exact (Nat.mod_le _ _).trans_lt (by omega)

theorem pushBit_keeps {p : Phase} {s : State} (h : s.InvIn p) (b : Bool) :
    (pushBit b s).Keeps (State.InvIn p) := by
  unfold pushBit
  dsimp only
  split
  · obtain ⟨⟨he, hs, hw, hi, ha⟩, hp⟩ := h
    exact ⟨⟨he, hs.imp_right (.imp_right (pushAcc_lt b)), hw, hi, ha⟩, hp⟩
  · have hk := outWrite_keeps h (pushAcc s.skAcc b)
    generalize outWrite (pushAcc s.skAcc b) s = x at hk ⊢
    cases x with
    | ok a t => exact hk.sinkInit
    | stop t => exact hk.withSink _ _ _
    | fault e => trivial
    | refuse r => trivial

theorem pushBits_keeps {p : Phase} (bits : List Bool) {s : State} (h : s.InvIn p) :
    (pushBits bits s).Keeps (State.InvIn p) := by
  induction bits generalizing s with
  | nil => exact h
  | cons b bits ih => exact (pushBit_keeps h b).bind fun _ _ ht => ih ht

theorem writeBits_keeps {p : Phase} {s : State} (h : s.InvIn p) (v L : Nat) :
    (writeBits v L s).Keeps (State.InvIn p) :=
  pushBits_keeps _ h

theorem flushSink_keeps {p : Phase} {s : State} (h : s.InvIn p) :
    (flushSink s).Keeps (State.InvIn p) := by
  unfold flushSink
  split
  · exact h
  · exact (outWrite_keeps h _).bind fun _ _ ht => ht.sinkInit

theorem readBit_walking {p : Phase} {n : Nat} {s : State} (h : s.Walking p n) :
    (readBit s).Keeps (State.Walking p n) := by
  unfold readBit
  split
  · refine (inRead_walking h).bind fun r t ht => ?_
    cases r with
    | none => exact ht
    | some b => exact ht
  · exact h

theorem readBit_keeps {p : Phase} {s : State} (h : s.InvIn p) :
    (readBit s).Keeps (State.InvIn p) :=
  (readBit_walking ⟨h, rfl⟩).mono fun _ ht => ht.1

theorem readBitsFrom_keeps {p : Phase} (r n : Nat) {s : State} (h : s.InvIn p) :
    (readBitsFrom r n s).Keeps (State.InvIn p) := by
  induction n generalizing r s with
  | zero => exact h
  | succ n ih =>
    refine (readBit_keeps h).bind fun b t ht => ?_
    cases b with
    | none => exact ht
    | some b => exact ih _ ht

/-! ### FrequencyTable -/

theorem scanTurn_keeps {p : Phase} {s : State} (h : s.InvIn p) :
    (scanTurn s).Keeps (State.InvIn p) := by
  refine (inRead_keeps h).bind fun r t ht => ?_
  cases r with
  | none => exact ht
  | some b => exact ht

theorem scanLoop_keeps {p : Phase} (turns : Nat) {s : State} (h : s.InvIn p) :
    (scanLoop turns s).Keeps (State.InvIn p) := by
  induction turns generalizing s with
  | zero => exact h
  | succ turns ih => exact (scanTurn_keeps h).bindIf (fun _ ht => ih ht) fun _ ht => ht

theorem scanInput_keeps {p : Phase} {s : State} (h : s.InvIn p) :
    (scanInput s).Keeps (State.InvIn p) :=
  scanLoop_keeps _ h

/-! ### TreeBuilder -/

/-- R161: TB_SEED makes an arena of leaves, all of them members of PQ. -/
theorem seedTree_invIn {p : Phase} {s : State} (h : s.InvIn p) : (seedTree s).InvIn p := by
  obtain ⟨⟨he, hs, hw, hi, -⟩, hp⟩ := h
  have hf := seedTree_forest s
  have hroot : ∀ r, (seedTree s).root = some r → r.val < (seedTree s).nnodes.val := by
    rintro r ⟨⟩
  exact ⟨⟨he, hs, hw, hi, hf.sorted, hf.bound, hroot, hf.child⟩, hp⟩

/-- R165: the new node stands after every allocated one, its children among them. -/
theorem mergeInto_keeps {p : Phase} {s : State} (h : s.InvIn p) {a b : NodeIx}
    {rest : List NodeIx} (ha : a ∈ s.pq) (hb : b ∈ s.pq) (hrest : rest.Sublist s.pq) :
    (mergeInto a b rest s).Keeps (State.InvIn p) := by
  obtain ⟨⟨he, hs, hw, hi, hsort, hbound, hroot, hchild⟩, hp⟩ := h
  unfold mergeInto
  split
  case isFalse => trivial
  case isTrue hn =>
    refine ⟨⟨he, hs, hw, hi, ?_, ?_, ?_, ?_⟩, hp⟩
    · refine List.pairwise_append.mpr ⟨hsort.sublist hrest, List.pairwise_singleton _ _, ?_⟩
      intro x hx y hy
      obtain rfl := List.mem_singleton.mp hy
      exact hbound x (hrest.subset hx)
    · intro x hx
      rcases List.mem_append.mp hx with hx | hx
      · exact Nat.lt_succ_of_lt (hbound x (hrest.subset hx))
      · obtain rfl := List.mem_singleton.mp hx
        exact Nat.lt_succ_self _
    · intro r hr
      exact Nat.lt_succ_of_lt (hroot r hr)
    · intro i c d w hilt hnode
      dsimp only at hilt hnode
      rw [nodeAt_set (i := ⟨s.nnodes.val, hn⟩)] at hnode
      split at hnode
      case isTrue hnew =>
        cases hnode
        subst hnew
        exact ⟨hbound a ha, hbound b hb⟩
      case isFalse hold =>
        have : i.val ≠ s.nnodes.val := fun e => hold (Fin.ext e.symm)
        exact hchild i c d w (by omega) hnode

/-- R164: what `extract_min` gives is a member, and the others are left. -/
theorem extractMin_some {nodes : Vector Node 511} {pq rest : List NodeIx} {m : NodeIx}
    (h : extractMin nodes pq = some (m, rest)) : m ∈ pq ∧ rest.Sublist pq := by
  have hne : pq ≠ [] := by
    rintro rfl
    cases h
  obtain ⟨m', e, hm, -⟩ := extractMin_spec (nodes := nodes) hne
  cases e.symm.trans h
  exact ⟨hm, List.erase_sublist⟩

theorem mergeLowest_keeps {p : Phase} {s : State} (h : s.InvIn p) :
    (mergeLowest s).Keeps (State.InvIn p) := by
  unfold mergeLowest
  split
  · trivial
  · rename_i a rest hfirst
    split
    · trivial
    · rename_i b rest' hsecond
      obtain ⟨ha, hsub⟩ := extractMin_some hfirst
      obtain ⟨hb, hsub'⟩ := extractMin_some hsecond
      exact mergeInto_keeps h ha (hsub.subset hb) (hsub'.trans hsub)

theorem mergeLoop_keeps {p : Phase} (turns : Nat) {s : State} (h : s.InvIn p) :
    (mergeLoop turns s).Keeps (State.InvIn p) := by
  induction turns generalizing s with
  | zero => exact h
  | succ turns ih =>
    unfold mergeLoop
    split
    · exact (mergeLowest_keeps h).bind fun _ _ ht => ih ht
    · exact h

/-- R166: ROOT is a member of PQ, or NONE. -/
theorem takeRoot_invIn {p : Phase} {s : State} (h : s.InvIn p) : (takeRoot s).InvIn p := by
  obtain ⟨⟨he, hs, hw, hi, hsort, hbound, -, hchild⟩, hp⟩ := h
  refine ⟨⟨he, hs, hw, hi, hsort, hbound, ?_, hchild⟩, hp⟩
  intro r hr
  simp only [takeRoot] at hr
  split at hr
  · rename_i r' hpq
    cases hr
    exact hbound r (by rw [hpq]; exact List.mem_singleton_self r)
  · cases hr

theorem buildTree_keeps {p : Phase} {s : State} (h : s.InvIn p) :
    (buildTree s).Keeps (State.InvIn p) :=
  (mergeLoop_keeps _ (seedTree_invIn h)).bind fun _ _ ht => takeRoot_invIn ht

/-! ### CodeTable -/

theorem walkTree_keeps {p : Phase} {s : State} (h : s.InvIn p) :
    (walkTree s).Keeps (State.InvIn p) := by
  unfold walkTree
  split
  · exact h
  · split
    · exact h
    · split
      · trivial
      · exact h

theorem assignCodes_invIn {p : Phase} {s : State} (h : s.InvIn p) : (assignCodes s).InvIn p := by
  unfold assignCodes
  split
  · exact h
  · exact h

/-! ### FormatCodec -/

theorem writeFields_keeps {p : Phase} (fields : List (Nat × Nat)) {s : State} (h : s.InvIn p) :
    (writeFields fields s).Keeps (State.InvIn p) := by
  induction fields generalizing s with
  | nil => exact h
  | cons f fields ih => exact (writeBits_keeps h f.1 f.2).bind fun _ _ ht => ih ht

theorem writeHeader_keeps {p : Phase} {s : State} (h : s.InvIn p) :
    (writeHeader s).Keeps (State.InvIn p) :=
  writeFields_keeps _ h

theorem readField_keeps {p : Phase} (n : Nat) {s : State} (h : s.InvIn p) :
    (readField n s).Keeps (State.InvIn p) := by
  refine (readBitsFrom_keeps 0 n h).bind fun r t ht => ?_
  cases r with
  | none => exact ht.1.raise _
  | some v => exact ht

theorem readMagic_keeps {p : Phase} {s : State} (h : s.InvIn p) :
    (readMagic s).Keeps (State.InvIn p) := by
  refine (readField_keeps 32 h).bind fun m t ht => ?_
  split
  · exact ht
  · exact ht.1.raise _

theorem readVersion_keeps {p : Phase} {s : State} (h : s.InvIn p) :
    (readVersion s).Keeps (State.InvIn p) := by
  refine (readField_keeps 8 h).bind fun v t ht => ?_
  split
  · exact ht
  · exact ht.1.raise _

theorem readOrigLen_keeps {p : Phase} {s : State} (h : s.InvIn p) :
    (readOrigLen s).Keeps (State.InvIn p) :=
  (readField_keeps 64 h).bind fun _ _ ht => ht

theorem readLens_keeps {p : Phase} (bs : List Byte) {s : State} (h : s.InvIn p) :
    (readLens bs s).Keeps (State.InvIn p) := by
  induction bs generalizing s with
  | nil => exact h
  | cons b bs ih => exact (readField_keeps 8 h).bind fun _ _ ht => ih ht

theorem readHeader_keeps {p : Phase} {s : State} (h : s.InvIn p) :
    (readHeader s).Keeps (State.InvIn p) :=
  (readMagic_keeps h).bind fun _ _ h₁ => (readVersion_keeps h₁).bind fun _ _ h₂ =>
    (readOrigLen_keeps h₂).bind fun _ _ h₃ => readLens_keeps _ h₃

theorem checkTable_keeps {p : Phase} {s : State} (h : s.InvIn p) :
    (checkTable s).Keeps (State.InvIn p) := by
  unfold checkTable
  dsimp only
  split
  · exact State.Inv.raise h.1 _
  · exact h

/-! ### Packer -/

theorem encodeByte_keeps {p : Phase} {s : State} (h : s.InvIn p) (b : Byte) :
    (encodeByte b s).Keeps (State.InvIn p) := by
  unfold encodeByte
  split
  · exact h.1.raise _
  · exact writeBits_keeps h _ _

theorem encodeTurn_keeps {p : Phase} {s : State} (h : s.InvIn p) :
    (encodeTurn s).Keeps (State.InvIn p) := by
  refine (inRead_keeps h).bind fun r t ht => ?_
  cases r with
  | none => exact ht
  | some b => exact (encodeByte_keeps ht b).bind fun _ _ hu => hu

theorem encodeLoop_keeps {p : Phase} (turns : Nat) {s : State} (h : s.InvIn p) :
    (encodeLoop turns s).Keeps (State.InvIn p) := by
  induction turns generalizing s with
  | zero => exact h
  | succ turns ih => exact (encodeTurn_keeps h).bindIf (fun _ ht => ih ht) fun _ ht => ht

theorem passesAgree_keeps {p : Phase} {s : State} (h : s.InvIn p) :
    (passesAgree s).Keeps (State.InvIn p) := by
  unfold passesAgree
  split
  · exact h
  · exact h.1.raise _

theorem encodePass_keeps {p : Phase} {s : State} (h : s.InvIn p) :
    (encodePass s).Keeps (State.InvIn p) :=
  (encodeLoop_keeps (s := s.emittedClear) _ h).bind fun _ _ ht => passesAgree_keeps ht

theorem buildCodes_keeps {p : Phase} {s : State} (h : s.InvIn p) :
    (buildCodes s).Keeps (State.InvIn p) :=
  (buildTree_keeps h).bind fun _ _ h₁ => (walkTree_keeps h₁).bind fun _ _ h₂ => assignCodes_invIn h₂

theorem finishPack_keeps {p : Phase} {s : State} (h : s.InvIn p) :
    (finishPack s).Keeps (State.InvIn p) :=
  (flushSink_keeps h).bind fun _ _ ht => outClose_keeps ht

/-- R220: PACK goes from phase to phase, each part kept in its own. -/
theorem packSequence_keeps {s : State} (h : s.InvIn .pCount) :
    (packSequence s).Keeps (State.InvIn .done) :=
  (scanInput_keeps (h.enter (by decide) (by decide))).bind fun _ _ h =>
  (buildCodes_keeps (h.enter (by decide) (by decide))).bind fun _ _ h =>
  (writeHeader_keeps (h.enter (by decide) (by decide))).bind fun _ _ h =>
  (inRewind_keeps (h.enter (by decide) (by decide))).bind fun _ _ h =>
  (encodePass_keeps (h.enter (by decide) (by decide))).bind fun _ _ h =>
  (finishPack_keeps (h.enter (by decide) (by decide))).bind fun _ _ h =>
  h.enter (by decide) (by decide)

/-! ### Unpacker -/

/-- R242, R26: an edge taken at depth `n` gives a bit-code of `n + 1` bits. -/
theorem takeEdge_walking {p : Phase} {n : Nat} {s : State} (h : s.Walking p n) (hn : n < 255)
    (b : Bool) : (takeEdge b s).Walking p (n + 1) := by
  obtain ⟨⟨⟨he, hs, hw, hi, ha⟩, hp⟩, rfl⟩ := h
  have hlen := takeEdge_pfxLen b hn
  have hw' : s.pfx.toNat < 2 ^ s.pfxLen.val := hw
  have hpow : (2 : Nat) ^ s.pfxLen.val ≤ 2 ^ 254 := Nat.pow_le_pow_right (by omega) (by omega)
  have hedge : (takeEdge b s).walkerOk := by
    have hb : b.toNat ≤ 1 := b.toNat_le
    rw [State.walkerOk, hlen, takeEdge_pfx b (hw'.trans_le hpow), pow_succ]
    omega
  exact ⟨⟨⟨he, hs, hedge, hi, ha⟩, hp⟩, hlen⟩

theorem emitSymbol_keeps {p : Phase} {s : State} (h : s.InvIn p) (b : Byte) :
    (emitSymbol b s).Keeps (State.InvIn p) :=
  (outWrite_keeps h b).bind fun _ _ ht => ht.atRoot

/-- R242: the bound on the levels keeps PFXLEN within its 255 (R26). -/
theorem walkBits_keeps {p : Phase} (levels : Nat) {n : Nat} {s : State} (h : s.Walking p n)
    (hn : n + levels ≤ 255) : (walkBits levels s).Keeps (State.InvIn p) := by
  induction levels generalizing n s with
  | zero => exact h.1.1.raise _
  | succ levels ih =>
    refine (readBit_walking h).bind fun r t ht => ?_
    cases r with
    | none => exact ht.1.1.raise _
    | some b =>
      have hedge := takeEdge_walking ht (by omega) b
      dsimp only
      split
      · exact emitSymbol_keeps hedge.1 _
      · split
        · exact ih hedge (by omega)
        · exact hedge.1.1.raise _

theorem decodeSymbol_keeps {p : Phase} {s : State} (h : s.InvIn p) :
    (decodeSymbol s).Keeps (State.InvIn p) :=
  walkBits_keeps 255 (n := 0) ⟨h.atRoot, rfl⟩ (by omega)

theorem decodeTurn_keeps {p : Phase} {s : State} (h : s.InvIn p) :
    (decodeTurn s).Keeps (State.InvIn p) := by
  unfold decodeTurn
  split
  · exact (decodeSymbol_keeps h).bind fun _ _ ht => ht
  · exact h

theorem decodeLoopFrom_keeps {p : Phase} (turns : Nat) {s : State} (h : s.InvIn p) :
    (decodeLoopFrom turns s).Keeps (State.InvIn p) := by
  induction turns generalizing s with
  | zero => exact h
  | succ turns ih => exact (decodeTurn_keeps h).bindIf (fun _ ht => ih ht) fun _ ht => ht

theorem decodeAll_keeps {p : Phase} {s : State} (h : s.InvIn p) :
    (decodeAll s).Keeps (State.InvIn p) :=
  decodeLoopFrom_keeps (s := s.emittedClear) _ h

theorem rebuildCodes_keeps {p : Phase} {s : State} (h : s.InvIn p) :
    (rebuildCodes s).Keeps (State.InvIn p) :=
  (checkTable_keeps h).bind fun _ _ ht => assignCodes_invIn ht

/-- R240: UNPACK goes from phase to phase, each part kept in its own. -/
theorem unpackSequence_keeps {s : State} (h : s.InvIn .uHeader) :
    (unpackSequence s).Keeps (State.InvIn .done) :=
  (readHeader_keeps (h.enter (by decide) (by decide))).bind fun _ _ h =>
  (rebuildCodes_keeps (h.enter (by decide) (by decide))).bind fun _ _ h =>
  (decodeAll_keeps (h.enter (by decide) (by decide))).bind fun _ _ h =>
  (outClose_keeps (h.enter (by decide) (by decide))).bind fun _ _ h =>
  h.enter (by decide) (by decide)

/-! ### The three turns of a step -/

theorem execPack_nextInv {s : State} (h : s.Inv) : NextInv (execPack s) := by
  unfold execPack
  split
  · exact (packSequence_keeps (h.startCommand (by decide))).nextInvIn
  · exact nextInv_next h

theorem execUnpack_nextInv {s : State} (h : s.Inv) : NextInv (execUnpack s) := by
  unfold execUnpack
  split
  · exact (unpackSequence_keeps (h.startCommand (by decide))).nextInvIn
  · exact nextInv_next h

theorem execWrbits_nextInv {s : State} (h : s.Inv) (v L : Nat) : NextInv (execWrbits v L s) := by
  unfold execWrbits
  split
  · exact (writeBits_keeps ⟨h, rfl⟩ v L).nextInvIn
  · exact nextInv_refused _

theorem execRdbits_nextInv {s : State} (h : s.Inv) (n : Nat) : NextInv (execRdbits n s) := by
  unfold execRdbits
  split
  · exact Res.Keeps.nextInvIn (p := s.phase)
      ((readBitsFrom_keeps 0 n ⟨h, rfl⟩).bind fun _ _ ht => ht)
  · exact nextInv_refused _

theorem execRdbit_nextInv {s : State} (h : s.Inv) : NextInv (execRdbit s) :=
  Res.Keeps.nextInvIn (p := s.phase) ((readBit_keeps ⟨h, rfl⟩).bind fun _ _ ht => ht)

/-- Every operation keeps the invariant, in any PHASE it is issued in. -/
theorem exec_nextInv {s : State} (h : s.Inv) (i : Instr) : NextInv (exec i s) := by
  have hin : s.InvIn s.phase := ⟨h, rfl⟩
  cases i with
  | pack => exact execPack_nextInv h
  | unpack => exact execUnpack_nextInv h
  | skInit => exact nextInv_next hin.sinkInit.1
  | wrbits v L => exact execWrbits_nextInv h v L
  | flush => exact (flushSink_keeps hin).nextInvIn
  | srInit => exact nextInv_next h
  | rdbit => exact execRdbit_nextInv h
  | rdbits n => exact execRdbits_nextInv h n
  | fqClear => exact nextInv_next h
  | fqCount b => exact nextInv_next h
  | fqScan => exact (scanInput_keeps hin).nextInvIn
  | tbSeed => exact nextInv_next (seedTree_invIn hin).1
  | tbMerge => exact (mergeLowest_keeps hin).nextInvIn
  | tbBuild => exact (buildTree_keeps hin).nextInvIn
  | ctWalk => exact (walkTree_keeps hin).nextInvIn
  | ctCanon => exact nextInv_next (assignCodes_invIn hin).1
  | hdrWrite => exact (writeHeader_keeps hin).nextInvIn
  | hdrRead => exact (readHeader_keeps hin).nextInvIn
  | lenCheck => exact (checkTable_keeps hin).nextInvIn
  | encSym b => exact (encodeByte_keeps hin b).nextInvIn
  | encPass => exact (encodePass_keeps hin).nextInvIn
  | decSym => exact (decodeSymbol_keeps hin).nextInvIn
  | decLoop => exact (decodeAll_keeps hin).nextInvIn

theorem issueTurn_nextInv {s : State} (h : s.Inv) : NextInv (issueTurn s) := by
  unfold issueTurn
  split
  · exact exec_nextInv (h.withIssue _) _
  · exact nextInv_refused _

theorem writeCommand_inv {s : State} (h : s.Inv) (value : Byte) : (writeCommand value s).Inv := by
  unfold writeCommand
  split
  · split
    · exact (h.startCommand (by decide)).1
    · split
      · exact (h.startCommand (by decide)).1
      · exact h
  · exact h

theorem hostAccess_keeps {s : State} (h : s.Inv) (a : HostAction) :
    (hostAccess a s).Keeps State.Inv := by
  cases a with
  | wait => exact h
  | readRegister number => exact h
  | writeRegister number value =>
    show (writeRegister number value s).Inv
    unfold writeRegister
    split
    · exact writeCommand_inv h value
    · exact h
  | bindInput bytes rewound =>
    simp only [hostAccess]
    split
    · exact h.withChan (c := { s.chan with input := bytes, inPos := 0, inRewound := rewound })
        (Nat.zero_le _)
    · trivial
  | bindOutput =>
    simp only [hostAccess]
    split
    · exact h
    · trivial
  | reset => exact h.powerOn

/-- R31: the phase after one whose part keeps the invariant. -/
theorem thenEnter_keeps {p q : Phase} {x : Res Unit} (hx : x.Keeps (State.InvIn p))
    (hp : p ≠ .error) (hq : q ≠ .error) : (thenEnter q x).Keeps State.Inv :=
  hx.bind fun _ _ ht => (ht.enter hp hq).1

theorem thenLoop_keeps {p : Phase} {exit : State → Res Unit} {x : Res Bool}
    (hx : x.Keeps (State.InvIn p)) (hexit : ∀ s, s.InvIn p → (exit s).Keeps State.Inv) :
    (thenLoop exit x).Keeps State.Inv :=
  hx.bindIf (fun _ ht => ht.1) hexit

theorem buildStep_keeps {s : State} (h : s.InvIn .pBuild) : (buildStep s).Keeps State.Inv := by
  unfold buildStep
  split
  · exact (buildTree_keeps h).bind fun _ _ ht => ht.1
  · exact (walkTree_keeps h).bind fun _ _ ht => ht.1
  · exact ((assignCodes_invIn h).enter (by decide) (by decide)).1

theorem finishStep_keeps {s : State} (h : s.InvIn .pFinish) : (finishStep s).Keeps State.Inv := by
  unfold finishStep
  split
  · exact (flushSink_keeps h).bind fun _ _ ht => ht.1
  · exact thenEnter_keeps (outClose_keeps h) (by decide) (by decide)

theorem rebuildStep_keeps {s : State} (h : s.InvIn .uBuild) : (rebuildStep s).Keeps State.Inv := by
  unfold rebuildStep
  split
  · exact (checkTable_keeps h).bind fun _ _ ht => ht.1
  · exact ((assignCodes_invIn h).enter (q := .uDecode) (by decide) (by decide)).1

theorem rewindStep_keeps {s : State} (h : s.InvIn .pRewind) : (rewindStep s).Keeps State.Inv :=
  (inRewind_keeps h).bind fun _ _ ht => (ht.enter (q := .pEncode) (by decide) (by decide)).1

/-- R30, R31: each phase's part starts from the invariant in that phase. -/
theorem phaseStep_keeps {s : State} (h : s.Inv) : (phaseStep s).Keeps State.Inv := by
  unfold phaseStep
  cases hp : s.phase with
  | idle => exact h
  | done => exact h
  | error => exact h
  | pCount => exact thenLoop_keeps (scanTurn_keeps ⟨h, hp⟩) fun _ ht =>
      (ht.enter (by decide) (by decide)).1
  | pBuild => exact buildStep_keeps ⟨h, hp⟩
  | pHeader => exact thenEnter_keeps (writeHeader_keeps ⟨h, hp⟩) (by decide) (by decide)
  | pRewind => exact rewindStep_keeps ⟨h, hp⟩
  | pEncode => exact thenLoop_keeps (encodeTurn_keeps ⟨h, hp⟩) fun _ ht =>
      thenEnter_keeps (passesAgree_keeps ht) (by decide) (by decide)
  | pFinish => exact finishStep_keeps ⟨h, hp⟩
  | uHeader => exact thenEnter_keeps (readHeader_keeps ⟨h, hp⟩) (by decide) (by decide)
  | uBuild => exact rebuildStep_keeps ⟨h, hp⟩
  | uDecode => exact thenLoop_keeps (decodeTurn_keeps ⟨h, hp⟩) fun _ ht =>
      (ht.enter (by decide) (by decide)).1
  | uFinish => exact thenEnter_keeps (outClose_keeps ⟨h, hp⟩) (by decide) (by decide)

theorem sequencerTurn_nextInv {s : State} (h : s.Inv) : NextInv (sequencerTurn s) := by
  unfold sequencerTurn
  split
  · exact nextInv_next h
  · exact (phaseStep_keeps h).nextInv

theorem hostTurn_nextInv {s : State} (h : s.Inv) : NextInv (hostTurn s) := by
  unfold hostTurn
  split
  · exact sequencerTurn_nextInv h
  · exact sequencerTurn_nextInv (h.withHost _)
  · exact (hostAccess_keeps (h.withHost _) _).nextInv

theorem turn_nextInv {s : State} (h : s.Inv) : NextInv (turn s) := by
  unfold turn
  split
  · exact hostTurn_nextInv h
  · split
    · exact hostTurn_nextInv h
    · exact issueTurn_nextInv h

/-- Settles O8: whoever has the turn, the operation it runs keeps the invariant in its phase or stops
in ERROR or in a wait, where the clause on SK_ACC is waived. -/
theorem stepKeepsInv : Obligations.StepKeepsInv :=
  fun _ t hs ht => turn_nextInv hs t ht

end Sys2Proof.Machine

namespace Sys2Proof

/-! ### The bytes of an operation decode to it (R110 to R113) -/

/-- The operand of WRBITS: the count fits its byte and the value its 32 bytes, since L is at most 255
(R113). -/
theorem decodeWrbits_operandBytes {v L : Nat} (hL : L ≤ 255) (hv : v < 2 ^ L) (rest : List Byte) :
    decodeWrbits ((Instr.wrbits v L).operandBytes ++ rest) = .ok (.wrbits v L, rest) := by
  have hlen : (bytesOfNat codeBytes v).length = codeBytes := Machine.bytesOfNat_length _ _
  have hcount : (BitVec.ofNat 8 L).toNat = L := Nat.mod_eq_of_lt (by omega)
  have hfits : v < 256 ^ codeBytes :=
    calc v < 2 ^ L := hv
      _ ≤ 2 ^ 256 := Nat.pow_le_pow_right (by omega) (by omega)
      _ = 256 ^ codeBytes := by norm_num [codeBytes]
  have hvalue : natOfBytes (bytesOfNat codeBytes v) = v := by
    rw [natOfBytes_bytesOfNat, Nat.mod_eq_of_lt hfits]
  have henough : ¬ (bytesOfNat codeBytes v ++ rest).length < codeBytes := by
    rw [List.length_append, hlen]
    omega
  rw [Instr.operandBytes, List.cons_append, decodeWrbits, if_neg henough]
  simp only [List.take_left' hlen, List.drop_left' hlen, hvalue, hcount, if_pos hv]

/-- The operand of RDBITS: the count fits its byte, since it is at most 64 (R113). -/
theorem decodeRdbits_operandBytes {n : Nat} (hn : n ≤ 64) (rest : List Byte) :
    decodeRdbits ((Instr.rdbits n).operandBytes ++ rest) = .ok (.rdbits n, rest) := by
  have hcount : (BitVec.ofNat 8 n).toNat = n := Nat.mod_eq_of_lt (by omega)
  rw [Instr.operandBytes, List.cons_append, decodeRdbits, hcount, if_pos hn]
  rfl

/-- The bytes of a well-formed operation decode to it, whatever follows them. -/
theorem decode_encode_append {i : Instr} (h : i.wellFormed = true) (rest : List Byte) :
    decode (encode i ++ rest) = .ok (i, rest) := by
  cases i with
  | wrbits v L =>
    obtain ⟨hL, hv⟩ := wellFormed_wrbits.mp h
    exact decodeWrbits_operandBytes hL hv rest
  | rdbits n => exact decodeRdbits_operandBytes (wellFormed_rdbits.mp h) rest
  | _ => rfl

end Sys2Proof

namespace Sys2Proof.Machine

/-- Settles O5: the issued bytes decode to the operation, and the turn is theirs. -/
theorem stepRunsIssuedOperation : Obligations.StepRunsIssuedOperation := by
  unfold Obligations.StepRunsIssuedOperation
  intro s i rest hwf hissue hhung
  have hne : s.issue ≠ [] := by rw [hissue]; exact List.cons_ne_nil _ _
  rw [step_issue hne hhung, issueTurn, hissue, decode_encode_append hwf]

end Sys2Proof.Machine

namespace Sys2Proof.Machine

/-! ### TB_SEED, TB_MERGE and TB_BUILD: TB_BUILD as its micro-operations (R166) -/

/-- R164: `extract_min` takes one member out. -/
theorem extractMin_length {nodes : Vector Node 511} {pq rest : List NodeIx} {m : NodeIx}
    (h : extractMin nodes pq = some (m, rest)) : rest.length + 1 = pq.length := by
  have hne : pq ≠ [] := by
    rintro rfl
    cases h
  obtain ⟨m', e, hm, -⟩ := extractMin_spec (nodes := nodes) hne
  cases e.symm.trans h
  have := List.length_pos_of_mem hm
  rw [List.length_erase_of_mem hm]
  omega

/-- R165: TB_MERGE takes two members out of PQ and puts one in. -/
theorem mergeLowest_pq_length {s t : State} (h : mergeLowest s = .ok () t) :
    t.pq.length + 1 = s.pq.length := by
  unfold mergeLowest at h
  split at h
  · cases h
  · rename_i a rest hfirst
    split at h
    · cases h
    · rename_i b rest' hsecond
      have h₁ := extractMin_length hfirst
      have h₂ := extractMin_length hsecond
      unfold mergeInto at h
      split at h
      · cases h
        simp only [List.length_append, List.length_singleton]
        omega
      · cases h

/-- R166: with turns enough the loop of TB_BUILD is TB_MERGE, once for every member of PQ but one. -/
theorem mergeLoop_runList (turns : Nat) {s t : State} (hturns : s.pq.length ≤ turns + 1)
    (h : mergeLoop turns s = .ok () t) :
    runList (List.replicate (s.pq.length - 1) .tbMerge) s = .next t := by
  induction turns generalizing s with
  | zero =>
    cases h
    rw [Nat.sub_eq_zero_of_le hturns]
    rfl
  | succ turns ih =>
    rw [mergeLoop] at h
    split at h
    · obtain ⟨⟨⟩, u, hu, ht⟩ := Res.bind_ok.mp h
      have hlen := mergeLowest_pq_length hu
      have hexec : exec .tbMerge s = .next u := by
        show (mergeLowest s).outcome = _
        rw [hu, Res.ok_outcome]
      rw [show s.pq.length - 1 = (u.pq.length - 1) + 1 by omega, List.replicate_succ, runList, hexec]
      exact ih (by omega) ht
    · cases h
      rw [show t.pq.length - 1 = 0 by omega]
      rfl

/-- R166: ROOT is the first member of a PQ of at most one. -/
theorem takeRoot_eq_head {s : State} (h : s.pq.length ≤ 1) :
    takeRoot s = { s with root := s.pq.head? } := by
  unfold takeRoot
  rcases hpq : s.pq with _ | ⟨r, _ | ⟨r', rest⟩⟩
  · rfl
  · rfl
  · rw [hpq] at h
    simp at h

/-- R166: TB_BUILD is TB_SEED, the loop of merges, and ROOT. -/
theorem buildTree_eq_ok {s t : State} :
    buildTree s = .ok () t ↔
      ∃ u, mergeLoop (seedTree s).pq.length (seedTree s) = .ok () u ∧ takeRoot u = t := by
  simp only [buildTree, Res.bind_ok, Res.ok.injEq, true_and]
  exact ⟨fun ⟨_, u, h⟩ => ⟨u, h⟩, fun ⟨u, h⟩ => ⟨(), u, h⟩⟩

theorem exec_tbBuild_next {s t : State} : exec .tbBuild s = .next t ↔ buildTree s = .ok () t := by
  obtain ⟨u, hu, -⟩ := buildTree_ok s
  show (buildTree s).outcome = .next t ↔ _
  simp [hu]

theorem seedTree_pq_length (s : State) : (seedTree s).pq.length = (countedBytes s.freq).length := by
  rw [seedTree_pq, List.length_map, List.length_range]

/-- R166: TB_BUILD, performed as micro-operations of its own. -/
theorem buildTree_runList {s t : State} (h : buildTree s = .ok () t) :
    ∃ u, runList (.tbSeed :: List.replicate ((countedBytes s.freq).length - 1) .tbMerge) s
        = .next u ∧ u.pq.length ≤ 1 ∧ t = { u with root := u.pq.head? } := by
  obtain ⟨u, hloop, rfl⟩ := buildTree_eq_ok.mp h
  obtain ⟨u', -, hu', -, hlen, -⟩ := mergeLoop_ok (seedTree s).pq.length (seedTree_forest s)
    (countedBytes_length_le s.freq) (Nat.le_succ _)
  obtain rfl : u = u' := by
    rw [hloop] at hu'
    cases hu'
    rfl
  refine ⟨u, ?_, hlen, takeRoot_eq_head hlen⟩
  rw [← seedTree_pq_length]
  exact mergeLoop_runList _ (Nat.le_succ _) hloop

/-- R169: within its envelope the weights TB_BUILD leaves are the sums. -/
theorem buildTree_weighed {s t : State} (h : buildTree s = .ok () t)
    (htotal : totalCount s.freq < 2 ^ 64) : Weighed (totalCount s.freq) t := by
  obtain ⟨u, hloop, rfl⟩ := buildTree_eq_ok.mp h
  obtain ⟨u', -, hu', -, -, -, -, -, hweigh⟩ := mergeLoop_ok (seedTree s).pq.length
    (seedTree_forest s) (countedBytes_length_le s.freq) (Nat.le_succ _)
  rw [hloop] at hu'
  cases hu'
  obtain ⟨hsum, hnode⟩ := (hweigh _ htotal (seedTree_weighed s)).1
  exact ⟨hsum, hnode⟩

/-- Settles O29: TB_BUILD runs to its end by the forest every merge keeps, and its loop is the list
of merges. -/
theorem tbBuildMakesOneTree : Obligations.TbBuildMakesOneTree := by
  unfold Obligations.TbBuildMakesOneTree
  intro s
  obtain ⟨t, ht, hsame, hnsym, hnone, hsome, -⟩ := buildTree_ok s
  refine ⟨t, exec_tbBuild_next.mpr ht, hsame, buildTree_runList ht, hnsym, hnone, fun hne => ?_⟩
  obtain ⟨r, T, hroot, hpq, hnnodes, hlast, hT, hperm, hweight⟩ := hsome hne
  have hheight : T.height ≤ (countedBytes s.freq).length - 1 := by
    have := T.height_lt
    have := hperm.length_eq
    omega
  refine ⟨r, T, hroot, hpq, hnnodes, hlast, hT, hperm, hheight, fun htotal => ?_⟩
  obtain ⟨hr, hfree⟩ := hweight htotal
  exact ⟨hfree, hr, (buildTree_weighed ht htotal).node⟩

/-! ### One parent (R55) -/

/-- The node `j` is a child of the node `i`. -/
def IsChild (nodes : Vector Node 511) (i j : NodeIx) : Prop :=
  ∃ a b w, nodeAt nodes i = .internal a b w ∧ (j = a ∨ j = b)

/-- The node `i` is the one parent of `j` among the allocated nodes, and stands after it. -/
structure IsParent (s : State) (i j : NodeIx) : Prop where
  later : j.val < i.val
  allocated : i.val < s.nnodes.val
  child : IsChild s.node i j
  unique : ∀ i' : NodeIx, i'.val < s.nnodes.val → IsChild s.node i' j → i' = i

/-- What TB_SEED makes and every TB_MERGE keeps: a member of PQ has no parent, every other node has
one. -/
structure Parented (s : State) : Prop where
  free : ∀ j ∈ s.pq, ∀ i : NodeIx, i.val < s.nnodes.val → ¬ IsChild s.node i j
  owned : ∀ j : NodeIx, j.val < s.nnodes.val → j ∉ s.pq → ∃ i, IsParent s i j

/-- R161: with leaves alone no node has a parent, and all are in PQ. -/
theorem seedTree_parented (s : State) : Parented (seedTree s) := by
  have hle := countedBytes_length_le s.freq
  constructor
  · rintro j - i hi ⟨a, b, w, hnode, -⟩
    rw [seedTree_nnodes] at hi
    rw [seedTree_nodeAt, dif_pos hi] at hnode
    cases hnode
  · intro j hj hnot
    rw [seedTree_nnodes] at hj
    refine absurd ?_ hnot
    rw [seedTree_pq]
    refine List.mem_map.mpr ⟨j.val, List.mem_range.mpr hj, Fin.ext ?_⟩
    rw [Fin.val_ofNat]
    omega

theorem merged_isChild {a b n i j : NodeIx} {s : State} :
    IsChild (s.merged a b n).node i j ↔
      if i = n then j = a ∨ j = b else IsChild s.node i j := by
  unfold IsChild
  simp only [merged_nodeAt]
  by_cases h : i = n
  · subst h
    simp
  · simp [h, Ne.symm h]

/-- A child stands before its parent. -/
theorem Forest.isChild_lt {syms : List Byte} {s : State} {tr : NodeIx → Tree} (h : Forest syms s tr)
    {i j : NodeIx} (hi : i.val < s.nnodes.val) (hc : IsChild s.node i j) : j.val < i.val := by
  obtain ⟨a, b, w, hnode, rfl | rfl⟩ := hc
  · exact (h.child _ _ _ _ hi hnode).1
  · exact (h.child _ _ _ _ hi hnode).2

/-- R165: the two lowest members get the new node as their parent; it has none. -/
theorem Parented.merge {syms : List Byte} {s : State} {tr : NodeIx → Tree} (h : Forest syms s tr)
    (hp : Parented s) {a b : NodeIx} (ha : a ∈ s.pq) (hb : b ∈ s.pq.erase a)
    (hn : s.nnodes.val < 511) : Parented (s.merged a b ⟨s.nnodes.val, hn⟩) := by
  have hba := List.mem_of_mem_erase hb
  have hnd : s.pq.Nodup := h.sorted.imp ne_of_lt
  -- the members left are those of PQ but the two
  have hrest : ∀ j, j ∈ (s.pq.erase a).erase b ↔ j ≠ b ∧ j ≠ a ∧ j ∈ s.pq := fun j => by
    rw [(hnd.erase a).mem_erase_iff, hnd.mem_erase_iff]
  have hold : ∀ i : NodeIx, i.val < s.nnodes.val → i ≠ ⟨s.nnodes.val, hn⟩ := by
    rintro i hi rfl
    exact lt_irrefl _ hi
  have hnew : ∀ i : NodeIx, i.val < s.nnodes.val + 1 → i ≠ ⟨s.nnodes.val, hn⟩ →
      i.val < s.nnodes.val := fun i hi hne => by
    have : i.val ≠ s.nnodes.val := fun e => hne (Fin.ext e)
    omega
  constructor
  · intro j hj i hi hc
    rw [merged_nnodes hn] at hi
    rw [merged_isChild] at hc
    rcases List.mem_append.mp hj with hj | hj
    · obtain ⟨hjb, hja, hjpq⟩ := (hrest j).mp hj
      split at hc
      · exact hc.elim hja hjb
      · rename_i hne
        exact hp.free j hjpq i (hnew i hi hne) hc
    · obtain rfl := List.mem_singleton.mp hj
      split at hc
      · exact hc.elim (hold a (h.bound a ha)).symm (hold b (h.bound b hba)).symm
      · rename_i hne
        have := h.isChild_lt (hnew i hi hne) hc
        have := hnew i hi hne
        simp only at *
        omega
  · intro j hj hnot
    rw [merged_nnodes hn] at hj
    have hnot' : j ∉ (s.pq.erase a).erase b ∧ j ≠ ⟨s.nnodes.val, hn⟩ := by
      simpa [State.merged] using hnot
    obtain ⟨hjrest, hjn⟩ := hnot'
    have hjlt := hnew j hj hjn
    by_cases hjab : j = a ∨ j = b
    · have hjpq : j ∈ s.pq := hjab.elim (fun e => e ▸ ha) fun e => e ▸ hba
      refine ⟨⟨s.nnodes.val, hn⟩, hjlt, ?_, ?_, ?_⟩
      · rw [merged_nnodes hn]
        exact Nat.lt_succ_self _
      · rw [merged_isChild, if_pos rfl]
        exact hjab
      · intro i hi hc
        rw [merged_nnodes hn] at hi
        rw [merged_isChild] at hc
        by_contra hne
        rw [if_neg hne] at hc
        exact hp.free j hjpq i (hnew i hi hne) hc
    · have hjpq : j ∉ s.pq := fun hmem =>
        hjrest ((hrest j).mpr ⟨fun e => hjab (.inr e), fun e => hjab (.inl e), hmem⟩)
      obtain ⟨i, hlater, halloc, hchild, hunique⟩ := hp.owned j hjlt hjpq
      refine ⟨i, hlater, ?_, ?_, ?_⟩
      · rw [merged_nnodes hn]
        omega
      · rw [merged_isChild, if_neg (hold i halloc)]
        exact hchild
      · intro i' hi' hc
        rw [merged_nnodes hn] at hi'
        rw [merged_isChild] at hc
        split at hc
        · exact absurd hc hjab
        · rename_i hne
          exact hunique i' (hnew i' hi' hne) hc

/-- R166: what every merge of a forest keeps, the loop keeps. -/
theorem mergeLoop_induction {syms : List Byte} {P : State → Prop} (hk : syms.length ≤ 256)
    (hP : ∀ (s : State) (tr : NodeIx → Tree) (a b : NodeIx) (hn : s.nnodes.val < 511),
      Forest syms s tr → a ∈ s.pq → b ∈ s.pq.erase a → P s → P (s.merged a b ⟨s.nnodes.val, hn⟩))
    (turns : Nat) {s t : State} {tr : NodeIx → Tree} (h : Forest syms s tr) (hs : P s)
    (ht : mergeLoop turns s = .ok () t) : P t := by
  induction turns generalizing s tr with
  | zero =>
    cases ht
    exact hs
  | succ turns ih =>
    rw [mergeLoop] at ht
    split at ht
    · rename_i h2
      have hn : s.nnodes.val < 511 := by
        have := h.count
        omega
      obtain ⟨a, b, ha, hb, -, -, hm⟩ := mergeLowest_ok h2 hn
      rw [hm, Res.ok_bind] at ht
      exact ih (h.merge ha hb hn) (hP s tr a b hn h ha hb hs) ht
    · cases ht
      exact hs

theorem buildTree_parented {s t : State} (h : buildTree s = .ok () t) : Parented t := by
  obtain ⟨u, hloop, rfl⟩ := buildTree_eq_ok.mp h
  obtain ⟨hfree, howned⟩ := mergeLoop_induction (countedBytes_length_le s.freq)
    (fun _ _ _ _ hn hf ha hb hs => Parented.merge hf hs ha hb hn) _ (seedTree_forest s)
    (seedTree_parented s) hloop
  refine ⟨hfree, fun j hj hnot => ?_⟩
  obtain ⟨i, hlater, halloc, hchild, hunique⟩ := howned j hj hnot
  exact ⟨i, hlater, halloc, hchild, hunique⟩

/-- R166: where there is a ROOT it is the one member of PQ. -/
theorem buildTree_pq_of_root {s t : State} {r : NodeIx} (h : buildTree s = .ok () t)
    (hr : t.root = some r) : t.pq = [r] := by
  obtain ⟨u, -, rfl⟩ := buildTree_eq_ok.mp h
  show u.pq = [r]
  simp only [takeRoot] at hr
  split at hr
  · rename_i r' hpq
    cases hr
    exact hpq
  · cases hr

/-- Settles O30: of the nodes of a finished tree only ROOT is in PQ, and the others have their
parent since they left it. -/
theorem treeNodesHaveOneParent : Obligations.TreeNodesHaveOneParent := by
  unfold Obligations.TreeNodesHaveOneParent
  intro s t r j hexec hroot hj hne
  have hbuild := exec_tbBuild_next.mp hexec
  have hnot : j ∉ t.pq := by
    rw [buildTree_pq_of_root hbuild hroot]
    exact fun h => hne (List.mem_singleton.mp h)
  obtain ⟨i, hlater, halloc, hchild, hunique⟩ := (buildTree_parented hbuild).owned j hj hnot
  exact ⟨i, hlater, halloc, hchild, hunique⟩

/-- Settles O27: the leaves stand at the front of the arena in the order of the counted bytes. -/
theorem tbSeedPlacesTheLeaves : Obligations.TbSeedPlacesTheLeaves := by
  unfold Obligations.TbSeedPlacesTheLeaves
  intro s
  have hle := countedBytes_length_le s.freq
  refine ⟨seedTree s, rfl, rfl, seedTree_nnodes s, seedTree_nsym s, ?_, ?_, ?_⟩
  · rw [seedTree_pq, List.map_map]
    refine (List.map_congr_left fun n hn => ?_).trans (List.map_id _)
    have := List.mem_range.mp hn
    exact Nat.mod_eq_of_lt (by omega)
  · intro i b hb
    obtain ⟨hi, rfl⟩ := List.getElem?_eq_some_iff.mp hb
    rw [seedTree_nodeAt, dif_pos hi]
  · intro i hi
    rw [seedTree_nodeAt, dif_neg (Nat.not_lt.mpr hi)]

/-! ### CT_WALK (R181 to R184) -/

/-- R182: TCODE of a symbol with no leaf is not written (log 3). -/
theorem walked_tcode_absent (T : Tree) (d : Degen) (s : State) {x : Byte} (h : x ∉ T.symbols) :
    entry (walked d T.walkCodes s).tcode x = entry s.tcode x := by
  refine entry_foldl_other LeafCode.sym (fun l => BitVec.ofNat 255 l.v) T.walkCodes _ x ?_
  rintro c hc rfl
  rw [← Tree.walkCodes_symbols] at h
  exact h (List.mem_map_of_mem hc)

/-- R15, R183: what CT_WALK records are bit-codes. -/
theorem Tree.walkCodes_lt {T : Tree} {c : LeafCode} (h : c ∈ T.walkCodes) : c.v < 2 ^ c.L := by
  cases T with
  | leaf x =>
    obtain rfl := List.mem_singleton.mp h
    exact Nat.two_pow_pos 1
  | node l r => exact Tree.codes_lt h

/-- R182, R183: the entries of a leaf's symbol hold its code whole, since the depth is at most 255. -/
theorem walked_entry_toNat {T : Tree} (hn : T.symbols.Nodup) (hh : T.height ≤ 255) (d : Degen)
    (s : State) {c : LeafCode} (h : c ∈ T.walkCodes) :
    (entry (walked d T.walkCodes s).tlen c.sym).toNat = c.L ∧
      (entry (walked d T.walkCodes s).tcode c.sym).toNat = c.v := by
  have hL := Tree.walkCodes_range hh h
  have hv : c.v < 2 ^ 255 := (Tree.walkCodes_lt h).trans_le (Nat.pow_le_pow_right (by omega) hL.2)
  have htlen : entry (walked d T.walkCodes s).tlen c.sym = _ := walked_len_mem hn d s h
  rw [htlen, walked_tcode_mem hn d s h, BitVec.toNat_ofNat, BitVec.toNat_ofNat]
  exact ⟨Nat.mod_eq_of_lt (by omega), Nat.mod_eq_of_lt hv⟩

/-- Settles O32: CT_WALK writes the codes of the one tree under ROOT, or none. -/
theorem ctWalkRecordsThePaths : Obligations.CtWalkRecordsThePaths := by
  unfold Obligations.CtWalkRecordsThePaths
  intro s htreed
  obtain hroot | ⟨r, hroot⟩ := Option.eq_none_or_eq_some s.root
  · have hwalk : exec .ctWalk s = .next (walked .empty [] s) :=
      congrArg Res.outcome (walkTree_none hroot)
    refine ⟨_, hwalk, rfl, fun _ => ⟨rfl, rfl, fun x => entry_replicate 0 x⟩, fun r T hr => ?_⟩
    cases hroot.symm.trans hr
  · obtain ⟨T, hT, hheight, hnodup⟩ := htreed r hroot
    have hwalk : exec .ctWalk s = .next (walked T.degen T.walkCodes s) :=
      congrArg Res.outcome (walkTree_some hroot hT hheight)
    refine ⟨_, hwalk, rfl, fun hnone => ?_, fun r' T' hr' hT' => ?_⟩
    · cases hroot.symm.trans hnone
    · cases hroot.symm.trans hr'
      obtain rfl := hT.unique hT'
      exact ⟨rfl, fun c hc => walked_entry_toNat hnodup hheight _ s hc,
        fun x hx => ⟨walked_len_absent T T.degen s hx, walked_tcode_absent T _ s hx⟩⟩

end Sys2Proof.Machine

namespace Sys2Proof.Machine

/-! ### What every operation leaves of the sequencer and the channels

Three relations between the states before and after an operation, each with more in it: what every
operation has, what every micro-operation has, and what every one has that does not rewind. -/

/-- R46, R64, R70: ID is hardwired, output and the transactions made are never taken back. -/
def Grows (s t : State) : Prop :=
  t.id = s.id ∧ s.chan.trace <:+ t.chan.trace ∧ s.chan.out <+: t.chan.out

/-- A micro-operation that ran to its end leaves the sequencer where it was (R16), and what is to come
next, too. -/
def Follows (s t : State) : Prop :=
  Grows s t ∧ t.phase = s.phase ∧ t.sub = s.sub ∧ t.hung = s.hung ∧ t.issue = s.issue ∧
    t.host = s.host

/-- Outside a rewind the input left only shrinks (R60, R136). -/
def Consumes (s t : State) : Prop :=
  Follows s t ∧ t.chan.rest.length ≤ s.chan.rest.length ∧ bitsLeft t ≤ bitsLeft s

/-- Where the sequencer stops inside an operation: it raised an error (R270), or it waits (R315). -/
def Stops (s t : State) : Prop :=
  Grows s t ∧ (t.phase = s.phase ∨ t.phase = .error)

theorem Grows.refl (s : State) : Grows s s :=
  ⟨rfl, List.suffix_rfl, List.prefix_rfl⟩

theorem Grows.trans {s t u : State} (h : Grows s t) (h' : Grows t u) : Grows s u := by
  obtain ⟨hid, htrace, hout⟩ := h
  obtain ⟨hid', htrace', hout'⟩ := h'
  exact ⟨hid'.trans hid, htrace.trans htrace', hout.trans hout'⟩

theorem Follows.grows {s t : State} (h : Follows s t) : Grows s t := h.1

theorem Follows.phase {s t : State} (h : Follows s t) : t.phase = s.phase := h.2.1

theorem Follows.trans {s t u : State} (h : Follows s t) (h' : Follows t u) : Follows s u := by
  obtain ⟨hg, hp, hs, hh, hi, ha⟩ := h
  obtain ⟨hg', hp', hs', hh', hi', ha'⟩ := h'
  exact ⟨hg.trans hg', hp'.trans hp, hs'.trans hs, hh'.trans hh, hi'.trans hi, ha'.trans ha⟩

theorem Consumes.follows {s t : State} (h : Consumes s t) : Follows s t := h.1

theorem Consumes.bytes {s t : State} (h : Consumes s t) :
    t.chan.rest.length ≤ s.chan.rest.length := h.2.1

theorem Consumes.bits {s t : State} (h : Consumes s t) : bitsLeft t ≤ bitsLeft s := h.2.2

theorem Consumes.refl (s : State) : Consumes s s :=
  ⟨⟨Grows.refl s, rfl, rfl, rfl, rfl, rfl⟩, le_rfl, le_rfl⟩

theorem Consumes.trans {s t u : State} (h : Consumes s t) (h' : Consumes t u) : Consumes s u := by
  obtain ⟨hf, hbytes, hbits⟩ := h
  obtain ⟨hf', hbytes', hbits'⟩ := h'
  exact ⟨hf.trans hf', hbytes'.trans hbytes, hbits'.trans hbits⟩

theorem Stops.grows {s t : State} (h : Stops s t) : Grows s t := h.1

theorem Stops.phase {s t : State} (h : Stops s t) : t.phase = s.phase ∨ t.phase = .error := h.2

theorem Follows.stops {s t u : State} (h : Follows s t) (h' : Stops t u) : Stops s u :=
  ⟨h.grows.trans h'.grows, h.phase ▸ h'.phase⟩

theorem Follows.raise {s t : State} (h : Follows s t) (c : Cause) : Stops s (t.raise c) :=
  ⟨h.grows, .inr rfl⟩

theorem Follows.hang {s t : State} (h : Follows s t) : Stops s t.hang :=
  ⟨h.grows, .inl h.phase⟩

/-- What an operation leaves: `R` of the state where it runs to its end, `Q` of the one where the
sequencer stops inside it. -/
def Res.To {α : Type} (R Q : State → Prop) : Res α → Prop
  | .ok _ t => R t
  | .stop t => Q t
  | .fault _ => True
  | .refuse _ => True

theorem Res.To.mono {α : Type} {R Q R' Q' : State → Prop} {x : Res α} (hx : x.To R Q)
    (hR : ∀ t, R t → R' t) (hQ : ∀ t, Q t → Q' t) : x.To R' Q' := by
  cases x with
  | ok a t => exact hR t hx
  | stop t => exact hQ t hx
  | fault e => trivial
  | refuse r => trivial

theorem Res.To.of_ok {α : Type} {R Q : State → Prop} {x : Res α} {a : α} {t : State}
    (hx : x.To R Q) (e : x = .ok a t) : R t := by
  subst e
  exact hx

theorem Res.To.bind {α β : Type} {R Q R' Q' : State → Prop} {x : Res α} {f : α → State → Res β}
    (hx : x.To R Q) (hf : ∀ a t, R t → (f a t).To R' Q') (hQ : ∀ t, Q t → Q' t) :
    (x.bind f).To R' Q' := by
  cases x with
  | ok a t => exact hf a t hx
  | stop t => exact hQ t hx
  | fault e => trivial
  | refuse r => trivial

/-- A micro-operation that does not rewind: it ends with `Consumes`, or stops. -/
abbrev Res.Micro {α : Type} (s : State) (x : Res α) : Prop :=
  x.To (Consumes s) (Stops s)

theorem Res.Micro.bind {α β : Type} {s : State} {x : Res α} {f : α → State → Res β}
    (hx : x.Micro s) (hf : ∀ a t, Consumes s t → (f a t).Micro t) : (x.bind f).Micro s :=
  Res.To.bind hx
    (fun a t ht => (hf a t ht).mono (fun _ h => ht.trans h) fun _ h => ht.follows.stops h)
    fun _ h => h

theorem Res.Micro.refl {α : Type} (a : α) (s : State) : (Res.ok a s).Micro s :=
  Consumes.refl s

/-- One turn of a loop: it goes on by `f`, or it ends. -/
theorem Res.Micro.bindIf {s : State} {x : Res Bool} {f : State → Res Unit}
    (hx : x.Micro s) (hf : ∀ t, (f t).Micro t) :
    (x.bind fun more t => if more then f t else .ok () t).Micro s := by
  refine hx.bind fun more t _ => ?_
  cases more with
  | true => exact hf t
  | false => exact Res.Micro.refl () t

/-- Run as one step it leads to a state that meets what both ends have. -/
theorem Res.To.outcome_next {α : Type} {R : State → Prop} {x : Res α} {t : State} (hx : x.To R R)
    (ht : x.outcome = .next t) : R t := by
  rcases Res.outcome_next.mp ht with ⟨a, rfl⟩ | rfl
  · exact hx
  · exact hx

/-! ### The transactions -/

/-- The channels after a transaction: one more in the trace, and OUT as it was or longer. -/
structure Channels.Extends (c c' : Channels) : Prop where
  trace : c.trace <:+ c'.trace
  out : c.out <+: c'.out

theorem Channels.rewind_extends (c : Channels) : c.Extends c.rewind.2 := by
  unfold Channels.rewind
  cases c.draw <;> exact ⟨List.suffix_cons _ _, List.prefix_rfl⟩

theorem Channels.outWrite_extends (b : Byte) (c : Channels) : c.Extends (c.outWrite b).2 := by
  unfold Channels.outWrite
  cases c.draw with
  | ok => exact ⟨List.suffix_cons _ _, List.prefix_append _ _⟩
  | never => exact ⟨List.suffix_cons _ _, List.prefix_rfl⟩
  | fail landed =>
    cases landed
    · exact ⟨List.suffix_cons _ _, List.prefix_rfl⟩
    · exact ⟨List.suffix_cons _ _, List.prefix_append _ _⟩

theorem Channels.outClose_extends (c : Channels) : c.Extends c.outClose.2 := by
  unfold Channels.outClose
  cases c.draw <;> exact ⟨List.suffix_cons _ _, List.prefix_rfl⟩

/-- The output's transactions leave the input where it is. -/
theorem Channels.outWrite_rest (b : Byte) (c : Channels) :
    (c.outWrite b).2.input = c.input ∧ (c.outWrite b).2.inPos = c.inPos := by
  unfold Channels.outWrite
  cases c.draw <;> exact ⟨rfl, rfl⟩

theorem Channels.outClose_rest (c : Channels) :
    c.outClose.2.input = c.input ∧ c.outClose.2.inPos = c.inPos := by
  unfold Channels.outClose
  cases c.draw <;> exact ⟨rfl, rfl⟩

theorem Channels.Extends.follows {s : State} {c : Channels} (h : s.chan.Extends c) :
    Follows s { s with chan := c } :=
  ⟨⟨rfl, h.trace, h.out⟩, rfl, rfl, rfl, rfl, rfl⟩

theorem Channels.Extends.consumes {s : State} {c : Channels} (h : s.chan.Extends c)
    (hin : c.input = s.chan.input ∧ c.inPos = s.chan.inPos) : Consumes s { s with chan := c } := by
  obtain ⟨hi, hp⟩ := hin
  refine ⟨h.follows, ?_, ?_⟩
  · simp only [Channels.rest, hi, hp, le_refl]
  · simp only [bitsLeft, hi, hp, le_refl]

/-- Everything a transaction without data can do: an Ok, an error, or a wait. -/
theorem afterAck_to {R : State → Prop} {c : Cause} {s : State} {r : Ack × Channels}
    (hR : R { s with chan := r.2 }) (h : s.chan.Extends r.2) : (afterAck c s r).To R (Stops s) := by
  obtain ⟨ack, c'⟩ := r
  cases ack with
  | ok => exact hR
  | fail => exact h.follows.raise c
  | never => exact h.follows.hang

theorem inRewind_to (s : State) : (inRewind s).To (Follows s) (Stops s) :=
  have h := s.chan.rewind_extends
  afterAck_to h.follows h

theorem outWrite_micro (b : Byte) (s : State) : (outWrite b s).Micro s := by
  have h := s.chan.outWrite_extends b
  unfold outWrite
  split
  · trivial
  · exact afterAck_to (h.consumes (s.chan.outWrite_rest b)) h

theorem outClose_micro (s : State) : (outClose s).Micro s := by
  have h := s.chan.outClose_extends
  unfold outClose
  split
  · trivial
  · exact afterAck_to (h.consumes s.chan.outClose_rest) h

theorem made_consumes (t : Transaction) (s : State) :
    Consumes s { s with chan := s.chan.made t } :=
  Channels.Extends.consumes ⟨List.suffix_cons _ _, List.prefix_rfl⟩ ⟨rfl, rfl⟩

theorem took_consumes (n : Nat) (s : State) : Consumes s { s with chan := s.chan.took n } := by
  have h : s.chan.Extends (s.chan.took n) := ⟨List.suffix_append _ _, List.prefix_rfl⟩
  refine ⟨h.follows, ?_, ?_⟩
  · simp
  · simp only [bitsLeft, Channels.took_input, Channels.took_inPos]
    omega

theorem inRead_micro (s : State) : (inRead s).Micro s := by
  rcases inRead_cases s with ⟨b, bs, -, e⟩ | ⟨-, e⟩ | e | e
  · rw [e]
    exact took_consumes 1 s
  · rw [e]
    exact made_consumes _ s
  · rw [e]
    exact (made_consumes _ s).follows.raise _
  · rw [e]
    exact (made_consumes _ s).follows.hang

/-! ### Bits out and in -/

theorem pushBit_micro (b : Bool) (s : State) : (pushBit b s).Micro s := by
  have h := outWrite_micro (pushAcc s.skAcc b) s
  unfold pushBit
  dsimp only
  split
  · exact Consumes.refl s
  · cases e : outWrite (pushAcc s.skAcc b) s with
    | ok a t => exact (e ▸ h :)
    | stop t => exact (e ▸ h :)
    | fault e => trivial
    | refuse r => trivial

theorem pushBits_micro (bits : List Bool) (s : State) : (pushBits bits s).Micro s := by
  induction bits generalizing s with
  | nil => exact Consumes.refl s
  | cons b bits ih => exact (pushBit_micro b s).bind fun _ t _ => ih t

theorem writeBits_micro (v L : Nat) (s : State) : (writeBits v L s).Micro s :=
  pushBits_micro _ s

theorem flushSink_micro (s : State) : (flushSink s).Micro s := by
  unfold flushSink
  split
  · exact Consumes.refl s
  · exact (outWrite_micro _ s).bind fun _ t _ => Consumes.refl t

/-- R136: where SR_ACC still holds a bit, one bit less is left. -/
theorem deliver_lt {s : State} (hn : s.srN ≠ 0) {r : Option Bool} {t : State}
    (h : deliver s = .ok r t) : Consumes s t ∧ bitsLeft t < bitsLeft s := by
  cases h
  have hpos : s.srN.val ≠ 0 := fun e => hn (Fin.ext e)
  have hlt : 8 * (s.chan.input.length - s.chan.inPos) + (s.srN.val - 1) < bitsLeft s := by
    rw [bitsLeft]
    omega
  exact ⟨⟨(Consumes.refl s).follows, le_rfl, hlt.le⟩, hlt⟩

/-- R136: a byte fetched into an empty SR_ACC is as many bits there as it was in the input. -/
theorem fetch_consumes {s : State} {b : Byte} {bs : List Byte} (hn : s.srN = 0)
    (hr : s.chan.rest = b :: bs) :
    Consumes s { s with chan := s.chan.took 1, srAcc := b, srN := 8 } := by
  obtain ⟨hf, hbytes, -⟩ := took_consumes 1 s
  refine ⟨hf, hbytes, ?_⟩
  have hpos := congrArg List.length hr
  simp only [Channels.rest, List.length_drop, List.length_cons] at hpos
  have h8 : (8 : Fin 9).val = 8 := rfl
  simp only [bitsLeft, hn, Channels.took_input, Channels.took_inPos, h8, Fin.val_zero]
  omega

/-- Everything RDBIT can do (R136, R138): it delivers a bit, meets EOS, or stops. -/
theorem readBit_cases (s : State) :
    (∃ u, Consumes s u ∧ u.srN ≠ 0 ∧ readBit s = deliver u) ∨
    (∃ u, Consumes s u ∧ readBit s = .ok none u) ∨ (∃ u, Stops s u ∧ readBit s = .stop u) := by
  by_cases hn : s.srN = 0
  · rw [readBit, if_pos hn]
    rcases inRead_cases s with ⟨b, bs, hr, e⟩ | ⟨-, e⟩ | e | e
    · exact .inl ⟨_, fetch_consumes hn hr, by simp, by rw [e]; rfl⟩
    · exact .inr (.inl ⟨_, made_consumes _ s, by rw [e]; rfl⟩)
    · exact .inr (.inr ⟨_, (made_consumes _ s).follows.raise _, by rw [e]; rfl⟩)
    · exact .inr (.inr ⟨_, (made_consumes _ s).follows.hang, by rw [e]; rfl⟩)
  · exact .inl ⟨s, Consumes.refl s, hn, if_neg hn⟩

theorem readBit_micro (s : State) : (readBit s).Micro s := by
  rcases readBit_cases s with ⟨u, hu, hn, e⟩ | ⟨u, hu, e⟩ | ⟨u, hu, e⟩
  · rw [e]
    exact hu.trans (deliver_lt hn rfl).1
  · rw [e]
    exact hu
  · rw [e]
    exact hu

/-- R136: a bit delivered is a bit less to deliver. -/
theorem readBit_lt {s t : State} {b : Bool} (h : readBit s = .ok (some b) t) :
    bitsLeft t < bitsLeft s := by
  rcases readBit_cases s with ⟨u, hu, hn, e⟩ | ⟨u, hu, e⟩ | ⟨u, hu, e⟩
  · exact (deliver_lt hn (e.symm.trans h)).2.trans_le hu.bits
  · cases e.symm.trans h
  · cases e.symm.trans h

theorem readBitsFrom_micro (r n : Nat) (s : State) : (readBitsFrom r n s).Micro s := by
  induction n generalizing r s with
  | zero => exact Consumes.refl s
  | succ n ih =>
    refine (readBit_micro s).bind fun b t _ => ?_
    cases b with
    | none => exact Consumes.refl t
    | some b => exact ih _ t

/-! ### The loops -/

/-- The common shape of the loops of R153, R224 and R244: a turn as often as it says to go on, for at
most so many turns. -/
def turnLoop (turn : State → Res Bool) : Nat → State → Res Unit
  | 0, s => .ok () s
  | turns + 1, s => (turn s).bind fun more t => if more then turnLoop turn turns t else .ok () t

theorem scanLoop_eq_turnLoop (turns : Nat) (s : State) :
    scanLoop turns s = turnLoop scanTurn turns s := by
  induction turns generalizing s with
  | zero => rfl
  | succ turns ih => simp only [scanLoop, turnLoop, ih]

theorem encodeLoop_eq_turnLoop (turns : Nat) (s : State) :
    encodeLoop turns s = turnLoop encodeTurn turns s := by
  induction turns generalizing s with
  | zero => rfl
  | succ turns ih => simp only [encodeLoop, turnLoop, ih]

theorem decodeLoopFrom_eq_turnLoop (turns : Nat) (s : State) :
    decodeLoopFrom turns s = turnLoop decodeTurn turns s := by
  induction turns generalizing s with
  | zero => rfl
  | succ turns ih => simp only [decodeLoopFrom, turnLoop, ih]

theorem turnLoop_micro {turn : State → Res Bool} (h : ∀ s, (turn s).Micro s) (turns : Nat)
    (s : State) : (turnLoop turn turns s).Micro s := by
  induction turns generalizing s with
  | zero => exact Consumes.refl s
  | succ turns ih => exact (h s).bindIf ih

/-! ### The micro-operations, unit by unit -/

theorem scanTurn_micro (s : State) : (scanTurn s).Micro s := by
  refine (inRead_micro s).bind fun r t _ => ?_
  cases r with
  | none => exact Consumes.refl t
  | some b => exact Consumes.refl t

theorem scanInput_micro (s : State) : (scanInput s).Micro s := by
  rw [scanInput, scanLoop_eq_turnLoop]
  exact turnLoop_micro scanTurn_micro _ s

theorem mergeLowest_micro (s : State) : (mergeLowest s).Micro s := by
  unfold mergeLowest mergeInto
  split
  · trivial
  · split
    · trivial
    · split
      · exact Consumes.refl s
      · trivial

theorem mergeLoop_micro (turns : Nat) (s : State) : (mergeLoop turns s).Micro s := by
  induction turns generalizing s with
  | zero => exact Consumes.refl s
  | succ turns ih =>
    unfold mergeLoop
    split
    · exact (mergeLowest_micro s).bind fun _ t _ => ih t
    · exact Consumes.refl s

theorem buildTree_micro (s : State) : (buildTree s).Micro s :=
  Res.Micro.bind (mergeLoop_micro _ (seedTree s)) fun _ t _ => Consumes.refl t

theorem walkTree_micro (s : State) : (walkTree s).Micro s := by
  unfold walkTree
  split
  · exact Consumes.refl s
  · split
    · exact Consumes.refl s
    · split
      · trivial
      · exact Consumes.refl s

theorem assignCodes_consumes (s : State) : Consumes s (assignCodes s) := by
  unfold assignCodes
  split
  · exact Consumes.refl s
  · exact Consumes.refl s

theorem writeFields_micro (fields : List (Nat × Nat)) (s : State) :
    (writeFields fields s).Micro s := by
  induction fields generalizing s with
  | nil => exact Consumes.refl s
  | cons f fields ih => exact (writeBits_micro f.1 f.2 s).bind fun _ t _ => ih t

theorem writeHeader_micro (s : State) : (writeHeader s).Micro s :=
  writeFields_micro _ s

theorem readField_micro (n : Nat) (s : State) : (readField n s).Micro s := by
  refine (readBitsFrom_micro 0 n s).bind fun r t _ => ?_
  cases r with
  | none => exact (Consumes.refl t).follows.raise _
  | some v => exact Consumes.refl t

theorem readMagic_micro (s : State) : (readMagic s).Micro s := by
  refine (readField_micro 32 s).bind fun m t _ => ?_
  split
  · exact Consumes.refl t
  · exact (Consumes.refl t).follows.raise _

theorem readVersion_micro (s : State) : (readVersion s).Micro s := by
  refine (readField_micro 8 s).bind fun v t _ => ?_
  split
  · exact Consumes.refl t
  · exact (Consumes.refl t).follows.raise _

theorem readOrigLen_micro (s : State) : (readOrigLen s).Micro s :=
  (readField_micro 64 s).bind fun _ t _ => Consumes.refl t

theorem readLens_micro (bs : List Byte) (s : State) : (readLens bs s).Micro s := by
  induction bs generalizing s with
  | nil => exact Consumes.refl s
  | cons b bs ih => exact (readField_micro 8 s).bind fun _ _ _ => ih _

theorem readHeader_micro (s : State) : (readHeader s).Micro s :=
  (readMagic_micro s).bind fun _ t _ => (readVersion_micro t).bind fun _ u _ =>
    (readOrigLen_micro u).bind fun _ v _ => readLens_micro _ v

theorem checkTable_micro (s : State) : (checkTable s).Micro s := by
  unfold checkTable
  dsimp only
  split
  · rename_i c _
    exact (Consumes.refl s).follows.raise c
  · exact Consumes.refl s

theorem encodeByte_micro (b : Byte) (s : State) : (encodeByte b s).Micro s := by
  unfold encodeByte
  split
  · exact (Consumes.refl s).follows.raise _
  · exact writeBits_micro _ _ s

theorem encodeTurn_micro (s : State) : (encodeTurn s).Micro s := by
  refine (inRead_micro s).bind fun r t _ => ?_
  cases r with
  | none => exact Consumes.refl t
  | some b => exact (encodeByte_micro b t).bind fun _ u _ => Consumes.refl u

theorem passesAgree_micro (s : State) : (passesAgree s).Micro s := by
  unfold passesAgree
  split
  · exact Consumes.refl s
  · exact (Consumes.refl s).follows.raise _

theorem encodePass_micro (s : State) : (encodePass s).Micro s := by
  rw [encodePass, encodeLoop_eq_turnLoop]
  exact Res.Micro.bind (turnLoop_micro encodeTurn_micro _ s.emittedClear) fun _ t _ =>
    passesAgree_micro t

theorem emitSymbol_micro (b : Byte) (s : State) : (emitSymbol b s).Micro s :=
  (outWrite_micro b s).bind fun _ t _ => Consumes.refl t

theorem walkBits_micro (levels : Nat) (s : State) : (walkBits levels s).Micro s := by
  induction levels generalizing s with
  | zero => exact (Consumes.refl s).follows.raise _
  | succ levels ih =>
    refine (readBit_micro s).bind fun r t _ => ?_
    cases r with
    | none => exact (Consumes.refl t).follows.raise _
    | some b =>
      dsimp only
      split
      · exact emitSymbol_micro _ (takeEdge b t)
      · split
        · exact ih (takeEdge b t)
        · exact (Consumes.refl (takeEdge b t)).follows.raise _

theorem decodeSymbol_micro (s : State) : (decodeSymbol s).Micro s :=
  walkBits_micro 255 s.atRoot

theorem decodeTurn_micro (s : State) : (decodeTurn s).Micro s := by
  unfold decodeTurn
  split
  · exact (decodeSymbol_micro s).bind fun _ t _ => Consumes.refl t
  · exact Consumes.refl s

theorem decodeAll_micro (s : State) : (decodeAll s).Micro s := by
  rw [decodeAll, decodeLoopFrom_eq_turnLoop]
  exact turnLoop_micro decodeTurn_micro _ s.emittedClear

/-! ### The host commands, and every other operation -/

/-- An operation of any kind: both ends leave ID, and what was output and transacted. -/
abbrev Res.Growing {α : Type} (s : State) (x : Res α) : Prop :=
  x.To (Grows s) (Grows s)

theorem Res.To.growing {α : Type} {s : State} {x : Res α} (hx : x.To (Follows s) (Stops s)) :
    x.Growing s :=
  hx.mono (fun _ h => h.grows) fun _ h => h.grows

theorem Res.Micro.follows {α : Type} {s : State} {x : Res α} (hx : x.Micro s) :
    x.To (Follows s) (Stops s) :=
  hx.mono (fun _ h => h.follows) fun _ h => h

theorem Res.Micro.growing {α : Type} {s : State} {x : Res α} (hx : x.Micro s) : x.Growing s :=
  hx.follows.growing

theorem Res.Growing.bind {α β : Type} {s : State} {x : Res α} {f : α → State → Res β}
    (hx : x.Growing s) (hf : ∀ a t, (f a t).Growing t) : (x.bind f).Growing s :=
  Res.To.bind hx
    (fun a t ht => (hf a t).mono (fun _ h => ht.trans h) fun _ h => ht.trans h) fun _ h => h

theorem buildCodes_growing (s : State) : (buildCodes s).Growing s :=
  (buildTree_micro s).growing.bind fun _ t => (walkTree_micro t).growing.bind fun _ u =>
    (assignCodes_consumes u).follows.grows

theorem finishPack_growing (s : State) : (finishPack s).Growing s :=
  (flushSink_micro s).growing.bind fun _ t => (outClose_micro t).growing

theorem rebuildCodes_growing (s : State) : (rebuildCodes s).Growing s :=
  (checkTable_micro s).growing.bind fun _ t => (assignCodes_consumes t).follows.grows

/-- Entering a phase is no transaction (R31): what grows from there grows from before. -/
theorem Res.Growing.ofEnter {α : Type} {p : Phase} {s : State} {x : Res α}
    (hx : x.Growing (s.enter p)) : x.Growing s := hx

theorem packSequence_growing (s : State) : (packSequence s).Growing s :=
  (scanInput_micro _).growing.ofEnter.bind fun _ _ =>
  (buildCodes_growing _).ofEnter.bind fun _ _ =>
  (writeHeader_micro _).growing.ofEnter.bind fun _ _ =>
  (inRewind_to _).growing.ofEnter.bind fun _ _ =>
  (encodePass_micro _).growing.ofEnter.bind fun _ _ =>
  (finishPack_growing _).ofEnter.bind fun _ s => Grows.refl s

theorem unpackSequence_growing (s : State) : (unpackSequence s).Growing s :=
  (readHeader_micro _).growing.ofEnter.bind fun _ _ =>
  (rebuildCodes_growing _).ofEnter.bind fun _ _ =>
  (decodeAll_micro _).growing.ofEnter.bind fun _ _ =>
  (outClose_micro _).growing.ofEnter.bind fun _ s => Grows.refl s

/-- Where the outcome is a next state, it has grown from `s`. -/
def NextGrows (s : State) (o : Host.Outcome State Fault Refusal) : Prop :=
  ∀ t, o = .next t → Grows s t

theorem nextGrows_next {s t : State} (h : Grows s t) : NextGrows s (.next t) := by
  rintro u ⟨⟩
  exact h

theorem nextGrows_refused (s : State) (r : Refusal) : NextGrows s (.refused r) := by
  rintro t ⟨⟩

theorem Res.Growing.next {α : Type} {s : State} {x : Res α} (hx : x.Growing s) :
    NextGrows s x.outcome :=
  fun _ => hx.outcome_next

theorem execPack_grows (s : State) : NextGrows s (execPack s) := by
  unfold execPack
  split
  · exact (packSequence_growing _).next
  · exact nextGrows_next (Grows.refl s)

theorem execUnpack_grows (s : State) : NextGrows s (execUnpack s) := by
  unfold execUnpack
  split
  · exact (unpackSequence_growing _).next
  · exact nextGrows_next (Grows.refl s)

theorem execWrbits_grows (v L : Nat) (s : State) : NextGrows s (execWrbits v L s) := by
  unfold execWrbits
  split
  · exact (writeBits_micro v L s).growing.next
  · exact nextGrows_refused s _

theorem execRdbit_grows (s : State) : NextGrows s (execRdbit s) :=
  Res.Growing.next ((readBit_micro s).growing.bind fun _ t => Grows.refl t)

theorem execRdbits_grows (n : Nat) (s : State) : NextGrows s (execRdbits n s) := by
  unfold execRdbits
  split
  · exact Res.Growing.next ((readBitsFrom_micro 0 n s).growing.bind fun _ t => Grows.refl t)
  · exact nextGrows_refused s _

theorem exec_grows (i : Instr) (s : State) : NextGrows s (exec i s) := by
  cases i with
  | pack => exact execPack_grows s
  | unpack => exact execUnpack_grows s
  | skInit => exact nextGrows_next (Grows.refl s)
  | wrbits v L => exact execWrbits_grows v L s
  | flush => exact (flushSink_micro s).growing.next
  | srInit => exact nextGrows_next (Grows.refl s)
  | rdbit => exact execRdbit_grows s
  | rdbits n => exact execRdbits_grows n s
  | fqClear => exact nextGrows_next (Grows.refl s)
  | fqCount b => exact nextGrows_next (Grows.refl s)
  | fqScan => exact (scanInput_micro s).growing.next
  | tbSeed => exact nextGrows_next (Grows.refl s)
  | tbMerge => exact (mergeLowest_micro s).growing.next
  | tbBuild => exact (buildTree_micro s).growing.next
  | ctWalk => exact (walkTree_micro s).growing.next
  | ctCanon => exact nextGrows_next (assignCodes_consumes s).follows.grows
  | hdrWrite => exact (writeHeader_micro s).growing.next
  | hdrRead => exact (readHeader_micro s).growing.next
  | lenCheck => exact (checkTable_micro s).growing.next
  | encSym b => exact (encodeByte_micro b s).growing.next
  | encPass => exact (encodePass_micro s).growing.next
  | decSym => exact (decodeSymbol_micro s).growing.next
  | decLoop => exact (decodeAll_micro s).growing.next

/-! ### The sequencer's step (R31) -/

/-- R31: the moves of PHASE from one phase of a command to the next. -/
def forwardMoves : List (Phase × Phase) :=
  [(.pCount, .pBuild), (.pBuild, .pHeader), (.pHeader, .pRewind), (.pRewind, .pEncode),
    (.pEncode, .pFinish), (.pFinish, .done), (.uHeader, .uBuild), (.uBuild, .uDecode),
    (.uDecode, .uFinish), (.uFinish, .done)]

/-- R31: where PHASE can be after one step of the sequencer. -/
def Moves (s t : State) : Prop :=
  t.phase = s.phase ∨ (s.busy = true ∧ t.phase = .error) ∨ (s.phase, t.phase) ∈ forwardMoves

/-- What one step of the sequencer can leave. -/
def Advances (s t : State) : Prop :=
  Grows s t ∧ Moves s t

theorem Follows.advances {s t : State} (h : Follows s t) : Advances s t :=
  ⟨h.grows, .inl h.phase⟩

theorem Stops.advances {s t : State} (hs : s.busy = true) (h : Stops s t) : Advances s t :=
  ⟨h.grows, h.phase.imp_right fun he => .inl ⟨hs, he⟩⟩

/-- The end of a phase: a state that followed moves on. -/
theorem Follows.advances_enter {s t : State} {q : Phase} (h : Follows s t)
    (hq : (s.phase, q) ∈ forwardMoves) : Advances s (t.enter q) :=
  ⟨h.grows, .inr (.inr hq)⟩

/-- Where a phase runs, its part ends by following or stops; what comes after it may move on. -/
theorem Res.To.advances {α : Type} {s : State} {x : Res α} {f : α → State → Res Unit}
    (hs : s.busy = true) (hx : x.To (Follows s) (Stops s))
    (hf : ∀ a t, Follows s t → (f a t).To (Advances s) (Advances s)) :
    (x.bind f).To (Advances s) (Advances s) :=
  hx.bind hf fun _ ht => ht.advances hs

theorem thenEnter_advances {s : State} {q : Phase} {x : Res Unit} (hs : s.busy = true)
    (hq : (s.phase, q) ∈ forwardMoves) (hx : x.Micro s) :
    (thenEnter q x).To (Advances s) (Advances s) :=
  hx.follows.advances hs fun _ _ ht => ht.advances_enter hq

theorem thenLoop_advances {s : State} {exit : State → Res Unit} {x : Res Bool} (hs : s.busy = true)
    (hx : x.Micro s) (hexit : ∀ t, Follows s t → (exit t).To (Advances s) (Advances s)) :
    (thenLoop exit x).To (Advances s) (Advances s) := by
  refine hx.follows.advances hs fun more t ht => ?_
  cases more with
  | true => exact ht.advances
  | false => exact hexit t ht

theorem buildStep_advances {s : State} (hs : s.busy = true) (hp : s.phase = .pBuild) :
    (buildStep s).To (Advances s) (Advances s) := by
  unfold buildStep
  split
  · exact (buildTree_micro s).follows.advances hs fun _ _ ht => ht.advances
  · exact (walkTree_micro s).follows.advances hs fun _ _ ht => ht.advances
  · exact (assignCodes_consumes s).follows.advances_enter (by rw [hp]; decide)

theorem finishStep_advances {s : State} (hs : s.busy = true) (hp : s.phase = .pFinish) :
    (finishStep s).To (Advances s) (Advances s) := by
  unfold finishStep
  split
  · exact (flushSink_micro s).follows.advances hs fun _ _ ht => ht.advances
  · exact thenEnter_advances hs (by rw [hp]; decide) (outClose_micro s)

theorem rebuildStep_advances {s : State} (hs : s.busy = true) (hp : s.phase = .uBuild) :
    (rebuildStep s).To (Advances s) (Advances s) := by
  unfold rebuildStep
  split
  · exact (checkTable_micro s).follows.advances hs fun _ _ ht => ht.advances
  · exact (assignCodes_consumes s).follows.advances_enter (q := .uDecode) (by rw [hp]; decide)

theorem rewindStep_advances {s : State} (hs : s.busy = true) (hp : s.phase = .pRewind) :
    (rewindStep s).To (Advances s) (Advances s) :=
  (inRewind_to s).advances hs fun _ _ ht =>
    ht.advances_enter (q := .pEncode) (by rw [hp]; decide)

/-- R224, R225: the end of pass 2. -/
theorem passesAgree_advances {s t : State} (hs : s.busy = true) (hp : s.phase = .pEncode)
    (ht : Follows s t) : (thenEnter .pFinish (passesAgree t)).To (Advances s) (Advances s) :=
  (passesAgree_micro t).follows.bind
    (fun _ _ hu => (ht.trans hu).advances_enter (by rw [hp]; decide))
    fun _ hu => (ht.stops hu).advances hs

/-- R30, R31: one step of the sequencer, phase by phase. -/
theorem phaseStep_advances (s : State) : (phaseStep s).To (Advances s) (Advances s) := by
  have hstay : Advances s s := (Consumes.refl s).follows.advances
  have hbusy : s.phase.busy = true → s.busy = true := id
  unfold phaseStep
  cases hp : s.phase <;> rw [hp] at hbusy
  case idle => exact hstay
  case done => exact hstay
  case error => exact hstay
  case pCount =>
    exact thenLoop_advances (hbusy rfl) (scanTurn_micro s) fun _ ht =>
      ht.advances_enter (by rw [hp]; decide)
  case pBuild => exact buildStep_advances (hbusy rfl) hp
  case pHeader => exact thenEnter_advances (hbusy rfl) (by rw [hp]; decide) (writeHeader_micro s)
  case pRewind => exact rewindStep_advances (hbusy rfl) hp
  case pEncode =>
    exact thenLoop_advances (hbusy rfl) (encodeTurn_micro s) fun _ ht =>
      passesAgree_advances (hbusy rfl) hp ht
  case pFinish => exact finishStep_advances (hbusy rfl) hp
  case uHeader => exact thenEnter_advances (hbusy rfl) (by rw [hp]; decide) (readHeader_micro s)
  case uBuild => exact rebuildStep_advances (hbusy rfl) hp
  case uDecode =>
    exact thenLoop_advances (hbusy rfl) (decodeTurn_micro s) fun _ ht =>
      ht.advances_enter (by rw [hp]; decide)
  case uFinish => exact thenEnter_advances (hbusy rfl) (by rw [hp]; decide) (outClose_micro s)

theorem sequencerTurn_advances {s t : State} (h : sequencerTurn s = .next t) : Advances s t := by
  unfold sequencerTurn at h
  split at h
  · cases h
    exact (Consumes.refl s).follows.advances
  · exact (phaseStep_advances s).outcome_next h

/-- Settles O13: the sequencer's step, phase by phase; dropping the host's wait changes no register. -/
theorem phaseMovesForward : Obligations.PhaseMovesForward := by
  unfold Obligations.PhaseMovesForward
  intro s t hissue hhost hstep
  rw [step_host hissue] at hstep
  rcases hh : s.host with _ | ⟨a, rest⟩
  · rw [hostTurn_none hh] at hstep
    exact (sequencerTurn_advances hstep).2
  · obtain rfl : a = .wait := by
      rw [hh] at hhost
      exact hhost
    rw [hostTurn_wait hh] at hstep
    exact (sequencerTurn_advances hstep).2

/-! ### The host's accesses, and every step -/

theorem writeCommand_grows (value : Byte) (s : State) : Grows s (writeCommand value s) := by
  unfold writeCommand
  split
  · split
    · exact Grows.refl s
    · split
      · exact Grows.refl s
      · exact Grows.refl s
  · exact Grows.refl s

theorem writeRegister_grows (number : Nat) (value : Byte) (s : State) :
    Grows s (writeRegister number value s) := by
  unfold writeRegister
  split
  · exact writeCommand_grows value s
  · exact Grows.refl s

/-- R64: of the host's accesses only the binding of an output takes output back. -/
theorem hostAccess_growing {a : HostAction} (ha : a ≠ .bindOutput) (s : State) :
    (hostAccess a s).Growing s := by
  cases a with
  | wait => exact Grows.refl s
  | readRegister number => exact Grows.refl s
  | writeRegister number value => exact writeRegister_grows number value s
  | bindInput bytes rewound =>
    simp only [hostAccess]
    split
    · exact Grows.refl s
    · trivial
  | bindOutput => exact absurd rfl ha
  | reset => exact Grows.refl s

/-- R64, R305: the binding of an output. -/
theorem hostAccess_bindOutput_next {s t : State} (h : (hostAccess .bindOutput s).outcome = .next t) :
    t = s.bindOutput := by
  simp only [hostAccess] at h
  split at h
  · cases h
    rfl
  · cases h

/-- What every step has: ID and the transactions made, and OUT where no output is bound. -/
def StepGrows (s t : State) : Prop :=
  t.id = s.id ∧ s.chan.trace <:+ t.chan.trace ∧
    ((∀ rest, s.host ≠ .bindOutput :: rest) → s.chan.out <+: t.chan.out)

theorem Grows.stepGrows {s t : State} (h : Grows s t) : StepGrows s t := by
  obtain ⟨hid, htrace, hout⟩ := h
  exact ⟨hid, htrace, fun _ => hout⟩

theorem hostTurn_stepGrows {s t : State} (h : hostTurn s = .next t) : StepGrows s t := by
  rcases hh : s.host with _ | ⟨a, rest⟩
  · rw [hostTurn_none hh] at h
    exact (sequencerTurn_advances h).1.stepGrows
  · by_cases hwait : a = .wait
    · subst hwait
      rw [hostTurn_wait hh] at h
      exact Grows.stepGrows (sequencerTurn_advances h).1
    · rw [hostTurn_access hwait hh] at h
      by_cases hbind : a = .bindOutput
      · subst hbind
        obtain rfl := hostAccess_bindOutput_next h
        exact ⟨rfl, List.suffix_rfl, fun hno => absurd hh (hno rest)⟩
      · have hgrows := (hostAccess_growing hbind _).outcome_next h
        exact Grows.stepGrows (s := s) hgrows

theorem issueTurn_stepGrows {s t : State} (h : issueTurn s = .next t) : StepGrows s t := by
  unfold issueTurn at h
  split at h
  · have hgrows := exec_grows _ _ t h
    exact Grows.stepGrows (s := s) hgrows
  · cases h

/-- Settles O14: whoever has the turn. -/
theorem stepOnlyAppendsToOutput : Obligations.StepOnlyAppendsToOutput := by
  unfold Obligations.StepOnlyAppendsToOutput
  intro s t hstep
  by_cases hturn : s.issue = [] ∨ s.hung = true
  · have hhost : step s = hostTurn s := hturn.elim step_host step_hung
    exact hostTurn_stepGrows (hhost.symm.trans hstep)
  · obtain ⟨hissue, hhung⟩ := not_or.mp hturn
    rw [step_issue hissue (Bool.eq_false_of_not_eq_true hhung)] at hstep
    exact issueTurn_stepGrows hstep

end Sys2Proof.Machine

namespace Sys2Proof.Machine

/-! ### The sequencer runs a command, step by step (R30, R112, R220, R240) -/

/-- The sequencer is to make the step `k` of phase `p`: nothing is issued, no access of the host
comes, no transaction is waited for. -/
def Ready (p : Phase) (k : Nat) (s : State) : Prop :=
  s.phase = p ∧ s.sub = k ∧ s.hung = false ∧ s.issue = [] ∧ s.host = []

theorem Ready.phase {p : Phase} {k : Nat} {s : State} (h : Ready p k s) : s.phase = p := h.1

theorem Ready.sub {p : Phase} {k : Nat} {s : State} (h : Ready p k s) : s.sub = k := h.2.1

theorem Ready.step {p : Phase} {k : Nat} {s : State} (h : Ready p k s) :
    step s = (phaseStep s).outcome := by
  obtain ⟨-, -, hhung, hissue, hhost⟩ := h
  rw [step_sequencer hissue hhost, sequencerTurn_runs hhung]

theorem Ready.enter {p q : Phase} {k : Nat} {s : State} (h : Ready p k s) :
    Ready q 0 (s.enter q) := by
  obtain ⟨-, -, hidle⟩ := h
  exact ⟨rfl, rfl, hidle⟩

theorem Ready.nextSub {p : Phase} {k : Nat} {s : State} (h : Ready p k s) :
    Ready p (k + 1) s.nextSub := by
  obtain ⟨hp, hk, hidle⟩ := h
  exact ⟨hp, congrArg (· + 1) hk, hidle⟩

theorem Ready.of_follows {p : Phase} {k : Nat} {s t : State} (h : Ready p k s) (hf : Follows s t) :
    Ready p k t := by
  obtain ⟨hp, hk, hhung, hissue, hhost⟩ := h
  obtain ⟨-, hp', hk', hhung', hissue', hhost'⟩ := hf
  exact ⟨hp'.trans hp, hk'.trans hk, hhung'.trans hhung, hissue'.trans hissue, hhost'.trans hhost⟩

/-- A micro-operation that ran to its end leaves the sequencer where it was. -/
theorem Ready.of_ok {α : Type} {p : Phase} {k : Nat} {s t : State} {x : Res α} {a : α}
    (h : Ready p k s) (hx : x.To (Follows s) (Stops s)) (e : x = .ok a t) : Ready p k t :=
  h.of_follows (hx.of_ok e)

/-- From what `z` leaves the machine comes, in some steps, to what `x` gives as one operation, unless
`x` waits for ever. -/
def Res.LeadsTo (z x : Res Unit) : Prop :=
  ∀ t, x.outcome = .next t → t.hung = false →
    ∃ v n, z.outcome = .next v ∧ runSteps n v = .next t

theorem Res.LeadsTo.refl (x : Res Unit) : x.LeadsTo x :=
  fun t ht _ => ⟨t, 0, ht, rfl⟩

/-- One step of the sequencer. -/
theorem Ready.leadsTo {p : Phase} {k : Nat} {s : State} {x : Res Unit} (h : Ready p k s)
    (hx : (phaseStep s).LeadsTo x) : (Res.ok () s).LeadsTo x := by
  intro t ht hhung
  obtain ⟨v, n, hv, hn⟩ := hx t ht hhung
  refine ⟨s, n + 1, rfl, ?_⟩
  rw [runSteps, h.step, hv]
  exact hn

/-- Two operations with a part in common are compared from where it ends; where the sequencer stops
inside it they stop alike. -/
theorem Res.LeadsTo.bind {α : Type} {y : Res α} {e f : α → State → Res Unit}
    (h : ∀ a u, y = .ok a u → (e a u).LeadsTo (f a u)) : (y.bind e).LeadsTo (y.bind f) := by
  cases y with
  | ok a u => exact h a u rfl
  | stop u => exact Res.LeadsTo.refl _
  | fault r =>
    rintro t ⟨⟩
  | refuse r =>
    rintro t ⟨⟩

/-- R112: a loop made one turn a step comes to its end, where its turns use something up. -/
theorem leadsTo_turnLoop {p : Phase} {turn : State → Res Bool} {exit f : State → Res Unit}
    (measure : State → Nat) (hstep : ∀ s, s.phase = p → phaseStep s = thenLoop exit (turn s))
    (hturn : ∀ s, (turn s).Micro s)
    (hless : ∀ s t, turn s = .ok true t → measure t < measure s)
    (hexit : ∀ u, Ready p 0 u → (exit u).LeadsTo (f u))
    (turns : Nat) {s : State} (h : Ready p 0 s) (henough : measure s < turns) :
    (Res.ok () s).LeadsTo ((turnLoop turn turns s).bind fun _ u => f u) := by
  induction turns generalizing s with
  | zero => omega
  | succ turns ih =>
    refine h.leadsTo ?_
    rw [hstep s h.phase, turnLoop, Res.bind_assoc]
    refine Res.LeadsTo.bind fun more u e => ?_
    have hu := h.of_ok (hturn s).follows e
    cases more with
    | true =>
      have := hless s u e
      exact ih hu (by omega)
    | false => exact hexit u hu

/-- Phase `p`, from the state after `a`, makes `part`, and the sequencer goes on in phase `q`, in the
state after `b`: whatever `f` comes next as one operation, the sequencer comes to it. -/
def Runs (p : Phase) (a : State → State) (part : State → Res Unit) (q : Phase)
    (b : State → State) : Prop :=
  ∀ (s : State) (f : State → Res Unit), Ready p 0 s →
    (∀ u, Ready q 0 (u.enter q) → (Res.ok () (b (u.enter q))).LeadsTo (f u)) →
    (Res.ok () (a s)).LeadsTo ((part s).bind fun _ u => f u)

/-! ### What the loops use up -/

theorem inRead_lt {s t : State} {b : Byte} (h : inRead s = .ok (some b) t) :
    t.chan.rest.length < s.chan.rest.length := by
  rcases inRead_cases s with ⟨b', bs, hr, e⟩ | ⟨-, e⟩ | e | e
  · cases e.symm.trans h
    simp [hr]
  · cases e.symm.trans h
  · cases e.symm.trans h
  · cases e.symm.trans h

theorem scanTurn_lt {s t : State} (h : scanTurn s = .ok true t) :
    t.chan.rest.length < s.chan.rest.length := by
  obtain ⟨r, u, hu, ht⟩ := Res.bind_ok.mp h
  cases r with
  | none => cases ht
  | some b =>
    cases ht
    exact inRead_lt (t := u) hu

theorem encodeTurn_lt {s t : State} (h : encodeTurn s = .ok true t) :
    t.chan.rest.length < s.chan.rest.length := by
  obtain ⟨r, u, hu, ht⟩ := Res.bind_ok.mp h
  cases r with
  | none => cases ht
  | some b =>
    obtain ⟨⟨⟩, v, hv, ht⟩ := Res.bind_ok.mp ht
    cases ht
    exact ((encodeByte_micro b u).of_ok hv).bytes.trans_lt (inRead_lt hu)

/-- R242: DEC_SYM takes a bit at least. -/
theorem walkBits_lt {levels : Nat} {s t : State} (h : walkBits levels s = .ok () t) :
    bitsLeft t < bitsLeft s := by
  cases levels with
  | zero => cases h
  | succ levels =>
    obtain ⟨r, u, hu, ht⟩ := Res.bind_ok.mp h
    cases r with
    | none => cases ht
    | some b =>
      refine lt_of_le_of_lt ?_ (readBit_lt hu)
      dsimp only at ht
      split at ht
      · exact ((emitSymbol_micro _ (takeEdge b u)).of_ok ht).bits
      · split at ht
        · exact ((walkBits_micro levels (takeEdge b u)).of_ok ht).bits
        · cases ht

theorem decodeTurn_lt {s t : State} (h : decodeTurn s = .ok true t) : bitsLeft t < bitsLeft s := by
  unfold decodeTurn at h
  split at h
  · obtain ⟨⟨⟩, u, hu, ht⟩ := Res.bind_ok.mp h
    cases ht
    exact walkBits_lt (s := s.atRoot) (t := u) hu
  · cases h

/-! ### The steps inside a phase (log 21)

The operations the sequencer makes after the first of a phase find another `sub`, which they carry
along. -/

theorem walkTree_nextSub (s : State) :
    walkTree s.nextSub = (walkTree s).bind fun _ t => .ok () t.nextSub := by
  have hroot : s.nextSub.root = s.root := rfl
  have hnode : s.nextSub.node = s.node := rfl
  unfold walkTree
  rw [hroot, hnode]
  split
  · rfl
  · split
    · rfl
    · split
      · rfl
      · rfl

theorem assignCodes_nextSub (s : State) : assignCodes s.nextSub = (assignCodes s).nextSub := by
  have hlen : s.nextSub.len = s.len := rfl
  unfold assignCodes
  rw [hlen]
  split
  · rfl
  · rfl

/-- R66: an OutClose ends or raises alike; one that is never answered keeps the step it stopped in. -/
theorem outClose_nextSub (s : State) :
    outClose s.nextSub = ((outClose s).bind fun _ t => .ok () t.nextSub) ∨
      ∃ t, outClose s = .stop t ∧ t.hung = true := by
  have hchan : s.nextSub.chan = s.chan := rfl
  unfold outClose
  rw [hchan]
  split
  · exact .inl rfl
  · unfold afterAck
    cases s.chan.outClose.1 with
    | ok => exact .inl rfl
    | fail => exact .inl rfl
    | never => exact .inr ⟨_, rfl, rfl⟩

theorem State.enter_nextSub (p : Phase) (s : State) : s.nextSub.enter p = s.enter p := rfl

/-! ### The step of each phase -/

theorem phaseStep_pCount {s : State} (hp : s.phase = .pCount) :
    phaseStep s = thenLoop (fun u => .ok () (u.enter .pBuild)) (scanTurn s) := by
  simp only [phaseStep, hp]

theorem phaseStep_buildTree {s : State} (h : Ready .pBuild 0 s) :
    phaseStep s = (buildTree s).bind fun _ u => .ok () u.nextSub := by
  simp only [phaseStep, h.phase, buildStep, h.sub]

theorem phaseStep_walkTree {s : State} (h : Ready .pBuild 1 s) :
    phaseStep s = (walkTree s).bind fun _ u => .ok () u.nextSub := by
  simp only [phaseStep, h.phase, buildStep, h.sub]

theorem phaseStep_assignCodes {s : State} (h : Ready .pBuild 2 s) :
    phaseStep s = .ok () ((assignCodes s).enter .pHeader) := by
  simp only [phaseStep, h.phase, buildStep, h.sub]

theorem phaseStep_pHeader {s : State} (hp : s.phase = .pHeader) :
    phaseStep s = (writeHeader s).bind fun _ u => .ok () (u.enter .pRewind) := by
  simp only [phaseStep, hp, thenEnter]

theorem phaseStep_pRewind {s : State} (hp : s.phase = .pRewind) :
    phaseStep s = (inRewind s).bind fun _ u => .ok () (u.enter .pEncode).emittedClear := by
  simp only [phaseStep, hp, rewindStep]

theorem phaseStep_pEncode {s : State} (hp : s.phase = .pEncode) :
    phaseStep s = thenLoop (fun u => (passesAgree u).bind fun _ v => .ok () (v.enter .pFinish))
      (encodeTurn s) := by
  simp only [phaseStep, hp, thenEnter]

theorem phaseStep_flushSink {s : State} (h : Ready .pFinish 0 s) :
    phaseStep s = (flushSink s).bind fun _ u => .ok () u.nextSub := by
  simp only [phaseStep, h.phase, finishStep, h.sub]

theorem phaseStep_outClose {s : State} (h : Ready .pFinish 1 s) :
    phaseStep s = thenEnter .done (outClose s) := by
  simp only [phaseStep, h.phase, finishStep, h.sub]

theorem phaseStep_uHeader {s : State} (hp : s.phase = .uHeader) :
    phaseStep s = (readHeader s).bind fun _ u => .ok () (u.enter .uBuild) := by
  simp only [phaseStep, hp, thenEnter]

theorem phaseStep_checkTable {s : State} (h : Ready .uBuild 0 s) :
    phaseStep s = (checkTable s).bind fun _ u => .ok () u.nextSub := by
  simp only [phaseStep, h.phase, rebuildStep, h.sub]

theorem phaseStep_rebuildCodes {s : State} (h : Ready .uBuild 1 s) :
    phaseStep s = .ok () ((assignCodes s).enter .uDecode).emittedClear := by
  simp only [phaseStep, h.phase, rebuildStep, h.sub]

theorem phaseStep_uDecode {s : State} (hp : s.phase = .uDecode) :
    phaseStep s = thenLoop (fun u => .ok () (u.enter .uFinish)) (decodeTurn s) := by
  simp only [phaseStep, hp]

theorem phaseStep_uFinish {s : State} (hp : s.phase = .uFinish) :
    phaseStep s = (outClose s).bind fun _ u => .ok () (u.enter .done) := by
  simp only [phaseStep, hp, thenEnter]

/-! ### The phases of PACK (R220) -/

theorem pCount_runs : Runs .pCount id scanInput .pBuild id := by
  intro s f hs hf
  rw [scanInput, scanLoop_eq_turnLoop]
  refine leadsTo_turnLoop (fun s => s.chan.rest.length) (fun _ => phaseStep_pCount) scanTurn_micro
    (fun _ _ => scanTurn_lt) (fun u hu => hf u hu.enter) _ hs ?_
  rw [readTurns_eq]
  exact Nat.lt_succ_self _

theorem pBuild_runs : Runs .pBuild id buildCodes .pHeader id := by
  intro s f hs hf
  refine hs.leadsTo ?_
  simp only [phaseStep_buildTree hs, buildCodes, Res.bind_assoc, Res.ok_bind]
  refine Res.LeadsTo.bind fun _ u hu => ?_
  have hu := hs.of_ok (buildTree_micro s).follows hu
  refine hu.nextSub.leadsTo ?_
  simp only [phaseStep_walkTree hu.nextSub, walkTree_nextSub, Res.bind_assoc, Res.ok_bind]
  refine Res.LeadsTo.bind fun _ v hv => ?_
  have hv := hu.of_ok (walkTree_micro u).follows hv
  refine hv.nextSub.nextSub.leadsTo ?_
  simp only [phaseStep_assignCodes hv.nextSub.nextSub, assignCodes_nextSub, State.enter_nextSub]
  exact hf _ (hv.of_follows (assignCodes_consumes v).follows).enter

theorem pHeader_runs : Runs .pHeader id writeHeader .pRewind id := by
  intro s f hs hf
  refine hs.leadsTo ?_
  rw [phaseStep_pHeader hs.phase]
  exact Res.LeadsTo.bind fun _ u hu => hf u (hs.of_ok (writeHeader_micro s).follows hu).enter

theorem pRewind_runs : Runs .pRewind id inRewind .pEncode State.emittedClear := by
  intro s f hs hf
  refine hs.leadsTo ?_
  rw [phaseStep_pRewind hs.phase]
  exact Res.LeadsTo.bind fun _ u hu => hf u (hs.of_ok (inRewind_to s) hu).enter

theorem pEncode_runs : Runs .pEncode State.emittedClear encodePass .pFinish id := by
  intro s f hs hf
  have hclear : Ready .pEncode 0 s.emittedClear := hs
  simp only [encodePass, encodeLoop_eq_turnLoop, Res.bind_assoc]
  refine leadsTo_turnLoop (fun s => s.chan.rest.length) (fun _ => phaseStep_pEncode)
    encodeTurn_micro (fun _ _ => encodeTurn_lt) (fun u hu => ?_) _ hclear ?_
  · exact Res.LeadsTo.bind fun _ v hv => hf v (hu.of_ok (passesAgree_micro u).follows hv).enter
  · rw [readTurns_eq]
    exact Nat.lt_succ_self _

/-- OutClose as the last step of a command, whatever step of its phase it is. -/
theorem outClose_leadsTo {s : State} {f : State → Res Unit}
    (hf : ∀ u, outClose s = .ok () u → (Res.ok () (u.enter .done)).LeadsTo (f u)) :
    (thenEnter .done (outClose s.nextSub)).LeadsTo ((outClose s).bind fun _ u => f u) := by
  rcases outClose_nextSub s with e | ⟨t, e, hhung⟩
  · rw [thenEnter, e, Res.bind_assoc]
    exact Res.LeadsTo.bind fun _ u hu => hf u hu
  · rw [e]
    rintro u ⟨⟩ hno
    rw [hhung] at hno
    cases hno

theorem pFinish_runs : Runs .pFinish id finishPack .done id := by
  intro s f hs hf
  refine hs.leadsTo ?_
  simp only [phaseStep_flushSink hs, finishPack, Res.bind_assoc]
  refine Res.LeadsTo.bind fun _ u hu => ?_
  have hu := hs.of_ok (flushSink_micro s).follows hu
  refine hu.nextSub.leadsTo ?_
  rw [phaseStep_outClose hu.nextSub]
  exact outClose_leadsTo fun v hv => hf v (hu.of_ok (outClose_micro u).follows hv).enter

/-- R220: from the state the start sequence leaves, the sequencer comes to what PACK gives as one
operation. -/
theorem packSequence_leadsTo {s : State} (hs : Ready .pCount 0 (s.enter .pCount)) :
    (Res.ok () (s.enter .pCount)).LeadsTo (packSequence s) :=
  pCount_runs _ _ hs fun _ hs => pBuild_runs _ _ hs fun _ hs => pHeader_runs _ _ hs fun _ hs =>
    pRewind_runs _ _ hs fun _ hs => pEncode_runs _ _ hs fun _ hs => pFinish_runs _ _ hs fun _ _ =>
      Res.LeadsTo.refl _

/-! ### The phases of UNPACK (R240) -/

theorem uHeader_runs : Runs .uHeader id readHeader .uBuild id := by
  intro s f hs hf
  refine hs.leadsTo ?_
  rw [phaseStep_uHeader hs.phase]
  exact Res.LeadsTo.bind fun _ u hu => hf u (hs.of_ok (readHeader_micro s).follows hu).enter

theorem uBuild_runs : Runs .uBuild id rebuildCodes .uDecode State.emittedClear := by
  intro s f hs hf
  refine hs.leadsTo ?_
  simp only [phaseStep_checkTable hs, rebuildCodes, Res.bind_assoc, Res.ok_bind]
  refine Res.LeadsTo.bind fun _ u hu => ?_
  have hu := hs.of_ok (checkTable_micro s).follows hu
  refine hu.nextSub.leadsTo ?_
  simp only [phaseStep_rebuildCodes hu.nextSub, assignCodes_nextSub, State.enter_nextSub]
  exact hf _ (hu.of_follows (assignCodes_consumes u).follows).enter

theorem uDecode_runs : Runs .uDecode State.emittedClear decodeAll .uFinish id := by
  intro s f hs hf
  have hclear : Ready .uDecode 0 s.emittedClear := hs
  rw [decodeAll, decodeLoopFrom_eq_turnLoop]
  exact leadsTo_turnLoop bitsLeft (fun _ => phaseStep_uDecode) decodeTurn_micro
    (fun _ _ => decodeTurn_lt) (fun u hu => hf u hu.enter) _ hclear (Nat.lt_succ_self _)

theorem uFinish_runs : Runs .uFinish id outClose .done id := by
  intro s f hs hf
  refine hs.leadsTo ?_
  rw [phaseStep_uFinish hs.phase]
  exact Res.LeadsTo.bind fun _ u hu => hf u (hs.of_ok (outClose_micro s).follows hu).enter

/-- R240: from the state the start sequence leaves, the sequencer comes to what UNPACK gives as one
operation. -/
theorem unpackSequence_leadsTo {s : State} (hs : Ready .uHeader 0 (s.enter .uHeader)) :
    (Res.ok () (s.enter .uHeader)).LeadsTo (unpackSequence s) :=
  uHeader_runs _ _ hs fun _ hs => uBuild_runs _ _ hs fun _ hs => uDecode_runs _ _ hs fun _ hs =>
    uFinish_runs _ _ hs fun _ _ => Res.LeadsTo.refl _

/-! ### The command the host starts -/

theorem accepts_iff {s : State} : s.accepts = true ↔ s.busy = false ∧ s.hung = false := by
  simp [State.accepts]

/-- R41, R303: what an accepted write of CMD does. -/
theorem writeCommand_starts {s : State} (h : s.accepts = true) {value : Byte} {first : Phase}
    (hv : (value = 0x01 ∧ first = .pCount) ∨ (value = 0x02 ∧ first = .uHeader)) :
    writeCommand value s = s.startCommand first := by
  rw [writeCommand, if_pos h]
  rcases hv with ⟨rfl, rfl⟩ | ⟨rfl, rfl⟩
  · rw [if_pos rfl]
  · rw [if_neg (by decide), if_pos rfl]

/-- R41: a write of CMD is one step. -/
theorem step_writeCommand {s : State} {value : Byte} {rest : List HostAction}
    (hissue : s.issue = []) (hhost : s.host = .writeRegister 0 value :: rest) :
    step s = .next (writeCommand value { s with host := rest }) := by
  rw [step_host hissue, hostTurn_access (by simp) hhost]
  rfl

theorem startCommand_ready {s : State} (first : Phase) (haccepts : s.accepts = true)
    (hissue : s.issue = []) : Ready first 0 (State.startCommand first { s with host := [] }) := by
  obtain ⟨-, hhung⟩ := accepts_iff.mp haccepts
  exact ⟨rfl, rfl, hhung, hissue, rfl⟩

/-- A sequence the sequencer comes to from the state the start sequence leaves, it comes to from the
state in which the host writes CMD. -/
theorem runSteps_of_leadsTo {s t u : State} {x : Res Unit} (hstep : step s = .next u)
    (hx : (Res.ok () u).LeadsTo x) (ht : x.outcome = .next t) (hhung : t.hung = false) :
    ∃ n, runSteps n s = .next t := by
  obtain ⟨v, n, hv, hn⟩ := hx t ht hhung
  cases hv
  refine ⟨n + 1, ?_⟩
  rw [runSteps, hstep]
  exact hn

/-- Settles O59: the write of CMD is the first step, and then each phase of the command comes, step by
step, to what its part gives as one operation. -/
theorem sequencerRunsTheCommand : Obligations.SequencerRunsTheCommand := by
  unfold Obligations.SequencerRunsTheCommand
  intro s t value i hi haccepts hissue hhost hexec hhung
  have hstep := step_writeCommand hissue hhost
  have haccepts' : State.accepts { s with host := [] } = true := haccepts
  rcases hi with ⟨rfl, rfl⟩ | ⟨rfl, rfl⟩
  · rw [writeCommand_starts haccepts' (.inl ⟨rfl, rfl⟩)] at hstep
    have hpack : exec .pack { s with host := [] } = _ := if_pos haccepts'
    exact runSteps_of_leadsTo hstep
      (packSequence_leadsTo (startCommand_ready .pCount haccepts hissue))
      (hpack.symm.trans hexec) hhung
  · rw [writeCommand_starts haccepts' (.inr ⟨rfl, rfl⟩)] at hstep
    have hunpack : exec .unpack { s with host := [] } = _ := if_pos haccepts'
    exact runSteps_of_leadsTo hstep
      (unpackSequence_leadsTo (startCommand_ready .uHeader haccepts hissue))
      (hunpack.symm.trans hexec) hhung

end Sys2Proof.Machine

namespace Sys2Proof.Machine

/-! ### Reset, and the command port (R40 to R46, R300, R303 to R305) -/

/-- R304: after reset nothing is issued, no access of the host comes, and no command runs. -/
theorem step_reset : step State.reset = .next State.reset := by
  rw [step_sequencer rfl rfl, sequencerTurn_runs rfl]
  rfl

/-- Settles O6: the fields of the reset state, ID at the defaults (log 1), and one idle step. -/
theorem resetLeavesTheBlockIdle : Obligations.ResetLeavesTheBlockIdle := by
  have hid : State.reset.id = 0x4855464601 := by decide
  exact ⟨rfl, rfl, rfl, rfl, rfl, rfl, rfl, rfl, rfl, rfl, rfl, rfl, rfl, rfl, rfl, hid, step_reset⟩

/-- Settles O7: no error, an empty sink and walker, an input not begun, and an arena with no node. -/
theorem invAtReset : Obligations.InvAtReset := by
  have herr : State.reset.errOk := ⟨by decide, fun _ => rfl⟩
  exact ⟨herr, .inr (.inr (by decide)), by simp [State.walkerOk, State.reset], le_rfl,
    State.arenaOk_of_empty rfl rfl rfl⟩

/-- R41, R312: what does not accept ignores every write of CMD. -/
theorem writeCommand_ignored {s : State} (h : s.accepts = false) (value : Byte) :
    writeCommand value s = s := by
  rw [writeCommand, if_neg (by rw [h]; decide)]

theorem not_accepts_of_busy {s : State} (h : s.busy = true ∨ s.hung = true) :
    s.accepts = false := by
  rw [Bool.eq_false_iff, Ne, accepts_iff]
  rintro ⟨hbusy, hhung⟩
  simp [hbusy, hhung] at h

/-- R115: a value that names no command is ignored. -/
theorem writeCommand_reserved {value : Byte} (h₁ : value ≠ 0x01) (h₂ : value ≠ 0x02) (s : State) :
    writeCommand value s = s := by
  rw [writeCommand, if_neg h₁, if_neg h₂, ite_self]

/-- Settles O9: the write is the host's turn, and is ignored or starts the command. -/
theorem commandWriteStartsOrIsIgnored : Obligations.CommandWriteStartsOrIsIgnored := by
  unfold Obligations.CommandWriteStartsOrIsIgnored
  intro s value rest hissue hhost
  rw [step_writeCommand hissue hhost]
  refine ⟨fun hbusy => ?_, fun h₁ h₂ => ?_, fun hbusy hhung first hv => ?_⟩
  · have hno : State.accepts { s with host := rest } = false := not_accepts_of_busy (.inl hbusy)
    exact congrArg _ (writeCommand_ignored hno value)
  · exact congrArg _ (writeCommand_reserved h₁ h₂ _)
  · have hyes : State.accepts { s with host := rest } = true := accepts_iff.mpr ⟨hbusy, hhung⟩
    exact congrArg _ (writeCommand_starts hyes hv)

/-- Settles O51: what does not accept a command leaves the state as it is. -/
theorem commandsAreIgnoredWhileBusy : Obligations.CommandsAreIgnoredWhileBusy := by
  unfold Obligations.CommandsAreIgnoredWhileBusy
  intro s h
  have hno : ¬ s.accepts = true := by
    rw [not_accepts_of_busy h]
    decide
  exact ⟨if_neg hno, if_neg hno⟩

/-! ### The host's accesses -/

/-- R42: the STATUS word by its fields. -/
theorem status_toNat (s : State) :
    s.status.toNat =
      (if 1 ≤ s.phase.number.toNat ∧ s.phase.number.toNat ≤ 11 then 1 else 0)
        + (if s.phase = .done then 2 else 0) + (if s.phase = .error then 4 else 0)
        + 16 * s.degen.number.toNat + 256 * s.phase.number.toNat := by
  rw [State.status]
  cases s.phase <;> cases s.degen <;> decide

/-- R40, R42 to R46: what a read of each register returns. -/
theorem readRegister_spec (number : Nat) (s : State) :
    (number = 1 → (readRegister number s).toNat = s.status.toNat) ∧
    (number = 2 → (readRegister number s).toNat = s.err.number.toNat) ∧
    (number = 3 → (readRegister number s).toNat = s.errInfo.toNat) ∧
    (number = 4 → readRegister number s = s.origLen) ∧
    (number = 5 → readRegister number s = s.emitted) ∧
    (number = 6 → (readRegister number s).toNat = s.nsym.val) ∧
    (number = 7 → (readRegister number s).toNat = s.id.toNat) ∧
    (number = 0 ∨ 7 < number → readRegister number s = 0) := by
  refine ⟨?_, ?_, ?_, ?_, ?_, ?_, ?_, ?_⟩
  · rintro rfl
    exact BitVec.toNat_setWidth_of_le (by decide)
  · rintro rfl
    exact BitVec.toNat_setWidth_of_le (by decide)
  · rintro rfl
    exact BitVec.toNat_setWidth_of_le (by decide)
  · rintro rfl
    rfl
  · rintro rfl
    rfl
  · rintro rfl
    exact Nat.mod_eq_of_lt (s.nsym.isLt.trans (by decide))
  · rintro rfl
    exact BitVec.toNat_setWidth_of_le (by decide)
  · rintro (rfl | h)
    · rfl
    · obtain ⟨n, rfl⟩ := Nat.exists_eq_add_of_lt h
      rw [show 7 + n + 1 = n + 8 by omega]
      rfl

/-- An access of the host, where it has the turn. -/
theorem step_access {s : State} {a : HostAction} {rest : List HostAction}
    (hturn : s.issue = [] ∨ s.hung = true) (hhost : s.host = a :: rest) (ha : a ≠ .wait) :
    step s = (hostAccess a { s with host := rest }).outcome :=
  (hturn.elim step_host step_hung).trans (hostTurn_access ha hhost)

/-- R305, R311: what the host binds is bound where no command runs, and else refused (log 22). -/
theorem bind_outcome (s t : State) :
    (s.accepts = true →
      (if s.accepts then Res.ok () t else .refuse .boundWhileBusy).outcome = .next t) ∧
    (s.accepts = false →
      (if s.accepts then Res.ok () t else .refuse .boundWhileBusy).outcome
        = .refused .boundWhileBusy) := by
  constructor
  · intro h
    rw [if_pos h, Res.ok_outcome]
  · intro h
    rw [h, if_neg Bool.false_ne_true, Res.refuse_outcome]

/-- Settles O10: each access is the host's turn, and is read off the access. -/
theorem hostAccesses : Obligations.HostAccesses := by
  unfold Obligations.HostAccesses
  intro s rest hturn
  refine ⟨fun number value hne hhost => ?_, fun number hhost => ?_, fun bytes rewound hhost => ?_,
    fun hhost => ?_⟩
  · have hwrite : writeRegister number value { s with host := rest } = { s with host := rest } :=
      if_neg hne
    rw [step_access hturn hhost nofun, hostAccess, hwrite, Res.ok_outcome]
  · have hread := readRegister_spec number s
    rw [status_toNat] at hread
    refine ⟨readRegister number s, ?_, hread⟩
    rw [step_access hturn hhost nofun]
    rfl
  · rw [step_access hturn hhost nofun]
    exact bind_outcome s _
  · rw [step_access hturn hhost nofun]
    exact bind_outcome s _

end Sys2Proof.Machine

namespace Sys2Proof.Machine

/-! ### A failed transaction stops any operation (R67, R262, R270)

An operation is compared with its calm run, the one from the same state with every transaction
answered Ok: it makes the same transactions up to the first that answers Fail, and stops there. That
is said of the operations as functions of the state, and `Res.bind` keeps it. -/

/-- The state with other answers for the coming transactions (R67). -/
def State.script (draws : List Draw) (s : State) : State :=
  { s with chan := { s.chan with draws := draws } }

/-- The state in which every coming transaction is answered Ok (log 7). -/
abbrev State.calm (s : State) : State := s.script []

@[simp] theorem State.script_trace (d : List Draw) (s : State) :
    (s.script d).chan.trace = s.chan.trace := rfl
@[simp] theorem State.script_out (d : List Draw) (s : State) :
    (s.script d).chan.out = s.chan.out := rfl
@[simp] theorem State.script_draws (d : List Draw) (s : State) : (s.script d).chan.draws = d := rfl

/-- `t` is where the sequencer stops when, from `s`, the transactions `T` were answered Ok and then
`x` Fail (R67, R262, R270). -/
structure FailedAt (s : State) (T : List Transaction) (x : Transaction) (landed : Bool)
    (t : State) : Prop where
  phase : t.phase = .error
  err : t.err = .ioFailure
  errInfo : t.errInfo = x.failInfo
  sub : t.sub = 0
  trace : t.chan.trace = x.failed :: T.reverse ++ s.chan.trace
  out : t.chan.out = s.chan.out ++ T.flatMap Transaction.bytes ++ (if landed then x.bytes else [])
  outClosed : t.chan.outClosed = s.chan.outClosed
  draws : t.chan.draws = s.chan.draws.drop (T.length + 1)
  id : t.id = s.id
  hung : t.hung = s.hung

/-- The run `x` from `s` stops at whichever of the transactions `T` is the first not to be answered
Ok, where the answer is Fail. -/
def FailsWithin {α : Type} (s : State) (T : List Transaction) (x : Res α) : Prop :=
  ∀ k y landed, T[k]? = some y → s.chan.okFor k → s.chan.draws[k]? = some (.fail landed) →
    ∃ t, x = .stop t ∧ FailedAt s (T.take k) y landed t

/-- The calm run from `s` ends in `.ok a u` after the transactions `T`; the run `x` from `s` ends
likewise where they are answered Ok, and stops at a failed one. An operation that does not close the
output leaves OUT_CLOSED as it is. -/
structure Ended {α : Type} (closes : Bool) (s : State) (T : List Transaction) (x : Res α) (a : α)
    (u : State) : Prop where
  trace : u.chan.trace = T.reverse ++ s.chan.trace
  out : u.chan.out = s.chan.out ++ T.flatMap Transaction.bytes
  outClosed : closes = false → u.chan.outClosed = s.chan.outClosed
  draws : u.chan.draws = []
  id : u.id = s.id
  hung : u.hung = s.hung
  same : s.chan.okFor T.length → x = .ok a (u.script (s.chan.draws.drop T.length))
  fails : FailsWithin s T x

/-- The run `x` from `s` beside the calm one. -/
def Res.Replays {α : Type} (closes : Bool) (s : State) (x : Res α) : Res α → Prop
  | .ok a u => ∃ T, Ended closes s T x a u
  | .stop u => ∃ T, u.chan.trace = T.reverse ++ s.chan.trace ∧ FailsWithin s T x
  | .fault _ => True
  | .refuse _ => True

/-- An operation whose runs differ only by the answers of its transactions. With `closes` its last
transaction may close the output. -/
def Scripted {α : Type} (closes : Bool) (f : State → Res α) : Prop :=
  ∀ s, (f s).Replays closes s (f s.calm)

/-! ### What keeps it -/

theorem FailsWithin.nil {α : Type} (s : State) (x : Res α) : FailsWithin s [] x := by
  intro k y landed hy
  simp at hy

theorem FailsWithin.bind {α β : Type} {s : State} {T : List Transaction} {x : Res α}
    (h : FailsWithin s T x) (g : α → State → Res β) : FailsWithin s T (x.bind g) := by
  intro k y landed hy hok hfail
  obtain ⟨t, rfl, ht⟩ := h k y landed hy hok hfail
  exact ⟨t, rfl, ht⟩

section
variable {α β : Type} {c : Bool} {s u : State} {T : List Transaction} {x : Res α} {a : α}

/-- Where the first part of a run ended, a failure in the second is one of the whole. -/
theorem Ended.failedAt (h : Ended false s T x a u) {T' : List Transaction} {y : Transaction}
    {landed : Bool} {t : State}
    (ht : FailedAt (u.script (s.chan.draws.drop T.length)) T' y landed t) :
    FailedAt s (T ++ T') y landed t where
  phase := ht.phase
  err := ht.err
  errInfo := ht.errInfo
  sub := ht.sub
  trace := by simp [ht.trace, h.trace]
  out := by simp [ht.out, h.out]
  outClosed := ht.outClosed.trans (h.outClosed rfl)
  draws := by simp [ht.draws, Nat.add_assoc]
  id := ht.id.trans h.id
  hung := ht.hung.trans h.hung

/-- A failed transaction of either part stops the whole. -/
theorem Ended.failsWithin_append (h : Ended false s T x a u) {g : α → State → Res β}
    {T' : List Transaction}
    (hg : FailsWithin (u.script (s.chan.draws.drop T.length)) T'
      (g a (u.script (s.chan.draws.drop T.length)))) :
    FailsWithin s (T ++ T') (x.bind g) := by
  intro k y landed hy hok hfail
  by_cases hk : k < T.length
  · rw [List.getElem?_append_left hk] at hy
    rw [List.take_append_of_le_length hk.le]
    exact h.fails.bind g k y landed hy hok hfail
  · obtain ⟨m, rfl⟩ := Nat.exists_eq_add_of_le (not_lt.mp hk)
    rw [h.same (hok.mono (Nat.le_add_right _ _)), Res.ok_bind, List.take_length_add_append]
    have hy' : T'[m]? = some y := by
      rwa [List.getElem?_append_right (Nat.le_add_right _ _), Nat.add_sub_cancel_left] at hy
    have hfail' : (s.chan.draws.drop T.length)[m]? = some (.fail landed) := by
      rwa [List.getElem?_drop]
    obtain ⟨t, e, ht⟩ := hg m y landed hy' (Channels.okFor_of_draws hok rfl) hfail'
    exact ⟨t, e, h.failedAt ht⟩

/-- Two parts that end make a whole that ends. -/
theorem Ended.bind (h : Ended false s T x a u) {g : α → State → Res β} {T' : List Transaction}
    {b : β} {w : State}
    (hg : Ended c (u.script (s.chan.draws.drop T.length)) T'
      (g a (u.script (s.chan.draws.drop T.length))) b w) :
    Ended c s (T ++ T') (x.bind g) b w := by
  refine {
    trace := by simp [hg.trace, h.trace]
    out := by simp [hg.out, h.out]
    outClosed := fun hc => (hg.outClosed hc).trans (h.outClosed rfl)
    draws := hg.draws
    id := hg.id.trans h.id
    hung := hg.hung.trans h.hung
    same := fun hok => ?_
    fails := h.failsWithin_append hg.fails }
  rw [List.length_append] at hok ⊢
  rw [h.same (hok.mono (Nat.le_add_right _ _)), Res.ok_bind,
    hg.same (Channels.okFor_of_draws hok rfl), State.script_draws, List.drop_drop]

theorem Ended.calm (h : Ended c s T x a u) : u.calm = u := by
  rw [State.calm, ← h.draws]
  rfl

end

/-- What is left to show of a whole: that it replays where the calm run of its first part ends. -/
theorem Res.Replays.bind {α β : Type} {c c' : Bool} {s : State} {x y : Res α}
    {g : α → State → Res β} (hx : x.Replays c s y)
    (hend : ∀ T a u, Ended c s T x a u → (x.bind g).Replays c' s (g a u)) :
    (x.bind g).Replays c' s (y.bind g) := by
  cases y with
  | fault r => trivial
  | refuse r => trivial
  | stop u =>
    obtain ⟨T, htrace, hfails⟩ := hx
    exact ⟨T, htrace, hfails.bind g⟩
  | ok a u =>
    obtain ⟨T, h⟩ := hx
    exact hend T a u h

theorem Scripted.bind {α β : Type} {c : Bool} {f : State → Res α} {g : α → State → Res β}
    (hf : Scripted false f) (hg : ∀ a, Scripted c (g a)) : Scripted c fun s => (f s).bind g := by
  intro s
  refine (hf s).bind fun T a u h => ?_
  have hcalm : (u.script (s.chan.draws.drop T.length)).calm = u := h.calm
  have hu := hg a (u.script (s.chan.draws.drop T.length))
  rw [hcalm] at hu
  cases e : g a u with
  | fault r => trivial
  | refuse r => trivial
  | stop w =>
    rw [e] at hu
    obtain ⟨T', htrace, hfails⟩ := hu
    have hw : w.chan.trace = (T ++ T').reverse ++ s.chan.trace := by simp [htrace, h.trace]
    exact ⟨T ++ T', hw, h.failsWithin_append hfails⟩
  | ok b w =>
    rw [e] at hu
    obtain ⟨T', hw⟩ := hu
    exact ⟨T ++ T', h.bind hw⟩

/-- A choice by a part of the state that the answers are not in. -/
theorem Scripted.select {α ι : Type} {c : Bool} (sel : State → ι) (hsel : ∀ s, sel s.calm = sel s)
    {f : ι → State → Res α} (hf : ∀ i, Scripted c (f i)) : Scripted c fun s => f (sel s) s := by
  intro s
  dsimp only
  rw [hsel]
  exact hf _ s

theorem Scripted.ite {α : Type} {c : Bool} {p : State → Prop} {hp : ∀ s, Decidable (p s)}
    {f g : State → Res α} (hsel : ∀ s, p s.calm ↔ p s) (hf : Scripted c f) (hg : Scripted c g) :
    Scripted c fun s => if p s then f s else g s := by
  intro s
  by_cases h : p s
  · simpa only [if_pos h, if_pos ((hsel s).mpr h)] using hf s
  · simpa only [if_neg h, if_neg (mt (hsel s).mp h)] using hg s

/-! ### Parts without a transaction -/

/-- The state with the channels, ID and the wait of another. -/
def SameChannels (s t : State) : Prop :=
  t.chan = s.chan ∧ t.id = s.id ∧ t.hung = s.hung

/-- How the run ends, with every coming transaction answered Ok. -/
def Res.calm {α : Type} : Res α → Res α
  | .ok a t => .ok a t.calm
  | .stop t => .stop t.calm
  | .fault e => .fault e
  | .refuse r => .refuse r

/-- A part that makes no transaction and does not see the coming answers. -/
def Quiet {α : Type} (f : State → Res α) : Prop :=
  ∀ s, f s.calm = (f s).calm ∧ (f s).To (SameChannels s) (SameChannels s)

/-- A state with the channels of another, its answers taken away and given back. -/
theorem SameChannels.script_calm {s t : State} (h : SameChannels s t) :
    t.calm.script s.chan.draws = t := by
  rw [← h.1]
  rfl

theorem Res.Replays.quiet {α : Type} {c : Bool} {f : State → Res α} {s : State}
    (hf : f s.calm = (f s).calm ∧ (f s).To (SameChannels s) (SameChannels s)) :
    (f s).Replays c s (f s.calm) := by
  obtain ⟨hcalm, hsame⟩ := hf
  rw [hcalm]
  cases e : f s with
  | fault r => trivial
  | refuse r => trivial
  | stop u =>
    rw [e] at hsame
    obtain ⟨hchan, -, -⟩ := hsame
    have htrace : u.chan.trace = s.chan.trace := by rw [hchan]
    exact ⟨[], htrace, FailsWithin.nil s _⟩
  | ok a u =>
    rw [e] at hsame
    have hu := hsame.script_calm
    obtain ⟨hchan, hid, hhung⟩ := hsame
    have htrace : u.chan.trace = s.chan.trace := by rw [hchan]
    have hout : u.chan.out = s.chan.out := by rw [hchan]
    have hclosed : u.chan.outClosed = s.chan.outClosed := by rw [hchan]
    exact ⟨[], {
      trace := htrace
      out := hout.trans (List.append_nil _).symm
      outClosed := fun _ => hclosed
      draws := rfl
      id := hid
      hung := hhung
      same := fun _ => congrArg (Res.ok a) hu.symm
      fails := FailsWithin.nil s _ }⟩

theorem Scripted.quiet {α : Type} {c : Bool} {f : State → Res α} (hf : Quiet f) : Scripted c f :=
  fun s => .quiet (hf s)

theorem Scripted.ok {α : Type} {c : Bool} (a : α) : Scripted c (Res.ok a) :=
  .quiet fun _ => ⟨rfl, rfl, rfl, rfl⟩

theorem Scripted.raise {α : Type} {c : Bool} (k : Cause) :
    Scripted (α := α) c fun s => .stop (s.raise k) :=
  .quiet fun _ => ⟨rfl, rfl, rfl, rfl⟩

/-- A change of registers and tables before an operation. -/
theorem Scripted.after {α : Type} {c : Bool} {h : State → State} {f : State → Res α}
    (hh : Quiet fun s => .ok () (h s)) (hf : Scripted c f) : Scripted c fun s => f (h s) :=
  (Scripted.quiet (c := false) hh).bind fun _ => hf

/-- A change of registers and tables behind an operation, also behind one that closes the output. -/
theorem Scripted.andThen {α β : Type} {c : Bool} {f : State → Res α} {b : β} {h : State → State}
    (hf : Scripted c f) (hh : Quiet fun s => .ok b (h s)) :
    Scripted c fun s => (f s).bind fun _ t => .ok b (h t) := by
  intro s
  refine (hf s).bind fun T a u hT => ?_
  obtain ⟨-, hchan, hid, hhung⟩ := hh u
  have htrace : (h u).chan.trace = u.chan.trace := by rw [hchan]
  have hout : (h u).chan.out = u.chan.out := by rw [hchan]
  have hclosed : (h u).chan.outClosed = u.chan.outClosed := by rw [hchan]
  refine ⟨T, {
    trace := htrace.trans hT.trace
    out := hout.trans hT.out
    outClosed := fun hc => hclosed.trans (hT.outClosed hc)
    draws := (congrArg Channels.draws hchan).trans hT.draws
    id := hid.trans hT.id
    hung := hhung.trans hT.hung
    same := fun hok => ?_
    fails := hT.fails.bind _ }⟩
  obtain ⟨hcalm, hsame⟩ := hh (u.script (s.chan.draws.drop T.length))
  have hv := SameChannels.script_calm hsame
  obtain ⟨-, hw⟩ := Res.ok.inj hcalm
  rw [hT.same hok, Res.ok_bind, ← hv, ← hw]
  exact congrArg (fun v => Res.ok b ((h v).script _)) hT.calm

/-! ### The transactions -/

/-- A `raise` at a failed transaction (R67, R270). -/
theorem failedAt_raise {s : State} {c : Cause} {y : Transaction} {landed : Bool} {ch : Channels}
    (hkind : c.kind = .ioFailure) (hinfo : c.info = y.failInfo)
    (htrace : ch.trace = y.failed :: s.chan.trace)
    (hout : ch.out = s.chan.out ++ if landed then y.bytes else [])
    (hclosed : ch.outClosed = s.chan.outClosed) (hdraws : ch.draws = s.chan.draws.tail) :
    FailedAt s [] y landed (State.raise c { s with chan := ch }) where
  phase := rfl
  err := hkind
  errInfo := hinfo
  sub := rfl
  trace := htrace
  out := by rw [List.flatMap_nil, List.append_nil]; exact hout
  outClosed := hclosed
  draws := hdraws.trans List.drop_one.symm
  id := rfl
  hung := rfl

/-- An operation that is one transaction: what it does where the answer is Ok, whatever is answered
after it, and where the answer is Fail. -/
theorem Res.Replays.transaction {α : Type} {c : Bool} {f : State → Res α} {s : State}
    (y : Transaction) (a : α) (u : State) (htrace : u.chan.trace = y :: s.chan.trace)
    (hout : u.chan.out = s.chan.out ++ y.bytes)
    (hclosed : c = false → u.chan.outClosed = s.chan.outClosed) (hid : u.id = s.id)
    (hhung : u.hung = s.hung)
    (hok : ∀ draws, (s.script draws).chan.draw = .ok →
      f (s.script draws) = .ok a (u.script (draws.drop 1)))
    (hfail : ∀ landed, s.chan.draw = .fail landed →
      ∃ t, f s = .stop t ∧ FailedAt s [] y landed t) :
    (f s).Replays c s (f s.calm) := by
  rw [hok [] rfl]
  refine ⟨[y], {
    trace := htrace
    out := by rw [List.flatMap_singleton]; exact hout
    outClosed := hclosed
    draws := rfl
    id := hid
    hung := hhung
    same := fun h => hok s.chan.draws (h.draw Nat.one_pos)
    fails := fun k z landed hz _ hd => ?_ }⟩
  obtain ⟨rfl, rfl⟩ : k = 0 ∧ z = y := by
    cases k with
    | zero => exact ⟨rfl, by simpa using hz.symm⟩
    | succ k => simp at hz
  exact hfail landed (Channels.draw_of_drop hd rfl)

/-- A failed transaction that carries no byte for OUT. -/
theorem failedAt_raise_noByte {s : State} {c : Cause} {y : Transaction} {landed : Bool}
    (hkind : c.kind = .ioFailure) (hinfo : c.info = y.failInfo) (hbytes : y.bytes = []) :
    FailedAt s [] y landed (State.raise c { s with
      chan := { s.chan with draws := s.chan.draws.tail, trace := y.failed :: s.chan.trace } }) :=
  failedAt_raise hkind hinfo rfl (by simp [hbytes]) rfl rfl

theorem inRead_scripted : Scripted false inRead := by
  intro s
  cases hrest : s.chan.rest with
  | nil =>
    refine .transaction (.inRead .eos) none { s with chan := s.chan.metEnd } rfl
      (List.append_nil _).symm (fun _ => rfl) rfl rfl (fun draws hd => ?_) fun landed hd => ?_
    · rw [inRead_eos hd hrest]
      simp [State.script, Channels.metEnd, Channels.made]
    · exact ⟨_, inRead_fail hd, failedAt_raise_noByte rfl rfl rfl⟩
  | cons b bs =>
    refine .transaction (.inRead (.byte b)) (some b) { s with chan := s.chan.took 1 } ?_
      (List.append_nil _).symm (fun _ => rfl) rfl rfl (fun draws hd => ?_) fun landed hd => ?_
    · simp [Channels.took, hrest]
    · rw [inRead_byte hd hrest]
      rfl
    · exact ⟨_, inRead_fail hd, failedAt_raise_noByte rfl rfl rfl⟩

theorem inRewind_scripted : Scripted false inRewind := by
  intro s
  refine .transaction (.inRewind .ok) () { s with chan := { s.chan.made (.inRewind .ok) with
      inPos := 0, input := s.chan.inRewound.getD s.chan.input, inRewound := none } }
    rfl (List.append_nil _).symm (fun _ => rfl) rfl rfl (fun draws hd => ?_) fun landed hd => ?_
  · rw [inRewind_ok hd, List.drop_one]
    rfl
  · exact ⟨_, inRewind_fail hd, failedAt_raise_noByte rfl rfl rfl⟩

theorem outWrite_failedAt {s : State} {landed : Bool} (b : Byte) (ho : s.chan.outClosed = false)
    (hd : s.chan.draw = .fail landed) :
    ∃ t, outWrite b s = .stop t ∧ FailedAt s [] (.outWrite b .ok) landed t := by
  refine ⟨_, outWrite_fail b ho hd, failedAt_raise rfl rfl rfl ?_ rfl rfl⟩
  cases landed with
  | true => rfl
  | false => exact (List.append_nil _).symm

/-- R65: after OutClose an OutWrite faults; else it is one transaction. -/
theorem outWrite_scripted (b : Byte) : Scripted false (outWrite b) := by
  intro s
  cases ho : s.chan.outClosed with
  | true =>
    have hcalm : outWrite b s.calm = .fault .outputClosed := if_pos ho
    rw [hcalm]
    trivial
  | false =>
    refine .transaction (.outWrite b .ok) () { s with chan := s.chan.wrote [b] } rfl rfl
      (fun _ => rfl) rfl rfl (fun draws hd => ?_) fun landed hd => ?_
    · exact outWrite_ok b ho hd
    · exact outWrite_failedAt b ho hd

/-- R66: after OutClose another faults; else it is one transaction, and it closes the output. -/
theorem outClose_scripted : Scripted true outClose := by
  intro s
  cases ho : s.chan.outClosed with
  | true =>
    have hcalm : outClose s.calm = .fault .outputClosed := if_pos ho
    rw [hcalm]
    trivial
  | false =>
    refine .transaction (.outClose .ok) ()
      { s with chan := { s.chan.made (.outClose .ok) with outClosed := true } } rfl
      (List.append_nil _).symm nofun rfl rfl (fun draws hd => ?_) fun landed hd => ?_
    · rw [outClose_ok (s := s.script draws) ho hd, List.drop_one]
      rfl
    · exact ⟨_, outClose_fail ho hd, failedAt_raise_noByte rfl rfl rfl⟩

/-! ### Bits out and in -/

/-- R132: a bit that fills no byte makes no transaction. -/
theorem pushBit_kept {s : State} (b : Bool) (hn : s.skN.val + 1 < 8) :
    pushBit b s = .ok () { s with skAcc := pushAcc s.skAcc b, skN := ⟨s.skN.val + 1, hn⟩ } :=
  dif_pos hn

section
variable {s t : State} {b : Bool} (hn : ¬ s.skN.val + 1 < 8)
include hn

/-- R132: a bit that fills a byte has it written, and the sink is empty after it. -/
theorem pushBit_full_ok (h : outWrite (pushAcc s.skAcc b) s = .ok () t) :
    pushBit b s = .ok () { t with skAcc := 0, skN := 0 } := by
  simp only [pushBit, dif_neg hn, h]

/-- R132: where that OutWrite stops, SK_N is free (log 10). -/
theorem pushBit_full_stop (h : outWrite (pushAcc s.skAcc b) s = .stop t) :
    pushBit b s = .stop { t with
      skAcc := pushAcc s.skAcc b, skN := Config.freeSkN t.free, free := t.free + 1 } := by
  simp only [pushBit, dif_neg hn, h]

theorem pushBit_full_fault {e : Fault} (h : outWrite (pushAcc s.skAcc b) s = .fault e) :
    pushBit b s = .fault e := by
  simp only [pushBit, dif_neg hn, h]

end

theorem pushBit_scripted (b : Bool) : Scripted false (pushBit b) := by
  intro s
  by_cases hn : s.skN.val + 1 < 8
  · have hcalm : pushBit b s.calm = (pushBit b s).calm := by
      rw [pushBit_kept b hn, pushBit_kept (s := s.calm) b hn]
      rfl
    refine .quiet ⟨hcalm, ?_⟩
    rw [pushBit_kept b hn]
    exact ⟨rfl, rfl, rfl⟩
  · cases ho : s.chan.outClosed with
    | true =>
      have hcalm : pushBit b s.calm = .fault .outputClosed :=
        pushBit_full_fault (s := s.calm) hn (if_pos ho)
      rw [hcalm]
      trivial
    | false =>
      refine .transaction (.outWrite (pushAcc s.skAcc b) .ok) ()
        { s with skAcc := 0, skN := 0, chan := s.chan.wrote [pushAcc s.skAcc b] } rfl rfl
        (fun _ => rfl) rfl rfl (fun draws hd => ?_) fun landed hd => ?_
      · exact pushBit_full_ok (s := s.script draws) hn (outWrite_ok _ ho hd)
      · obtain ⟨t, e, ht⟩ := outWrite_failedAt (pushAcc s.skAcc b) ho hd
        exact ⟨_, pushBit_full_stop hn e, { ht with }⟩

theorem pushBits_scripted (bits : List Bool) : Scripted false (pushBits bits) := by
  induction bits with
  | nil => exact .ok ()
  | cons b bits ih => exact (pushBit_scripted b).bind fun _ => ih

theorem writeBits_scripted (v L : Nat) : Scripted false (writeBits v L) :=
  pushBits_scripted _

theorem flushSink_scripted : Scripted false flushSink :=
  .ite (fun _ => Iff.rfl) (.ok ())
    (.bind (.select (fun s => padded s.skAcc s.skN.val) (fun _ => rfl) outWrite_scripted) fun _ =>
      .quiet fun _ => ⟨rfl, rfl, rfl, rfl⟩)

theorem deliver_scripted : Scripted false deliver :=
  .quiet fun _ => ⟨rfl, rfl, rfl, rfl⟩

theorem readBit_scripted : Scripted false readBit := by
  refine .ite (fun _ => Iff.rfl) (inRead_scripted.bind fun r => ?_) deliver_scripted
  cases r with
  | none => exact .ok none
  | some b =>
    exact .after (h := fun s => { s with srAcc := b, srN := 8 }) (fun _ => ⟨rfl, rfl, rfl, rfl⟩)
      deliver_scripted

theorem readBitsFrom_scripted (r n : Nat) : Scripted false (readBitsFrom r n) := by
  induction n generalizing r with
  | zero => exact .ok (some r)
  | succ n ih =>
    refine readBit_scripted.bind fun b => ?_
    cases b with
    | none => exact .ok none
    | some b => exact ih _

/-! ### The loops -/

theorem turnLoop_scripted {turn : State → Res Bool} (h : Scripted false turn) (turns : Nat) :
    Scripted false (turnLoop turn turns) := by
  induction turns with
  | zero => exact .ok ()
  | succ turns ih =>
    refine h.bind fun more => ?_
    cases more with
    | false => exact .ok ()
    | true => exact ih

theorem scanTurn_scripted : Scripted false scanTurn := by
  refine inRead_scripted.bind fun r => ?_
  cases r with
  | none => exact .ok false
  | some b => exact .quiet fun _ => ⟨rfl, rfl, rfl, rfl⟩

theorem scanInput_scripted : Scripted false scanInput := by
  refine .select readTurns (fun _ => rfl) fun turns => ?_
  rw [funext (scanLoop_eq_turnLoop turns)]
  exact turnLoop_scripted scanTurn_scripted turns

/-! ### The micro-operations, unit by unit -/

theorem mergeLowest_quiet : Quiet mergeLowest := by
  intro s
  have hnode : s.calm.node = s.node := rfl
  have hpq : s.calm.pq = s.pq := rfl
  have hnn : s.calm.nnodes = s.nnodes := rfl
  unfold mergeLowest mergeInto
  simp only [hnode, hpq, hnn]
  split
  · exact ⟨rfl, trivial⟩
  · split
    · exact ⟨rfl, trivial⟩
    · split
      · exact ⟨rfl, rfl, rfl, rfl⟩
      · exact ⟨rfl, trivial⟩

theorem mergeLoop_scripted (turns : Nat) : Scripted false (mergeLoop turns) := by
  induction turns with
  | zero => exact .ok ()
  | succ turns ih =>
    exact .ite (fun _ => Iff.rfl) ((Scripted.quiet mergeLowest_quiet).bind fun _ => ih) (.ok ())

theorem buildTree_scripted : Scripted false buildTree := by
  have hloop : Scripted false fun s => mergeLoop s.pq.length s :=
    .select (fun s => s.pq.length) (fun _ => rfl) mergeLoop_scripted
  refine .after (h := seedTree) (fun _ => ⟨rfl, rfl, rfl, rfl⟩) (hloop.andThen ?_)
  exact fun _ => ⟨rfl, rfl, rfl, rfl⟩

theorem walkTree_quiet : Quiet walkTree := by
  intro s
  have hnode : s.calm.node = s.node := rfl
  have hroot : s.calm.root = s.root := rfl
  unfold walkTree
  simp only [hnode, hroot]
  split
  · exact ⟨rfl, rfl, rfl, rfl⟩
  · split
    · exact ⟨rfl, rfl, rfl, rfl⟩
    · split
      · exact ⟨rfl, trivial⟩
      · exact ⟨rfl, rfl, rfl, rfl⟩

theorem assignCodes_quiet : Quiet fun s => .ok () (assignCodes s) := by
  intro s
  have hlen : s.calm.len = s.len := rfl
  simp only [assignCodes, hlen]
  split
  · exact ⟨rfl, rfl, rfl, rfl⟩
  · exact ⟨rfl, rfl, rfl, rfl⟩

theorem writeFields_scripted (fields : List (Nat × Nat)) : Scripted false (writeFields fields) := by
  induction fields with
  | nil => exact .ok ()
  | cons f fields ih => exact (writeBits_scripted f.1 f.2).bind fun _ => ih

theorem writeHeader_scripted : Scripted false writeHeader :=
  .select headerFields (fun _ => rfl) writeFields_scripted

theorem readField_scripted (n : Nat) : Scripted false (readField n) := by
  refine (readBitsFrom_scripted 0 n).bind fun r => ?_
  cases r with
  | none => exact .raise .headerShort
  | some v => exact .ok v

/-- A check, and the error it raises (R203, R225). -/
theorem check_scripted {p : State → Prop} {hp : ∀ s, Decidable (p s)} (hsel : ∀ s, p s.calm ↔ p s)
    (c : Cause) : Scripted false fun s => if p s then Res.ok () s else .stop (s.raise c) :=
  .ite hsel (.ok ()) (.raise c)

theorem readMagic_scripted : Scripted false readMagic :=
  (readField_scripted 32).bind fun _ => check_scripted (fun _ => Iff.rfl) .magicMismatch

theorem readVersion_scripted : Scripted false readVersion :=
  (readField_scripted 8).bind fun _ => check_scripted (fun _ => Iff.rfl) .versionUnknown

theorem readOrigLen_scripted : Scripted false readOrigLen :=
  (readField_scripted 64).bind fun _ => .quiet fun _ => ⟨rfl, rfl, rfl, rfl⟩

theorem readLens_scripted (bs : List Byte) : Scripted false (readLens bs) := by
  induction bs with
  | nil => exact .ok ()
  | cons b bs ih =>
    exact (readField_scripted 8).bind fun l => .after
      (h := fun s => { s with len := setEntry s.len b (BitVec.ofNat 8 l) })
      (fun _ => ⟨rfl, rfl, rfl, rfl⟩) ih

theorem readHeader_scripted : Scripted false readHeader :=
  readMagic_scripted.bind fun _ => readVersion_scripted.bind fun _ =>
    readOrigLen_scripted.bind fun _ => readLens_scripted allBytes

theorem checkTable_quiet : Quiet checkTable := by
  intro s
  have hlen : s.calm.len = s.len := rfl
  have horig : s.calm.origLen = s.origLen := rfl
  simp only [checkTable, hlen, horig]
  split
  · exact ⟨rfl, rfl, rfl, rfl⟩
  · exact ⟨rfl, rfl, rfl, rfl⟩

theorem encodeByte_scripted (b : Byte) : Scripted false (encodeByte b) :=
  .ite (fun _ => Iff.rfl) (.raise .byteWithoutCode)
    (.select (fun s => ((entry s.code b).toNat, (entry s.len b).toNat)) (fun _ => rfl)
      (f := fun c => writeBits c.1 c.2) fun c => writeBits_scripted c.1 c.2)

theorem encodeTurn_scripted : Scripted false encodeTurn := by
  refine inRead_scripted.bind fun r => ?_
  cases r with
  | none => exact .ok false
  | some b => exact (encodeByte_scripted b).bind fun _ => .quiet fun _ => ⟨rfl, rfl, rfl, rfl⟩

theorem encodePass_scripted : Scripted false encodePass := by
  refine .after (h := State.emittedClear) (fun _ => ⟨rfl, rfl, rfl, rfl⟩)
    (.bind (.select readTurns (fun _ => rfl) fun turns => ?_) fun _ =>
      check_scripted (fun _ => Iff.rfl) .passesDiffer)
  rw [funext (encodeLoop_eq_turnLoop turns)]
  exact turnLoop_scripted encodeTurn_scripted turns

theorem emitSymbol_scripted (b : Byte) : Scripted false (emitSymbol b) :=
  (outWrite_scripted b).bind fun _ => .quiet fun _ => ⟨rfl, rfl, rfl, rfl⟩

theorem walkBits_scripted (levels : Nat) : Scripted false (walkBits levels) := by
  induction levels with
  | zero => exact .raise .noSuchPath
  | succ levels ih =>
    refine readBit_scripted.bind fun r => ?_
    cases r with
    | none => exact .raise .truncated
    | some b =>
      refine .after (h := takeEdge b) (fun _ => ⟨rfl, rfl, rfl, rfl⟩)
        (.select (fun s => decSymbol s.pfx.toNat s.pfxLen.val s) (fun _ => rfl)
          (f := fun found s => match found with
            | some sym => emitSymbol sym s
            | none =>
              if live s.len s.code s.pfx.toNat s.pfxLen.val then walkBits levels s
              else .stop (s.raise .noSuchPath)) fun found => ?_)
      cases found with
      | some sym => exact emitSymbol_scripted sym
      | none => exact .ite (fun _ => Iff.rfl) ih (.raise .noSuchPath)

theorem decodeSymbol_scripted : Scripted false decodeSymbol :=
  .after (h := State.atRoot) (fun _ => ⟨rfl, rfl, rfl, rfl⟩) (walkBits_scripted 255)

theorem decodeTurn_scripted : Scripted false decodeTurn :=
  .ite (fun _ => Iff.rfl)
    (decodeSymbol_scripted.bind fun _ => .quiet fun _ => ⟨rfl, rfl, rfl, rfl⟩) (.ok false)

theorem decodeAll_scripted : Scripted false decodeAll := by
  refine .after (h := State.emittedClear) (fun _ => ⟨rfl, rfl, rfl, rfl⟩)
    (.select (fun s => bitsLeft s + 1) (fun _ => rfl) (f := decodeLoopFrom) fun turns => ?_)
  rw [funext (decodeLoopFrom_eq_turnLoop turns)]
  exact turnLoop_scripted decodeTurn_scripted turns

/-! ### The host commands, and every other operation -/

/-- Entering a phase is no transaction (R31). -/
theorem Scripted.ofEnter {α : Type} {c : Bool} {f : State → Res α} (p : Phase)
    (hf : Scripted c f) : Scripted c fun s => f (s.enter p) :=
  .after (h := State.enter p) (fun _ => ⟨rfl, rfl, rfl, rfl⟩) hf

theorem buildCodes_scripted : Scripted false buildCodes :=
  buildTree_scripted.bind fun _ => (Scripted.quiet walkTree_quiet).bind fun _ =>
    .quiet assignCodes_quiet

theorem finishPack_scripted : Scripted true finishPack :=
  flushSink_scripted.bind fun _ => outClose_scripted

theorem rebuildCodes_scripted : Scripted false rebuildCodes :=
  (Scripted.quiet checkTable_quiet).bind fun _ => .quiet assignCodes_quiet

theorem packSequence_scripted : Scripted true packSequence :=
  (scanInput_scripted.ofEnter .pCount).bind fun _ =>
  (buildCodes_scripted.ofEnter .pBuild).bind fun _ =>
  (writeHeader_scripted.ofEnter .pHeader).bind fun _ =>
  (inRewind_scripted.ofEnter .pRewind).bind fun _ =>
  (encodePass_scripted.ofEnter .pEncode).bind fun _ =>
  (finishPack_scripted.ofEnter .pFinish).andThen fun _ => ⟨rfl, rfl, rfl, rfl⟩

theorem unpackSequence_scripted : Scripted true unpackSequence :=
  (readHeader_scripted.ofEnter .uHeader).bind fun _ =>
  (rebuildCodes_scripted.ofEnter .uBuild).bind fun _ =>
  (decodeAll_scripted.ofEnter .uDecode).bind fun _ =>
  (outClose_scripted.ofEnter .uFinish).andThen fun _ => ⟨rfl, rfl, rfl, rfl⟩

/-- A command that a state accepts, from the start sequence on (R303), which is no transaction. -/
theorem command_scripted {c : Bool} {first : Phase} {f : State → Res Unit} (hf : Scripted c f) :
    Scripted c fun s => if s.accepts then f (s.startCommand first) else .ok () s :=
  .ite (fun _ => Iff.rfl) (.after (fun _ => ⟨rfl, rfl, rfl, rfl⟩) hf) (.ok ())

/-- One step that is a scripted operation. -/
def StepScripted (e : State → Host.Outcome State Fault Refusal) : Prop :=
  ∃ (c : Bool) (f : State → Res Unit), Scripted c f ∧ ∀ s, e s = (f s).outcome

theorem Scripted.step {c : Bool} {f : State → Res Unit} (hf : Scripted c f) :
    StepScripted fun s => (f s).outcome :=
  ⟨c, f, hf, fun _ => rfl⟩

theorem StepScripted.next (h : State → State) (hh : Quiet fun s => .ok () (h s)) :
    StepScripted fun s => .next (h s) :=
  Scripted.step (c := false) (.quiet hh)

theorem execPack_scripted : StepScripted execPack := by
  refine ⟨_, _, command_scripted (first := .pCount) packSequence_scripted, fun s => ?_⟩
  unfold execPack
  split
  · rfl
  · rfl

theorem execUnpack_scripted : StepScripted execUnpack := by
  refine ⟨_, _, command_scripted (first := .uHeader) unpackSequence_scripted, fun s => ?_⟩
  unfold execUnpack
  split
  · rfl
  · rfl

/-- R113: an operand outside the operation's range is refused in every state (log 25). -/
theorem StepScripted.wellFormed {c : Bool} {f : State → Res Unit} (i : Instr) (hf : Scripted c f) :
    StepScripted fun s => if i.wellFormed then (f s).outcome else .refused .operandOutOfRange := by
  by_cases h : i.wellFormed
  · exact ⟨c, f, hf, fun s => if_pos h⟩
  · exact ⟨false, fun _ => .refuse .operandOutOfRange, .quiet fun _ => ⟨rfl, trivial⟩,
      fun s => if_neg h⟩

/-- A read by number keeps what it delivers in `result` (log 19). -/
theorem result_scripted {α : Type} {f : State → Res α} (hf : Scripted false f) (r : α → OpResult) :
    Scripted false fun s => (f s).bind fun a t => .ok () { t with result := r a } :=
  hf.bind fun a => .after (h := fun t => { t with result := r a })
    (fun _ => ⟨rfl, rfl, rfl, rfl⟩) (.ok ())

theorem exec_scripted (i : Instr) : StepScripted (exec i) := by
  cases i with
  | pack => exact execPack_scripted
  | unpack => exact execUnpack_scripted
  | skInit => exact .next State.sinkInit fun _ => ⟨rfl, rfl, rfl, rfl⟩
  | wrbits v L => exact .wellFormed (.wrbits v L) (writeBits_scripted v L)
  | flush => exact flushSink_scripted.step
  | srInit => exact .next State.sourceInit fun _ => ⟨rfl, rfl, rfl, rfl⟩
  | rdbit => exact (result_scripted readBit_scripted bitResult).step
  | rdbits n =>
    exact .wellFormed (.rdbits n) (result_scripted (readBitsFrom_scripted 0 n) valueResult)
  | fqClear => exact .next State.freqClear fun _ => ⟨rfl, rfl, rfl, rfl⟩
  | fqCount b => exact .next (countByte b) fun _ => ⟨rfl, rfl, rfl, rfl⟩
  | fqScan => exact scanInput_scripted.step
  | tbSeed => exact .next seedTree fun _ => ⟨rfl, rfl, rfl, rfl⟩
  | tbMerge => exact (Scripted.quiet (c := false) mergeLowest_quiet).step
  | tbBuild => exact buildTree_scripted.step
  | ctWalk => exact (Scripted.quiet (c := false) walkTree_quiet).step
  | ctCanon => exact .next assignCodes assignCodes_quiet
  | hdrWrite => exact writeHeader_scripted.step
  | hdrRead => exact readHeader_scripted.step
  | lenCheck => exact (Scripted.quiet (c := false) checkTable_quiet).step
  | encSym b => exact (encodeByte_scripted b).step
  | encPass => exact encodePass_scripted.step
  | decSym => exact decodeSymbol_scripted.step
  | decLoop => exact decodeAll_scripted.step

/-- Where the calm run of an operation comes to a next state by the transactions `T`, the run itself
stops at a failed one of them. -/
theorem Scripted.failsWithin {c : Bool} {f : State → Res Unit} (hf : Scripted c f) {s t₀ : State}
    (hcalm : (f s.calm).outcome = .next t₀) {T : List Transaction}
    (hT : t₀.chan.trace = T.reverse ++ s.chan.trace) : FailsWithin s T (f s) := by
  have hs := hf s
  obtain ⟨T', htrace, hfails⟩ : ∃ T', t₀.chan.trace = T'.reverse ++ s.chan.trace ∧
      FailsWithin s T' (f s) := by
    rcases Res.outcome_next.mp hcalm with ⟨a, e⟩ | e
    · rw [e] at hs
      obtain ⟨T', h⟩ := hs
      exact ⟨T', h.trace, h.fails⟩
    · rw [e] at hs
      exact hs
  rw [hT, List.append_cancel_right_eq, List.reverse_inj] at htrace
  rwa [htrace]

/-- Settles O60: every operation is scripted, so what its calm run transacts it does itself, up to
the failed transaction. -/
theorem aFailedTransactionStopsTheOperation : Obligations.AFailedTransactionStopsTheOperation := by
  unfold Obligations.AFailedTransactionStopsTheOperation
  intro i s t₀ T k x landed hcalm hT hx hok hfail
  obtain ⟨c, f, hf, hexec⟩ := exec_scripted i
  have hrun : (f s.calm).outcome = .next t₀ := (hexec s.calm).symm.trans hcalm
  obtain ⟨t, e, ht⟩ := hf.failsWithin hrun hT k x landed hx hok hfail
  have hlen : (T.take k).length = k := by
    obtain ⟨hk, -⟩ := List.getElem?_eq_some_iff.mp hx
    exact List.length_take_of_le hk.le
  have hdraws := ht.draws
  rw [hlen] at hdraws
  exact ⟨t, by rw [hexec, e, Res.stop_outcome], ht.phase, ht.err, ht.errInfo, ht.trace, ht.out,
    ht.outClosed, hdraws, ht.id, ht.hung⟩

/-! ### What writing bits changes (R132, R272) -/

/-- `s` with the fields of `t` that writing bits can change, be it ended, stopped by an error or
waiting. -/
def State.sinkFrame (s t : State) : State :=
  { s with
    err := t.err, errInfo := t.errInfo, phase := t.phase, sub := t.sub, hung := t.hung
    skAcc := t.skAcc, skN := t.skN, free := t.free
    chan := { s.chan with out := t.chan.out, draws := t.chan.draws, trace := t.chan.trace } }

/-- Only what writing bits can change is changed. -/
def SinkOnly (s t : State) : Prop :=
  t = s.sinkFrame t

theorem SinkOnly.refl (s : State) : SinkOnly s s := rfl

theorem SinkOnly.trans {s t u : State} (h : SinkOnly s t) (h' : SinkOnly t u) : SinkOnly s u :=
  calc
    u = t.sinkFrame u := h'
    _ = (s.sinkFrame t).sinkFrame u :=
      congrArg (State.sinkFrame · u) (show t = s.sinkFrame t from h)

theorem outWrite_sinkOnly (b : Byte) (s : State) :
    (outWrite b s).To (SinkOnly s) (SinkOnly s) := by
  have hchan : SinkOnly s { s with chan := (s.chan.outWrite b).2 } := by
    unfold Channels.outWrite
    cases s.chan.draw <;> rfl
  unfold outWrite afterAck
  split
  · trivial
  · dsimp only
    split
    · exact hchan
    · exact hchan.trans (u := State.raise _ _) rfl
    · exact hchan.trans (u := State.hang _) rfl

theorem pushBit_sinkOnly (b : Bool) (s : State) : (pushBit b s).To (SinkOnly s) (SinkOnly s) := by
  have h := outWrite_sinkOnly (pushAcc s.skAcc b) s
  unfold pushBit
  dsimp only
  split
  · exact rfl
  · cases e : outWrite (pushAcc s.skAcc b) s with
    | ok a t => exact SinkOnly.trans (e ▸ h :) rfl
    | stop t => exact SinkOnly.trans (e ▸ h :) rfl
    | fault e => trivial
    | refuse r => trivial

theorem pushBits_sinkOnly (bits : List Bool) (s : State) :
    (pushBits bits s).To (SinkOnly s) (SinkOnly s) := by
  induction bits generalizing s with
  | nil => exact SinkOnly.refl s
  | cons b bits ih =>
    refine Res.To.bind (pushBit_sinkOnly b s) (fun _ t ht => ?_) fun _ h => h
    exact (ih t).mono (fun _ h => ht.trans h) fun _ h => ht.trans h

/-! ### The tables in the phases that use the codes (R80) -/

/-- The tables of R48 to R53 hold what they held. -/
def SameTables (s t : State) : Prop :=
  t.freq = s.freq ∧ t.node = s.node ∧ t.pq = s.pq ∧ t.tlen = s.tlen ∧ t.tcode = s.tcode ∧
    t.len = s.len ∧ t.code = s.code

theorem SameTables.refl (s : State) : SameTables s s :=
  ⟨rfl, rfl, rfl, rfl, rfl, rfl, rfl⟩

theorem SameTables.trans {s t u : State} (h : SameTables s t) (h' : SameTables t u) :
    SameTables s u := by
  obtain ⟨hfreq, hnode, hpq, htlen, htcode, hlen, hcode⟩ := h
  obtain ⟨hfreq', hnode', hpq', htlen', htcode', hlen', hcode'⟩ := h'
  exact ⟨hfreq'.trans hfreq, hnode'.trans hnode, hpq'.trans hpq, htlen'.trans htlen,
    htcode'.trans htcode, hlen'.trans hlen, hcode'.trans hcode⟩

theorem SinkOnly.sameTables {s t : State} (h : SinkOnly s t) : SameTables s t := by
  rw [h]
  exact SameTables.refl s

/-- An operation that writes no table, be it ended or stopped. -/
abbrev Res.ReadsTables {α : Type} (s : State) (x : Res α) : Prop :=
  x.To (SameTables s) (SameTables s)

theorem Res.ReadsTables.bind {α β : Type} {s : State} {x : Res α} {f : α → State → Res β}
    (hx : x.ReadsTables s) (hf : ∀ a t, (f a t).ReadsTables t) : (x.bind f).ReadsTables s :=
  Res.To.bind hx
    (fun a t ht => (hf a t).mono (fun _ h => ht.trans h) fun _ h => ht.trans h) fun _ h => h

theorem Res.To.readsTables {α : Type} {s : State} {x : Res α}
    (hx : x.To (SinkOnly s) (SinkOnly s)) : x.ReadsTables s :=
  hx.mono (fun _ h => h.sameTables) fun _ h => h.sameTables

theorem inRead_readsTables (s : State) : (inRead s).ReadsTables s := by
  rcases inRead_cases s with ⟨b, bs, -, e⟩ | ⟨-, e⟩ | e | e
  all_goals
    rw [e]
    exact SameTables.refl s

theorem afterAck_readsTables (c : Cause) (s : State) (r : Ack × Channels) :
    (afterAck c s r).ReadsTables s := by
  obtain ⟨ack, ch⟩ := r
  cases ack with
  | ok => exact SameTables.refl s
  | fail => exact SameTables.refl s
  | never => exact SameTables.refl s

theorem outWrite_readsTables (b : Byte) (s : State) : (outWrite b s).ReadsTables s :=
  (outWrite_sinkOnly b s).readsTables

theorem outClose_readsTables (s : State) : (outClose s).ReadsTables s := by
  unfold outClose
  split
  · trivial
  · exact afterAck_readsTables _ s _

theorem writeBits_readsTables (v L : Nat) (s : State) : (writeBits v L s).ReadsTables s :=
  (pushBits_sinkOnly _ s).readsTables

theorem writeFields_readsTables (fields : List (Nat × Nat)) (s : State) :
    (writeFields fields s).ReadsTables s := by
  induction fields generalizing s with
  | nil => exact SameTables.refl s
  | cons f fields ih => exact (writeBits_readsTables f.1 f.2 s).bind fun _ t => ih t

theorem flushSink_readsTables (s : State) : (flushSink s).ReadsTables s := by
  unfold flushSink
  split
  · exact SameTables.refl s
  · exact (outWrite_readsTables _ s).bind fun _ t => SameTables.refl t

theorem readBit_readsTables (s : State) : (readBit s).ReadsTables s := by
  unfold readBit
  split
  · refine (inRead_readsTables s).bind fun r t => ?_
    cases r with
    | none => exact SameTables.refl t
    | some b => exact SameTables.refl t
  · exact SameTables.refl s

theorem encodeTurn_readsTables (s : State) : (encodeTurn s).ReadsTables s := by
  refine (inRead_readsTables s).bind fun r t => ?_
  cases r with
  | none => exact SameTables.refl t
  | some b =>
    refine Res.ReadsTables.bind ?_ fun _ u => SameTables.refl u
    unfold encodeByte
    split
    · exact SameTables.refl t
    · exact writeBits_readsTables _ _ t

theorem passesAgree_readsTables (s : State) : (passesAgree s).ReadsTables s := by
  unfold passesAgree
  split
  · exact SameTables.refl s
  · exact SameTables.refl s

theorem walkBits_readsTables (levels : Nat) (s : State) : (walkBits levels s).ReadsTables s := by
  induction levels generalizing s with
  | zero => exact SameTables.refl s
  | succ levels ih =>
    refine (readBit_readsTables s).bind fun r t => ?_
    cases r with
    | none => exact SameTables.refl t
    | some b =>
      dsimp only
      split
      · exact (outWrite_readsTables _ (takeEdge b t)).bind fun _ u => SameTables.refl u
      · split
        · exact ih (takeEdge b t)
        · exact SameTables.refl t

theorem decodeTurn_readsTables (s : State) : (decodeTurn s).ReadsTables s := by
  unfold decodeTurn
  split
  · exact Res.ReadsTables.bind (walkBits_readsTables 255 s.atRoot) fun _ t => SameTables.refl t
  · exact SameTables.refl s

theorem thenEnter_readsTables {s : State} {p : Phase} {x : Res Unit} (hx : x.ReadsTables s) :
    (thenEnter p x).ReadsTables s :=
  hx.bind fun _ t => SameTables.refl t

theorem thenLoop_readsTables {s : State} {exit : State → Res Unit} {x : Res Bool}
    (hx : x.ReadsTables s) (hexit : ∀ t, (exit t).ReadsTables t) :
    (thenLoop exit x).ReadsTables s := by
  refine hx.bind fun more t => ?_
  cases more with
  | true => exact SameTables.refl t
  | false => exact hexit t

theorem finishStep_readsTables (s : State) : (finishStep s).ReadsTables s := by
  unfold finishStep
  split
  · exact (flushSink_readsTables s).bind fun _ t => SameTables.refl t
  · exact thenEnter_readsTables (outClose_readsTables s)

/-- R80: the phases that use the codes. -/
def codePhases : List Phase :=
  [.pHeader, .pRewind, .pEncode, .pFinish, .uDecode, .uFinish]

theorem phaseStep_readsTables {s : State} (hp : s.phase ∈ codePhases) :
    (phaseStep s).ReadsTables s := by
  unfold phaseStep
  cases h : s.phase <;> rw [h] at hp
  case pHeader => exact thenEnter_readsTables (writeFields_readsTables _ s)
  case pRewind => exact (afterAck_readsTables _ s _).bind fun _ t => SameTables.refl t
  case pEncode =>
    exact thenLoop_readsTables (encodeTurn_readsTables s) fun t =>
      thenEnter_readsTables (passesAgree_readsTables t)
  case pFinish => exact finishStep_readsTables s
  case uDecode => exact thenLoop_readsTables (decodeTurn_readsTables s) fun t => SameTables.refl t
  case uFinish => exact thenEnter_readsTables (outClose_readsTables s)
  all_goals exact absurd hp (by decide)

/-- R315: a sequencer that waits writes nothing at all. -/
theorem sequencerTurn_sameTables {s t : State} (hp : s.phase ∈ codePhases)
    (h : sequencerTurn s = .next t) : SameTables s t := by
  unfold sequencerTurn at h
  split at h
  · cases h
    exact SameTables.refl s
  · exact (phaseStep_readsTables hp).outcome_next h

/-- Settles O15: the step is the sequencer's, and none of its phases here writes a table; dropping
the host's wait writes none either. -/
theorem tablesAreReadOnlyWhileUsed : Obligations.TablesAreReadOnlyWhileUsed := by
  unfold Obligations.TablesAreReadOnlyWhileUsed
  intro s t hissue hhost hstep hp
  rw [step_host hissue] at hstep
  rcases hh : s.host with _ | ⟨a, rest⟩
  · rw [hostTurn_none hh] at hstep
    exact sequencerTurn_sameTables hp hstep
  · obtain rfl : a = .wait := by
      rw [hh] at hhost
      exact hhost
    rw [hostTurn_wait hh] at hstep
    exact sequencerTurn_sameTables (s := { s with host := rest }) hp hstep

/-! ### WRBITS at a failed OutWrite (R132, R262) -/

/-- R132: what WRBITS writes with every answer Ok. -/
theorem writeBits_calm (v L : Nat) {s : State} (hs : s.skAcc.toNat < 2 ^ s.skN.val)
    (ho : s.chan.outClosed = false) :
    writeBits v L s.calm = .ok () (s.calm.sank (s.pending ++ codeBits v L)) :=
  writeBits_ok (s := s.calm) v L hs ho fun d hd => by simp at hd

/-- R132, R262: the bytes of WRBITS are its transactions, so the failed one of the `j`-th byte stops
it there. -/
theorem writeBits_failedAt {v L j : Nat} {landed : Bool} {s : State}
    (hs : s.skAcc.toNat < 2 ^ s.skN.val) (ho : s.chan.outClosed = false) {b : Byte}
    (hb : (bytesOfBits (s.pending ++ codeBits v L))[j]? = some b) (hok : s.chan.okFor j)
    (hfail : s.chan.draws[j]? = some (.fail landed)) :
    ∃ t, writeBits v L s = .stop t ∧ FailedAt s
      (((bytesOfBits (s.pending ++ codeBits v L)).take j).map fun b => .outWrite b .ok)
      (.outWrite b .ok) landed t := by
  have hcalm : (writeBits v L s.calm).outcome
      = .next (s.calm.sank (s.pending ++ codeBits v L)) := by
    rw [writeBits_calm v L hs ho, Res.ok_outcome]
  have hfails := (writeBits_scripted v L).failsWithin hcalm
    (T := (bytesOfBits (s.pending ++ codeBits v L)).map fun b => .outWrite b .ok) rfl
  rw [List.map_take]
  exact hfails j _ landed (by rw [List.getElem?_map, hb]; rfl) hok hfail

/-- What OutWrites put into OUT. -/
theorem flatMap_bytes_outWrite (bs : List Byte) :
    (bs.map fun b => Transaction.outWrite b .ok).flatMap Transaction.bytes = bs := by
  simp [List.flatMap_map]

/-- Settles O18: the failed OutWrite is one of the transactions of the calm run, which write
`bytesOfBits`; what else WRBITS leaves alone, the frame of the sink says. -/
theorem wrbitsStopsAtAFailedWrite : Obligations.WrbitsStopsAtAFailedWrite := by
  unfold Obligations.WrbitsStopsAtAFailedWrite
  intro v L j landed s hL hv hs ho hj hok hfail
  have hlen : j < (bytesOfBits (s.pending ++ codeBits v L)).length := by simpa using hj
  obtain ⟨t, e, ht⟩ := writeBits_failedAt hs ho (List.getElem?_eq_getElem hlen) hok hfail
  have hframe : SinkOnly s t := by
    have h := pushBits_sinkOnly (codeBits v L) s
    rw [← writeBits, e] at h
    exact h
  have hexec : exec (.wrbits v L) s = (writeBits v L s).outcome :=
    if_pos (by simp [Instr.wellFormed, Config.maxLen, hL, hv])
  refine ⟨t, by rw [hexec, e, Res.stop_outcome], ?_⟩
  generalize bytesOfBits (s.pending ++ codeBits v L) = B at hlen ht ⊢
  have hout : t.chan.out = s.chan.out ++ B.take (if landed then j + 1 else j) := by
    rw [ht.out, flatMap_bytes_outWrite, List.append_assoc]
    cases landed with
    | true => exact congrArg _ (List.take_append_getElem hlen)
    | false => exact congrArg _ (List.append_nil _)
  have htrace : t.chan.trace = ((B.drop j).take 1).map (fun b => Transaction.outWrite b .fail)
      ++ ((B.take j).map fun b => Transaction.outWrite b .ok).reverse ++ s.chan.trace := by
    rw [ht.trace, List.drop_eq_getElem_cons hlen]
    rfl
  have hdraws : t.chan.draws = s.chan.draws.drop (j + 1) := by
    rw [ht.draws, List.length_map, List.length_take_of_le hlen.le]
  refine Eq.trans hframe ?_
  rw [State.sinkFrame, ht.err, ht.errInfo, ht.phase, ht.sub, ht.hung, hout, htrace, hdraws]
  rfl

end Sys2Proof.Machine

namespace Sys2Proof

/-! ### What decodes is spelled by its encoding (R110 to R116) -/

/-- Bytes that spell the operands of a well-formed operation of this number. -/
def SpelledBy (number : Byte) (bytes : List Byte) (i : Instr) (rest : List Byte) : Prop :=
  i.wellFormed = true ∧ i.number = number ∧ bytes = i.operandBytes ++ rest

/-- The count of a bit-code is a byte, so at most 255, and its value was checked against it (R113). -/
theorem decodeWrbits_spelledBy {bytes rest : List Byte} {i : Instr}
    (h : decodeWrbits bytes = .ok (i, rest)) : SpelledBy 0x11 bytes i rest := by
  cases bytes with
  | nil => cases h
  | cons l bs =>
    rw [decodeWrbits] at h
    split at h
    · cases h
    · rename_i hshort
      dsimp only at h
      split at h
      · rename_i hfits
        cases h
        have hlen : (bs.take codeBytes).length = codeBytes := by
          rw [List.length_take]
          omega
        have hvalue : bytesOfNat codeBytes (natOfBytes (bs.take codeBytes)) = bs.take codeBytes := by
          have h := bytesOfNat_natOfBytes (bs.take codeBytes)
          rwa [hlen] at h
        refine ⟨wellFormed_wrbits.mpr ⟨by have := l.isLt; omega, hfits⟩, rfl, ?_⟩
        rw [Instr.operandBytes, hvalue, List.cons_append, List.take_append_drop,
          BitVec.ofNat_toNat, BitVec.setWidth_eq]
      · cases h

/-- The count was checked against 64 (R113). -/
theorem decodeRdbits_spelledBy {bytes rest : List Byte} {i : Instr}
    (h : decodeRdbits bytes = .ok (i, rest)) : SpelledBy 0x22 bytes i rest := by
  cases bytes with
  | nil => cases h
  | cons n bs =>
    rw [decodeRdbits] at h
    split at h
    · rename_i hn
      cases h
      refine ⟨wellFormed_rdbits.mpr hn, rfl, ?_⟩
      rw [Instr.operandBytes, BitVec.ofNat_toNat, BitVec.setWidth_eq]
      rfl
    · cases h

theorem decodeByte_eq_ok {mk : Byte → Instr} {bytes rest : List Byte} {i : Instr} :
    decodeByte mk bytes = .ok (i, rest) ↔ ∃ b, i = mk b ∧ bytes = b :: rest := by
  cases bytes with
  | nil => simp [decodeByte]
  | cons b bs => simp [decodeByte, eq_comm]

/-- R111, R112, R116: what decodes has a number of the operation tables and its operands after it. -/
theorem decode_spelledBy {number : Byte} {bytes rest : List Byte} {i : Instr}
    (h : decode (number :: bytes) = .ok (i, rest)) : SpelledBy number bytes i rest := by
  rw [decode] at h
  split at h
  · rename_i hnum
    exact hnum ▸ decodeWrbits_spelledBy h
  split at h
  · rename_i hnum
    exact hnum ▸ decodeRdbits_spelledBy h
  split at h
  · rename_i hnum
    obtain ⟨b, rfl, rfl⟩ := decodeByte_eq_ok.mp h
    exact ⟨rfl, hnum.symm, rfl⟩
  split at h
  · rename_i hnum
    obtain ⟨b, rfl, rfl⟩ := decodeByte_eq_ok.mp h
    exact ⟨rfl, hnum.symm, rfl⟩
  split at h
  · rename_i hplain
    cases h
    obtain ⟨hwf, hnum, hops⟩ := plainOperation_spec hplain
    exact ⟨hwf, hnum, by rw [hops]; rfl⟩
  · cases h

/-- R115, R116: a number of no operation decodes to nothing. -/
theorem decode_reservedNumber {number : Byte} (h : ∀ i : Instr, i.number ≠ number)
    (rest : List Byte) : decode (number :: rest) = .error (.reservedNumber number) := by
  have hplain : plainOperation number = none := by
    cases hp : plainOperation number with
    | none => rfl
    | some i => exact absurd (plainOperation_spec hp).2.1 (h i)
  have hwrbits : number ≠ 0x11 := (h (.wrbits 0 0)).symm
  have hrdbits : number ≠ 0x22 := (h (.rdbits 0)).symm
  have hfqCount : number ≠ 0x31 := (h (.fqCount 0)).symm
  have hencSym : number ≠ 0x70 := (h (.encSym 0)).symm
  rw [decode, if_neg hwrbits, if_neg hrdbits, if_neg hfqCount, if_neg hencSym, hplain]

/-- Settles O1: the number selects the operation, and each operand form is read back (R113). -/
theorem decodeOfEncode : Obligations.DecodeOfEncode := by
  unfold Obligations.DecodeOfEncode
  exact fun i rest hwf => decode_encode_append hwf rest

/-- Settles O2: each branch of the decoder reads one operand form, and the number is its own. -/
theorem encodeOfDecode : Obligations.EncodeOfDecode := by
  unfold Obligations.EncodeOfDecode
  intro bytes rest i h
  cases bytes with
  | nil => cases h
  | cons number bytes =>
    obtain ⟨hwf, hnum, hops⟩ := decode_spelledBy h
    exact ⟨hwf, by rw [hops, ← hnum]; rfl⟩

/-- Settles O3: the bytes listed are the encodings of the operations. -/
theorem operationNumbersDecode : Obligations.OperationNumbersDecode := by
  have key : ∀ i : Instr, i.wellFormed = true → decode (encode i) = .ok (i, []) := fun i hwf => by
    have h := decode_encode_append hwf []
    rwa [List.append_nil] at h
  unfold Obligations.OperationNumbersDecode
  exact ⟨key .pack rfl, key .unpack rfl, key .skInit rfl, key (.wrbits 5 3) (by decide),
    key .flush rfl, key .srInit rfl, key .rdbit rfl, key (.rdbits 64) (by decide), key .fqClear rfl,
    key (.fqCount 0x61) rfl, key .fqScan rfl, key .tbSeed rfl, key .tbMerge rfl, key .tbBuild rfl,
    key .ctWalk rfl, key .ctCanon rfl, key .hdrWrite rfl, key .hdrRead rfl, key .lenCheck rfl,
    key (.encSym 0xFF) rfl, key .encPass rfl, key .decSym rfl, key .decLoop rfl⟩

end Sys2Proof

namespace Sys2Proof.Machine

/-- Settles O4: the turn is the issued bytes', and they decode to nothing. -/
theorem reservedOperationsRefused : Obligations.ReservedOperationsRefused := by
  unfold Obligations.ReservedOperationsRefused
  intro s number rest hnone hissue hhung
  have hne : s.issue ≠ [] := by rw [hissue]; exact List.cons_ne_nil _ _
  rw [step_issue hne hhung, issueTurn, hissue, decode_reservedNumber hnone]
  rfl

end Sys2Proof.Machine

namespace Sys2Proof.Machine

/-! ### Where the fields of the header and the bits of the payload stand (R90 to R97) -/

theorem bytesOfNat_add (m n v : Nat) :
    bytesOfNat (m + n) v = bytesOfNat m (v / 256 ^ n) ++ bytesOfNat n v := by
  induction m with
  | zero => simp [bytesOfNat]
  | succ m ih =>
    rw [Nat.add_right_comm, bytesOfNat, bytesOfNat, List.cons_append, ih, Nat.div_div_eq_div_mul,
      ← pow_add, Nat.add_comm n m]

/-- R90 to R94: the header, field by field. -/
theorem headerBytes_fields (id : BitVec 40) (n : Count) (len : Table (BitVec 8)) :
    headerBytes id n len = bytesOfNat 4 (id.toNat / 2 ^ 8)
      ++ BitVec.ofNat 8 id.toNat :: (bytesOfNat 8 n.toNat ++ len.toList) := by
  have hid : bytesOfNat 5 id.toNat
      = bytesOfNat 4 (id.toNat / 2 ^ 8) ++ [BitVec.ofNat 8 id.toNat] := by
    have hversion : bytesOfNat 1 id.toNat = [BitVec.ofNat 8 id.toNat] := by simp [bytesOfNat]
    rw [bytesOfNat_add 4 1, hversion]
    rfl
  rw [headerBytes, hid, List.append_assoc, List.append_assoc]
  rfl

/-- A field that fits its `n` bytes is read back from them, whatever follows (R93). -/
theorem natOfBytes_take_append {n v : Nat} (hv : v < 256 ^ n) (bs : List Byte) :
    natOfBytes ((bytesOfNat n v ++ bs).take n) = v := by
  rw [List.take_left' (bytesOfNat_length n v), natOfBytes_bytesOfNat, Nat.mod_eq_of_lt hv]

theorem headerBytes_magic (id : BitVec 40) (n : Count) (len : Table (BitVec 8)) :
    natOfBytes ((headerBytes id n len).take 4) = id.toNat / 2 ^ 8 := by
  have hid := id.isLt
  rw [headerBytes_fields, natOfBytes_take_append (by omega)]

theorem headerBytes_version (id : BitVec 40) (n : Count) (len : Table (BitVec 8)) :
    (headerBytes id n len)[4]? = some (BitVec.ofNat 8 id.toNat) := by
  rw [headerBytes_fields, List.getElem?_append_right (by rw [bytesOfNat_length]), bytesOfNat_length]
  rfl

theorem headerBytes_drop_five (id : BitVec 40) (n : Count) (len : Table (BitVec 8)) :
    (headerBytes id n len).drop 5 = bytesOfNat 8 n.toNat ++ len.toList := by
  rw [headerBytes, List.append_assoc, List.drop_left' (bytesOfNat_length 5 id.toNat)]

theorem headerBytes_origLen (id : BitVec 40) (n : Count) (len : Table (BitVec 8)) :
    natOfBytes (((headerBytes id n len).drop 5).take 8) = n.toNat := by
  have hn := n.isLt
  rw [headerBytes_drop_five, natOfBytes_take_append (by omega)]

theorem headerBytes_length_entry (id : BitVec 40) (n : Count) (len : Table (BitVec 8)) (x : Byte) :
    (headerBytes id n len)[13 + x.toNat]? = some (entry len x) := by
  have hfront : (bytesOfNat 5 id.toNat ++ bytesOfNat 8 n.toNat).length = 13 := by
    rw [List.length_append, bytesOfNat_length, bytesOfNat_length]
  rw [headerBytes, List.getElem?_append_right (by omega), hfront, Nat.add_sub_cancel_left]
  simp [entry]

theorem payloadBits_length (len : Table (BitVec 8)) (xs : List Byte) :
    (payloadBits len xs).length = (xs.map fun x => (entry len x).toNat).sum := by
  simp [payloadBits, List.length_flatMap, symbolBits_length]

theorem payloadBytes_length (len : Table (BitVec 8)) (xs : List Byte) :
    (payloadBytes len xs).length = ((payloadBits len xs).length + 7) / 8 := by
  rw [payloadBytes, bytesOfBits_length, padBits_length, Nat.mul_div_cancel_left _ (by decide)]

/-- R15: bit `i` of a bit-code, the first bit being its most significant. -/
theorem codeBits_getElem? {v L i : Nat} (h : i < L) :
    (codeBits v L)[i]? = some (v.testBit (L - 1 - i)) := by
  induction L generalizing i with
  | zero => omega
  | succ L ih =>
    cases i with
    | zero => simp [codeBits]
    | succ i =>
      rw [codeBits, List.getElem?_cons_succ, ih (by omega)]
      congr 2
      omega

/-- R71: bit `i` of a byte in the order of a bit sequence is its bit `7 - i`. -/
theorem byteBits_getElem? {b : Byte} {i : Nat} (h : i < 8) :
    (byteBits b)[i]? = some (b.getLsbD (7 - i)) :=
  codeBits_getElem? h

/-- R132: byte `k` holds the bits `8k` to `8k + 7`. -/
theorem byteBits_of_bytesOfBits {S : List Bool} {k : Nat} {b : Byte}
    (h : (bytesOfBits S)[k]? = some b) : byteBits b = (S.drop (8 * k)).take 8 := by
  obtain ⟨hk, rfl⟩ := List.getElem?_eq_some_iff.mp h
  rw [bytesOfBits_length] at hk
  simp only [bytesOfBits, List.getElem_map, List.getElem_range]
  refine byteBits_ofNat_bitsValue ?_
  rw [List.length_take, List.length_drop]
  omega

/-- R95: bit `j` of a sequence packed into bytes. -/
theorem getLsbD_of_bytesOfBits {S : List Bool} {j : Nat} {b : Byte}
    (h : (bytesOfBits S)[j / 8]? = some b) : S[j]? = some (b.getLsbD (7 - j % 8)) := by
  have hj : j % 8 < 8 := Nat.mod_lt _ (by decide)
  rw [← byteBits_getElem? hj, byteBits_of_bytesOfBits h, List.getElem?_take_of_lt hj,
    List.getElem?_drop, Nat.div_add_mod]

/-- R96: the bits added are zero. -/
theorem padBits_getD (S : List Bool) (j : Nat) : (padBits S).getD j false = S.getD j false := by
  rw [padBits]
  by_cases h : j < S.length
  · rw [List.getD_append _ _ _ _ h]
  · rw [List.getD_append_right _ _ _ _ (by omega), List.getD_eq_default S _ (by omega)]
    simp

/-- Settles O38: each field at its offset, and the payload's bits in their bytes. -/
theorem containerLayout : Obligations.ContainerLayout := by
  unfold Obligations.ContainerLayout
  intro id n len xs
  refine ⟨headerBytes_length id n len, headerBytes_magic id n len, headerBytes_version id n len,
    headerBytes_origLen id n len, headerBytes_length_entry id n len, payloadBits_length len xs,
    payloadBytes_length len xs, fun j b hb => ?_⟩
  rw [← padBits_getD, List.getD_eq_getElem?_getD, getLsbD_of_bytesOfBits hb]
  rfl

end Sys2Proof.Machine

namespace Sys2Proof.Machine

/-! ### PACK of the empty input (R228) -/

/-- R184: no symbol is present in the table CT_WALK leaves where there is no tree. -/
theorem present_replicate_zero : present (Vector.replicate 256 0) = [] := by
  rw [present_eq]
  simp

theorem kraft255_replicate_zero : kraft255 (Vector.replicate 256 0) = 0 := by
  rw [kraft255, present_replicate_zero]
  rfl

/-- CT_CANON writes nothing but CODE where the Kraft sum is at most 1 (R188). -/
theorem assignCodes_eq {s : State} (h : kraft255 s.len ≤ 2 ^ 255) :
    assignCodes s = { s with code := (assignCodes s).code } := by
  rw [assignCodes, if_pos h]

/-- R161, R166, R182: P_BUILD where no byte was counted: no node, no length, no code. -/
theorem buildCodes_empty {s : State} (h : countedBytes s.freq = []) :
    ∃ t, buildCodes s = .ok () t ∧ s.sameButTables t ∧ t.root = none ∧ t.nsym = 0 ∧
      t.degen = .empty ∧ t.len = Vector.replicate 256 0 := by
  obtain ⟨b, hb, hsame, hnsym, hnone, -, -⟩ := buildTree_ok s
  obtain ⟨hroot, -, -⟩ := hnone h
  rw [h] at hnsym
  have hcodes : assignCodes (walked .empty [] b)
      = { walked .empty [] b with code := (assignCodes (walked .empty [] b)).code } :=
    assignCodes_eq (kraft255_replicate_zero.trans_le (Nat.zero_le _))
  refine ⟨assignCodes (walked .empty [] b), ?_, ?_, ?_, ?_, ?_, ?_⟩
  · rw [buildCodes, hb, Res.ok_bind, walkTree_none hroot]
    rfl
  · rw [State.sameButTables, hcodes, hsame]
    rfl
  · rw [hcodes]
    exact hroot
  · rw [hcodes]
    exact Fin.ext hnsym
  · rw [hcodes]
    rfl
  · rw [hcodes]
    rfl

/-- The state with other channels: what an operation that transacts and changes no register leaves. -/
def State.onChan (c : Channels) (s : State) : State :=
  { s with chan := c }

@[simp] theorem State.onChan_chan (c : Channels) (s : State) : (s.onChan c).chan = c := rfl

@[simp] theorem State.onChan_enter (c : Channels) (p : Phase) (s : State) :
    (s.onChan c).enter p = (s.enter p).onChan c := rfl

@[simp] theorem State.enter_enter (p q : Phase) (s : State) : (s.enter p).enter q = s.enter q := rfl

/-- R153: FQ_SCAN of an input at its end meets EOS and counts nothing. -/
theorem scanInput_empty {s : State} (hd : s.chan.draw = .ok) (hr : s.chan.rest = []) :
    scanInput s = .ok () (s.onChan s.chan.metEnd) := by
  rw [scanInput, readTurns_eq, hr, List.length_nil, scanLoop, scanTurn, inRead_eos hd hr]
  rfl

/-- R201, R222: HDR_WRITE on an empty sink leaves it empty. -/
theorem writeHeader_empty_sink {s : State} (hacc : s.skAcc = 0) (hn : s.skN = 0)
    (ho : s.chan.outClosed = false) (hd : s.chan.okFor 269) :
    writeHeader s = .ok () (s.onChan (s.chan.wrote (headerBytes s.id s.origLen s.len))) := by
  have hpending : s.pending = [] := by
    rw [State.pending, hn]
    rfl
  have hbits : ((headerBytes s.id s.origLen s.len).flatMap byteBits).length = 8 * 269 := by
    rw [flatMap_byteBits_length, headerBytes_length]
  have hleft : leftBits ((headerBytes s.id s.origLen s.len).flatMap byteBits) = [] :=
    List.eq_nil_of_length_eq_zero (by rw [leftBits_length, hbits])
  rw [writeHeader_ok (by rw [hacc, hn]; decide) ho hd, hpending, List.nil_append, State.sank,
    bytesOfBits_byteBits, hleft, hbits, State.onChan, hacc, hn]
  rfl

/-- R224, R225: ENC_PASS of an input at its end, with ORIG_LEN 0, meets EOS and writes nothing. -/
theorem encodePass_empty {s : State} (hd : s.chan.draw = .ok) (hr : s.chan.rest = [])
    (hlen : s.origLen = 0) :
    encodePass s = .ok () (s.emittedClear.onChan s.chan.metEnd) := by
  have hread : inRead s.emittedClear = .ok none { s.emittedClear with chan := s.chan.metEnd } :=
    inRead_eos hd hr
  have hturns : readTurns s = 1 := by rw [readTurns_eq, hr]; rfl
  have hloop : encodeLoop (readTurns s.emittedClear) s.emittedClear
      = .ok () { s.emittedClear with chan := s.chan.metEnd } := by
    rw [show readTurns s.emittedClear = 1 from hturns, encodeLoop, encodeTurn, hread]
    rfl
  rw [encodePass, hloop, Res.ok_bind]
  exact if_pos hlen.symm

/-- R226: with nothing pending the finish step is the OutClose alone. -/
theorem finishPack_empty_sink {s : State} (hn : s.skN = 0) (ho : s.chan.outClosed = false)
    (hd : s.chan.draw = .ok) :
    finishPack s
      = .ok () (s.onChan { s.chan.made (.outClose .ok) with outClosed := true }) := by
  rw [finishPack, flushSink_empty hn, Res.ok_bind, outClose_ok ho hd]
  rfl

/-- R305, R310: a channel that was bound, with Ok draws, stays so under a transaction that reads no byte
and closes nothing. -/
theorem Channels.Bound.made {c : Channels} (h : c.Bound) (x : Transaction) : (c.made x).Bound :=
  ⟨h.start, h.same, h.opened, fun d hd => h.draws d (List.mem_of_mem_tail hd)⟩

theorem Channels.Bound.wrote {c : Channels} (h : c.Bound) (bs : List Byte) : (c.wrote bs).Bound :=
  ⟨h.start, h.same, h.opened, fun d hd => h.draws d (List.mem_of_mem_drop hd)⟩

theorem Channels.Bound.draw {c : Channels} (h : c.Bound) : c.draw = .ok :=
  (Channels.okAll_okFor h.draws 1).draw (by decide)

/-- R63: an InRewind of an input not begun moves nothing. -/
theorem inRewind_bound {s : State} (hb : s.chan.Bound) :
    inRewind s = .ok () (s.onChan (s.chan.made (.inRewind .ok))) := by
  have hinput : s.chan.inRewound.getD s.chan.input = s.chan.input := by rw [hb.same]; rfl
  rw [inRewind_ok hb.draw, hinput, ← hb.start, ← hb.same]
  rfl

/-- The channels after PACK wrote `header` and then met EOS again in pass 2 (R228). -/
def Channels.packedEmpty (header : List Byte) (c : Channels) : Channels :=
  { ((c.wrote header).made (.inRewind .ok)).metEnd.made (.outClose .ok) with outClosed := true }

@[simp] theorem Channels.packedEmpty_out (header : List Byte) (c : Channels) :
    (c.packedEmpty header).out = c.out ++ header := rfl

@[simp] theorem Channels.packedEmpty_trace (header : List Byte) (c : Channels) :
    (c.packedEmpty header).trace = [.outClose .ok, .inRead .eos, .inRewind .ok]
      ++ (header.map fun b => Transaction.outWrite b .ok).reverse ++ c.trace := rfl

/-- R222 to R226: PACK from P_HEADER on, where pass 1 read no byte. -/
theorem packSequence_of_empty_build {s t u : State} (hscan : scanInput (s.enter .pCount) = .ok () t)
    (hbuild : buildCodes (t.enter .pBuild) = .ok () u) (hb : u.chan.Bound) (hr : u.chan.rest = [])
    (hacc : u.skAcc = 0) (hn : u.skN = 0) (hlen : u.origLen = 0) :
    packSequence s = .ok () ((u.emittedClear.enter .done).onChan
      (u.chan.packedEmpty (headerBytes u.id u.origLen u.len))) := by
  have hheader : writeHeader (u.enter .pHeader) = .ok () ((u.enter .pHeader).onChan
      (u.chan.wrote (headerBytes u.id u.origLen u.len))) :=
    writeHeader_empty_sink hacc hn hb.opened (Channels.okAll_okFor hb.draws _)
  generalize headerBytes u.id u.origLen u.len = header at hheader ⊢
  have hbw := hb.wrote header
  have hrewind : inRewind ((u.enter .pRewind).onChan (u.chan.wrote header))
      = .ok () ((u.enter .pRewind).onChan ((u.chan.wrote header).made (.inRewind .ok))) :=
    inRewind_bound hbw
  have hbr := hbw.made (.inRewind .ok)
  have hencode : encodePass ((u.enter .pEncode).onChan ((u.chan.wrote header).made (.inRewind .ok)))
      = .ok () ((u.emittedClear.enter .pEncode).onChan
        ((u.chan.wrote header).made (.inRewind .ok)).metEnd) :=
    encodePass_empty hbr.draw hr hlen
  have hbe := hbr.made (.inRead .eos)
  have hfinish : finishPack ((u.emittedClear.enter .pFinish).onChan
        ((u.chan.wrote header).made (.inRewind .ok)).metEnd)
      = .ok () ((u.emittedClear.enter .pFinish).onChan (u.chan.packedEmpty header)) :=
    finishPack_empty_sink hn hbe.opened hbe.draw
  simp only [packSequence, hscan, Res.ok_bind, hbuild, hheader, State.onChan_enter,
    State.enter_enter, hrewind, hencode, hfinish]

/-- R228: PACK of the empty input. -/
theorem packSequence_empty {s : State} (hb : s.chan.Bound) (hempty : s.chan.input = []) :
    ∃ t, packSequence (s.startCommand .pCount) = .ok () t ∧ t.phase = .done ∧ t.degen = .empty ∧
      t.nsym = 0 ∧ t.root = none ∧
      t.chan = s.chan.metEnd.packedEmpty (headerBytes s.id 0 (Vector.replicate 256 0)) := by
  have hrest : s.chan.rest = [] := by rw [Channels.rest, hempty, List.drop_nil]
  have hscan : scanInput ((s.startCommand .pCount).enter .pCount)
      = .ok () (((s.startCommand .pCount).enter .pCount).onChan s.chan.metEnd) :=
    scanInput_empty hb.draw hrest
  have hcounted : countedBytes (Vector.replicate 256 0) = [] := by simp [countedBytes]
  obtain ⟨u, hbuild, hsame, hroot, hnsym, hdegen, hlen⟩ := buildCodes_empty
    (s := ((s.startCommand .pCount).enter .pBuild).onChan s.chan.metEnd) hcounted
  have hchan : u.chan = s.chan.metEnd := congrArg State.chan hsame
  have hacc : u.skAcc = 0 := congrArg State.skAcc hsame
  have hn : u.skN = 0 := congrArg State.skN hsame
  have horig : u.origLen = 0 := congrArg State.origLen hsame
  have hid : u.id = s.id := (congrArg State.id hsame).trans rfl
  have hrun := packSequence_of_empty_build hscan hbuild (hchan ▸ hb.made _)
    (by rw [hchan]; exact hrest) hacc hn horig
  rw [hchan, hid, horig, hlen] at hrun
  exact ⟨_, hrun, rfl, hdegen, hnsym, hroot, rfl⟩

/-! ### PACK of one repeated byte (R229) -/

theorem distinct_replicate {x : Byte} {n : Nat} (hn : n ≠ 0) :
    distinct (List.replicate n x) = 1 := by
  have hmem : (allBytes.filter fun b => b ∈ List.replicate n x) = allBytes.filter (· == x) := by
    congr 1
    funext b
    simp [hn, beq_eq_decide]
  rw [distinct, hmem, ← List.count_eq_length_filter]
  exact List.count_eq_one_of_mem allBytes_nodup (mem_allBytes x)

/-- R184: the table with one present symbol, of length 1. -/
theorem len_of_present_single {len : Table (BitVec 8)} {x : Byte} (h : present len = [(x, 1)]) :
    len = setEntry (Vector.replicate 256 0) x 1 := by
  refine table_ext fun b => ?_
  rw [entry_setEntry, entry_replicate]
  split
  · rename_i hb
    subst hb
    have hmem : (x, 1) ∈ present len := by rw [h]; exact List.mem_singleton_self _
    exact BitVec.eq_of_toNat_eq (mem_present.mp hmem).2.symm
  · rename_i hb
    by_contra hne
    have hmem : (b, (entry len b).toNat) ∈ present len := mem_present.mpr ⟨hne, rfl⟩
    rw [h, List.mem_singleton] at hmem
    exact hb (congrArg Prod.fst hmem).symm

/-- R188: a single symbol has the code of one 0 bit. -/
theorem symbolBits_single {len : Table (BitVec 8)} {x : Byte} (h : present len = [(x, 1)]) :
    symbolBits len x = [false] := by
  have hcode : entry (canonTable len) x = 0 := by
    rw [canonTable, canonOrder, h]
    exact entry_setEntry_self _ x _
  have hlen : entry len x = 1 := by rw [len_of_present_single h, entry_setEntry_self]
  rw [symbolBits, hcode, hlen]
  rfl

theorem bitsValue_replicate_false (n : Nat) : bitsValue 0 (List.replicate n false) = 0 := by
  induction n with
  | zero => rfl
  | succ n ih => rw [List.replicate_succ, bitsValue_cons]; exact ih

theorem bytesOfBits_replicate_false (n : Nat) :
    bytesOfBits (List.replicate n false) = List.replicate (n / 8) 0 := by
  refine List.eq_replicate_iff.mpr ⟨by simp, fun b hb => ?_⟩
  obtain ⟨k, -, rfl⟩ := List.mem_map.mp hb
  rw [List.drop_replicate, List.take_replicate, bitsValue_replicate_false]
  rfl

/-- R229: `n` zero bits fill `ceil(n / 8)` zero bytes. -/
theorem payloadBytes_single {len : Table (BitVec 8)} {x : Byte} (h : present len = [(x, 1)])
    (n : Nat) : payloadBytes len (List.replicate n x) = List.replicate ((n + 7) / 8) 0 := by
  have hbits : payloadBits len (List.replicate n x) = List.replicate n false := by
    rw [payloadBits, List.flatMap_replicate, symbolBits_single h,
      List.flatten_replicate_singleton]
  have hpad : padBits (List.replicate n false) = List.replicate (8 * ((n + 7) / 8)) false := by
    rw [padBits, List.replicate_append_replicate]
    congr 1
    rw [List.length_replicate]
    omega
  rw [payloadBytes, hbits, hpad, bytesOfBits_replicate_false, Nat.mul_div_cancel_left _ (by decide)]

/-- R229: PACK of one repeated byte. -/
theorem packSequence_replicate {s : State} {x : Byte} {n : Nat} (hb : s.chan.Bound) (hn : 0 < n)
    (hlt : n < 2 ^ 64) (hinput : s.chan.input = List.replicate n x) :
    ∃ t, packSequence (s.startCommand .pCount) = .ok () t ∧ t.phase = .done ∧ t.degen = .single ∧
      t.nsym = 1 ∧ t.chan.out = s.chan.out
        ++ headerBytes s.id (BitVec.ofNat 64 n) (setEntry (Vector.replicate 256 0) x 1)
        ++ List.replicate ((n + 7) / 8) 0 := by
  have hlength : s.chan.input.length = n := by rw [hinput, List.length_replicate]
  have hdistinct : distinct s.chan.input = 1 := by rw [hinput, distinct_replicate hn.ne']
  obtain ⟨t, hrun, hphase, -, -, -, horig, -, hnsym, hdegen, hlen, -, -, hone, -, hout, -⟩ :=
    packSequence_ok hb (hlength ▸ hlt)
  obtain ⟨y, hy⟩ := hone hdistinct
  have hmem : y ∈ List.replicate n x := by
    have hpresent : (y, 1) ∈ present t.len := by rw [hy]; exact List.mem_singleton_self _
    rw [← hinput, ← hlen]
    exact (mem_present.mp hpresent).1
  obtain rfl := List.eq_of_mem_replicate hmem
  refine ⟨t, hrun, hphase, by rw [hdegen, hdistinct]; rfl, Fin.ext (hnsym.trans hdistinct), ?_⟩
  rw [hout, horig, hlength, hinput, payloadBytes_single hy, ← len_of_present_single hy]

/-- Where a command is accepted PACK runs its sequence to the end (R41, R220). -/
theorem exec_pack_of_ok {s t : State} (haccepts : s.accepts = true)
    (h : packSequence (s.startCommand .pCount) = .ok () t) : exec .pack s = .next t := by
  have hexec : exec .pack s = execPack s := rfl
  rw [hexec, execPack, if_pos haccepts, h, Res.ok_outcome]

/-- Settles O48: the empty input step by step; one repeated byte by what every PACK writes. -/
theorem packOfDegenerateInputs : Obligations.PackOfDegenerateInputs := by
  unfold Obligations.PackOfDegenerateInputs
  intro s haccepts hb
  refine ⟨fun hempty => ?_, fun x n hn hlt hinput => ?_⟩
  · obtain ⟨t, hrun, hphase, hdegen, hnsym, hroot, hchan⟩ := packSequence_empty hb hempty
    exact ⟨t, exec_pack_of_ok haccepts hrun, hphase, hdegen, hnsym, hroot,
      by rw [hchan, Channels.packedEmpty_out, Channels.metEnd_out],
      by rw [hchan, Channels.packedEmpty_trace]; rfl⟩
  · obtain ⟨t, hrun, h⟩ := packSequence_replicate hb hn hlt hinput
    exact ⟨t, exec_pack_of_ok haccepts hrun, h⟩

end Sys2Proof.Machine

namespace Sys2Proof.Machine

/-! ### BitSink and BitSource, operation by operation (R131 to R138) -/

/-- Settles O16: both operations are one assignment. -/
theorem initEmptiesSinkAndSource : Obligations.InitEmptiesSinkAndSource :=
  fun _ => ⟨rfl, rfl⟩

/-- R113: WRBITS runs where its operand is a bit-code. -/
theorem exec_wrbits {v L : Nat} (hL : L ≤ 255) (hv : v < 2 ^ L) (s : State) :
    exec (.wrbits v L) s = (writeBits v L s).outcome :=
  if_pos (wellFormed_wrbits.mpr ⟨hL, hv⟩)

/-- R113, log 25: WRBITS is refused where its operand is no bit-code. -/
theorem exec_wrbits_refused {v L : Nat} (h : 255 < L ∨ 2 ^ L ≤ v) (s : State) :
    exec (.wrbits v L) s = .refused .operandOutOfRange :=
  if_neg fun hwf => by
    obtain ⟨hL, hv⟩ := wellFormed_wrbits.mp hwf
    exact h.elim hL.not_gt hv.not_ge

theorem exec_wrbits_ok {v L : Nat} {s : State} (hL : L ≤ 255) (hv : v < 2 ^ L)
    (hs : s.skAcc.toNat < 2 ^ s.skN.val) (ho : s.chan.outClosed = false)
    (hd : s.chan.okFor ((s.skN.val + L) / 8)) :
    exec (.wrbits v L) s = .next (s.sank (s.pending ++ codeBits v L)) := by
  rw [exec_wrbits hL hv, writeBits_ok v L hs ho hd, Res.ok_outcome]

/-- Settles O17: the operand decides between the refusal and `writeBits_ok`. -/
theorem wrbitsAppendsTheCode : Obligations.WrbitsAppendsTheCode := by
  unfold Obligations.WrbitsAppendsTheCode
  exact fun v L s => ⟨fun h => exec_wrbits_refused h s, fun hL hv hs ho hd =>
    ⟨exec_wrbits_ok hL hv hs ho hd, State.sank_pending_bits _ s⟩⟩

/-- R15: the bit-code of two bit-codes, one after the other. -/
theorem concat_lt {v₁ v₂ L₁ L₂ : Nat} (h₁ : v₁ < 2 ^ L₁) (h₂ : v₂ < 2 ^ L₂) :
    v₁ * 2 ^ L₂ + v₂ < 2 ^ (L₁ + L₂) :=
  calc
    v₁ * 2 ^ L₂ + v₂ < (v₁ + 1) * 2 ^ L₂ := by rw [Nat.succ_mul]; omega
    _ ≤ 2 ^ L₁ * 2 ^ L₂ := Nat.mul_le_mul_right _ h₁
    _ = 2 ^ (L₁ + L₂) := (pow_add 2 L₁ L₂).symm

/-- Settles O19: WRBITS of the joined code pushes the first code's bits, which end in `t`, and goes
on from there with the second's, whatever becomes of those. -/
theorem wrbitsConcatenates : Obligations.WrbitsConcatenates := by
  unfold Obligations.WrbitsConcatenates
  intro v₁ v₂ L₁ L₂ s t hL h₁ h₂ hs ho hd ht
  have hfirst := writeBits_ok v₁ L₁ hs ho hd
  rw [exec_wrbits (by omega) h₁, hfirst, Res.ok_outcome] at ht
  cases ht
  rw [exec_wrbits (by omega) h₂, exec_wrbits hL (concat_lt h₁ h₂),
    writeBits_concat v₁ v₂ L₁ L₂ h₂, hfirst, Res.ok_bind]

theorem codeBits_zero (L : Nat) : codeBits 0 L = List.replicate L false := by
  have h := codeBits_bitsValue (List.replicate L false)
  rwa [bitsValue_replicate_false, List.length_replicate] at h

/-- R134: "pending bits in the high positions, zeros below". -/
theorem byteBits_padded (s : State) :
    byteBits (padded s.skAcc s.skN.val) = s.pending ++ List.replicate (8 - s.skN.val) false := by
  have hn : s.skN.val + (8 - s.skN.val) = 8 := by omega
  calc
    byteBits (padded s.skAcc s.skN.val)
      = codeBits (s.skAcc.toNat % 2 ^ s.skN.val * 2 ^ (8 - s.skN.val) + 0)
          (s.skN.val + (8 - s.skN.val)) := by
        rw [byteBits, padded_toNat _ _ (by omega), hn, Nat.add_zero]
    _ = s.pending ++ List.replicate (8 - s.skN.val) false := by
        rw [codeBits_append _ _ _ _ (by positivity), codeBits_mod, codeBits_zero, State.pending]

/-- R134: FLUSH with bits pending is the OutWrite of the padded byte, then an empty sink. -/
theorem exec_flush_pending {s : State} (hn : s.skN ≠ 0) :
    exec .flush s = ((outWrite (padded s.skAcc s.skN.val) s).bind
      fun _ t => .ok () t.sinkInit).outcome := by
  show (flushSink s).outcome = _
  rw [flushSink, if_neg hn]

/-- Settles O20: the byte is the padded one; the answer of its OutWrite decides the rest. -/
theorem flushPadsTheLastByte : Obligations.FlushPadsTheLastByte := by
  unfold Obligations.FlushPadsTheLastByte
  intro s
  refine ⟨fun hn => ?_, fun hn ho hd => ⟨_, byteBits_padded s, ?_⟩,
    fun landed hn ho hd => ⟨_, byteBits_padded s, ?_⟩⟩
  · show (flushSink s).outcome = _
    rw [flushSink_empty hn, Res.ok_outcome]
  · rw [exec_flush_pending hn, outWrite_ok _ ho hd]
    rfl
  · rw [exec_flush_pending hn, outWrite_fail _ ho hd]
    rfl

/-- R136, log 19: RDBIT keeps in `result` what it delivers. -/
theorem exec_rdbit_of_ok {s t : State} {r : Option Bool} (h : readBit s = .ok r t) :
    exec .rdbit s = .next { t with result := bitResult r } := by
  show ((readBit s).bind _).outcome = _
  rw [h]
  rfl

theorem exec_rdbit_of_stop {s t : State} (h : readBit s = .stop t) : exec .rdbit s = .next t := by
  show ((readBit s).bind _).outcome = _
  rw [h]
  rfl

/-- Settles O21: a bit of SR_ACC, or what the InRead of the next byte answers. -/
theorem rdbitDeliversTheNextBit : Obligations.RdbitDeliversTheNextBit := by
  unfold Obligations.RdbitDeliversTheNextBit
  intro s
  refine ⟨fun n hn => ?_, fun b bs h0 hd hr => ?_, fun h0 hd hr => ?_, fun landed h0 hd => ?_⟩
  · have hne : s.srN ≠ 0 := fun h => by rw [h] at hn; simp at hn
    have hpred : s.srN.val - 1 = n := by omega
    have hread : readBit s = .ok (some (s.srAcc.getLsbD n)) { s with srN := Fin.ofNat 9 n } := by
      rw [readBit, if_neg hne, deliver]
      simp only [hpred, Res.ok.injEq, true_and]
      congr 1
      ext
      simp
      omega
    exact exec_rdbit_of_ok hread
  · have hread : readBit s = .ok (some (b.getLsbD 7))
        { s with srAcc := b, srN := 7, chan := s.chan.took 1 } := by
      rw [readBit, if_pos h0, inRead_byte hd hr]
      rfl
    exact exec_rdbit_of_ok hread
  · have hread : readBit s = .ok none { s with chan := s.chan.metEnd } := by
      rw [readBit, if_pos h0, inRead_eos hd hr]
      rfl
    exact exec_rdbit_of_ok hread
  · have hread := inRead_fail hd
    exact exec_rdbit_of_stop (by rw [readBit, if_pos h0, hread]; rfl)

/-- R137, log 19: RDBITS keeps in `result` what it delivers. -/
theorem exec_rdbits_of_ok {n : Nat} {s t : State} {r : Option Nat} (hn : n ≤ 64)
    (h : readBits n s = .ok r t) : exec (.rdbits n) s = .next { t with result := valueResult r } := by
  have hexec : exec (.rdbits n) s
      = ((readBits n s).bind fun r t => .ok () { t with result := valueResult r }).outcome :=
    if_pos (wellFormed_rdbits.mpr hn)
  rw [hexec, h]
  rfl

/-- R113, log 25: RDBITS is refused where its operand is no bit count. -/
theorem exec_rdbits_refused {n : Nat} (h : 64 < n) (s : State) :
    exec (.rdbits n) s = .refused .operandOutOfRange :=
  if_neg fun hwf => (wellFormed_rdbits.mp hwf).not_gt h

/-- Settles O22: the operand decides between the refusal and `readBitsFrom_ok`. -/
theorem rdbitsReadsAValue : Obligations.RdbitsReadsAValue := by
  unfold Obligations.RdbitsReadsAValue
  intro n s
  refine ⟨fun h => exec_rdbits_refused h s, fun hn hlen hd => ?_⟩
  obtain ⟨hread, hstream⟩ := readBitsFrom_ok 0 n hlen hd
  exact ⟨exec_rdbits_of_ok hn hread, hstream⟩

/-- R75: the bits that remain take all bytes that remain. -/
theorem State.fetches_bitStream_length (s : State) :
    s.fetches s.bitStream.length = s.chan.rest.length := by
  rw [State.fetches, State.bitStream_length]
  omega

/-- Settles O23: RDBITS takes all bits that remain, and with them all bytes, before it meets the
end. -/
theorem rdbitsLosesAShortValue : Obligations.RdbitsLosesAShortValue := by
  unfold Obligations.RdbitsLosesAShortValue
  intro n s hn hlen hd
  refine ⟨_, exec_rdbits_of_ok hn (readBitsFrom_eos 0 n hlen hd), ?_, ?_⟩
  · apply Fin.ext
    show (s.sourced s.bitStream.length).srN.val = 0
    rw [State.sourced_srN, State.fetches_bitStream_length, State.bitStream_length, Nat.sub_self]
  · have hchan : (s.sourced s.bitStream.length).chan = s.chan.took s.chan.rest.length :=
      congrArg s.chan.took s.fetches_bitStream_length
    rw [hchan]
    rfl

/-! ### What BitSink wrote BitSource reads (R139 (a)) -/

/-- Operations run one after the other: the second list runs where the first one ended. -/
theorem runList_append {is : List Instr} {s t : State} (h : runList is s = .next t)
    (js : List Instr) : runList (is ++ js) s = runList js t := by
  induction is generalizing s with
  | nil => cases h; rfl
  | cons i is ih =>
    rw [runList] at h
    rw [List.cons_append, runList]
    cases he : exec i s with
    | next u => rw [he] at h; exact ih h
    | fault e => rw [he] at h; cases h
    | refused r => rw [he] at h; cases h

theorem runList_singleton (i : Instr) (s : State) : runList [i] s = exec i s := by
  rw [runList]
  cases exec i s <;> rfl

/-- R67: where every draw is Ok, so is the next. -/
theorem Channels.okAll_draw {c : Channels} (h : ∀ d ∈ c.draws, d = .ok) : c.draw = .ok :=
  (Channels.okAll_okFor h 1).draw one_pos

/-- R21: with SK_N 0 nothing is pending. -/
theorem State.pending_of_empty {s : State} (h : s.skN = 0) : s.pending = [] := by
  rw [State.pending, h]
  rfl

/-- R132: WRBITS of one bit-code after the other sinks all their bits. -/
theorem runList_wrbits {codes : List (Nat × Nat)} {s : State}
    (hcodes : ∀ c ∈ codes, c.2 ≤ 255 ∧ c.1 < 2 ^ c.2) (hs : s.skAcc.toNat < 2 ^ s.skN.val)
    (ho : s.chan.outClosed = false) (hd : ∀ d ∈ s.chan.draws, d = .ok) :
    runList (codes.map fun c => .wrbits c.1 c.2) s
      = .next (s.sank (s.pending ++ codes.flatMap fun c => codeBits c.1 c.2)) := by
  induction codes generalizing s with
  | nil => rw [List.flatMap_nil, List.append_nil, State.sank_self hs]; rfl
  | cons c codes ih =>
    obtain ⟨⟨hL, hv⟩, hrest⟩ := List.forall_mem_cons.mp hcodes
    have hfirst := exec_wrbits_ok hL hv hs ho (Channels.okAll_okFor hd _)
    rw [List.map_cons, runList, hfirst, List.flatMap_cons, ← List.append_assoc,
      ← State.sank_sank (s.pending ++ codeBits c.1 c.2)]
    exact ih hrest (State.sank_small _ s) ho fun d h => hd d (List.mem_of_mem_drop h)

/-- R134: what FLUSH leaves in OUT, with bits pending or without. -/
theorem exec_flush_ok {s : State} (ho : s.chan.outClosed = false) (hd : s.chan.draw = .ok) :
    ∃ t, exec .flush s = .next t ∧ t.chan.out = s.chan.out ++ bytesOfBits (padBits s.pending) := by
  show ∃ t, (flushSink s).outcome = .next t ∧ _
  by_cases hn : s.skN = 0
  · refine ⟨s, by rw [flushSink_empty hn, Res.ok_outcome], ?_⟩
    rw [State.pending_of_empty hn]
    exact (List.append_nil _).symm
  · exact ⟨_, by rw [flushSink_pending hn ho hd, Res.ok_outcome], rfl⟩

/-- R132, R134: into an empty sink WRBITS and FLUSH write the bits, padded to full bytes. -/
theorem runList_wrbits_flush {codes : List (Nat × Nat)} {s : State}
    (hcodes : ∀ c ∈ codes, c.2 ≤ 255 ∧ c.1 < 2 ^ c.2) (hacc : s.skAcc = 0) (hn : s.skN = 0)
    (ho : s.chan.outClosed = false) (hd : ∀ d ∈ s.chan.draws, d = .ok) :
    ∃ t, runList (codes.map (fun c => .wrbits c.1 c.2) ++ [.flush]) s = .next t ∧
      t.chan.out
        = s.chan.out ++ bytesOfBits (padBits (codes.flatMap fun c => codeBits c.1 c.2)) := by
  have hs : s.skAcc.toNat < 2 ^ s.skN.val := by rw [hacc, hn]; decide
  have hsank := runList_wrbits hcodes hs ho hd
  rw [State.pending_of_empty hn, List.nil_append] at hsank
  generalize codes.flatMap (fun c => codeBits c.1 c.2) = S at hsank ⊢
  obtain ⟨t, hflush, hout⟩ := exec_flush_ok (s := s.sank S) ho
    (Channels.okAll_draw fun d h => hd d (List.mem_of_mem_drop h))
  refine ⟨t, by rw [runList_append hsank, runList_singleton, hflush], ?_⟩
  rw [hout, State.sank_pending_bits, bytesOfBits_padBits S, ← List.append_assoc]
  rfl

/-- R136: RDBIT, performed `n` times, takes the first `n` bits of the stream. -/
theorem runList_rdbit (n : Nat) {s : State} (hn : n ≤ s.bitStream.length)
    (hd : ∀ d ∈ s.chan.draws, d = .ok) :
    ∃ t, runList (List.replicate n .rdbit) s = .next t ∧ t.bitStream = s.bitStream.drop n ∧
      ∀ d ∈ t.chan.draws, d = .ok := by
  induction n generalizing s with
  | zero => exact ⟨s, rfl, rfl, hd⟩
  | succ n ih =>
    cases hb : s.bitStream with
    | nil => simp [hb] at hn
    | cons b bs =>
      obtain ⟨hread, hbs⟩ := readBit_ok hb fun _ => Channels.okAll_draw hd
      have hlen : n ≤ (s.sourced 1).bitStream.length := by rw [hbs]; simpa [hb] using hn
      obtain ⟨t, hrun, hstream, hdraws⟩ :=
        ih (s := { s.sourced 1 with result := bitResult (some b) }) hlen
          fun d h => hd d (List.mem_of_mem_drop h)
      refine ⟨t, ?_, hstream.trans (congrArg (List.drop n) hbs), hdraws⟩
      rw [List.replicate_succ, runList, exec_rdbit_of_ok hread]
      exact hrun

/-- R136: RDBIT delivers the first bit of the stream, or EOS where there is none. -/
theorem exec_rdbit_result {s : State} (hd : s.chan.draw = .ok) :
    ∃ t, exec .rdbit s = .next t ∧ t.result = bitResult s.bitStream.head? := by
  cases hb : s.bitStream with
  | nil => exact ⟨_, exec_rdbit_of_ok (readBit_eos hb hd), rfl⟩
  | cons b bs => exact ⟨_, exec_rdbit_of_ok (readBit_ok hb fun _ => hd).1, rfl⟩

/-- R136: what the RDBIT after `n` others delivers. -/
theorem runList_rdbit_result {n : Nat} {s : State} (hn : n ≤ s.bitStream.length)
    (hd : ∀ d ∈ s.chan.draws, d = .ok) :
    ∃ t, runList (List.replicate (n + 1) .rdbit) s = .next t ∧
      t.result = bitResult s.bitStream[n]? := by
  obtain ⟨u, hrun, hstream, hdraws⟩ := runList_rdbit n hn hd
  obtain ⟨t, hlast, hresult⟩ := exec_rdbit_result (Channels.okAll_draw hdraws)
  refine ⟨t, ?_, by rw [hresult, hstream, List.head?_drop]⟩
  rw [List.replicate_succ', runList_append hrun, runList_singleton, hlast]

/-- R22: with SR empty the bits to come are those of the bytes to come. -/
theorem State.bitStream_of_empty {s : State} (h : s.srN = 0) :
    s.bitStream = s.chan.rest.flatMap byteBits := by
  rw [State.bitStream, h]
  rfl

/-- Settles O24: FLUSH leaves the padded bits in OUT, and these are what RDBIT then delivers. -/
theorem bitSourceReadsBackBitSink : Obligations.BitSourceReadsBackBitSink := by
  unfold Obligations.BitSourceReadsBackBitSink
  intro codes s hcodes hacc hn ho hd
  obtain ⟨t, hrun, hout⟩ := runList_wrbits_flush hcodes hacc hn ho hd
  have hsum : (codes.flatMap fun c => codeBits c.1 c.2).length = (codes.map Prod.snd).sum := by
    simp [List.length_flatMap]
  generalize (codes.flatMap fun c => codeBits c.1 c.2) = S at hout hsum ⊢
  have hF : 8 * (bytesOfBits (padBits S)).length = (padBits S).length := by
    rw [← flatMap_byteBits_length, bytesOfBits_bits (padBits_mod S)]
  have hlen : (bytesOfBits (padBits S)).length = ((codes.map Prod.snd).sum + 7) / 8 := by
    rw [bytesOfBits_length, padBits_length, Nat.mul_div_cancel_left _ (by decide), hsum]
  refine ⟨t, _, hrun, hout, hlen, fun u hu hrest hdraws => ?_⟩
  have hstream : u.bitStream = padBits S := by
    rw [State.bitStream_of_empty hu, hrest, bytesOfBits_bits (padBits_mod S)]
  rw [hF]
  refine ⟨fun k hk => ?_, ?_⟩
  · obtain ⟨w, hw, hresult⟩ := runList_rdbit_result (hstream ▸ hk.le) hdraws
    refine ⟨w, hw, ?_⟩
    rw [hresult, hstream, ← padBits_getD, List.getD_eq_getElem _ _ hk, List.getElem?_eq_getElem hk]
    rfl
  · obtain ⟨w, hw, hresult⟩ := runList_rdbit_result (by rw [hstream]) hdraws
    refine ⟨w, hw, ?_⟩
    rw [hresult, hstream, List.getElem?_eq_none le_rfl]
    rfl

end Sys2Proof.Machine

namespace Sys2Proof.Machine

/-! ### FrequencyTable, operation by operation (R150 to R154) -/

/-- R152: one more in a counter within the envelope. -/
theorem count_toNat_add_one {x : Count} (h : x.toNat + 1 < 2 ^ 64) :
    (x + 1).toNat = x.toNat + 1 := by
  rw [BitVec.toNat_add, count_one, Nat.mod_eq_of_lt h]

/-- Settles O25: FQ_CLEAR replaces the whole table, FQ_COUNT one entry of it, by the sum where that
fits. -/
theorem countersClearAndCount : Obligations.CountersClearAndCount := by
  unfold Obligations.CountersClearAndCount
  refine fun s => ⟨⟨s.freqClear, rfl, entry_replicate 0, rfl⟩, fun b => ?_⟩
  refine ⟨countByte b s, rfl, fun c hc => ?_, rfl, fun hfits => ?_⟩
  · rw [countByte_freq, entry_setEntry_ne _ _ hc.symm]
  · rw [countByte_fits hfits]
    exact ⟨by rw [entry_setEntry_self, count_toNat_add_one hfits], rfl⟩

/-- R154: a counter that stays within the envelope of R152 has grown by the occurrences of its
byte. -/
theorem entry_countAll_toNat {bs : List Byte} {t : Table Count} {b : Byte}
    (h : (entry t b).toNat + bs.count b < 2 ^ 64) :
    (entry (countAll bs t) b).toNat = (entry t b).toNat + bs.count b := by
  rw [entry_countAll, BitVec.toNat_add, BitVec.toNat_ofNat, Nat.add_mod_mod, Nat.mod_eq_of_lt h]

/-- R153: ORIG_LEN, which stays below 2^64, has grown by the number of bytes read. -/
theorem scanned_origLen_toNat {s : State} (h : s.origLen.toNat + s.chan.rest.length < 2 ^ 64) :
    s.scanned.origLen.toNat = s.origLen.toNat + s.chan.rest.length := by
  rw [State.scanned, BitVec.toNat_add, BitVec.toNat_ofNat, Nat.add_mod_mod, Nat.mod_eq_of_lt h]

/-- Every byte of a list is an occurrence of exactly one byte value. -/
theorem sum_count_allBytes (bs : List Byte) :
    (allBytes.map fun b => bs.count b).sum = bs.length := by
  have hcard := Multiset.sum_count_eq_card (s := allBytes.toFinset) (m := (bs : Multiset Byte))
    fun b _ => List.mem_toFinset.mpr (mem_allBytes b)
  simpa only [Multiset.coe_count, Multiset.coe_card, List.sum_toFinset _ allBytes_nodup] using hcard

/-- Settles O26: `scanInput_ok` gives the whole next state; from cleared counters each counter is
the number of occurrences of its byte, so that they add up to the number of bytes. -/
theorem fqScanCountsTheInput : Obligations.FqScanCountsTheInput := by
  unfold Obligations.FqScanCountsTheInput
  intro s hd hf ho
  have hexec : exec .fqScan s = .next s.scanned := by
    show (scanInput s).outcome = _
    rw [scanInput_ok hd hf ho, Res.ok_outcome]
  have hfreq : ∀ b,
      (entry s.scanned.freq b).toNat = (entry s.freq b).toNat + s.chan.rest.count b :=
    fun b => entry_countAll_toNat (hf b)
  have hlen := scanned_origLen_toNat ho
  refine ⟨s.scanned, hexec, hfreq, hlen, rfl, fun hzero hlen0 => ?_⟩
  have hcount : ∀ b, (entry s.scanned.freq b).toNat = s.chan.rest.count b := fun b => by
    simp [hfreq, hzero]
  calc
    totalCount s.scanned.freq = (allBytes.map fun b => s.chan.rest.count b).sum := by
      rw [totalCount, funext hcount]
    _ = s.chan.rest.length := sum_count_allBytes _
    _ = s.scanned.origLen.toNat := by simp [hlen, hlen0]

end Sys2Proof.Machine

namespace Sys2Proof.Machine

/-! ### TB_MERGE, operation by operation (R162 to R165) -/

/-- R165: with fewer than two members in PQ there is nothing to merge (log 14). -/
theorem mergeLowest_refused {s : State} (h : s.pq.length < 2) :
    mergeLowest s = .refuse .mergeNeedsTwoNodes := by
  unfold mergeLowest
  rcases hpq : s.pq with _ | ⟨i, _ | ⟨j, rest⟩⟩
  · rfl
  · simp [extractMin, lowestFrom]
  · simp [hpq] at h

/-- R164, R165: with two members in PQ both extractions succeed. -/
theorem mergeLowest_eq_mergeInto {s : State} (h : 2 ≤ s.pq.length) :
    ∃ a b rest, mergeLowest s = mergeInto a b rest s := by
  have hne : s.pq ≠ [] := List.ne_nil_of_length_pos (by omega)
  obtain ⟨a, ha, hmem, -⟩ := extractMin_spec (nodes := s.node) hne
  have hne' : s.pq.erase a ≠ [] :=
    List.ne_nil_of_length_pos (by rw [List.length_erase_of_mem hmem]; omega)
  obtain ⟨b, hb, -⟩ := extractMin_spec (nodes := s.node) hne'
  exact ⟨a, b, (s.pq.erase a).erase b, by simp only [mergeLowest, ha, hb]⟩

/-- R49, R165: where all entries of NODE are allocated there is none for the new node (log 14). -/
theorem mergeLowest_full {s : State} (h : 2 ≤ s.pq.length) (hn : s.nnodes.val = 511) :
    mergeLowest s = .fault .nodeArenaFull := by
  obtain ⟨a, b, rest, hm⟩ := mergeLowest_eq_mergeInto h
  rw [hm, mergeInto, dif_neg (by omega)]

/-- R162: the priority order, said of the weights themselves. -/
theorem lower_iff_weight {nodes : Vector Node 511} {i j : NodeIx} :
    lower nodes i j = true ↔
      (nodeAt nodes i).weight.toNat < (nodeAt nodes j).weight.toNat ∨
        ((nodeAt nodes i).weight = (nodeAt nodes j).weight ∧ i.val < j.val) := by
  rw [lower_iff, weightAt, weightAt, BitVec.toNat_inj]

/-- Settles O28: the two members `extract_min` takes out are the lowest, and the sum of their
weights is the new node's where it fits. -/
theorem tbMergeJoinsTheTwoLowest : Obligations.TbMergeJoinsTheTwoLowest := by
  unfold Obligations.TbMergeJoinsTheTwoLowest
  intro s
  have hexec : exec .tbMerge s = (mergeLowest s).outcome := rfl
  refine ⟨fun h => ?_, fun h hn => ?_, fun h hn => ?_⟩
  · rw [hexec, mergeLowest_refused h, Res.refuse_outcome]
  · rw [hexec, mergeLowest_full h hn, Res.fault_outcome]
  · obtain ⟨a, b, ha, hb, hlow, hlow', hm⟩ := mergeLowest_ok h hn
    refine ⟨a, b, ⟨s.nnodes.val, hn⟩, _, _, ha, hb, rfl,
      fun x hx => (hlow x hx).imp_right lower_iff_weight.mp,
      fun x hx => (hlow' x hx).imp_right lower_iff_weight.mp, fun hfit => ?_,
      by rw [hexec, hm, Res.ok_outcome, State.merged]⟩
    rw [sumCount_fits _ hfit]
    exact ⟨BitVec.toNat_add_of_lt hfit, rfl⟩

/-! ### TB_BUILD reads FREQ alone (R171) -/

/-- Two states with the same tree under construction: the same PQ over the same allocated nodes. -/
structure SameTree (s s' : State) : Prop where
  pq : s.pq = s'.pq
  nnodes : s.nnodes = s'.nnodes
  nsym : s.nsym = s'.nsym
  node : ∀ i : NodeIx, i.val < s.nnodes.val → nodeAt s.node i = nodeAt s'.node i

/-- R161: TB_SEED reads FREQ alone. -/
theorem seedTree_sameTree {s s' : State} (h : s.freq = s'.freq) :
    SameTree (seedTree s) (seedTree s') := by
  refine ⟨?_, Fin.ext ?_, Fin.ext ?_, fun i hi => ?_⟩
  · rw [seedTree_pq, seedTree_pq, h]
  · rw [seedTree_nnodes, seedTree_nnodes, h]
  · rw [seedTree_nsym, seedTree_nsym, h]
  · rw [seedTree_nnodes] at hi
    simp only [seedTree_nodeAt, ← h, dif_pos hi]

/-- R162: the lowest member is unique. -/
theorem lowest_unique {nodes : Vector Node 511} {pq : List NodeIx} {a a' : NodeIx}
    (ha : a ∈ pq) (ha' : a' ∈ pq) (h : ∀ x ∈ pq, x = a ∨ lower nodes a x = true)
    (h' : ∀ x ∈ pq, x = a' ∨ lower nodes a' x = true) : a = a' := by
  rcases h a' ha' with e | hlt
  · exact e.symm
  rcases h' a ha with e | hlt'
  · exact e
  rw [lower_iff] at hlt hlt'
  omega

/-- R162: what is lowest depends on the weights of the members alone. -/
theorem SameTree.lowest {s s' : State} (h : SameTree s s') {l : List NodeIx}
    (hl : ∀ x ∈ l, x.val < s.nnodes.val) {a : NodeIx} (ha : a ∈ l)
    (hlow : ∀ x ∈ l, x = a ∨ lower s'.node a x = true) :
    ∀ x ∈ l, x = a ∨ lower s.node a x = true := fun x hx => by
  rw [lower, h.node a (hl a ha), h.node x (hl x hx)]
  exact hlow x hx

/-- R169: the weights of two members of PQ add up to no more than all of them. -/
theorem Weighed.pair_le {total : Nat} {s : State} (h : Weighed total s) {a b : NodeIx}
    (ha : a ∈ s.pq) (hb : b ∈ s.pq.erase a) : weightAt s.node a + weightAt s.node b ≤ total := by
  have hperm : s.pq.Perm (a :: b :: (s.pq.erase a).erase b) :=
    (List.perm_cons_erase ha).trans ((List.perm_cons_erase hb).cons a)
  have hsum := h.sum
  rw [(hperm.map _).sum_eq, List.map_cons, List.map_cons, List.sum_cons, List.sum_cons] at hsum
  omega

/-- R165: the same two nodes of the same tree make the same new node, where their weights fit. -/
theorem SameTree.merged {s s' : State} (h : SameTree s s') {a b n : NodeIx}
    (ha : a.val < s.nnodes.val) (hb : b.val < s.nnodes.val) (hn : n.val = s.nnodes.val)
    (hfit : weightAt s.node a + weightAt s.node b < 2 ^ 64) :
    SameTree (s.merged a b n) (s'.merged a b n) := by
  refine ⟨?_, ?_, h.nsym, fun i hi => ?_⟩
  · simp only [State.merged, h.pq]
  · simp only [State.merged, h.nnodes]
  · rw [merged_nodeAt, merged_nodeAt, ← h.node a ha, ← h.node b hb, sumCount_fits _ hfit,
      sumCount_fits _ hfit]
    by_cases hin : n = i
    · rw [if_pos hin, if_pos hin]
    · have hne : n.val ≠ i.val := fun e => hin (Fin.ext e)
      rw [merged_nnodes (by omega)] at hi
      rw [if_neg hin, if_neg hin, h.node i (by omega)]

/-- R165: TB_MERGE makes the same choice in two states with the same tree. -/
theorem SameTree.mergeLowest_both {syms : List Byte} {total : Nat} {s s' : State}
    {tr : NodeIx → Tree} (h : SameTree s s') (hf : Forest syms s tr) (hw : Weighed total s)
    (ht : total < 2 ^ 64) (h2 : 2 ≤ s.pq.length) (hn : s.nnodes.val < 511) :
    ∃ a b, a ∈ s.pq ∧ b ∈ s.pq.erase a ∧
      mergeLowest s = .ok () (s.merged a b ⟨s.nnodes.val, hn⟩) ∧
      mergeLowest s' = .ok () (s'.merged a b ⟨s.nnodes.val, hn⟩) ∧
      SameTree (s.merged a b ⟨s.nnodes.val, hn⟩) (s'.merged a b ⟨s.nnodes.val, hn⟩) := by
  obtain ⟨a, b, ha, hb, hlow, hlow₂, hm⟩ := mergeLowest_ok h2 hn
  obtain ⟨a', b', ha', hb', hlow', hlow₂', hm'⟩ :=
    mergeLowest_ok (s := s') (h.pq ▸ h2) (h.nnodes ▸ hn)
  rw [← h.pq] at ha' hb' hlow' hlow₂'
  have hbound : ∀ x ∈ s.pq.erase a, x.val < s.nnodes.val := fun x hx =>
    hf.bound x (List.mem_of_mem_erase hx)
  obtain rfl := lowest_unique ha ha' hlow (h.lowest hf.bound ha' hlow')
  obtain rfl := lowest_unique hb hb' hlow₂ (h.lowest hbound hb' hlow₂')
  refine ⟨a, b, ha, hb, hm, ?_,
    h.merged (hf.bound a ha) (hbound b hb) rfl ((hw.pair_le ha hb).trans_lt ht)⟩
  simpa only [h.nnodes] using hm'

/-- R166: the loop keeps the trees of two states the same. -/
theorem SameTree.mergeLoop_both {syms : List Byte} {total : Nat} (hk : syms.length ≤ 256)
    (htotal : total < 2 ^ 64) (turns : Nat) {s s' t : State} {tr : NodeIx → Tree}
    (h : SameTree s s') (hf : Forest syms s tr) (hw : Weighed total s)
    (ht : mergeLoop turns s = .ok () t) :
    ∃ t', mergeLoop turns s' = .ok () t' ∧ SameTree t t' := by
  induction turns generalizing s s' tr with
  | zero =>
    cases ht
    exact ⟨s', rfl, h⟩
  | succ turns ih =>
    rw [mergeLoop] at ht ⊢
    rw [← h.pq]
    split at ht
    case isTrue h2 =>
      have hn : s.nnodes.val < 511 := by
        have := hf.count
        omega
      obtain ⟨a, b, ha, hb, hm, hm', hsame⟩ := h.mergeLowest_both hf hw htotal h2 hn
      rw [hm, Res.ok_bind] at ht
      rw [if_pos h2, hm', Res.ok_bind]
      exact ih hsame (hf.merge ha hb hn) (Weighed.merge hf hw htotal ha hb hn).1 ht
    case isFalse h2 =>
      cases ht
      rw [if_neg h2]
      exact ⟨s', rfl, h⟩

/-- R166: ROOT is read off PQ. -/
theorem SameTree.root_eq {s s' : State} (h : SameTree s s') :
    (takeRoot s).root = (takeRoot s').root := by
  simp only [takeRoot, h.pq]

/-- Settles O31: TB_SEED reads FREQ alone, and every merge makes the same choice; within the
envelope of R169 no weight is a free value. -/
theorem tbBuildIsAFunctionOfFreq : Obligations.TbBuildIsAFunctionOfFreq := by
  unfold Obligations.TbBuildIsAFunctionOfFreq
  intro s s' hfreq htotal
  obtain ⟨t, ht, -⟩ := buildTree_ok s
  obtain ⟨u, hloop, rfl⟩ := buildTree_eq_ok.mp ht
  obtain ⟨u', hloop', hsame⟩ := (seedTree_sameTree hfreq).mergeLoop_both
    (countedBytes_length_le s.freq) htotal _ (seedTree_forest s) (seedTree_weighed s) hloop
  have hturns : (seedTree s).pq.length = (seedTree s').pq.length := by
    rw [seedTree_pq_length, seedTree_pq_length, hfreq]
  have ht' : buildTree s' = .ok () (takeRoot u') :=
    buildTree_eq_ok.mpr ⟨u', hturns ▸ hloop', rfl⟩
  exact ⟨_, _, exec_tbBuild_next.mpr ht, exec_tbBuild_next.mpr ht', hsame.root_eq,
    hsame.nnodes, hsame.nsym, hsame.node⟩

end Sys2Proof.Machine

namespace Sys2Proof.Machine

/-! ### CT_CANON (R187 to R191) -/

/-- R188: CT_CANON has one next state, and R189 keeps it to CODE where the Kraft sum is at most 1. -/
theorem exec_ctCanon (s : State) : exec .ctCanon s = .next (assignCodes s) := rfl

theorem exec_ctCanon_of_kraft {s : State} (hk : kraft255 s.len ≤ 2 ^ 255) :
    exec .ctCanon s
      = .next { s with code := writeCodes s.code (canonCodes (canonOrder s.len)) } := by
  rw [exec_ctCanon, assignCodes, if_pos hk]

/-- R189: what CODE holds of a present symbol is a bit-code. -/
theorem Coded.lt {len : Table (BitVec 8)} {code : Table Code} (hc : Coded len code) {x : Byte}
    (hx : entry len x ≠ 0) : (entry code x).toNat < 2 ^ (entry len x).toNat := by
  rw [hc.code x hx]
  exact canon_lt hc.kraft hx

/-- R190: what CODE holds of a present symbol does not begin what it holds of another. -/
theorem Coded.prefix_free {len : Table (BitVec 8)} {code : Table Code} (hc : Coded len code)
    {x y : Byte} (hx : entry len x ≠ 0) (hy : entry len y ≠ 0) (hne : x ≠ y) :
    isPrefixCode (entry code x).toNat (entry len x).toNat (entry code y).toNat (entry len y).toNat
      = false := by
  rw [hc.code x hx, hc.code y hy]
  exact canon_prefix_free hc.kraft hx hy hne

/-- R54, R190: on canonical codes DEC of a symbol's code is that symbol. -/
theorem decSymbol_own {s : State} (hc : Coded s.len s.code) {x : Byte} (hx : entry s.len x ≠ 0) :
    decSymbol (entry s.code x).toNat (entry s.len x).toNat s = some x := by
  rw [decSymbol, codedAs_own hc hx]

/-- Settles O36: a code's share of the code space begins where the shares before it in canonical order
end, so no code begins another, and DEC meets one symbol. -/
theorem canonicalCodesArePrefixFree : Obligations.CanonicalCodesArePrefixFree := by
  unfold Obligations.CanonicalCodesArePrefixFree
  intro s t hk ht x hx
  obtain rfl : assignCodes s = t := Host.Outcome.next.inj ht
  have hc : Coded (assignCodes s).len (assignCodes s).code := coded_assignCodes hk
  exact ⟨hc.lt hx, decSymbol_own hc hx, fun y hne hy => hc.prefix_free hx hy hne.symm⟩

/-- Settles O37: both blocks hold the code of `canonTable`, whatever CODE held before. -/
theorem ctCanonReadsLenAlone : Obligations.CtCanonReadsLenAlone := by
  unfold Obligations.CtCanonReadsLenAlone
  intro s s' hlen hk
  refine ⟨_, _, exec_ctCanon_of_kraft hk, exec_ctCanon_of_kraft (hlen ▸ hk), fun x hx => ?_⟩
  rw [← hlen]
  exact (writeCodes_present s.code hk hx).trans (writeCodes_present s'.code hk hx).symm

/-- R187: the present symbols in canonical order, without their lengths. -/
def canonSymbols (len : Table (BitVec 8)) : List Byte :=
  (canonOrder len).map Prod.fst

theorem mem_canonSymbols {len : Table (BitVec 8)} {x : Byte} :
    x ∈ canonSymbols len ↔ entry len x ≠ 0 := by
  rw [canonSymbols, List.mem_map]
  constructor
  · rintro ⟨e, he, rfl⟩
    exact (mem_present.mp (mem_canonOrder.mp he)).1
  · exact fun hx => ⟨_, mem_canonOrder.mpr (mem_present.mpr ⟨hx, rfl⟩), rfl⟩

/-- R187: ascending in the length, then in the byte value. -/
theorem canonSymbols_sorted (len : Table (BitVec 8)) :
    (canonSymbols len).Pairwise fun x y => (entry len x).toNat < (entry len y).toNat ∨
      (entry len x = entry len y ∧ x.toNat < y.toNat) := by
  have hdistinct := canonOrder_fst_nodup len
  rw [List.nodup_iff_pairwise_ne, List.pairwise_map] at hdistinct
  rw [canonSymbols, List.pairwise_map]
  refine ((canonOrder_sorted len).and hdistinct).imp_of_mem ?_
  rintro ⟨x, l⟩ ⟨y, m⟩ hx hy ⟨hle, hne⟩
  obtain ⟨-, rfl⟩ := mem_present.mp (mem_canonOrder.mp hx)
  obtain ⟨-, rfl⟩ := mem_present.mp (mem_canonOrder.mp hy)
  simp only [canonBefore, ne_eq, ← BitVec.toNat_inj] at hle hne ⊢
  omega

theorem canonOrder_getElem? {len : Table (BitVec 8)} {n : Nat} {x : Byte}
    (h : (canonSymbols len)[n]? = some x) :
    (canonOrder len)[n]? = some (x, (entry len x).toNat) := by
  rw [canonSymbols, List.getElem?_map, Option.map_eq_some_iff] at h
  obtain ⟨⟨y, l⟩, hn, rfl⟩ := h
  obtain ⟨-, rfl⟩ := mem_present.mp (mem_canonOrder.mp (List.mem_of_getElem? hn))
  exact hn

/-- The canonical order before and after its `n`-th symbol. -/
theorem canonOrder_split_getElem {len : Table (BitVec 8)} {n : Nat} {x : Byte}
    (h : (canonSymbols len)[n]? = some x) :
    canonOrder len = (canonOrder len).take n ++ (x, (entry len x).toNat)
      :: (canonOrder len).drop (n + 1) := by
  obtain ⟨hlt, hget⟩ := List.getElem?_eq_some_iff.mp (canonOrder_getElem? h)
  rw [← hget, List.cons_getElem_drop_succ, List.take_append_drop]

theorem canonSymbols_length_le {len : Table (BitVec 8)} {n : Nat} {x y : Byte}
    (hx : (canonSymbols len)[n]? = some x) (hy : (canonSymbols len)[n + 1]? = some y) :
    (entry len x).toNat ≤ (entry len y).toNat := by
  obtain ⟨hn, rfl⟩ := List.getElem?_eq_some_iff.mp hx
  obtain ⟨hn', rfl⟩ := List.getElem?_eq_some_iff.mp hy
  rcases List.pairwise_iff_getElem.mp (canonSymbols_sorted len) _ _ hn hn' (Nat.lt_succ_self n)
    with h | ⟨h, -⟩
  · exact h.le
  · exact (congrArg BitVec.toNat h).le

/-- R188: the first symbol has code 0. -/
theorem writeCodes_first (t : Table Code) {len : Table (BitVec 8)} (hk : kraft255 len ≤ 2 ^ 255)
    {x : Byte} (h : (canonSymbols len)[0]? = some x) :
    entry (writeCodes t (canonCodes (canonOrder len))) x = 0 := by
  have hstart := writeCodes_start t hk (canonOrder_split_getElem h)
  have hnone : shares ((canonOrder len).take 0) = 0 := rfl
  rw [hnone] at hstart
  exact BitVec.eq_of_toNat_eq
    ((Nat.mul_eq_zero.mp hstart).resolve_right (Nat.two_pow_pos _).ne')

/-- R188: a symbol's code is the next value after the code before it, widened to its length. -/
theorem writeCodes_next (t : Table Code) {len : Table (BitVec 8)} (hk : kraft255 len ≤ 2 ^ 255)
    {n : Nat} {x y : Byte} (hx : (canonSymbols len)[n]? = some x)
    (hy : (canonSymbols len)[n + 1]? = some y) :
    (entry (writeCodes t (canonCodes (canonOrder len))) y).toNat
      = ((entry (writeCodes t (canonCodes (canonOrder len))) x).toNat + 1)
        * 2 ^ ((entry len y).toNat - (entry len x).toNat) := by
  have hstart := writeCodes_start t hk (canonOrder_split_getElem hx)
  have hnext := writeCodes_start t hk (canonOrder_split_getElem hy)
  have hshares : shares ((canonOrder len).take (n + 1))
      = shares ((canonOrder len).take n) + 2 ^ (255 - (entry len x).toNat) := by
    rw [List.take_add_one, canonOrder_getElem? hx, shares_append]
    rfl
  have hpow : 2 ^ (255 - (entry len x).toNat)
      = 2 ^ ((entry len y).toNat - (entry len x).toNat) * 2 ^ (255 - (entry len y).toNat) := by
    have hle := canonSymbols_length_le hx hy
    have hlt := (entry len y).isLt
    rw [← pow_add]
    congr 1
    omega
  refine Nat.eq_of_mul_eq_mul_right (Nat.two_pow_pos (255 - (entry len y).toNat)) ?_
  rw [hnext, hshares, ← hstart, mul_assoc, ← hpow, Nat.add_mul, Nat.one_mul]

/-- R189: above a Kraft sum of 1, too, only the present symbols are written (log 12). -/
theorem writeFreeCodes_absent (t : Table Code) (n : Nat) {len : Table (BitVec 8)} {x : Byte}
    (h : entry len x = 0) : entry (writeFreeCodes t n (canonOrder len)) x = entry t x := by
  refine entry_foldl_other Prod.fst (fun e : Byte × Nat => Config.freeCode n e.1) _ t x ?_
  rintro e he rfl
  exact mem_canonSymbols.mp (List.mem_map_of_mem he) h

/-- Settles O35: the order is `canonSymbols`, and each code begins where the one before it ends. -/
theorem ctCanonAssignsInCanonicalOrder : Obligations.CtCanonAssignsInCanonicalOrder := by
  unfold Obligations.CtCanonAssignsInCanonicalOrder
  intro s
  by_cases hk : kraft255 s.len ≤ 2 ^ 255
  · refine ⟨_, exec_ctCanon_of_kraft hk, rfl, fun x hx => writeCodes_absent s.code hx, fun _ =>
      ⟨rfl, canonSymbols s.len, fun x => mem_canonSymbols, canonSymbols_sorted s.len,
        fun x hx => writeCodes_first s.code hk hx, fun n x y hx hy => ?_⟩⟩
    exact writeCodes_next s.code hk hx hy
  · refine ⟨assignCodes s, exec_ctCanon s, ?_⟩
    rw [assignCodes, if_neg hk]
    exact ⟨rfl, fun x hx => writeFreeCodes_absent s.code s.free hx, fun h => absurd h hk⟩

end Sys2Proof.Machine

namespace Sys2Proof.Machine

/-! ### TB_BUILD and CT_WALK (R161 to R166, R180 to R186, R192) -/

/-- What TB_BUILD and CT_WALK leave: no entry where no byte was counted, else those of the one tree over
the counted bytes. -/
inductive Built (s : State) : State → Prop where
  | empty (b : State) (hb : buildTree s = .ok () b) (hroot : b.root = none)
      (hcounted : countedBytes s.freq = []) : Built s (walked .empty [] b)
  | tree (b : State) (r : NodeIx) (T : Tree) (hb : buildTree s = .ok () b) (hroot : b.root = some r)
      (hT : Represents b.node r T) (hperm : T.symbols.Perm (countedBytes s.freq)) :
      Built s (walked T.degen T.walkCodes b)

/-- R170: a tree over the counted bytes is no deeper than CT_WALK goes. -/
theorem Tree.height_le_of_perm {T : Tree} {freq : Table Count}
    (h : T.symbols.Perm (countedBytes freq)) : T.height ≤ 255 := by
  have hlt := T.height_lt
  have hlen := h.length_eq
  have hle := countedBytes_length_le freq
  omega

theorem Tree.nodup_of_perm {T : Tree} {freq : Table Count}
    (h : T.symbols.Perm (countedBytes freq)) : T.symbols.Nodup :=
  h.nodup_iff.mpr (countedBytes_nodup freq)

/-- CT_WALK on what TB_BUILD left runs to its end. -/
theorem Built.walkTree_eq {s t : State} (h : Built s t) :
    ∃ b, buildTree s = .ok () b ∧ walkTree b = .ok () t := by
  cases h with
  | empty b hb hroot => exact ⟨b, hb, walkTree_none hroot⟩
  | tree b r T hb hroot hT hperm =>
    exact ⟨b, hb, walkTree_some hroot hT (Tree.height_le_of_perm hperm)⟩

theorem Built.runList_eq {s t : State} (h : Built s t) : runList [.tbBuild, .ctWalk] s = .next t := by
  obtain ⟨b, hb, hw⟩ := h.walkTree_eq
  have hexec : exec .ctWalk b = .next t := congrArg Res.outcome hw
  simp only [runList, exec_tbBuild_next.mpr hb, hexec]

/-- R161, R170: from any state the two operations have a next state. -/
theorem exists_built (s : State) : ∃ t, Built s t := by
  obtain ⟨b, hb, -, -, hnone, hsome, -⟩ := buildTree_ok s
  by_cases hcounted : countedBytes s.freq = []
  · exact ⟨_, .empty b hb (hnone hcounted).1 hcounted⟩
  · obtain ⟨r, T, hroot, -, -, -, hT, hperm, -⟩ := hsome hcounted
    exact ⟨_, .tree b r T hb hroot hT hperm⟩

theorem built_of_runList {s t : State} (h : runList [.tbBuild, .ctWalk] s = .next t) : Built s t := by
  obtain ⟨u, hu⟩ := exists_built s
  obtain rfl : u = t := Host.Outcome.next.inj (hu.runList_eq.symm.trans h)
  exact hu

/-- R184: exactly the leaves' symbols have a length. -/
theorem walked_len_ne_zero {T : Tree} (hn : T.symbols.Nodup) (hh : T.height ≤ 255) (d : Degen)
    (s : State) {x : Byte} : entry (walked d T.walkCodes s).len x ≠ 0 ↔ x ∈ T.symbols := by
  refine ⟨fun hx => by_contra fun hnot => hx (walked_len_absent T d s hnot), fun hx hzero => ?_⟩
  rw [← Tree.walkCodes_symbols] at hx
  obtain ⟨c, hc, rfl⟩ := List.mem_map.mp hx
  have hlen : entry (walked d T.walkCodes s).tlen c.sym = 0 := hzero
  have hL := (walked_entry_toNat hn hh d s hc).1
  have hrange := Tree.walkCodes_range hh hc
  rw [hlen] at hL
  exact absurd hL.symm (by simp; omega)

/-- R184: no length exceeds the depth of the tree. -/
theorem walked_len_le {l r : Tree} (hn : (Tree.node l r).symbols.Nodup)
    (hh : (Tree.node l r).height ≤ 255) (d : Degen) (s : State) (x : Byte) :
    (entry (walked d (Tree.node l r).walkCodes s).len x).toNat ≤ (Tree.node l r).height := by
  by_cases hx : x ∈ (Tree.node l r).symbols
  · rw [← Tree.walkCodes_symbols] at hx
    obtain ⟨c, hc, rfl⟩ := List.mem_map.mp hx
    have hlen := (walked_entry_toNat hn hh d s hc).1
    have hdepth := (Tree.codes_under hc).2.1
    exact (hlen.trans_le hdepth).trans (Nat.zero_add _).le
  · rw [walked_len_absent _ d s hx]
    exact Nat.zero_le _

/-- R192: a single leaf takes half of the code space. -/
theorem walked_kraft_leaf (x : Byte) (d : Degen) (s : State) :
    kraft255 (walked d (Tree.leaf x).walkCodes s).len = 2 ^ 254 := by
  have hn : (Tree.leaf x).symbols.Nodup := List.nodup_singleton x
  rw [walked_kraft hn (Nat.zero_le _)]
  simp only [Tree.walkCodes, List.map_singleton, List.sum_singleton, Nat.reduceSub]

/-- R184: exactly the counted bytes have a length. -/
theorem Built.len_ne_zero {s t : State} (h : Built s t) (x : Byte) :
    entry t.len x ≠ 0 ↔ entry s.freq x ≠ 0 := by
  rw [← mem_countedBytes]
  cases h with
  | empty b hb hroot hcounted =>
    have hlen : entry (walked .empty [] b).len x = 0 := entry_replicate 0 x
    simp [hcounted, hlen]
  | tree b r T hb hroot hT hperm =>
    rw [walked_len_ne_zero (Tree.nodup_of_perm hperm) (Tree.height_le_of_perm hperm), hperm.mem_iff]

/-- Settles O33: by the tree CT_WALK walks: none, a single leaf, or a node with two children. -/
theorem treeLengthsFillTheCodeSpace : Obligations.TreeLengthsFillTheCodeSpace := by
  unfold Obligations.TreeLengthsFillTheCodeSpace
  intro s
  obtain ⟨t, ht⟩ := exists_built s
  refine ⟨t, ht.runList_eq, ht.len_ne_zero, ?_⟩
  cases ht with
  | empty b hb hroot hcounted =>
    rw [hcounted]
    exact ⟨fun _ => kraft255_replicate_zero, by simp, by simp⟩
  | tree b r T hb hroot hT hperm =>
    rw [← hperm.length_eq]
    have hh := Tree.height_le_of_perm hperm
    have hn := Tree.nodup_of_perm hperm
    have hlt := T.height_lt
    cases T with
    | leaf x =>
      have hone : (Tree.leaf x).symbols.length = 1 := rfl
      rw [hone]
      exact ⟨by simp, fun _ => walked_kraft_leaf x _ b, by simp⟩
    | node l r =>
      refine ⟨fun h => absurd hlt (by omega), fun h => absurd hlt ?_, fun _ =>
        ⟨walked_kraft_node hn hh _ b, fun x => (walked_len_le hn hh _ b x).trans (by omega)⟩⟩
      rw [h, Tree.height]
      omega

/-- R183, R185: no code CT_WALK records begins another symbol's. -/
theorem Tree.walkCodes_prefix_free {T : Tree} {c d : LeafCode} (hc : c ∈ T.walkCodes)
    (hd : d ∈ T.walkCodes) (hne : c.sym ≠ d.sym) : isPrefixCode c.v c.L d.v d.L = false := by
  cases T with
  | leaf x =>
    obtain rfl := List.mem_singleton.mp hc
    obtain rfl := List.mem_singleton.mp hd
    exact absurd rfl hne
  | node l r =>
    have hfree := (Tree.node l r).codes_prefix_free 0 0
    have hboth := @List.Pairwise.forall _ _ _ ⟨fun _ _ h => h.symm⟩ hfree c hc d hd
    exact (hboth fun e => hne (congrArg LeafCode.sym e)).1

/-- Settles O34: two symbols with a length are two leaves of the tree CT_WALK walks. -/
theorem treeCodesArePrefixFree : Obligations.TreeCodesArePrefixFree := by
  unfold Obligations.TreeCodesArePrefixFree
  intro s t x y ht hne hx hy
  cases built_of_runList ht with
  | empty b hb hroot hcounted => exact absurd (entry_replicate 0 x) hx
  | tree b r T hb hroot hT hperm =>
    have hh := Tree.height_le_of_perm hperm
    have hn := Tree.nodup_of_perm hperm
    have hleaf : ∀ z, entry (walked T.degen T.walkCodes b).tlen z ≠ 0 →
        ∃ c ∈ T.walkCodes, c.sym = z := fun z hz => by
      rw [← List.mem_map, Tree.walkCodes_symbols]
      exact (walked_len_ne_zero hn hh T.degen b).mp hz
    obtain ⟨c, hc, rfl⟩ := hleaf x hx
    obtain ⟨d, hd, rfl⟩ := hleaf y hy
    obtain ⟨hcL, hcv⟩ := walked_entry_toNat hn hh T.degen b hc
    obtain ⟨hdL, hdv⟩ := walked_entry_toNat hn hh T.degen b hd
    rw [hcL, hcv, hdL, hdv]
    exact Tree.walkCodes_prefix_free hc hd hne

end Sys2Proof.Machine

namespace Sys2Proof.Machine

/-! ### The walker on a complete table (R193, R242) -/

/-- Every point below the end of the shares lies in one of them. -/
theorem exists_share_over (es : List (Byte × Nat)) {p : Nat} (h : p < shares es) :
    ∃ pre e post, es = pre ++ e :: post ∧ shares pre ≤ p ∧ p < shares pre + share e := by
  induction es generalizing p with
  | nil => exact absurd h (Nat.not_lt_zero p)
  | cons f es ih =>
    rw [shares_cons] at h
    by_cases hf : p < share f
    · exact ⟨[], f, es, rfl, Nat.zero_le p, by simpa [shares] using hf⟩
    · obtain ⟨pre, e, post, rfl, hle, hlt⟩ := ih (p := p - share f) (by omega)
      refine ⟨f :: pre, e, post, rfl, ?_, ?_⟩ <;> rw [shares_cons] <;> omega

/-- R193: with a Kraft sum of 1 the codes cover the code space: at each point of it stands one of them,
cut to its length. -/
theorem exists_code_at {len : Table (BitVec 8)} (hk : kraft255 len = 2 ^ 255) {p : Nat}
    (hp : p < 2 ^ 255) :
    ∃ x, entry len x ≠ 0 ∧
      p / 2 ^ (255 - (entry len x).toNat) = (entry (canonTable len) x).toNat := by
  rw [← hk, ← canonOrder_shares] at hp
  obtain ⟨pre, ⟨x, l⟩, post, he, hle, hlt⟩ := exists_share_over _ hp
  have hmem : (x, l) ∈ canonOrder len := by rw [he]; simp
  obtain ⟨hx, rfl⟩ := mem_present.mp (mem_canonOrder.mp hmem)
  have hstart : (entry (canonTable len) x).toNat * 2 ^ (255 - (entry len x).toNat) = shares pre :=
    writeCodes_start _ hk.le he
  refine ⟨x, hx, Nat.div_eq_of_lt_le (hstart.trans_le hle) ?_⟩
  rw [Nat.succ_mul, hstart]
  exact hlt

/-- R54: a node the walker is at, other than a leaf, is a bit-code of at most 254 bits. -/
theorem live_bound {len : Table (BitVec 8)} {code : Table Code} (hc : Coded len code) {v L : Nat}
    (h : live len code v L = true) : L < 255 ∧ v < 2 ^ L := by
  obtain ⟨y, hy, hL, hv⟩ := live_iff.mp h
  have hlt := (entry len y).isLt
  have hcode := hc.lt hy
  refine ⟨by omega, ?_⟩
  rw [← hv, Nat.div_lt_iff_lt_mul (Nat.two_pow_pos _), ← pow_add]
  rwa [show L + ((entry len y).toNat - L) = (entry len y).toNat by omega]

/-- The point where the bit-code `(q, M)` begins, cut to at least `M` bits, goes on from it. -/
theorem point_cut_long {q M l : Nat} (hM : M ≤ l) (hl : l ≤ 255) :
    q * 2 ^ (255 - M) / 2 ^ (255 - l) / 2 ^ (l - M) = q := by
  rw [Nat.div_div_eq_div_mul, ← pow_add, show 255 - l + (l - M) = 255 - M by omega,
    Nat.mul_div_cancel _ (Nat.two_pow_pos _)]

/-- The point where the bit-code `(q, M)` begins, cut to fewer bits. -/
theorem point_cut_short {q M l : Nat} (hl : l ≤ M) (hM : M ≤ 255) :
    q * 2 ^ (255 - M) / 2 ^ (255 - l) = q / 2 ^ (M - l) := by
  rw [show 255 - l = M - l + (255 - M) by omega, pow_add,
    Nat.mul_div_mul_right _ _ (Nat.two_pow_pos _)]

/-- R193: in a complete table both edges of a node that is no leaf lead to a node. The code that
stands at the edge's point is as long as the path to the edge or longer: a shorter one would begin the
code that goes through the node. -/
theorem live_edge {len : Table (BitVec 8)} {code : Table Code} (hc : Coded len code)
    (hk : kraft255 len = 2 ^ 255) {v L : Nat} (h : live len code v L = true) (b : Bool) :
    codedAs len code (2 * v + b.toNat) (L + 1) ≠ [] ∨
      live len code (2 * v + b.toNat) (L + 1) = true := by
  obtain ⟨hL, hv⟩ := live_bound hc h
  obtain ⟨y, hy, hLy, hvy⟩ := live_iff.mp h
  have hb : b.toNat ≤ 1 := Bool.toNat_le b
  have hp : (2 * v + b.toNat) * 2 ^ (255 - (L + 1)) < 2 ^ (L + 1 + (255 - (L + 1))) := by
    rw [pow_add, pow_succ]
    exact Nat.mul_lt_mul_of_pos_right (by omega) (Nat.two_pow_pos _)
  rw [Nat.add_sub_cancel' hL] at hp
  obtain ⟨x, hx, hcode⟩ := exists_code_at hk hp
  rw [← hc.code x hx] at hcode
  have hlx := (entry len x).isLt
  rcases Nat.lt_or_ge L (entry len x).toNat with hlong | hshort
  · have hcut : (entry code x).toNat / 2 ^ ((entry len x).toNat - (L + 1)) = 2 * v + b.toNat := by
      rw [← hcode, point_cut_long hlong (by omega)]
    rcases Nat.eq_or_lt_of_le hlong with heq | hlonger
    · rw [← heq, Nat.sub_self, pow_zero, Nat.div_one] at hcut
      exact .inl (List.ne_nil_of_mem (mem_codedAs.mpr ⟨hx, heq.symm, hcut⟩))
    · exact .inr (live_iff.mpr ⟨x, hx, hlonger, hcut⟩)
  · have hbegins : (entry code y).toNat / 2 ^ ((entry len y).toNat - (entry len x).toNat)
        = (entry code x).toNat := by
      rw [← hcode, point_cut_short (by omega) hL, Nat.succ_sub hshort, pow_succ',
        ← Nat.div_div_eq_div_mul, show (2 * v + b.toNat) / 2 = v by omega, ← hvy,
        Nat.div_div_eq_div_mul, ← pow_add]
      congr 2
      omega
    have hfree := hc.prefix_free hx hy (by rintro rfl; omega)
    rw [Bool.eq_false_iff, Ne, isPrefixCode_iff] at hfree
    exact absurd ⟨by omega, hbegins⟩ hfree

/-- R242: the walker is `n` edges below the root of a complete table, at a node that is no leaf, and no
FormatError stands. -/
structure InsideTree (n : Nat) (s : State) : Prop where
  coded : Coded s.len s.code
  complete : kraft255 s.len = 2 ^ 255
  live : live s.len s.code s.pfx.toNat s.pfxLen.val = true
  depth : s.pfxLen.val = n
  err : s.err ≠ .formatError

/-- An operation that keeps the walker inside the tree, and does not stop with a FormatError. -/
abbrev Res.StaysInside {α : Type} (n : Nat) (x : Res α) : Prop :=
  x.To (InsideTree n) fun t => t.err ≠ .formatError

theorem inRead_staysInside {n : Nat} {s : State} (h : InsideTree n s) :
    (inRead s).StaysInside n := by
  rcases inRead_cases s with ⟨b, bs, -, e⟩ | ⟨-, e⟩ | e | e
  all_goals rw [e]
  · exact ⟨h.coded, h.complete, h.live, h.depth, h.err⟩
  · exact ⟨h.coded, h.complete, h.live, h.depth, h.err⟩
  · exact ErrKind.noConfusion
  · exact h.err

theorem readBit_staysInside {n : Nat} {s : State} (h : InsideTree n s) :
    (readBit s).StaysInside n := by
  have hdeliver : ∀ t : State, InsideTree n t → (deliver t).StaysInside n := fun t ht =>
    ⟨ht.coded, ht.complete, ht.live, ht.depth, ht.err⟩
  rw [readBit]
  split
  · refine (inRead_staysInside h).bind (fun r t ht => ?_) fun _ ht => ht
    cases r with
    | none => exact ht
    | some b => exact hdeliver _ ⟨ht.coded, ht.complete, ht.live, ht.depth, ht.err⟩
  · exact hdeliver s h

theorem emitSymbol_err {s : State} (h : s.err ≠ .formatError) (x : Byte) :
    (emitSymbol x s).To (fun t => t.err ≠ .formatError) fun t => t.err ≠ .formatError := by
  rw [emitSymbol]
  rcases outWrite_cases x s with ⟨-, e⟩ | ⟨-, e | ⟨c, e, -⟩ | e⟩
  all_goals rw [e]
  · trivial
  · exact h
  · exact ErrKind.noConfusion
  · exact h

/-- R54: where some symbol has the code, DEC gives one. -/
theorem decSymbol_ne_none {v L : Nat} {s : State} (h : codedAs s.len s.code v L ≠ []) :
    decSymbol v L s ≠ none := by
  rw [decSymbol]
  split
  · exact absurd ‹_› h
  · simp
  · simp

/-- R193: both edges lead to a symbol, or further inside. -/
theorem InsideTree.takeEdge {n : Nat} {s : State} (h : InsideTree n s) (b : Bool) :
    decSymbol (takeEdge b s).pfx.toNat (takeEdge b s).pfxLen.val (takeEdge b s) ≠ none ∨
      InsideTree (n + 1) (takeEdge b s) := by
  obtain ⟨hL, hv⟩ := live_bound h.coded h.live
  have hpfx := takeEdge_pfx b (s := s)
    (hv.trans_le (Nat.pow_le_pow_right (by omega) (by omega)))
  have hdepth : (Machine.takeEdge b s).pfxLen.val = n + 1 := by
    rw [takeEdge_pfxLen b hL, h.depth]
  have hedge := live_edge h.coded h.complete h.live b
  rw [← hpfx, ← takeEdge_pfxLen b hL] at hedge
  exact hedge.imp decSymbol_ne_none fun hlive => ⟨h.coded, h.complete, hlive, hdepth, h.err⟩

/-- R242: from inside a complete tree the walk ends with a symbol, or it stops at the end of the input or
with a transaction. -/
theorem walkBits_err (levels : Nat) {n : Nat} {s : State} (h : InsideTree n s)
    (hlevels : 255 ≤ n + levels) :
    (walkBits levels s).To (fun t => t.err ≠ .formatError) fun t => t.err ≠ .formatError := by
  induction levels generalizing n s with
  | zero =>
    have hlt := (live_bound h.coded h.live).1
    rw [h.depth] at hlt
    omega
  | succ levels ih =>
    refine (readBit_staysInside h).bind (fun r t ht => ?_) fun _ ht => ht
    cases r with
    | none => exact ErrKind.noConfusion
    | some b =>
      dsimp only
      split
      · exact emitSymbol_err (s := takeEdge b t) ht.err _
      · have hinside := (ht.takeEdge b).resolve_left fun hsym => hsym ‹_›
        rw [if_pos hinside.live]
        exact ih hinside (by omega)

/-- R54, R242: at its root a complete table has further to go, since its codes are not empty. -/
theorem insideTree_atRoot {s : State} (hc : Coded s.len s.code) (hk : kraft255 s.len = 2 ^ 255)
    (herr : s.err ≠ .formatError) : InsideTree 0 s.atRoot := by
  refine ⟨hc, hk, ?_, rfl, herr⟩
  obtain ⟨x, hx, -⟩ := exists_code_at hk (Nat.two_pow_pos 255)
  have hpos : 0 < (entry s.len x).toNat :=
    (present_length_range (mem_present.mpr ⟨hx, rfl⟩)).1
  refine live_iff.mpr ⟨x, hx, hpos, ?_⟩
  exact Nat.div_eq_of_lt (hc.lt hx)

/-- Settles O54: the walk never leaves the tree of a complete table, since both edges of a node that is
no leaf lead to a node. -/
theorem completeTablesDecodeAnyBits : Obligations.CompleteTablesDecodeAnyBits := by
  unfold Obligations.CompleteTablesDecodeAnyBits
  intro s t hc _ hk herr ht
  exact Res.To.outcome_next (walkBits_err 255 (insideTree_atRoot hc hk herr) (by omega)) ht

end Sys2Proof.Machine

namespace Sys2Proof.Machine

/-- An operation ends in one state. -/
theorem Res.ok_state_unique {α : Type} {x : Res α} {a b : α} {s t : State} (hs : x = .ok a s)
    (ht : x = .ok b t) : s = t := by
  rw [hs] at ht
  cases ht
  rfl

/-! ### P_BUILD: TB_BUILD and CT_WALK are functions of FREQ (R171, R184, R220) -/

/-- R169: within its envelope no weight is a free value. -/
theorem buildTree_free {s b : State} (h : buildTree s = .ok () b)
    (htotal : totalCount s.freq < 2 ^ 64) : b.free = s.free := by
  obtain ⟨u, hloop, rfl⟩ := buildTree_eq_ok.mp h
  obtain ⟨u', -, hu', -, -, -, -, -, hweigh⟩ := mergeLoop_ok (seedTree s).pq.length
    (seedTree_forest s) (countedBytes_length_le s.freq) (Nat.le_succ _)
  obtain rfl := Res.ok_state_unique hloop hu'
  exact (hweigh _ htotal (seedTree_weighed s)).2

/-- R49, R55: TB_BUILD leaves ROOT a valid node, and children before their parents. -/
theorem buildTree_arena {s b : State} (h : buildTree s = .ok () b) :
    (∀ r, b.root = some r → r.val < b.nnodes.val) ∧
      ∀ (i l r : NodeIx) (w : Count), i.val < b.nnodes.val →
        nodeAt b.node i = .internal l r w → l.val < i.val ∧ r.val < i.val := by
  obtain ⟨b', hb', -, -, hnone, hsome, hchild⟩ := buildTree_ok s
  obtain rfl := Res.ok_state_unique hb' h
  refine ⟨fun r hr => ?_, hchild⟩
  by_cases hcounted : countedBytes s.freq = []
  · cases (hnone hcounted).1.symm.trans hr
  · obtain ⟨r', T, hroot, -, -, hlast, -⟩ := hsome hcounted
    cases hroot.symm.trans hr
    omega

/-- A tree stands in every arena that has its nodes. -/
theorem Represents.of_same {nodes nodes' : Vector Node 511} {n : Nat}
    (hchild : ∀ (i a b : NodeIx) (w : Count), i.val < n →
      nodeAt nodes i = .internal a b w → a.val < i.val ∧ b.val < i.val)
    (hsame : ∀ i : NodeIx, i.val < n → nodeAt nodes i = nodeAt nodes' i) {i : NodeIx} {T : Tree}
    (h : Represents nodes i T) (hi : i.val < n) : Represents nodes' i T := by
  induction h with
  | leaf i x w hleaf => exact .leaf i x w ((hsame i hi).symm.trans hleaf)
  | node i a b w l r hnode hl hr ihl ihr =>
    obtain ⟨ha, hb⟩ := hchild i a b w hi hnode
    exact .node i a b w l r ((hsame i hi).symm.trans hnode) (ihl (ha.trans hi)) (ihr (hb.trans hi))

/-- R171, R184: two blocks with the same FREQ get the same lengths from the same tree. -/
theorem Built.same_freq {s s' t : State} (h : Built s t) (hfreq : s.freq = s'.freq)
    (htotal : totalCount s.freq < 2 ^ 64) :
    ∃ w, Built s' w ∧ t.len = w.len ∧ t.root = w.root ∧ t.nnodes = w.nnodes := by
  obtain ⟨c, c', hc, hc', hroots, hnnodes, -, hnodes⟩ :=
    tbBuildIsAFunctionOfFreq s s' hfreq htotal
  rw [exec_tbBuild_next] at hc hc'
  cases h with
  | empty b hb hroot hcounted =>
    obtain rfl := Res.ok_state_unique hb hc
    exact ⟨_, .empty c' hc' (hroots.symm.trans hroot) (hfreq ▸ hcounted), rfl, hroots, hnnodes⟩
  | tree b r T hb hroot hT hperm =>
    obtain rfl := Res.ok_state_unique hb hc
    obtain ⟨hr, hchild⟩ := buildTree_arena hb
    exact ⟨_, .tree c' r T hc' (hroots.symm.trans hroot) (hT.of_same hchild hnodes (hr r hroot))
      (hfreq ▸ hperm), rfl, hroots, hnnodes⟩

/-- R184: LEN is a copy of TLEN. -/
theorem Built.tlen_eq_len {s t : State} (h : Built s t) : t.tlen = t.len := by
  cases h <;> rfl

theorem Built.free_eq {s t : State} (h : Built s t) (htotal : totalCount s.freq < 2 ^ 64) :
    t.free = s.free := by
  have hfree : ∀ b, buildTree s = .ok () b → b.free = s.free := fun b hb =>
    buildTree_free hb htotal
  cases h with
  | empty b hb hroot hcounted => exact hfree b hb
  | tree b r T hb hroot hT hperm => exact hfree b hb

/-- R220: P_BUILD ends with CT_CANON. -/
theorem Built.buildCodes_eq {s t : State} (h : Built s t) :
    buildCodes s = .ok () (assignCodes t) := by
  obtain ⟨b, hb, hw⟩ := h.walkTree_eq
  rw [buildCodes, hb, Res.ok_bind, hw, Res.ok_bind]

/-- R184, R220: what P_BUILD leaves beside the codes: the lengths and the tree that TB_BUILD and CT_WALK
leave on the same counters, whatever else the block holds. -/
theorem buildCodes_lengths {s t : State} (ht : buildCodes s = .ok () t)
    (htotal : totalCount s.freq < 2 ^ 64) :
    t.tlen = t.len ∧ t.free = s.free ∧ ∀ s' : State, s.freq = s'.freq →
      ∃ w, runList [.tbBuild, .ctWalk] s' = .next w ∧ t.len = w.len ∧ t.root = w.root ∧
        t.nnodes = w.nnodes := by
  obtain ⟨u, hu⟩ := exists_built s
  obtain ⟨t', ht', -, hcoded, -⟩ := buildCodes_ok s
  obtain rfl := Res.ok_state_unique ht' ht
  have hassign : t' = assignCodes u := Res.ok_state_unique ht hu.buildCodes_eq
  have hlen : t'.len = u.len := by rw [hassign, assignCodes]; split <;> rfl
  have hk : kraft255 u.len ≤ 2 ^ 255 := hlen ▸ hcoded.kraft
  rw [assignCodes_eq hk] at hassign
  rw [hassign]
  refine ⟨hu.tlen_eq_len, hu.free_eq htotal, fun s' hfreq => ?_⟩
  obtain ⟨w, hw, hsame⟩ := hu.same_freq hfreq htotal
  exact ⟨w, hw.runList_eq, hsame⟩

/-! ### The transactions of PACK (R231) -/

/-- `s` made `n` transactions more than it wrote bytes, and is then `t`. -/
def Transacts (n : Nat) (s t : State) : Prop :=
  t.chan.trace.length + s.chan.out.length = s.chan.trace.length + n + t.chan.out.length

theorem Transacts.trans {m n : Nat} {s t u : State} (h : Transacts m s t) (h' : Transacts n t u) :
    Transacts (m + n) s u := by
  unfold Transacts at *
  omega

/-- The channels hold what they held, after bytes were written, each answered Ok. -/
def WroteOnly (s t : State) : Prop :=
  ∃ bs, t.chan = s.chan.wrote bs

theorem WroteOnly.refl (s : State) : WroteOnly s s :=
  ⟨[], s.chan.wrote_nil.symm⟩

theorem WroteOnly.trans {s t u : State} (h : WroteOnly s t) (h' : WroteOnly t u) : WroteOnly s u := by
  obtain ⟨bs, h⟩ := h
  obtain ⟨bs', h'⟩ := h'
  exact ⟨bs ++ bs', by rw [h', h, Channels.wrote_wrote]⟩

theorem WroteOnly.rest {s t : State} (h : WroteOnly s t) : t.chan.rest = s.chan.rest := by
  obtain ⟨bs, h⟩ := h
  rw [h, Channels.wrote_rest]

/-- R65: each byte written is one transaction. -/
theorem WroteOnly.transacts {s t : State} (h : WroteOnly s t) : Transacts 0 s t := by
  obtain ⟨bs, h⟩ := h
  have htrace : t.chan.trace.length = bs.length + s.chan.trace.length := by
    simp [h, Channels.wrote]
  have hout : t.chan.out.length = s.chan.out.length + bs.length := by simp [h]
  unfold Transacts
  omega

/-- An operation that, where it runs to its end, transacts with OutWrites alone. -/
abbrev Res.Writes {α : Type} (s : State) (x : Res α) : Prop :=
  x.To (WroteOnly s) fun _ => True

theorem outWrite_writes (b : Byte) (s : State) : (outWrite b s).Writes s := by
  rcases outWrite_cases b s with ⟨-, e⟩ | ⟨-, e | ⟨c, e, -⟩ | e⟩
  all_goals rw [e]
  · trivial
  · exact ⟨[b], rfl⟩
  · trivial
  · trivial

theorem pushBit_writes (b : Bool) (s : State) : (pushBit b s).Writes s := by
  by_cases hn : s.skN.val + 1 < 8
  · rw [pushBit_kept b hn]
    exact WroteOnly.refl s
  · rcases outWrite_cases (pushAcc s.skAcc b) s with ⟨-, e⟩ | ⟨-, e | ⟨c, e, -⟩ | e⟩
    · rw [pushBit_full_fault hn e]
      trivial
    · rw [pushBit_full_ok hn e]
      exact ⟨[pushAcc s.skAcc b], rfl⟩
    · rw [pushBit_full_stop hn e]
      trivial
    · rw [pushBit_full_stop hn e]
      trivial

theorem pushBits_writes (bits : List Bool) (s : State) : (pushBits bits s).Writes s := by
  induction bits generalizing s with
  | nil => exact WroteOnly.refl s
  | cons b bits ih =>
    refine (pushBit_writes b s).bind (fun _ t ht => ?_) fun _ h => h
    exact (ih t).mono (fun _ h => ht.trans h) fun _ h => h

theorem encodeByte_writes (b : Byte) (s : State) : (encodeByte b s).Writes s := by
  rw [encodeByte]
  split
  · trivial
  · exact pushBits_writes _ s

/-- R224: a turn of pass 2 takes a byte or meets the end, and writes. -/
theorem encodeTurn_transacts {s t : State} {more : Bool} (h : encodeTurn s = .ok more t) :
    Transacts 1 s t ∧
      if more then t.chan.rest.length + 1 = s.chan.rest.length else s.chan.rest = [] := by
  obtain ⟨r, u, hread, h⟩ := Res.bind_ok.mp h
  rcases inRead_cases s with ⟨b, bs, hr, e⟩ | ⟨hr, e⟩ | e | e
  all_goals
    rw [e] at hread
    cases hread
  · obtain ⟨_, v, hv, hmore⟩ := Res.bind_ok.mp h
    cases hmore
    have hw := (encodeByte_writes b _).of_ok hv
    refine ⟨Transacts.trans (m := 1) (n := 0) ?_ hw.transacts, ?_⟩
    · simp [Transacts, Channels.took, hr]
    · have hrest : v.chan.rest = s.chan.rest.drop 1 := by rw [hw.rest, Channels.took_rest]
      show v.chan.rest.length + 1 = _
      rw [hrest, hr]
      rfl
  · cases h
    exact ⟨by simp [Transacts, Channels.metEnd, Channels.made], hr⟩

/-- R224: pass 2 reads each byte that is left, and then EOS. -/
theorem encodeLoop_transacts (turns : Nat) {s t : State} (h : encodeLoop turns s = .ok () t)
    (hturns : s.chan.rest.length < turns) : Transacts (s.chan.rest.length + 1) s t := by
  induction turns generalizing s with
  | zero => exact absurd hturns (Nat.not_lt_zero _)
  | succ turns ih =>
    obtain ⟨more, u, hturn, h⟩ := Res.bind_ok.mp h
    obtain ⟨htrans, hrest⟩ := encodeTurn_transacts hturn
    cases more with
    | true =>
      have hrest : u.chan.rest.length + 1 = s.chan.rest.length := hrest
      rw [← hrest, Nat.add_comm _ 1]
      exact htrans.trans (ih h (by omega))
    | false =>
      have hrest : s.chan.rest = [] := hrest
      cases h
      rw [hrest]
      exact htrans

theorem encodePass_transacts {s t : State} (h : encodePass s = .ok () t) :
    Transacts (s.chan.rest.length + 1) s t := by
  obtain ⟨_, u, hloop, h⟩ := Res.bind_ok.mp h
  have hagree : u = t := by
    rw [passesAgree] at h
    split at h <;> cases h
    rfl
  subst hagree
  exact encodeLoop_transacts (s := s.emittedClear) _ hloop
    (by rw [readTurns_eq]; exact Nat.lt_succ_self _)

/-- R134: FLUSH ends with an empty sink, and writes at most its byte. -/
theorem flushSink_frame {s t : State} (hs : s.skAcc.toNat < 2 ^ s.skN.val)
    (h : flushSink s = .ok () t) :
    WroteOnly s t ∧ t = { s with skAcc := 0, skN := 0, chan := t.chan } := by
  by_cases hn : s.skN = 0
  · rw [flushSink_empty hn] at h
    cases h
    have hacc : s.skAcc = 0 := by
      rw [hn] at hs
      exact BitVec.eq_of_toNat_eq (Nat.lt_one_iff.mp hs)
    exact ⟨WroteOnly.refl s, by rw [← hacc, ← hn]⟩
  · rw [flushSink, if_neg hn] at h
    obtain ⟨_, u, hu, h⟩ := Res.bind_ok.mp h
    cases h
    have hw := (outWrite_writes _ s).of_ok hu
    rcases outWrite_cases (padded s.skAcc s.skN.val) s with ⟨-, e⟩ | ⟨-, e | ⟨c, e, -⟩ | e⟩
    all_goals
      rw [e] at hu
      cases hu
    exact ⟨hw, rfl⟩

/-- R66: OutClose is one transaction. -/
theorem outClose_frame {s t : State} (h : outClose s = .ok () t) :
    Transacts 1 s t ∧ t = { s with chan := t.chan } := by
  rw [outClose] at h
  split at h
  · cases h
  · cases hd : s.chan.draw with
    | ok =>
      simp only [Channels.outClose, hd, afterAck] at h
      cases h
      exact ⟨by simp [Transacts, Channels.made], rfl⟩
    | fail landed => simp [Channels.outClose, hd, afterAck] at h
    | never => simp [Channels.outClose, hd, afterAck] at h

/-- R226: the finish step ends with an empty sink; it makes one transaction beside its OutWrite. -/
theorem finishPack_frame {s t : State} (hs : s.skAcc.toNat < 2 ^ s.skN.val)
    (h : finishPack s = .ok () t) :
    Transacts 1 s t ∧ t = { s with skAcc := 0, skN := 0, chan := t.chan } := by
  obtain ⟨_, u, hflush, hclose⟩ := Res.bind_ok.mp h
  obtain ⟨hw, hu⟩ := flushSink_frame hs hflush
  obtain ⟨htrans, ht⟩ := outClose_frame hclose
  refine ⟨hw.transacts.trans htrans, ?_⟩
  rw [ht, hu]

/-! ### PACK from P_HEADER on (R222 to R226) -/

/-- The channels after an InRewind answered Ok, where the host keeps R310. -/
def Channels.rewound (c : Channels) : Channels :=
  { c.made (.inRewind .ok) with inPos := 0 }

@[simp] theorem Channels.rewound_rest (c : Channels) : c.rewound.rest = c.input := rfl

theorem inRewind_same {s : State} (hd : s.chan.draw = .ok) (hsame : s.chan.inRewound = none) :
    inRewind s = .ok () (s.onChan s.chan.rewound) := by
  have hinput : s.chan.inRewound.getD s.chan.input = s.chan.input := by rw [hsame]; rfl
  rw [inRewind_ok hd, hinput, ← hsame]
  rfl

/-- R222 to R226: the steps of PACK after P_BUILD. -/
def packFromHeader (s : State) : Res Unit :=
  (writeHeader (s.enter .pHeader)).bind fun _ s =>
  (inRewind (s.enter .pRewind)).bind fun _ s =>
  (encodePass (s.enter .pEncode)).bind fun _ s =>
  (finishPack (s.enter .pFinish)).bind fun _ s =>
  .ok () (s.enter .done)

theorem packSequence_eq (s : State) :
    packSequence s = (scanInput (s.enter .pCount)).bind fun _ t =>
      (buildCodes (t.enter .pBuild)).bind fun _ u => packFromHeader u := rfl

/-- What P_BUILD leaves for the steps after it: codes for the bytes it counted, an empty sink, and
channels that go on answering Ok. -/
structure ReadyToEncode (s : State) : Prop where
  coded : Coded s.len s.code
  has_code : ∀ x ∈ s.chan.input, entry s.len x ≠ 0
  counted : s.chan.input.length = s.origLen.toNat
  skAcc : s.skAcc = 0
  skN : s.skN = 0
  opened : s.chan.outClosed = false
  draws : ∀ d ∈ s.chan.draws, d = .ok
  same : s.chan.inRewound = none

/-- R222 to R226, R231: these steps change no register but PHASE, EMITTED and the sink, and no table;
beside the OutWrites they make the rewind, the reads of pass 2 and the close. -/
theorem packFromHeader_frame {s t : State} (hs : ReadyToEncode s)
    (h : packFromHeader s = .ok () t) :
    Transacts (s.chan.input.length + 3) s t ∧
      t = { s with phase := .done, sub := 0, emitted := s.origLen, chan := t.chan } := by
  simp only [packFromHeader, Res.bind_ok] at h
  obtain ⟨_, s₃, hheader, _, s₄, hrewind, _, s₅, hencode, _, s₆, hfinish, h⟩ := h
  cases h
  obtain rfl := Res.ok_state_unique hheader (writeHeader_empty_sink (s := s.enter .pHeader)
    hs.skAcc hs.skN hs.opened (Channels.okAll_okFor hs.draws _))
  generalize headerBytes (s.enter .pHeader).id (s.enter .pHeader).origLen (s.enter .pHeader).len
    = header at hrewind
  have hdraws : ∀ d ∈ (s.chan.wrote header).draws, d = .ok :=
    fun d hd => hs.draws d (List.mem_of_mem_drop hd)
  obtain rfl := Res.ok_state_unique hrewind (inRewind_same
    (s := (s.enter .pRewind).onChan (s.chan.wrote header))
    ((Channels.okAll_okFor hdraws 1).draw (by decide)) hs.same)
  obtain ⟨u, hu, hsame, hemitted, -, -, hsmall, -⟩ := encodePass_ok
    (s := (s.enter .pEncode).onChan (s.chan.wrote header).rewound) hs.coded hs.has_code
    (by show s.skAcc.toNat < 2 ^ s.skN.val; rw [hs.skAcc, hs.skN]; decide) hs.opened
    (fun d hd => hdraws d (List.mem_of_mem_tail hd)) hs.counted
  obtain rfl := Res.ok_state_unique hu hencode
  obtain ⟨hclose, hfinished⟩ := finishPack_frame (s := u.enter .pFinish) hsmall hfinish
  refine ⟨?_, ?_⟩
  · have hwrote : Transacts 0 s ((s.enter .pRewind).onChan (s.chan.wrote header)) :=
      WroteOnly.transacts ⟨header, rfl⟩
    have hrewound : Transacts 1 ((s.enter .pRewind).onChan (s.chan.wrote header))
        ((s.enter .pEncode).onChan (s.chan.wrote header).rewound) := by
      simp [Transacts, Channels.rewound, Channels.made]
    have hpass : Transacts (s.chan.input.length + 1) _ u := encodePass_transacts hencode
    have htotal := ((hwrote.trans hrewound).trans hpass).trans hclose
    rwa [show 0 + 1 + (s.chan.input.length + 1) + 1 = s.chan.input.length + 3 by omega] at htotal
  · unfold State.sameButEncoding at hsame
    rw [hfinished, hsame, hemitted, ← hs.skAcc, ← hs.skN]
    rfl

/-! ### PACK (R220) -/

/-- What pass 1 of a PACK leaves (R221, R303). -/
def State.counted (s : State) : State :=
  ((s.startCommand .pCount).enter .pCount).scanned

theorem Channels.Bound.rest {c : Channels} (h : c.Bound) : c.rest = c.input := by
  rw [Channels.rest, h.start, List.drop_zero]

section
variable {s : State} (hb : s.chan.Bound) (hl : s.chan.input.length < 2 ^ 64)
include hb hl

/-- R152, R303: the counters of a PACK start cleared, and stay within the envelope. -/
theorem cleared_freq_fits (b : Byte) :
    (entry (Vector.replicate 256 (0 : Count)) b).toNat + s.chan.rest.count b < 2 ^ 64 := by
  rw [entry_replicate, hb.rest]
  exact (Nat.zero_add _).trans_lt (List.count_le_length.trans_lt hl)

theorem cleared_origLen_fits : (0 : Count).toNat + s.chan.rest.length < 2 ^ 64 := by
  rw [hb.rest]
  exact (Nat.zero_add _).trans_lt hl

/-- R153, R221: pass 1 of a PACK. -/
theorem scanInput_counted :
    scanInput ((s.startCommand .pCount).enter .pCount) = .ok () s.counted :=
  scanInput_ok (Channels.okAll_okFor hb.draws _) (cleared_freq_fits hb hl)
    (cleared_origLen_fits hb hl)

theorem counted_freq (b : Byte) : (entry s.counted.freq b).toNat = s.chan.input.count b := by
  have hcount : (entry s.counted.freq b).toNat
      = (entry (Vector.replicate 256 (0 : Count)) b).toNat + s.chan.rest.count b :=
    entry_countAll_toNat (cleared_freq_fits hb hl b)
  rw [hcount, entry_replicate, hb.rest]
  exact Nat.zero_add _

theorem counted_total : totalCount s.counted.freq = s.chan.input.length := by
  rw [totalCount, funext (counted_freq hb hl)]
  exact sum_count_allBytes _

theorem counted_origLen : s.counted.origLen.toNat = s.chan.input.length := by
  have hlen : s.counted.origLen.toNat = (0 : Count).toNat + s.chan.rest.length :=
    scanned_origLen_toNat (cleared_origLen_fits hb hl)
  rw [hlen, hb.rest]
  exact Nat.zero_add _

/-- R222: what P_BUILD leaves is ready for the steps after it. -/
theorem readyToEncode {u : State} (hu : buildCodes (s.counted.enter .pBuild) = .ok () u)
    (hsame : (s.counted.enter .pBuild).sameButTables u) : ReadyToEncode u := by
  obtain ⟨u', hu', -, hcoded, hlen, -⟩ := buildCodes_ok (s.counted.enter .pBuild)
  obtain rfl := Res.ok_state_unique hu' hu
  have hchan : u'.chan = (s.chan.took s.chan.rest.length).metEnd := congrArg State.chan hsame
  refine ⟨hcoded, fun x hx => (hlen x).mpr fun hzero => ?_, ?_, congrArg State.skAcc hsame,
    congrArg State.skN hsame, ?_, ?_, ?_⟩
  · rw [hchan] at hx
    have hcount : 0 < s.chan.input.count x := List.count_pos_iff.mpr hx
    have hfreq : entry s.counted.freq x = 0 := hzero
    rw [← counted_freq hb hl, hfreq] at hcount
    exact absurd hcount (lt_irrefl 0)
  · have horig : u'.origLen = s.counted.origLen := (congrArg State.origLen hsame).trans rfl
    rw [horig, counted_origLen hb hl, hchan]
    rfl
  · rw [hchan]
    exact hb.opened
  · rw [hchan]
    exact fun d hd => hb.draws d (List.mem_of_mem_drop (List.mem_of_mem_tail hd))
  · rw [hchan]
    exact hb.same

/-- R220, R231: a PACK is pass 1, P_BUILD, and the steps that change no table and no register but PHASE
and EMITTED; beside its OutWrites it makes the reads of two passes, a rewind and a close. -/
theorem packSequence_frame {t : State} (ht : packSequence (s.startCommand .pCount) = .ok () t) :
    ∃ u, buildCodes (s.counted.enter .pBuild) = .ok () u ∧
      (s.counted.enter .pBuild).sameButTables u ∧
      t = { u with phase := .done, sub := 0, emitted := u.origLen, chan := t.chan } ∧
      Transacts (2 * (s.chan.input.length + 1) + 2) s t := by
  obtain ⟨u, hu, hsame, -⟩ := buildCodes_ok (s.counted.enter .pBuild)
  have hready := readyToEncode hb hl hu hsame
  rw [packSequence_eq, scanInput_counted hb hl, Res.ok_bind, hu, Res.ok_bind] at ht
  obtain ⟨htrans, hframe⟩ := packFromHeader_frame hready ht
  refine ⟨u, hu, hsame, hframe, ?_⟩
  have hchan : u.chan = (s.chan.took s.chan.rest.length).metEnd := congrArg State.chan hsame
  have hscan : Transacts (s.chan.input.length + 1) s u := by
    simp [Transacts, hchan, Channels.metEnd, Channels.made, Channels.took, hb.rest]
    omega
  have hinput : u.chan.input = s.chan.input := by rw [hchan]; rfl
  rw [hinput] at htrans
  have htotal := hscan.trans htrans
  rwa [show s.chan.input.length + 1 + (s.chan.input.length + 3)
    = 2 * (s.chan.input.length + 1) + 2 by omega] at htotal

end

theorem eq_nil_of_distinct {xs : List Byte} (h : distinct xs = 0) : xs = [] := by
  rw [List.eq_nil_iff_forall_not_mem]
  intro x hx
  have hmem : x ∈ allBytes.filter fun b => b ∈ xs := by simpa using hx
  rw [List.eq_nil_of_length_eq_zero h] at hmem
  exact List.not_mem_nil hmem

/-- R207: LEN_CHECK accepts the table of a tree over the input's bytes. -/
theorem acceptedTable_of_distinct {len : Table (BitVec 8)} {n : Count} {xs : List Byte}
    (hn : n.toNat = xs.length) (hpresent : (present len).length = distinct xs)
    (hone : distinct xs = 1 → ∃ x, present len = [(x, 1)])
    (hkraft : 2 ≤ distinct xs → kraft255 len = 2 ^ 255) : acceptedTable len n := by
  rcases Nat.lt_or_ge (distinct xs) 2 with h | h
  · rcases Nat.lt_or_ge (distinct xs) 1 with h0 | h1
    · have hzero : distinct xs = 0 := Nat.lt_one_iff.mp h0
      rw [eq_nil_of_distinct hzero] at hn
      exact .inl ⟨List.eq_nil_of_length_eq_zero (hpresent.trans hzero), BitVec.eq_of_toNat_eq hn⟩
    · exact .inr (.inl (hone (Nat.le_antisymm (Nat.le_of_lt_succ h) h1)))
  · exact .inr (.inr ⟨hpresent ▸ h, hkraft h⟩)

/-- Settles O47: what PACK writes is `packSequence_ok`; the registers and tables it leaves are those of
P_BUILD, and its transactions are counted phase by phase. -/
theorem packCompletes : Obligations.PackCompletes := by
  unfold Obligations.PackCompletes
  intro s haccepts hb hl
  obtain ⟨t, hrun, hphase, herr, herrInfo, hid, horig, hemitted, hnsym, hdegen, hlen, hpresent,
    hkraft, hone, hcoded, hout, hclosed, hinput, hpos, hhung⟩ := packSequence_ok hb hl
  obtain ⟨u, hu, hsame, hframe, htrans⟩ := packSequence_frame hb hl hrun
  have hbuilt : u.freq = s.counted.freq := (congrArg State.freq hsame).trans rfl
  have hfreq : t.freq = s.counted.freq := (congrArg State.freq hframe).trans hbuilt
  have horigNat : t.origLen.toNat = s.chan.input.length := by
    rw [horig, BitVec.toNat_ofNat, Nat.mod_eq_of_lt hl]
  obtain ⟨htlen, hfree, hlengths⟩ := buildCodes_lengths hu
    (by show totalCount s.counted.freq < _; rw [counted_total hb hl]; exact hl)
  obtain ⟨w, hw, hwlen, hwroot, hwnnodes⟩ := hlengths { s with freq := t.freq } hfreq.symm
  refine ⟨t, exec_pack_of_ok haccepts hrun, hphase, herr, hid, horigNat, hemitted, hnsym, hdegen,
    hlen, acceptedTable_of_distinct horigNat hpresent hone hkraft, hout, hclosed, hinput, hpos,
    fun b => ?_, ?_, ⟨w, hw, (congrArg State.len hframe).trans hwlen,
      (congrArg State.root hframe).trans hwroot, (congrArg State.nnodes hframe).trans hwnnodes⟩,
    fun x hx => hcoded.code x ((hlen x).mpr hx), ?_, ?_, ?_⟩
  · rw [hfreq, counted_freq hb hl]
  · rw [hframe]
    exact htlen
  · refine ⟨herrInfo, hhung.trans (accepts_iff.mp haccepts).2, ?_⟩
    rw [hframe, hsame]
    exact ⟨rfl, rfl, rfl, rfl, rfl, rfl⟩
  · rw [hframe, hfree, hsame]
    exact ⟨rfl, rfl, rfl, rfl, rfl, rfl⟩
  · have hlength := congrArg List.length hout
    rw [List.length_append, List.length_append, headerBytes_length, payloadBytes_length] at hlength
    unfold Transacts at htrans
    omega

end Sys2Proof.Machine

namespace Sys2Proof.Machine

/-! ### HDR_WRITE and LEN_CHECK (R201, R207) -/

/-- Settles O39: on an empty sink the fields fill whole bytes. -/
theorem hdrWriteWritesTheHeader : Obligations.HdrWriteWritesTheHeader := by
  unfold Obligations.HdrWriteWritesTheHeader
  intro s hacc hn ho hd
  show (writeHeader s).outcome = _
  rw [writeHeader_empty_sink hacc hn ho hd]
  rfl

/-- R207: with no symbol present ORIG_LEN decides. -/
theorem tableFault_of_empty {len : Table (BitVec 8)} (n : Count) (h : present len = []) :
    tableFault len n = if n = 0 then none else some .noSymbols := by
  rw [tableFault, h]

/-- R207: with one symbol present its length decides. -/
theorem tableFault_of_single {len : Table (BitVec 8)} (n : Count) {e : Byte × Nat}
    (h : present len = [e]) :
    tableFault len n = if e.2 = 1 then none else some .singleNotOne := by
  rw [tableFault, h]

/-- R207: with two or more symbols present the Kraft sum decides. -/
theorem tableFault_of_two_le {len : Table (BitVec 8)} (n : Count) (h : 2 ≤ (present len).length) :
    tableFault len n = if 2 ^ 255 < kraft255 len then some .oversubscribed
      else if kraft255 len < 2 ^ 255 then some .incomplete else none := by
  match hp : present len, h with
  | _ :: _ :: _, _ => rw [tableFault, hp]

theorem exec_lenCheck_of_accepted {s : State} {k : Nat} (hk : (present s.len).length = k)
    (h : tableFault s.len s.origLen = none) :
    exec .lenCheck s = .next { s with nsym := Fin.ofNat 257 k, degen := degenOf k } := by
  show (checkTable s).outcome = _
  simp only [checkTable, h, hk, Res.ok_outcome]

theorem exec_lenCheck_of_fault {s : State} {c : Cause} {k : Nat} (hk : (present s.len).length = k)
    (h : tableFault s.len s.origLen = some c) :
    exec .lenCheck s = .next (State.raise c { s with nsym := Fin.ofNat 257 k }) := by
  show (checkTable s).outcome = _
  simp only [checkTable, h, hk, Res.stop_outcome]

/-- R35: DEGEN of two or more symbols. -/
theorem degenOf_two_le {k : Nat} (h : 2 ≤ k) : degenOf k = .normal := by
  obtain ⟨j, rfl⟩ := Nat.exists_eq_add_of_le' h
  rfl

/-- Settles O43: `tableFault` names the row of R207, and `checkTable` does what the row says. -/
theorem lenCheckAcceptsExactly : Obligations.LenCheckAcceptsExactly := by
  unfold Obligations.LenCheckAcceptsExactly
  intro s
  refine ⟨fun hk hn => ?_, fun hk hn => ?_, fun x hp => ?_, fun x l hp hl => ?_, fun hk hK => ?_,
    fun hk hK => ?_, fun hk hK => ?_⟩
  · refine exec_lenCheck_of_accepted hk ?_
    rw [tableFault_of_empty _ (List.eq_nil_of_length_eq_zero hk), if_pos hn]
  · refine exec_lenCheck_of_fault (c := .noSymbols) hk ?_
    rw [tableFault_of_empty _ (List.eq_nil_of_length_eq_zero hk), if_neg hn]
  · refine exec_lenCheck_of_accepted (congrArg List.length hp) ?_
    rw [tableFault_of_single _ hp, if_pos rfl]
  · refine exec_lenCheck_of_fault (c := .singleNotOne) (congrArg List.length hp) ?_
    rw [tableFault_of_single _ hp, if_neg hl]
  · refine exec_lenCheck_of_fault (c := .oversubscribed) rfl ?_
    rw [tableFault_of_two_le _ hk, if_pos hK]
  · refine exec_lenCheck_of_fault (c := .incomplete) rfl ?_
    rw [tableFault_of_two_le _ hk, if_neg hK.le.not_gt, if_pos hK]
  · have haccepted : tableFault s.len s.origLen = none := by
      rw [tableFault_of_two_le _ hk, if_neg hK.le.not_gt, if_neg hK.ge.not_gt]
    rw [exec_lenCheck_of_accepted rfl haccepted, degenOf_two_le hk]

end Sys2Proof.Machine

namespace Sys2Proof.Machine

/-! ### HDR_READ, byte by byte (R202 to R206) -/

/-- R75: into an empty SR, `8 * k` bits take `k` bytes. -/
theorem State.fetches_bytes {s : State} (h : s.srN = 0) (k : Nat) : s.fetches (8 * k) = k := by
  rw [State.fetches, h]
  show (8 * k - 0 + 7) / 8 = k
  omega

/-- R202: whole bytes delivered leave SR empty. -/
theorem State.sourced_bytes {s : State} (h : s.srN = 0) (k : Nat) :
    s.sourced (8 * k) = { s with
      srAcc := if k = 0 then s.srAcc else s.chan.rest.getD (k - 1) 0, srN := 0
      chan := s.chan.took k } := by
  have hn : Fin.ofNat 9 (s.srN.val + 8 * k - 8 * k) = 0 := by
    rw [h, Nat.add_sub_cancel]
    rfl
  rw [State.sourced, State.fetches_bytes h, hn]

/-- R93: the bits of bytes are those of the number they stand for. -/
theorem flatMap_byteBits_eq (bs : List Byte) :
    bs.flatMap byteBits = codeBits (natOfBytes bs) (8 * bs.length) := by
  rw [codeBits_bytes, bytesOfNat_natOfBytes]

/-- R202: a field of whole bytes is read as the number its bytes stand for. -/
theorem readField_bytes {s : State} {k : Nat} {bs more : List Byte} (h : s.srN = 0)
    (hk : bs.length = k) (hr : s.chan.rest = bs ++ more) (hd : s.chan.okFor k) :
    readField (8 * k) s = .ok (natOfBytes bs) (s.sourced (8 * k)) := by
  subst hk
  refine (readField_ok (tail := more.flatMap byteBits) ?_ ?_ ?_).1
  · rw [pow_mul]
    exact natOfBytes_lt bs
  · rw [State.bitStream_of_empty h, hr, List.flatMap_append, flatMap_byteBits_eq]
  · rwa [State.fetches_bytes h]

/-- R46: MAGIC is the number above VERSION in ID. -/
theorem State.magic_toNat (s : State) : s.magic.toNat = s.id.toNat / 2 ^ 8 := by
  rw [s.id_toNat, Nat.mul_comm, Nat.mul_add_div (by decide), Nat.div_eq_of_lt s.version.isLt,
    Nat.add_zero]

/-- R46: VERSION is the last byte of ID. -/
theorem State.version_eq (s : State) : s.version = BitVec.ofNat 8 s.id.toNat := by
  rw [s.id_toNat]
  apply BitVec.eq_of_toNat_eq
  rw [BitVec.toNat_ofNat, Nat.mul_add_mod_self_right, Nat.mod_eq_of_lt s.version.isLt]

theorem natOfBytes_singleton (b : Byte) : natOfBytes [b] = b.toNat := by
  rw [natOfBytes_cons, List.length_nil, pow_zero, Nat.mul_one]
  rfl

theorem exec_hdrRead (s : State) : exec .hdrRead s = (readHeader s).outcome := rfl

/-- Settles O40: what `readHeader_ok` says of the bits, said of the bytes; the last of them is LEN[255]. -/
theorem hdrReadRestoresTheHeader : Obligations.HdrReadRestoresTheHeader := by
  unfold Obligations.HdrReadRestoresTheHeader
  intro s n len more h hr hd
  have hbits : s.bitStream
      = (headerBytes s.id n len).flatMap byteBits ++ more.flatMap byteBits := by
    rw [State.bitStream_of_empty h, hr, List.flatMap_append]
  have hlast : s.chan.rest.getD 268 0 = entry len 0xFF := by
    rw [hr, List.getD_append _ _ _ _ (by rw [headerBytes_length]; decide),
      List.getD_eq_getElem?_getD]
    exact congrArg (Option.getD · 0) (headerBytes_length_entry s.id n len 0xFF)
  have hread := (readHeader_ok hbits (by rwa [State.fetches_bytes h])).1
  rw [State.sourced_bytes h] at hread
  rw [exec_hdrRead, hread, Res.ok_outcome, ← hlast]
  rfl

/-- R203: a magic other than the block's own. -/
theorem readMagic_mismatch {s : State} {m more : List Byte} (h : s.srN = 0) (hm : m.length = 4)
    (hr : s.chan.rest = m ++ more) (hd : s.chan.okFor 4) (hne : natOfBytes m ≠ s.magic.toNat) :
    readMagic s = .stop ((s.sourced 32).raise .magicMismatch) := by
  have hread : readField 32 s = .ok (natOfBytes m) (s.sourced 32) := readField_bytes h hm hr hd
  rw [readMagic, hread]
  exact if_neg hne

/-- R202: the block's own magic. -/
theorem readMagic_match {s : State} {m more : List Byte} (h : s.srN = 0) (hm : m.length = 4)
    (hr : s.chan.rest = m ++ more) (hd : s.chan.okFor 4) (heq : natOfBytes m = s.magic.toNat) :
    readMagic s = .ok () (s.sourced 32) := by
  have hread : readField 32 s = .ok (natOfBytes m) (s.sourced 32) := readField_bytes h hm hr hd
  rw [readMagic, hread]
  exact if_pos heq

/-- R203: a version other than the block's own. -/
theorem readVersion_mismatch {s : State} {v : Byte} {more : List Byte} (h : s.srN = 0)
    (hr : s.chan.rest = v :: more) (hd : s.chan.okFor 1) (hne : v ≠ s.version) :
    readVersion s = .stop ((s.sourced 8).raise .versionUnknown) := by
  have hread : readField 8 s = .ok (natOfBytes [v]) (s.sourced 8) :=
    readField_bytes (k := 1) h rfl hr hd
  rw [readVersion, hread, natOfBytes_singleton]
  exact if_neg fun heq => hne (BitVec.eq_of_toNat_eq heq)

/-- Settles O41: the magic is compared after its four bytes, the version after one more. -/
theorem hdrReadRejectsAnotherFormat : Obligations.HdrReadRejectsAnotherFormat := by
  unfold Obligations.HdrReadRejectsAnotherFormat
  intro s m h hm
  refine ⟨fun more hr hd hne => ?_, fun v more hr hd heq hne => ?_⟩
  · have hlast : s.chan.rest.getD 3 0 = m.getD 3 0 := by
      rw [hr, List.getD_append _ _ _ _ (by rw [hm]; decide)]
    rw [exec_hdrRead, readHeader, readMagic_mismatch h hm hr hd hne, State.sourced_bytes h 4, ← hlast]
    rfl
  · have hlast : s.chan.rest.getD 4 0 = v := by
      rw [hr, List.getD_append_right _ _ _ _ (by rw [hm]), hm]
      rfl
    have hsource := State.sourced_bytes h 4
    have hmagic := readMagic_match h hm hr (hd.mono (by decide)) heq
    have hversion : readVersion (s.sourced 32)
        = .stop (((s.sourced 32).sourced 8).raise .versionUnknown) := by
      refine readVersion_mismatch (more := more) (congrArg State.srN hsource) ?_ ?_ hne
      · rw [congrArg State.chan hsource, Channels.took_rest, hr, List.drop_left' hm]
      · rw [congrArg State.chan hsource]
        exact Channels.okFor_of_draws (m := 4) hd rfl
    rw [exec_hdrRead, readHeader, hmagic, Res.ok_bind, hversion, State.sourced_sourced,
      State.sourced_bytes h 5, ← hlast]
    rfl

/-! ### A short header (R206)

A reader that `ReadsBytes` describes reads its bytes where they stand next in the input, and ends in
FormatError(1) where only a proper part of them does; so do two such readers, one after the other. -/

/-- `t` is `s` after `k` bytes of a header were read (R202). -/
def State.TookHeader (k : Nat) (s t : State) : Prop :=
  t = { s with
    srAcc := t.srAcc, srN := 0, origLen := t.origLen, len := t.len, chan := s.chan.took k }

/-- `t` is `s` after the input ended inside a header (R206). -/
def State.EndedInHeader (s t : State) : Prop :=
  t = { s with
    err := .formatError, errInfo := 1, phase := .error, sub := 0
    srAcc := t.srAcc, srN := 0, origLen := t.origLen, len := t.len
    chan := (s.chan.took s.chan.rest.length).metEnd }

/-- R202: whole bytes read from an empty SR. -/
theorem State.sourced_tookHeader {s : State} (h : s.srN = 0) (k : Nat) :
    s.TookHeader k (s.sourced (8 * k)) := by
  rw [State.sourced_bytes h]
  rfl

/-- R204, R205: what is done with a field's value reads nothing and can only set ORIG_LEN or LEN. -/
theorem State.tookHeader_zero {s : State} (h : s.srN = 0) (n : Count) (len : Table (BitVec 8)) :
    s.TookHeader 0 { s with origLen := n, len := len } := by
  unfold State.TookHeader
  rw [Channels.took_zero, ← h]

theorem State.TookHeader.trans {j k : Nat} {s t u : State} (h : s.TookHeader j t)
    (h' : t.TookHeader k u) : s.TookHeader (j + k) u := by
  unfold State.TookHeader at h h' ⊢
  rw [h', h]
  simp only [Channels.took_took]

/-- The end met after `k` bytes is the end met from the start. -/
theorem State.TookHeader.endedInHeader {k : Nat} {s t u : State} (h : s.TookHeader k t)
    (hk : k ≤ s.chan.rest.length) (h' : t.EndedInHeader u) : s.EndedInHeader u := by
  unfold State.TookHeader at h
  unfold State.EndedInHeader at h' ⊢
  rw [h', h]
  simp only [Channels.took_took, Channels.took_rest, List.length_drop, Nat.add_sub_cancel' hk]

/-- R206: a field of `k` bytes where fewer are left. -/
theorem readField_short {s : State} {k : Nat} (h : s.srN = 0) (hk : s.chan.rest.length < k)
    (hd : s.chan.okFor (s.chan.rest.length + 1)) :
    ∃ t, readField (8 * k) s = .stop t ∧ s.EndedInHeader t := by
  have hbits : s.bitStream.length = 8 * s.chan.rest.length := by
    rw [State.bitStream_of_empty h, flatMap_byteBits_length]
  refine ⟨_, by rw [readField, readBits, readBitsFrom_eos 0 (8 * k) (by omega) hd]; rfl, ?_⟩
  rw [hbits, State.sourced_bytes h]
  rfl

/-- A reader that takes the bytes `bs` of a header of the block with this ID. -/
structure ReadsBytes (id : BitVec 40) (bs : List Byte) (x : State → Res Unit) : Prop where
  whole : ∀ {s : State} {more : List Byte}, s.id = id → s.srN = 0 → s.chan.rest = bs ++ more →
    s.chan.okFor bs.length → ∃ t, x s = .ok () t ∧ s.TookHeader bs.length t
  short : ∀ {s : State}, s.id = id → s.srN = 0 → s.chan.rest <+: bs →
    s.chan.rest.length < bs.length → s.chan.okFor (s.chan.rest.length + 1) →
    ∃ t, x s = .stop t ∧ s.EndedInHeader t

/-- R202: a field, and what the reader does with its value. -/
theorem ReadsBytes.field {id : BitVec 40} {bs : List Byte} {n : Nat} {f : Nat → State → Res Unit}
    (hn : n = 8 * bs.length)
    (hf : ∀ s : State, s.id = id → s.srN = 0 →
      ∃ t, f (natOfBytes bs) s = .ok () t ∧ s.TookHeader 0 t) :
    ReadsBytes id bs fun s => (readField n s).bind f where
  whole {s _} hid h hr hd := by
    have htook := State.sourced_tookHeader h bs.length
    have hN := congrArg State.srN htook
    have hI := congrArg State.id htook
    obtain ⟨t, ht, hkeeps⟩ := hf (s.sourced (8 * bs.length)) (hI.trans hid) hN
    exact ⟨t, by rw [hn, readField_bytes h rfl hr hd, Res.ok_bind, ht], htook.trans hkeeps⟩
  short {s} _ h _ hlt hd := by
    obtain ⟨t, ht, hended⟩ := readField_short h hlt hd
    exact ⟨t, by rw [hn, ht, Res.stop_bind], hended⟩

/-- Two readers, one after the other: the bytes end inside the first, or the first reads its own. -/
theorem ReadsBytes.bind {id : BitVec 40} {as bs : List Byte} {x y : State → Res Unit}
    (hx : ReadsBytes id as x) (hy : ReadsBytes id bs y) :
    ReadsBytes id (as ++ bs) fun s => (x s).bind fun _ t => y t where
  whole {s more} hid h hr hd := by
    rw [List.length_append] at hd ⊢
    rw [List.append_assoc] at hr
    obtain ⟨t, ht, htook⟩ := hx.whole hid h hr (hd.mono (Nat.le_add_right _ _))
    have hchan := congrArg State.chan htook
    obtain ⟨u, hu, htook'⟩ := hy.whole ((congrArg State.id htook).trans hid)
      (congrArg State.srN htook)
      (show t.chan.rest = bs ++ more by rw [hchan, Channels.took_rest, hr, List.drop_left])
      (Channels.okFor_of_draws hd (congrArg Channels.draws hchan))
    exact ⟨u, by rw [ht, Res.ok_bind, hu], htook.trans htook'⟩
  short {s} hid h hr hlt hd := by
    rw [List.length_append] at hlt
    rcases Nat.lt_or_ge s.chan.rest.length as.length with hin | hout
    · obtain ⟨t, ht, hended⟩ := hx.short hid h
        (List.prefix_of_prefix_length_le hr (List.prefix_append as bs) hin.le) hin hd
      exact ⟨t, by rw [ht, Res.stop_bind], hended⟩
    · obtain ⟨more, hmore⟩ := List.prefix_of_prefix_length_le (List.prefix_append as bs) hr hout
      rw [← hmore, List.prefix_append_right_inj] at hr
      have hlen : s.chan.rest.length = as.length + more.length := by
        rw [← hmore, List.length_append]
      obtain ⟨t, ht, htook⟩ := hx.whole hid h hmore.symm (hd.mono (by omega))
      have hchan := congrArg State.chan htook
      have hrest : t.chan.rest = more := by
        rw [hchan, Channels.took_rest, ← hmore, List.drop_left]
      obtain ⟨u, hu, hended⟩ := hy.short ((congrArg State.id htook).trans hid)
        (congrArg State.srN htook) (hrest ▸ hr) (by rw [hrest]; omega)
        (Channels.okFor_of_draws (c := s.chan) (m := as.length)
          (hd.mono (by rw [hrest]; omega)) (congrArg Channels.draws hchan))
      exact ⟨u, by rw [ht, Res.ok_bind, hu], htook.endedInHeader hout hended⟩

theorem readMagic_readsBytes (id : BitVec 40) :
    ReadsBytes id (bytesOfNat 4 (id.toNat / 2 ^ 8)) readMagic := by
  refine .field (by rw [bytesOfNat_length]) fun s hid h =>
    ⟨s, if_pos ?_, State.tookHeader_zero h s.origLen s.len⟩
  have hlt := id.isLt
  rw [natOfBytes_bytesOfNat, State.magic_toNat, hid, Nat.mod_eq_of_lt (by omega)]

theorem readVersion_readsBytes (id : BitVec 40) :
    ReadsBytes id [BitVec.ofNat 8 id.toNat] readVersion := by
  refine .field rfl fun s hid h => ⟨s, if_pos ?_, State.tookHeader_zero h s.origLen s.len⟩
  rw [natOfBytes_singleton, State.version_eq, hid]

theorem readOrigLen_readsBytes (id : BitVec 40) (n : Count) :
    ReadsBytes id (bytesOfNat 8 n.toNat) readOrigLen :=
  .field (by rw [bytesOfNat_length]) fun s _ h => ⟨_, rfl, State.tookHeader_zero h _ s.len⟩

/-- R202: one turn of the loop over the length entries (`readLens_cons`). -/
def readLen (b : Byte) (s : State) : Res Unit :=
  (readField 8 s).bind fun l t => .ok () { t with len := setEntry t.len b (BitVec.ofNat 8 l) }

theorem readLens_cons (b : Byte) (bs : List Byte) :
    readLens (b :: bs) = fun s => (readLen b s).bind fun _ t => readLens bs t := by
  funext s
  rw [readLens, readLen, Res.bind_assoc]
  rfl

theorem readLen_readsBytes (id : BitVec 40) (b l : Byte) : ReadsBytes id [l] (readLen b) :=
  .field rfl fun s _ h => ⟨_, rfl, State.tookHeader_zero h s.origLen _⟩

theorem ReadsBytes.nothing (id : BitVec 40) : ReadsBytes id [] (Res.ok ()) where
  whole {s _} _ h _ _ := ⟨s, rfl, State.tookHeader_zero h s.origLen s.len⟩
  short _ _ _ hlt _ := absurd hlt (Nat.not_lt_zero _)

theorem readLens_readsBytes (id : BitVec 40) (val : Byte → Byte) (bs : List Byte) :
    ReadsBytes id (bs.map val) (readLens bs) := by
  induction bs with
  | nil => exact .nothing id
  | cons b bs ih =>
    rw [readLens_cons]
    exact (readLen_readsBytes id b (val b)).bind ih

/-- R202: HDR_READ reads the header field by field. -/
theorem readHeader_readsBytes (id : BitVec 40) (n : Count) (len : Table (BitVec 8)) :
    ReadsBytes id (headerBytes id n len) readHeader := by
  rw [headerBytes_fields, toList_eq]
  exact (readMagic_readsBytes id).bind ((readVersion_readsBytes id).bind
    ((readOrigLen_readsBytes id n).bind (readLens_readsBytes id (entry len) allBytes)))

/-- R206: fewer than four bytes are no magic. -/
theorem readHeader_short {s : State} (h : s.srN = 0) (hlt : s.chan.rest.length < 4)
    (hd : s.chan.okFor (s.chan.rest.length + 1)) :
    ∃ t, readHeader s = .stop t ∧ s.EndedInHeader t := by
  obtain ⟨t, ht, hended⟩ := readField_short h hlt hd
  have hmagic : readMagic s = .stop t := by
    rw [readMagic, ht, Res.stop_bind]
  exact ⟨t, by rw [readHeader, hmagic, Res.stop_bind], hended⟩

/-- Settles O42: fewer than four bytes end inside the magic, a proper part of a header in one of its
fields. -/
theorem hdrReadRejectsAShortHeader : Obligations.HdrReadRejectsAShortHeader := by
  unfold Obligations.HdrReadRejectsAShortHeader
  intro s n len h hpart hd
  have hstops : ∃ t, readHeader s = .stop t ∧ s.EndedInHeader t := by
    rcases hpart with hlt | ⟨hprefix, hlt⟩
    · exact readHeader_short h hlt hd
    · exact (readHeader_readsBytes s.id n len).short rfl h hprefix
        (by rwa [headerBytes_length]) hd
  obtain ⟨t, ht, hended⟩ := hstops
  exact ⟨t, by rw [exec_hdrRead, ht, Res.stop_outcome], hended⟩

end Sys2Proof.Machine

namespace Sys2Proof.Machine

/-! ### However its transactions are answered, PACK ends or waits (R230, R263, R315) -/

/-- How an operation goes that neither faults nor is refused: to its end with `R` of the state, or the
sequencer stops inside it with `Q` of the state. -/
def Res.Lands {α : Type} (R Q : State → Prop) : Res α → Prop
  | .ok _ t => R t
  | .stop t => Q t
  | .fault _ => False
  | .refuse _ => False

theorem Res.Lands.bind {α β : Type} {R R' Q : State → Prop} {x : Res α} {f : α → State → Res β}
    (hx : x.Lands R Q) (hf : ∀ a t, R t → (f a t).Lands R' Q) : (x.bind f).Lands R' Q := by
  cases x with
  | ok a t => exact hf a t hx
  | stop t => exact hx
  | fault e => exact hx
  | refuse r => exact hx

/-- Run as one step it has a next state. -/
theorem Res.Lands.outcome {α : Type} {R Q : State → Prop} {x : Res α} (hx : x.Lands R Q) :
    ∃ t, x.outcome = .next t ∧ (R t ∨ Q t) := by
  cases x with
  | ok a t => exact ⟨t, rfl, .inl hx⟩
  | stop t => exact ⟨t, rfl, .inr hx⟩
  | fault e => exact hx.elim
  | refuse r => exact hx.elim

/-- A PACK under way: nothing was raised, and the output is open. -/
structure State.Packing (s : State) : Prop where
  err : s.err = .none
  opened : s.chan.outClosed = false

/-- R263, R315: a PACK that stopped before the output was closed: at one of the six IoFailures, or at
a transaction that is never answered. -/
def State.PackStopped (t : State) : Prop :=
  (t.phase = .error ∧ t.err = .ioFailure ∧ 1 ≤ t.errInfo.toNat ∧ t.errInfo.toNat ≤ 6 ∧
    t.chan.outClosed = false) ∨ (t.hung = true ∧ t.chan.outClosed = false)

/-- R220, R226: a PACK whose output was closed. -/
def State.Packed (t : State) : Prop :=
  t.err = .none ∧ t.chan.outClosed = true

/-- R262: the sub-causes of IoFailure. -/
theorem Cause.info_of_ioFailure (c : Cause) :
    c.kind = .ioFailure → 1 ≤ c.info.toNat ∧ c.info.toNat ≤ 6 := by
  cases c <;> decide

theorem State.PackStopped.raise {s : State} {c : Cause} (hc : c.kind = .ioFailure)
    (ho : s.chan.outClosed = false) : (s.raise c).PackStopped := by
  obtain ⟨hlow, hhigh⟩ := c.info_of_ioFailure hc
  exact .inl ⟨rfl, hc, hlow, hhigh, ho⟩

theorem State.PackStopped.hang {s : State} (ho : s.chan.outClosed = false) :
    s.hang.PackStopped :=
  .inr ⟨rfl, ho⟩

/-- An operation of a PACK: it leaves the PACK under way, or stops it. -/
abbrev Res.Packs {α : Type} (x : Res α) : Prop :=
  x.Lands State.Packing State.PackStopped

/-! ### The transactions -/

theorem afterAck_lands {R : State → Prop} {c : Cause} {s : State} {r : Ack × Channels}
    (hc : c.kind = .ioFailure) (hok : r.1 = .ok → R { s with chan := r.2 })
    (hopen : r.1 ≠ .ok → r.2.outClosed = false) :
    (afterAck c s r).Lands R State.PackStopped := by
  obtain ⟨ack, ch⟩ := r
  cases ack with
  | ok => exact hok rfl
  | fail => exact .raise hc (hopen nofun)
  | never => exact .hang (hopen nofun)

theorem Channels.rewind_outClosed (c : Channels) : c.rewind.2.outClosed = c.outClosed := by
  unfold Channels.rewind
  cases c.draw <;> rfl

theorem Channels.outWrite_outClosed (b : Byte) (c : Channels) :
    (c.outWrite b).2.outClosed = c.outClosed := by
  unfold Channels.outWrite
  cases c.draw <;> rfl

/-- R66: OUT_CLOSED is set where the OutClose answers Ok, and only there. -/
theorem Channels.outClose_outClosed {c : Channels} (ho : c.outClosed = false) :
    (c.outClose.1 = .ok → c.outClose.2.outClosed = true) ∧
      (c.outClose.1 ≠ .ok → c.outClose.2.outClosed = false) := by
  unfold Channels.outClose
  cases c.draw with
  | ok => exact ⟨fun _ => rfl, fun h => absurd rfl h⟩
  | fail landed => exact ⟨nofun, fun _ => ho⟩
  | never => exact ⟨nofun, fun _ => ho⟩

section
variable {s : State} (h : s.Packing)
include h

theorem inRead_packs : (inRead s).Packs := by
  rcases inRead_cases s with ⟨b, bs, -, e⟩ | ⟨-, e⟩ | e | e
  all_goals rw [e]
  · exact ⟨h.err, h.opened⟩
  · exact ⟨h.err, h.opened⟩
  · exact .raise rfl h.opened
  · exact .hang h.opened

theorem inRewind_packs : (inRewind s).Packs :=
  have ho := s.chan.rewind_outClosed.trans h.opened
  afterAck_lands rfl (fun _ => ⟨h.err, ho⟩) fun _ => ho

theorem outWrite_packs (b : Byte) : (outWrite b s).Packs := by
  have ho := (s.chan.outWrite_outClosed b).trans h.opened
  rw [outWrite, if_neg (by simp [h.opened])]
  exact afterAck_lands rfl (fun _ => ⟨h.err, ho⟩) fun _ => ho

/-- R226: the OutClose is the end of a PACK, or stops it with the output still open. -/
theorem outClose_lands : (outClose s).Lands State.Packed State.PackStopped := by
  obtain ⟨hclosed, hopen⟩ := Channels.outClose_outClosed h.opened
  rw [outClose, if_neg (by simp [h.opened])]
  exact afterAck_lands rfl (fun hok => ⟨h.err, hclosed hok⟩) hopen

/-! ### The micro-operations of a PACK (R220) -/

theorem pushBit_packs (b : Bool) : (pushBit b s).Packs := by
  by_cases hn : s.skN.val + 1 < 8
  · rw [pushBit_kept b hn]
    exact ⟨h.err, h.opened⟩
  · have hw := outWrite_packs h (pushAcc s.skAcc b)
    cases e : outWrite (pushAcc s.skAcc b) s with
    | ok a t =>
      rw [e] at hw
      rw [pushBit_full_ok hn e]
      exact ⟨hw.err, hw.opened⟩
    | stop t =>
      rw [e] at hw
      rw [pushBit_full_stop hn e]
      exact hw
    | fault f =>
      rw [e] at hw
      exact hw.elim
    | refuse r =>
      rw [e] at hw
      exact hw.elim

end

theorem pushBits_packs (bits : List Bool) {s : State} (h : s.Packing) :
    (pushBits bits s).Packs := by
  induction bits generalizing s with
  | nil => exact h
  | cons b bits ih => exact (pushBit_packs h b).bind fun _ _ ht => ih ht

theorem writeFields_packs (fields : List (Nat × Nat)) {s : State} (h : s.Packing) :
    (writeFields fields s).Packs := by
  induction fields generalizing s with
  | nil => exact h
  | cons f fields ih => exact (pushBits_packs (codeBits f.1 f.2) h).bind fun _ _ ht => ih ht

theorem turnLoop_packs {turn : State → Res Bool} (hturn : ∀ {s : State}, s.Packing → (turn s).Packs)
    (turns : Nat) {s : State} (h : s.Packing) : (turnLoop turn turns s).Packs := by
  induction turns generalizing s with
  | zero => exact h
  | succ turns ih =>
    refine (hturn h).bind fun more t ht => ?_
    cases more with
    | true => exact ih ht
    | false => exact ht

section
variable {s : State} (h : s.Packing)
include h

theorem flushSink_packs : (flushSink s).Packs := by
  unfold flushSink
  split
  · exact h
  · exact (outWrite_packs h _).bind fun _ _ ht => ⟨ht.err, ht.opened⟩

theorem scanTurn_packs : (scanTurn s).Packs := by
  refine (inRead_packs h).bind fun r t ht => ?_
  cases r with
  | none => exact ht
  | some b => exact ⟨ht.err, ht.opened⟩

theorem scanInput_packs : (scanInput s).Packs := by
  rw [scanInput, scanLoop_eq_turnLoop]
  exact turnLoop_packs scanTurn_packs _ h

/-- R161, R170, R184: from any state P_BUILD runs to its end, and it transacts nothing. -/
theorem buildCodes_packs : (buildCodes s).Packs := by
  obtain ⟨t, e, hsame, -⟩ := buildCodes_ok s
  rw [e, Res.Packs, hsame]
  exact ⟨h.err, h.opened⟩

/-- R225: a byte without a code stops the PACK before anything is written for it. -/
theorem encodeByte_packs (b : Byte) : (encodeByte b s).Packs := by
  unfold encodeByte
  split
  · exact .raise rfl h.opened
  · exact pushBits_packs _ h

theorem encodeTurn_packs : (encodeTurn s).Packs := by
  refine (inRead_packs h).bind fun r t ht => ?_
  cases r with
  | none => exact ht
  | some b => exact (encodeByte_packs ht b).bind fun _ _ hu => ⟨hu.err, hu.opened⟩

theorem passesAgree_packs : (passesAgree s).Packs := by
  unfold passesAgree
  split
  · exact h
  · exact .raise rfl h.opened

theorem encodePass_packs : (encodePass s).Packs := by
  rw [encodePass, encodeLoop_eq_turnLoop]
  exact Res.Lands.bind (turnLoop_packs encodeTurn_packs _ ⟨h.err, h.opened⟩) fun _ _ ht =>
    passesAgree_packs ht

theorem finishPack_lands : (finishPack s).Lands State.Packed State.PackStopped :=
  (flushSink_packs h).bind fun _ _ ht => outClose_lands ht

/-- R31: entering a phase is no error and no transaction. -/
theorem State.Packing.enter (p : Phase) : (s.enter p).Packing :=
  ⟨h.err, h.opened⟩

end

/-- R220, R230: a PACK that is not stopped ends in DONE. -/
theorem packSequence_lands {s : State} (h : s.Packing) :
    (packSequence s).Lands (fun t => t.phase = .done ∧ t.Packed) State.PackStopped :=
  (scanInput_packs (h.enter _)).bind fun _ _ h =>
  (buildCodes_packs (h.enter _)).bind fun _ _ h =>
  (writeFields_packs _ (h.enter _)).bind fun _ _ h =>
  (inRewind_packs (h.enter _)).bind fun _ _ h =>
  (encodePass_packs (h.enter _)).bind fun _ _ h =>
  (finishPack_lands (h.enter _)).bind fun _ _ h => ⟨rfl, h⟩

/-! ### PACK whose rewind fails (R223, R271) -/

/-- What pass 1 can change where it ends (R153). -/
def State.sameButCounts (s t : State) : Prop :=
  t = { s with
    freq := t.freq, origLen := t.origLen, free := t.free
    chan := (s.chan.took s.chan.rest.length).metEnd }

/-- R153: pass 1 reads the input to its end, however many bytes it counts there. -/
theorem scanLoop_ends (bs : List Byte) {s : State} {turns : Nat} (ht : bs.length < turns)
    (hr : s.chan.rest = bs) (hd : s.chan.okFor (bs.length + 1)) :
    ∃ t, scanLoop turns s = .ok () t ∧ s.sameButCounts t := by
  induction bs generalizing s turns with
  | nil =>
    obtain ⟨turns, rfl⟩ : ∃ k, turns = k + 1 := ⟨turns - 1, by simp at ht; omega⟩
    refine ⟨{ s with chan := s.chan.metEnd }, ?_, ?_⟩
    · rw [scanLoop, scanTurn, inRead_eos (hd.draw (Nat.succ_pos _)) hr]
      rfl
    · rw [State.sameButCounts, hr, List.length_nil, Channels.took_zero]
  | cons b bs ih =>
    obtain ⟨turns, rfl⟩ : ∃ k, turns = k + 1 := ⟨turns - 1, by simp at ht; omega⟩
    rw [List.length_cons] at ht hd
    have hrest : (s.chan.took 1).rest = bs := by rw [Channels.took_rest, hr]; rfl
    obtain ⟨t, e, hsame⟩ := ih (s := countLength (countByte b { s with chan := s.chan.took 1 }))
      (turns := turns) (by omega) hrest
      (Channels.okFor_of_draws (c := s.chan) (m := 1) (by rwa [Nat.add_comm 1]) rfl)
    refine ⟨t, ?_, ?_⟩
    · rw [scanLoop, scanTurn, inRead_byte (hd.draw (Nat.succ_pos _)) hr]
      exact e
    · have hchan : t.chan = (s.chan.took s.chan.rest.length).metEnd := by
        have h : t.chan = ((s.chan.took 1).took (s.chan.took 1).rest.length).metEnd :=
          congrArg State.chan hsame
        rw [h, Channels.took_took, hrest, hr, List.length_cons, Nat.add_comm 1]
      rw [State.sameButCounts, ← hchan, hsame]
      rfl

theorem scanInput_ends {s : State} (hd : s.chan.okFor (s.chan.rest.length + 1)) :
    ∃ t, scanInput s = .ok () t ∧ s.sameButCounts t :=
  scanLoop_ends s.chan.rest (by rw [readTurns_eq]; exact Nat.lt_succ_self _) rfl hd

/-- R223: where the InRewind answers Fail, nothing follows the header. -/
theorem packFromHeader_rewindFailed {s : State} {landed : Bool} (hacc : s.skAcc = 0)
    (hn : s.skN = 0) (ho : s.chan.outClosed = false) (hok : s.chan.okFor 269)
    (hfail : s.chan.draws[269]? = some (.fail landed)) :
    ∃ t, packFromHeader s = .stop t ∧ t.phase = .error ∧ t.err = .ioFailure ∧ t.errInfo = 2 ∧
      t.chan.out = s.chan.out ++ headerBytes s.id t.origLen t.len ∧
      t.chan.trace.head? = some (.inRewind .fail) := by
  have hheader : writeHeader (s.enter .pHeader) = .ok () ((s.enter .pHeader).onChan
      (s.chan.wrote (headerBytes s.id s.origLen s.len))) :=
    writeHeader_empty_sink hacc hn ho hok
  have hdraw : (s.chan.wrote (headerBytes s.id s.origLen s.len)).draw = .fail landed :=
    Channels.draw_of_drop hfail (by rw [Channels.wrote_draws, headerBytes_length])
  have hrewind := inRewind_fail (s := ((s.enter .pHeader).onChan
    (s.chan.wrote (headerBytes s.id s.origLen s.len))).enter .pRewind) hdraw
  rw [packFromHeader, hheader, Res.ok_bind, hrewind]
  exact ⟨_, rfl, rfl, rfl, rfl, rfl, rfl⟩

theorem packSequence_rewindFailed {s : State} {landed : Bool} (ho : s.chan.outClosed = false)
    (hok : s.chan.okFor (s.chan.rest.length + 1 + 269))
    (hfail : s.chan.draws[s.chan.rest.length + 1 + 269]? = some (.fail landed)) :
    ∃ t, packSequence (s.startCommand .pCount) = .stop t ∧ t.phase = .error ∧
      t.err = .ioFailure ∧ t.errInfo = 2 ∧
      t.chan.out = s.chan.out ++ headerBytes s.id t.origLen t.len ∧
      t.chan.trace.head? = some (.inRewind .fail) := by
  obtain ⟨c, hscan, hcounts⟩ := scanInput_ends (s := (s.startCommand .pCount).enter .pCount)
    (hok.mono (Nat.le_add_right _ 269))
  obtain ⟨u, hbuild, htables, -⟩ := buildCodes_ok (c.enter .pBuild)
  have hsame : u = { u with
      skAcc := 0, skN := 0, id := s.id, chan := (s.chan.took s.chan.rest.length).metEnd } := by
    rw [htables, hcounts]
    rfl
  have hid : u.id = s.id := (congrArg State.id hsame).trans rfl
  have hchan : u.chan = (s.chan.took s.chan.rest.length).metEnd := congrArg State.chan hsame
  have hdraws : u.chan.draws = s.chan.draws.drop (s.chan.rest.length + 1) := by
    rw [hchan, Channels.metEnd_draws, Channels.took_draws, List.drop_drop]
  obtain ⟨t, e, ht⟩ := packFromHeader_rewindFailed (s := u) (landed := landed)
    (congrArg State.skAcc hsame) (congrArg State.skN hsame) (by rw [hchan]; exact ho)
    (Channels.okFor_of_draws hok hdraws) (by rw [hdraws, List.getElem?_drop, hfail])
  have hout : u.chan.out = s.chan.out := by rw [hchan]; rfl
  rw [hid, hout] at ht
  refine ⟨t, ?_, ht⟩
  rw [packSequence_eq, hscan, Res.ok_bind, hbuild, Res.ok_bind, e]

theorem exec_pack_of_accepts {s : State} (haccepts : s.accepts = true) :
    exec .pack s = (packSequence (s.startCommand .pCount)).outcome :=
  if_pos haccepts

/-- Settles O49: every micro-operation of a PACK leaves it under way, with the output open, or stops it
so; the failed rewind comes after the header, which pass 1 and P_BUILD always reach. -/
theorem packEndsInDoneOrIoFailure : Obligations.PackEndsInDoneOrIoFailure := by
  unfold Obligations.PackEndsInDoneOrIoFailure
  intro s haccepts ho
  rw [exec_pack_of_accepts haccepts]
  obtain ⟨t, hrun, hends⟩ :=
    (packSequence_lands (s := s.startCommand .pCount) ⟨rfl, ho⟩).outcome
  refine ⟨t, hrun, ?_, fun landed hok hfail => ?_⟩
  · rcases hends with ⟨hphase, herr, hclosed⟩ | hstopped
    · exact .inl ⟨hphase, herr, hclosed⟩
    · exact .inr hstopped
  · obtain ⟨t', e, h⟩ := packSequence_rewindFailed ho hok hfail
    rw [e] at hrun
    cases hrun
    exact h

end Sys2Proof.Machine

namespace Sys2Proof.Machine

/-! ### What PACK writes (R232) -/

/-- R171, R184: two blocks with the same counters get the same lengths. -/
theorem Built.len_eq_of_same_freq {s s' t t' : State} (h : Built s t) (h' : Built s' t')
    (hfreq : s.freq = s'.freq) (htotal : totalCount s.freq < 2 ^ 64) : t.len = t'.len := by
  obtain ⟨w, hw, hlen, -⟩ := h.same_freq hfreq htotal
  obtain rfl : w = t' := Host.Outcome.next.inj (hw.runList_eq.symm.trans h'.runList_eq)
  exact hlen

/-- Settles O50: by O47 the output is fixed by ID, ORIG_LEN, LEN and the input, and LEN by the counters,
which hold the input's counts in both blocks. -/
theorem packIsDeterministic : Obligations.PackIsDeterministic := by
  unfold Obligations.PackIsDeterministic
  intro s s' haccepts haccepts' hb hb' hid hinput hl
  obtain ⟨t, hrun, -, -, -, horig, -, -, -, -, -, hout, -, -, -, hfreq, -, ⟨w, hw, hlen, -⟩, -⟩ :=
    packCompletes s haccepts hb hl
  obtain ⟨t', hrun', -, -, -, horig', -, -, -, -, -, hout', -, -, -, hfreq', -, ⟨w', hw', hlen', -⟩,
    -⟩ := packCompletes s' haccepts' hb' (hinput ▸ hl)
  have hsame : t.freq = t'.freq := table_ext fun b =>
    BitVec.eq_of_toNat_eq (by rw [hfreq, hfreq', hinput])
  have htotal : totalCount t.freq < 2 ^ 64 := by
    rw [totalCount, funext hfreq, sum_count_allBytes]
    exact hl
  have hlens : t.len = t'.len := by
    rw [hlen, hlen']
    exact (built_of_runList hw).len_eq_of_same_freq (built_of_runList hw') hsame htotal
  have horigs : t.origLen = t'.origLen :=
    BitVec.eq_of_toNat_eq (by rw [horig, horig', hinput])
  refine ⟨t, t', headerBytes s.id t.origLen t.len ++ payloadBytes t.len s.chan.input, hrun, hrun',
    ?_, ?_⟩
  · rw [hout, List.append_assoc]
  · rw [hout', List.append_assoc, hid, horigs, hlens, hinput]

/-! ### ENC_SYM and ENC_PASS, operation by operation (R224, R225, R227) -/

theorem exec_encSym (b : Byte) (s : State) : exec (.encSym b) s = (encodeByte b s).outcome := rfl

theorem exec_encPass (s : State) : exec .encPass s = (encodePass s).outcome := rfl

/-- R225: a byte without a code raises before anything is written for it. -/
theorem encodeByte_absent {b : Byte} {s : State} (h : entry s.len b = 0) :
    encodeByte b s = .stop (s.raise .byteWithoutCode) :=
  if_pos h

/-- R227: a byte with a code is a WRBITS of its entry. -/
theorem encodeByte_present {b : Byte} {s : State} (h : entry s.len b ≠ 0) :
    encodeByte b s = writeBits (entry s.code b).toNat (entry s.len b).toNat s :=
  if_neg h

/-- Settles O44: LEN decides between the error and the WRBITS of the code. -/
theorem encSymWritesTheCode : Obligations.EncSymWritesTheCode := by
  unfold Obligations.EncSymWritesTheCode
  refine fun b s => ⟨fun habsent => ?_, fun hpresent hs ho hd => ?_⟩
  · rw [exec_encSym, encodeByte_absent habsent]
    rfl
  · rw [exec_encSym, encodeByte_present hpresent, writeBits_ok _ _ hs ho hd, Res.ok_outcome]

/-- Settles O45: `encodePass_ok` says it of ENC_PASS as PACK calls it. -/
theorem encPassWritesThePayload : Obligations.EncPassWritesThePayload := by
  unfold Obligations.EncPassWritesThePayload
  intro s hc hx hs ho hd hn
  obtain ⟨t, hrun, hsame, hemitted, hout, hpending, -, hpos, -⟩ := encodePass_ok hc hx hs ho hd hn
  exact ⟨t, by rw [exec_encPass, hrun, Res.ok_outcome], hsame, hemitted, hout, hpending, hpos⟩

/-! ### ENC_PASS over the bytes before one without a code (R225) -/

/-- A state from which a byte with a code is encoded, its transactions answered Ok. -/
structure State.Encoding (s : State) : Prop where
  coded : Coded s.len s.code
  sink : s.skAcc.toNat < 2 ^ s.skN.val
  opened : s.chan.outClosed = false
  draws : ∀ d ∈ s.chan.draws, d = .ok

theorem State.Encoding.draw {s : State} (h : s.Encoding) : s.chan.draw = .ok :=
  Channels.okAll_draw h.draws

/-- What the turns of pass 2 for the bytes `xs` leave (R224). -/
structure State.EncodedTo (s : State) (xs : List Byte) (t : State) : Prop where
  encoding : t.Encoding
  same : s.sameButEncoding t
  emitted : t.emitted = s.emitted + BitVec.ofNat 64 xs.length
  out : t.chan.out = s.chan.out ++ bytesOfBits (s.pending ++ payloadBits s.len xs)
  pending : t.pending = leftBits (s.pending ++ payloadBits s.len xs)
  inPos : t.chan.inPos = s.chan.inPos + xs.length

theorem State.EncodedTo.len_eq {s t : State} {xs : List Byte} (h : s.EncodedTo xs t) :
    t.len = s.len :=
  (congrArg State.len h.same).trans rfl

theorem State.EncodedTo.rest {s t : State} {xs ys : List Byte} (h : s.EncodedTo xs t)
    (hr : s.chan.rest = xs ++ ys) : t.chan.rest = ys := by
  have hinput : t.chan.input = s.chan.input := (congrArg (·.chan.input) h.same).trans rfl
  rw [Channels.rest, hinput, h.inPos, ← List.drop_drop]
  exact (congrArg (List.drop xs.length) hr).trans List.drop_left

theorem State.EncodedTo.refl {s : State} (h : s.Encoding) : s.EncodedTo [] s where
  encoding := h
  same := rfl
  emitted := (BitVec.add_zero _).symm
  out := by simp [payloadBits, bytesOfBits_short]
  pending := by simp [payloadBits, leftBits_short]
  inPos := rfl

theorem State.EncodedTo.trans {s t u : State} {xs ys : List Byte} (h : s.EncodedTo xs t)
    (h' : t.EncodedTo ys u) : s.EncodedTo (xs ++ ys) u := by
  have hbits : s.pending ++ payloadBits s.len (xs ++ ys)
      = (s.pending ++ payloadBits s.len xs) ++ payloadBits t.len ys := by
    rw [h.len_eq, payloadBits, List.flatMap_append, List.append_assoc]
    rfl
  refine ⟨h'.encoding, State.sameButEncoding_trans h.same h'.same, ?_, ?_, ?_, ?_⟩
  · rw [h'.emitted, h.emitted, BitVec.add_assoc, ← BitVec.ofNat_add, List.length_append]
  · rw [h'.out, h.out, h.pending, hbits, bytesOfBits_append_left (_ ++ _), List.append_assoc]
  · rw [h'.pending, h.pending, hbits, leftBits_append_left (_ ++ _)]
  · rw [h'.inPos, h.inPos, List.length_append, Nat.add_assoc]

/-- R224: one turn of pass 2 over a byte with a code. -/
theorem encodeTurn_present {s : State} {x : Byte} {ys : List Byte} (h : s.Encoding)
    (hr : s.chan.rest = x :: ys) (hx : entry s.len x ≠ 0) (hn : s.emitted.toNat + 1 < 2 ^ 64) :
    ∃ t, encodeTurn s = .ok true t ∧ s.EncodedTo [x] t := by
  have hdraws : ∀ d ∈ (s.chan.took 1).draws, d = .ok := fun d hd =>
    h.draws d (List.mem_of_mem_drop hd)
  have hbyte := encodeByte_ok (s := s.onChan (s.chan.took 1)) h.coded hx h.sink h.opened
    (Channels.okAll_okFor hdraws _)
  have hbits : symbolBits s.len x = payloadBits s.len [x] := by simp [payloadBits]
  refine ⟨{ (s.onChan (s.chan.took 1)).sank (s.pending ++ symbolBits s.len x) with
    emitted := s.emitted + 1 }, ?_, ?_⟩
  · rw [encodeTurn, inRead_byte h.draw hr, Res.ok_bind]
    exact (congrArg (Res.bind · _) hbyte).trans (congrArg (Res.ok true) (countEmitted_fits hn))
  · exact {
      encoding := ⟨h.coded, State.sank_small (s.pending ++ symbolBits s.len x)
        (s.onChan (s.chan.took 1)), h.opened, fun d hd => hdraws d (List.mem_of_mem_drop hd)⟩
      same := rfl
      emitted := rfl
      out := by rw [← hbits]; rfl
      pending := by rw [← hbits]; exact State.sank_pending_bits _ (s.onChan (s.chan.took 1))
      inPos := rfl }

/-- R225: one turn of pass 2 over a byte without a code stops it, the byte read. -/
theorem encodeTurn_absent {s : State} {y : Byte} {ys : List Byte} (hd : s.chan.draw = .ok)
    (hr : s.chan.rest = y :: ys) (hy : entry s.len y = 0) :
    encodeTurn s = .stop ((s.onChan (s.chan.took 1)).raise .byteWithoutCode) := by
  rw [encodeTurn, inRead_byte hd hr, Res.ok_bind]
  exact congrArg (Res.bind · _) (encodeByte_absent (s := s.onChan (s.chan.took 1)) hy)

/-- R224: the loop of ENC_PASS goes through the bytes that have a code, whatever comes behind them. -/
theorem encodeLoop_append (xs : List Byte) {ys : List Byte} (turns : Nat) {s : State}
    (h : s.Encoding) (hx : ∀ x ∈ xs, entry s.len x ≠ 0) (hr : s.chan.rest = xs ++ ys)
    (hn : s.emitted.toNat + xs.length < 2 ^ 64) :
    ∃ t, encodeLoop (xs.length + turns) s = encodeLoop turns t ∧ s.EncodedTo xs t := by
  induction xs generalizing s with
  | nil => exact ⟨s, by rw [List.length_nil, Nat.zero_add], .refl h⟩
  | cons x xs ih =>
    rw [List.length_cons] at hn
    obtain ⟨u, hturn, hu⟩ := encodeTurn_present h hr (hx x List.mem_cons_self) (by omega)
    have hemitted : u.emitted.toNat = s.emitted.toNat + 1 := by
      rw [hu.emitted]
      exact count_toNat_add_one (by omega)
    obtain ⟨t, hloop, ht⟩ := ih hu.encoding
      (fun z hz => by rw [hu.len_eq]; exact hx z (List.mem_cons_of_mem _ hz))
      (hu.rest (xs := [x]) hr) (by omega)
    refine ⟨t, ?_, hu.trans ht⟩
    rw [List.length_cons, Nat.add_right_comm, encodeLoop, hturn, Res.ok_bind]
    exact hloop

/-- R225: ENC_PASS stops at the first byte without a code, the bytes before it encoded. -/
theorem encodePass_absent {s : State} {xs ys : List Byte} {y : Byte} (h : s.Encoding)
    (hx : ∀ x ∈ xs, entry s.len x ≠ 0) (hn : xs.length < 2 ^ 64)
    (hr : s.chan.rest = xs ++ y :: ys) (hy : entry s.len y = 0) :
    ∃ t, s.emittedClear.EncodedTo xs t ∧
      encodePass s = .stop ((t.onChan (t.chan.took 1)).raise .byteWithoutCode) := by
  have hturns : readTurns s.emittedClear = xs.length + (ys.length + 1 + 1) := by
    rw [readTurns_eq]
    show s.chan.rest.length + 1 = _
    rw [hr, List.length_append, List.length_cons, Nat.add_assoc]
  obtain ⟨t, hloop, ht⟩ := encodeLoop_append xs (ys.length + 1 + 1) (s := s.emittedClear)
    ⟨h.coded, h.sink, h.opened, h.draws⟩ hx hr
    (by show (0 : Count).toNat + xs.length < _; exact (Nat.zero_add _).trans_lt hn)
  refine ⟨t, ht, ?_⟩
  rw [encodePass, hturns, hloop, encodeLoop, encodeTurn_absent ht.encoding.draw (ht.rest hr)
    (by rw [ht.len_eq]; exact hy)]
  rfl

/-- R225: ENC_PASS raises at the end of an input of another length than ORIG_LEN. -/
theorem encodePass_otherCount {s : State} (h : s.Encoding)
    (hx : ∀ x ∈ s.chan.rest, entry s.len x ≠ 0) (hn : s.chan.rest.length < 2 ^ 64)
    (hcount : s.chan.rest.length ≠ s.origLen.toNat) :
    ∃ t : State, encodePass s = .stop (t.raise .passesDiffer) ∧
      t.emitted.toNat = s.chan.rest.length ∧
      t.chan.out = s.chan.out ++ bytesOfBits (s.pending ++ payloadBits s.len s.chan.rest) := by
  obtain ⟨t, hloop, hsame, hemitted, hout, -⟩ := encodeLoop_ok s.chan.rest
    (turns := readTurns s.emittedClear) (s := s.emittedClear) h.coded hx rfl
    (by rw [readTurns_eq]; exact Nat.lt_succ_self _) h.sink h.opened h.draws
    (by show (0 : Count).toNat + s.chan.rest.length < _; exact (Nat.zero_add _).trans_lt hn)
  have hnat : t.emitted.toNat = s.chan.rest.length := by
    have hzero : t.emitted = 0 + BitVec.ofNat 64 s.chan.rest.length := hemitted
    rw [hzero, zero_add, BitVec.toNat_ofNat, Nat.mod_eq_of_lt hn]
  have horig : t.origLen = s.origLen := (congrArg State.origLen hsame).trans rfl
  have hdiffer : t.emitted ≠ t.origLen := fun e =>
    hcount (by rw [← hnat, e, horig])
  refine ⟨t, ?_, hnat, hout⟩
  rw [encodePass, hloop, Res.ok_bind]
  exact if_neg hdiffer

/-- Settles O46: the loop of pass 2 stops at the byte without a code, or comes to the end, where EMITTED
is the number of bytes it read. -/
theorem encPassDetectsAbsentByteOrOtherCount :
    Obligations.EncPassDetectsAbsentByteOrOtherCount := by
  unfold Obligations.EncPassDetectsAbsentByteOrOtherCount
  intro s xs hc hx hn hs ho hd
  have h : s.Encoding := ⟨hc, hs, ho, hd⟩
  refine ⟨fun y ys hr hy => ?_, ?_⟩
  · obtain ⟨t, ht, hrun⟩ := encodePass_absent h hx hn hr hy
    rw [exec_encPass, hrun]
    exact ⟨_, rfl, rfl, rfl, rfl, ht.out, congrArg (· + 1) ht.inPos⟩
  · rintro rfl hcount
    obtain ⟨t, hrun, hemitted, hout⟩ := encodePass_otherCount h hx hn hcount
    rw [exec_encPass, hrun]
    exact ⟨_, rfl, rfl, rfl, rfl, hout, hemitted⟩

end Sys2Proof.Machine

namespace Sys2Proof.Machine

/-! ### DEC_SYM, operation by operation (R242, R248, R249) -/

theorem exec_decSym (s : State) : exec .decSym s = (decodeSymbol s).outcome := rfl

/-- R15: the first bits of a symbol's code are its code, cut to as many bits. -/
theorem Coded.cut {len : Table (BitVec 8)} {code : Table Code} (hc : Coded len code) {x : Byte}
    (hx : entry len x ≠ 0) {pre rest : List Bool} (h : symbolBits len x = pre ++ rest) :
    (entry code x).toNat / 2 ^ rest.length = bitsValue 0 pre := by
  have hcode : (entry code x).toNat = bitsValue 0 (pre ++ rest) := by
    rw [← h, symbolBits, bitsValue_codeBits, ← hc.code x hx, Nat.mod_eq_of_lt (hc.lt hx),
      Nat.zero_mul, Nat.zero_add]
  rw [hcode, bitsValue_append, bitsValue_eq, Nat.mul_comm, Nat.mul_add_div (Nat.two_pow_pos _),
    Nat.div_eq_of_lt (bitsValue_lt rest), Nat.add_zero]

/-- R242: the walker is at the node that the bits `pre` lead to, above the leaf of `x`, whose code goes
on with the bits `rest`. -/
structure State.Above (x : Byte) (pre rest : List Bool) (s : State) : Prop where
  coded : Coded s.len s.code
  has_code : entry s.len x ≠ 0
  path : symbolBits s.len x = pre ++ rest
  inner : rest ≠ []
  pfx : s.pfx.toNat = bitsValue 0 pre
  pfxLen : s.pfxLen.val = pre.length

theorem State.Above.length {x : Byte} {pre rest : List Bool} {s : State} (h : s.Above x pre rest) :
    (entry s.len x).toNat = pre.length + rest.length := by
  rw [← symbolBits_length, h.path, List.length_append]

/-- R242: the walker starts above every leaf. -/
theorem State.above_atRoot {x : Byte} {s : State} (hc : Coded s.len s.code)
    (hx : entry s.len x ≠ 0) : s.atRoot.Above x [] (symbolBits s.len x) where
  coded := hc
  has_code := hx
  path := rfl
  inner := by
    have hpos := (present_length_range (mem_present.mpr ⟨hx, rfl⟩)).1
    rw [← symbolBits_length] at hpos
    exact List.ne_nil_of_length_pos hpos
  pfx := rfl
  pfxLen := rfl

/-- R242: an edge along the code of `x` leads to a node above its leaf, while bits of the code are
left. -/
theorem State.Above.takeEdge {x : Byte} {pre rest : List Bool} {b : Bool} {s : State}
    (h : s.Above x pre (b :: rest)) (hr : rest ≠ []) :
    (takeEdge b s).Above x (pre ++ [b]) rest := by
  have hlen := h.length
  rw [List.length_cons] at hlen
  have hlt := (entry s.len x).isLt
  have hpfx : s.pfx.toNat < 2 ^ 254 := by
    rw [h.pfx]
    exact (bitsValue_lt pre).trans_le (Nat.pow_le_pow_right (by decide) (by omega))
  refine ⟨h.coded, h.has_code, by rw [List.append_assoc]; exact h.path, hr, ?_, ?_⟩
  · rw [takeEdge_pfx b hpfx, h.pfx, bitsValue_append]
    rfl
  · have hdepth := h.pfxLen
    rw [takeEdge_pfxLen b (by omega), hdepth, List.length_append]
    rfl

/-- R190: the node's bit-code is the code of `x`, cut to the walker's depth. -/
theorem State.Above.cut {x : Byte} {pre rest : List Bool} {s : State} (h : s.Above x pre rest) :
    s.pfxLen.val < (entry s.len x).toNat ∧
      (entry s.code x).toNat / 2 ^ ((entry s.len x).toNat - s.pfxLen.val) = s.pfx.toNat := by
  have hpos := List.length_pos_of_ne_nil h.inner
  rw [h.length, h.pfxLen, h.pfx, Nat.add_sub_cancel_left]
  exact ⟨by omega, h.coded.cut h.has_code h.path⟩

/-- R54: where no symbol has the code, DEC gives none. -/
theorem decSymbol_eq_none {v L : Nat} {s : State} (h : codedAs s.len s.code v L = []) :
    decSymbol v L s = none := by
  rw [decSymbol, h]

/-- R54, R190: at a node above a leaf DEC meets no symbol. -/
theorem State.Above.decSymbol {x : Byte} {pre rest : List Bool} {s : State}
    (h : s.Above x pre rest) : decSymbol s.pfx.toNat s.pfxLen.val s = none := by
  obtain ⟨hlt, hcut⟩ := h.cut
  exact decSymbol_eq_none (codedAs_proper h.coded h.has_code hlt hcut)

/-- R54: and it is LIVE. -/
theorem State.Above.live {x : Byte} {pre rest : List Bool} {s : State} (h : s.Above x pre rest) :
    live s.len s.code s.pfx.toNat s.pfxLen.val = true :=
  live_iff.mpr ⟨x, h.has_code, h.cut⟩

/-- R242: a bit that does not end the code of `x` is an edge, after which the walk goes on. -/
theorem walkBits_edge {x : Byte} {pre rest : List Bool} {b : Bool} {levels : Nat} {s t : State}
    (h : t.Above x pre (b :: rest)) (hr : rest ≠ []) (hread : readBit s = .ok (some b) t) :
    walkBits (levels + 1) s = walkBits levels (takeEdge b t) := by
  have hedge := h.takeEdge hr
  rw [walkBits, hread, Res.ok_bind]
  simp only [hedge.decSymbol, hedge.live, if_true]

/-- R136: BitSource does not move the walker. -/
theorem State.Above.sourced {x : Byte} {pre rest : List Bool} {s : State} (h : s.Above x pre rest)
    (n : Nat) : (s.sourced n).Above x pre rest :=
  ⟨h.coded, h.has_code, h.path, h.inner, h.pfx, h.pfxLen⟩

/-- R248: where the input ends on the way to the leaf of `x`, the walk ends above it. -/
theorem walkBits_truncated {x : Byte} (bits : List Bool) {pre rest : List Bool} (levels : Nat)
    {s : State} (h : s.Above x pre (bits ++ rest)) (hr : rest ≠ []) (hs : s.bitStream = bits)
    (hd : s.chan.okFor (s.chan.rest.length + 1)) :
    ∃ u : State, walkBits (bits.length + levels + 1) s
        = .stop ((u.onChan u.chan.metEnd).raise .truncated) ∧
      u.Above x (pre ++ bits) rest ∧
      u = { s.sourced bits.length with pfx := u.pfx, pfxLen := u.pfxLen } := by
  induction bits generalizing pre s with
  | nil =>
    refine ⟨s, ?_, by rwa [List.append_nil], by rw [List.length_nil, State.sourced_zero]⟩
    rw [walkBits, readBit_eos hs (hd.draw (Nat.succ_pos _))]
    rfl
  | cons b bits ih =>
    obtain ⟨hread, hstream⟩ := readBit_ok hs fun _ => hd.draw (Nat.succ_pos _)
    have hmore : bits ++ rest ≠ [] := List.append_ne_nil_of_right_ne_nil _ hr
    have hfetch : s.fetches 1 ≤ s.chan.rest.length := by
      have hlen := congrArg List.length hs
      rw [State.bitStream_length, List.length_cons] at hlen
      unfold State.fetches
      omega
    have hrest : (s.sourced 1).chan.rest.length = s.chan.rest.length - s.fetches 1 := by
      simp [State.sourced]
    obtain ⟨u, hrun, habove, hframe⟩ := ih (s := takeEdge b (s.sourced 1))
      ((h.sourced 1).takeEdge hmore) hstream
      (Channels.okFor_of_draws (c := s.chan) (m := s.fetches 1)
        (hd.mono (by show _ + ((s.sourced 1).chan.rest.length + 1) ≤ _; omega)) rfl)
    refine ⟨u, ?_, ?_, ?_⟩
    · rw [List.length_cons, Nat.add_right_comm bits.length, walkBits_edge (h.sourced 1) hmore hread]
      exact hrun
    · rwa [List.append_assoc] at habove
    · rw [List.length_cons, Nat.add_comm, ← State.sourced_sourced]
      exact hframe

/-- R249: in a one-symbol table nothing has the code of one 1 bit, and no code begins with it. -/
theorem single_one_lost {len : Table (BitVec 8)} {code : Table Code} {x : Byte}
    (hc : Coded len code) (hp : present len = [(x, 1)]) :
    codedAs len code 1 1 = [] ∧ live len code 1 1 = false := by
  have honly : ∀ y, entry len y ≠ 0 → y = x ∧ (entry len y).toNat = 1 := by
    intro y hy
    have hmem : (y, (entry len y).toNat) ∈ present len := mem_present.mpr ⟨hy, rfl⟩
    rw [hp, List.mem_singleton] at hmem
    exact Prod.mk.inj hmem
  refine ⟨List.eq_nil_iff_forall_not_mem.mpr fun y hy => ?_, Bool.eq_false_iff.mpr fun h => ?_⟩
  · obtain ⟨hpresent, -, hone⟩ := mem_codedAs.mp hy
    obtain ⟨rfl, -⟩ := honly y hpresent
    have hzero := hc.cut hpresent (pre := [false]) (rest := []) (symbolBits_single hp)
    rw [List.length_nil, pow_zero, Nat.div_one, hone] at hzero
    cases hzero
  · obtain ⟨y, hpresent, hlong, -⟩ := live_iff.mp h
    have hone := (honly y hpresent).2
    omega

/-- R242: an edge to a bit-code that no symbol has and no code begins with. -/
theorem walkBits_lost {b : Bool} {levels : Nat} {s t u : State}
    (hread : readBit s = .ok (some b) t) (hedge : takeEdge b t = u)
    (hcoded : codedAs u.len u.code u.pfx.toNat u.pfxLen.val = [])
    (hlive : live u.len u.code u.pfx.toNat u.pfxLen.val = false) :
    walkBits (levels + 1) s = .stop (u.raise .noSuchPath) := by
  rw [walkBits, hread, Res.ok_bind]
  simp only [hedge, decSymbol_eq_none hcoded, hlive]
  rfl

/-- R242: the edge 1 from the root. -/
theorem takeEdge_atRoot_true (s : State) :
    takeEdge true s.atRoot = { s with pfx := 1, pfxLen := 1 } := by
  have hpfx : (0 : Code) <<< 1 ||| BitVec.setWidth 255 (BitVec.ofBool true) = 1 := by decide
  rw [← hpfx]
  rfl

/-- R249: the bit 1 in a one-symbol table. -/
theorem decodeSymbol_lost {s : State} {x : Byte} {tail : List Bool} (hc : Coded s.len s.code)
    (hp : present s.len = [(x, 1)]) (hs : s.bitStream = true :: tail)
    (hd : s.chan.okFor (s.fetches 1)) :
    decodeSymbol s = .stop (State.raise .noSuchPath { s.sourced 1 with pfx := 1, pfxLen := 1 }) := by
  obtain ⟨hcoded, hlive⟩ := single_one_lost hc hp
  have hread := (readBit_ok (s := s.atRoot) hs fun h => hd.draw (by
    have hn : s.srN.val = 0 := congrArg Fin.val h
    rw [State.fetches, hn]
    decide)).1
  exact walkBits_lost hread (takeEdge_atRoot_true (s.sourced 1)) hcoded hlive

/-- Settles O52: `decodeSymbol_ok` says it of DEC_SYM as DEC_LOOP calls it; the bit 1 is no path of a
one-symbol table. -/
theorem decSymDecodesOneSymbol : Obligations.DecSymDecodesOneSymbol := by
  unfold Obligations.DecSymDecodesOneSymbol
  intro s x tail hc ho
  refine ⟨fun hx hs hd => ?_, fun hp hs hd => ?_⟩
  · obtain ⟨hrun, hstream⟩ := decodeSymbol_ok hc hx hs ho hd
    exact ⟨by rw [exec_decSym, hrun, Res.ok_outcome], hstream⟩
  · rw [exec_decSym, decodeSymbol_lost hc hp hs hd]
    rfl

/-- Settles O53: the walk takes every bit that remains, and with them every byte, before it meets the
end above the leaf of `x`. -/
theorem decSymReportsTruncation : Obligations.DecSymReportsTruncation := by
  unfold Obligations.DecSymReportsTruncation
  intro s x hc hx hprefix hne hd
  obtain ⟨rest, hrest⟩ := hprefix
  have hinner : rest ≠ [] := by
    rintro rfl
    exact hne ((List.append_nil _).symm.trans hrest)
  have hshort : s.bitStream.length < 255 := by
    have hlen := congrArg List.length hrest
    rw [List.length_append, symbolBits_length] at hlen
    have hpos := List.length_pos_of_ne_nil hinner
    have hlt := (entry s.len x).isLt
    omega
  obtain ⟨levels, hlevels⟩ := Nat.exists_eq_add_of_lt hshort
  have habove : s.atRoot.Above x [] (s.bitStream ++ rest) := hrest ▸ State.above_atRoot hc hx
  obtain ⟨u, hrun, hu, hframe⟩ := walkBits_truncated s.bitStream levels habove hinner rfl hd
  have hsource : u.srN.val = 0 := by
    rw [hframe]
    show (s.sourced s.bitStream.length).srN.val = 0
    rw [State.sourced_srN, State.fetches_bitStream_length, State.bitStream_length, Nat.sub_self]
  have hchan : u.chan = s.chan.took s.chan.rest.length :=
    (congrArg State.chan hframe).trans (congrArg s.chan.took s.fetches_bitStream_length)
  refine ⟨(u.onChan u.chan.metEnd).raise .truncated, ?_, Fin.ext hsource, hu.pfxLen, hu.pfx, ?_⟩
  · rw [exec_decSym, decodeSymbol, hlevels, hrun, Res.stop_outcome]
  · rw [← hchan, hframe]
    rfl

end Sys2Proof.Machine

namespace Sys2Proof.Machine

/-! ### DEC_LOOP: what it takes from BitSource (R244, R245, R247) -/

/-- R242, R244: what a turn of the decoding loop for `x` leaves. -/
def State.decodedOne (x : Byte) (s : State) : State :=
  { s.decoded x (entry s.len x).toNat with emitted := s.emitted + 1 }

/-- R244: what the turns of the decoding loop for these symbols leave. -/
def State.decodedAll (xs : List Byte) (s : State) : State :=
  xs.foldl (fun s x => s.decodedOne x) s

theorem payloadBits_cons (len : Table (BitVec 8)) (x : Byte) (xs : List Byte) :
    payloadBits len (x :: xs) = symbolBits len x ++ payloadBits len xs :=
  List.flatMap_cons

/-- R244: the loop makes a turn for each symbol of the payload, and ends. -/
theorem decodeLoopFrom_payload (xs : List Byte) {tail : List Bool} (turns : Nat) {s : State}
    (hc : Coded s.len s.code) (hx : ∀ x ∈ xs, entry s.len x ≠ 0)
    (hs : s.bitStream = payloadBits s.len xs ++ tail)
    (hn : s.emitted.toNat + xs.length = s.origLen.toNat) (ho : s.chan.outClosed = false)
    (hd : ∀ d ∈ s.chan.draws, d = .ok) :
    decodeLoopFrom (xs.length + turns + 1) s = .ok () (s.decodedAll xs) := by
  induction xs generalizing s with
  | nil =>
    have hdone : ¬ s.emitted.toNat < s.origLen.toNat := by rw [← hn]; exact lt_irrefl _
    rw [decodeLoopFrom, decodeTurn, if_neg hdone]
    rfl
  | cons x xs ih =>
    rw [List.length_cons] at hn
    rw [payloadBits_cons, List.append_assoc] at hs
    have hfits : s.emitted.toNat + 1 < 2 ^ 64 := by have := s.origLen.isLt; omega
    obtain ⟨hrun, hstream⟩ := decodeSymbol_ok hc (hx x List.mem_cons_self) hs ho
      (Channels.okAll_okFor hd _)
    have hturn : decodeTurn s = .ok true (s.decodedOne x) := by
      rw [decodeTurn, if_pos (by omega), hrun]
      exact congrArg (Res.ok true) (countEmitted_fits hfits)
    rw [List.length_cons, Nat.add_right_comm xs.length, decodeLoopFrom, hturn]
    refine ih hc (fun y hy => hx y (List.mem_cons_of_mem _ hy)) hstream ?_ ho
      fun d hm => hd d (List.mem_of_mem_drop (List.mem_of_mem_drop hm))
    show (s.emitted + 1).toNat + xs.length = s.origLen.toNat
    rw [count_toNat_add_one hfits]
    omega

/-- `s` after DEC_LOOP took `n` bits from BitSource and wrote `xs`; the walker, the draws left and the
transactions made are those of `t`. -/
def State.decodedFrame (n : Nat) (xs : List Byte) (s t : State) : State :=
  { s.sourced n with
    pfx := t.pfx, pfxLen := t.pfxLen, emitted := s.emitted + BitVec.ofNat 64 xs.length
    chan := { (s.sourced n).chan with
      out := s.chan.out ++ xs, draws := t.chan.draws, trace := t.chan.trace } }

/-- R244: the frames of a turn and of the turns after it are one frame. -/
theorem State.decodedFrame_decodedOne (x : Byte) (n : Nat) (xs : List Byte) (s t : State) :
    (s.decodedOne x).decodedFrame n xs t
      = s.decodedFrame ((entry s.len x).toNat + n) (x :: xs) t := by
  have hemitted : s.emitted + 1 + BitVec.ofNat 64 xs.length
      = s.emitted + BitVec.ofNat 64 (x :: xs).length := by
    rw [BitVec.add_assoc, List.length_cons, Nat.add_comm, BitVec.ofNat_add]
    rfl
  have hout : s.chan.out ++ [x] ++ xs = s.chan.out ++ x :: xs := (List.append_cons _ _ _).symm
  rw [State.decodedFrame, State.decodedFrame, ← State.sourced_sourced, ← hemitted, ← hout]
  rfl

/-- R245, R247: the loop takes the bits of the payload, and so no byte it needs no bit of. -/
theorem State.decodedAll_eq (xs : List Byte) (s : State) :
    s.decodedAll xs
      = s.decodedFrame (payloadBits s.len xs).length xs (s.decodedAll xs) := by
  induction xs generalizing s with
  | nil => simp [State.decodedAll, State.decodedFrame, payloadBits, State.sourced_zero]
  | cons x xs ih =>
    rw [payloadBits_cons, List.length_append, symbolBits_length, ← State.decodedFrame_decodedOne]
    exact ih (s.decodedOne x)

/-- R242: the walker is back at the root. -/
theorem State.decodedAll_atRoot (xs : List Byte) {s : State} (h : s.atRoot = s) :
    (s.decodedAll xs).atRoot = s.decodedAll xs := by
  induction xs generalizing s with
  | nil => exact h
  | cons x xs ih => exact ih rfl

theorem exec_decLoop (s : State) : exec .decLoop s = (decodeAll s).outcome := rfl

/-- R244: DEC_LOOP has a turn for each bit, so for each symbol of a payload, and one more. -/
theorem decodeAll_payload {xs : List Byte} {tail : List Bool} {s : State} (hc : Coded s.len s.code)
    (hx : ∀ x ∈ xs, entry s.len x ≠ 0) (hs : s.bitStream = payloadBits s.len xs ++ tail)
    (hn : s.origLen.toNat = xs.length) (ho : s.chan.outClosed = false)
    (hd : ∀ d ∈ s.chan.draws, d = .ok) :
    decodeAll s = .ok () (s.emittedClear.decodedAll xs) := by
  have hbits : xs.length ≤ bitsLeft s.emittedClear := by
    rw [bitsLeft_eq]
    show _ ≤ s.bitStream.length
    rw [hs, List.length_append]
    exact (payloadBits_length_ge hx).trans (Nat.le_add_right _ _)
  obtain ⟨turns, hturns⟩ := Nat.exists_eq_add_of_le hbits
  rw [decodeAll, hturns]
  exact decodeLoopFrom_payload xs turns hc hx hs ((Nat.zero_add _).trans hn.symm) ho hd

/-- R245: after the bits of the payload come those behind it. -/
theorem State.sourced_payload {n : Nat} {bits tail : List Bool} {s : State}
    (hs : s.bitStream = bits ++ tail) (hn : bits.length = n) (hd : ∀ d ∈ s.chan.draws, d = .ok) :
    (s.sourced n).bitStream = tail := by
  have hle : n ≤ s.bitStream.length := by
    rw [hs, List.length_append, hn]
    exact Nat.le_add_right _ _
  rw [(readBitsFrom_ok 0 n hle (Channels.okAll_okFor hd _)).2, hs, List.drop_left' hn]

/-- R244: EMITTED after `xs` were decoded from its start. -/
theorem emittedClear_add {s : State} {n : Nat} (hn : s.origLen.toNat = n) :
    s.emittedClear.emitted + BitVec.ofNat 64 n = s.origLen := by
  rw [← hn, BitVec.ofNat_toNat, BitVec.setWidth_eq]
  exact BitVec.zero_add _

/-- Settles O55: the frame of the loop's turns says what it takes and what it leaves. -/
theorem decLoopDecodesThePayload : Obligations.DecLoopDecodesThePayload := by
  unfold Obligations.DecLoopDecodesThePayload
  intro s xs tail hc hx hs hn ho hd
  have hrun := decodeAll_payload hc hx hs hn ho hd
  have hframe := s.emittedClear.decodedAll_eq xs
  generalize s.emittedClear.decodedAll xs = t at hrun hframe
  refine ⟨t, by rw [exec_decLoop, hrun, Res.ok_outcome], ?_,
    (congrArg State.emitted hframe).trans (emittedClear_add hn), congrArg (·.chan.out) hframe, ?_,
    congrArg (·.chan.inPos) hframe⟩
  · rw [State.sameButDecoding, hframe]
    rfl
  · exact (congrArg State.bitStream hframe).trans (State.sourced_payload hs rfl hd)

end Sys2Proof.Machine

namespace Sys2Proof.Machine

/-! ### However its transactions are answered, UNPACK ends or waits (R241, R263, R315) -/

/-- An operation that, where it runs to its end, ends in a state that meets `P`, too. -/
theorem Res.Lands.and {α : Type} {R P Q : State → Prop} {x : Res α} (hx : x.Lands R Q)
    (hP : ∀ a t, x = .ok a t → P t) : x.Lands (fun t => R t ∧ P t) Q := by
  cases x with
  | ok a t => exact ⟨hx, hP a t rfl⟩
  | stop t => exact hx
  | fault e => exact hx
  | refuse r => exact hx

/-- An UNPACK under way: nothing was raised, the output is open, and `K` holds of OUT, EMITTED and
ORIG_LEN, which BitSource leaves alone. -/
structure State.Unpacking (K : List Byte → Count → Count → Prop) (s : State) : Prop where
  err : s.err = .none
  opened : s.chan.outClosed = false
  counts : K s.chan.out s.emitted s.origLen

/-- R241: before the decoding loop nothing is written. -/
def NothingWritten (o : List Byte) : List Byte → Count → Count → Prop :=
  fun out _ _ => out = o

/-- R244: the condition of the decoding loop, a symbol is due. -/
def SymbolDue : List Byte → Count → Count → Prop :=
  fun _ emitted origLen => emitted.toNat < origLen.toNat

/-- R244: between the turns of the decoding loop. -/
def WithinLength : List Byte → Count → Count → Prop :=
  fun _ emitted origLen => emitted.toNat ≤ origLen.toNat

/-- R246: after the decoding loop. -/
def AllEmitted : List Byte → Count → Count → Prop :=
  fun _ emitted origLen => emitted = origLen

/-- R263: the errors of an UNPACK whose output held `o` before it. -/
def State.UnpackError (o : List Byte) (t : State) : Prop :=
  (t.err = .ioFailure ∧ (t.errInfo = 1 ∨ t.errInfo = 3 ∨ t.errInfo = 4)) ∨
  (t.err = .formatError ∧ 1 ≤ t.errInfo.toNat ∧ t.errInfo.toNat ≤ 7 ∧ t.chan.out = o) ∨
  (t.err = .formatError ∧ t.errInfo = 8) ∨
  (t.err = .truncatedData ∧ t.errInfo = 1 ∧ t.emitted.toNat < t.origLen.toNat)

/-- R263, R315: an UNPACK that stopped before the output was closed: at an error, or at a transaction
that is never answered. -/
def State.UnpackStopped (o : List Byte) (t : State) : Prop :=
  (t.phase = .error ∧ t.chan.outClosed = false ∧ t.UnpackError o) ∨
  (t.hung = true ∧ t.chan.outClosed = false)

/-- A part of an UNPACK: where it does not stop the UNPACK it leaves it under way with `K`. -/
abbrev Res.Unpacks {α : Type} (o : List Byte) (K : List Byte → Count → Count → Prop)
    (x : Res α) : Prop :=
  x.Lands (State.Unpacking K) (State.UnpackStopped o)

/-- R262: the sub-causes of IoFailure that a transaction of an UNPACK can have. -/
theorem State.UnpackStopped.ioFailure {o : List Byte} {c : Cause} {s : State}
    (hc : c = .readFailed ∨ c = .writeFailed ∨ c = .closeFailed)
    (ho : s.chan.outClosed = false) : (s.raise c).UnpackStopped o := by
  refine .inl ⟨rfl, ho, .inl ?_⟩
  rcases hc with rfl | rfl | rfl
  · exact ⟨rfl, .inl rfl⟩
  · exact ⟨rfl, .inr (.inl rfl)⟩
  · exact ⟨rfl, .inr (.inr rfl)⟩

/-- R262: the sub-causes of FormatError in the header and the table. -/
abbrev Cause.OfHeader (c : Cause) : Prop :=
  c.kind = .formatError ∧ 1 ≤ c.info.toNat ∧ c.info.toNat ≤ 7

theorem State.UnpackStopped.header {o : List Byte} {c : Cause} {s : State} (hc : c.OfHeader)
    (h : s.Unpacking (NothingWritten o)) : (s.raise c).UnpackStopped o :=
  have ⟨hkind, hlow, hhigh⟩ := hc
  .inl ⟨rfl, h.opened, .inr (.inl ⟨hkind, hlow, hhigh, h.counts⟩)⟩

theorem State.UnpackStopped.hang {o : List Byte} {s : State} (ho : s.chan.outClosed = false) :
    s.hang.UnpackStopped o :=
  .inr ⟨rfl, ho⟩

/-! ### The transactions of an UNPACK -/

section
variable {o : List Byte} {K : List Byte → Count → Count → Prop} {s : State} (h : s.Unpacking K)
include h

theorem inRead_unpacks : (inRead s).Unpacks o K := by
  rcases inRead_cases s with ⟨b, bs, -, e⟩ | ⟨-, e⟩ | e | e
  all_goals rw [e]
  · exact ⟨h.err, h.opened, h.counts⟩
  · exact ⟨h.err, h.opened, h.counts⟩
  · exact .ioFailure (.inl rfl) h.opened
  · exact .hang h.opened

theorem readBit_unpacks : (readBit s).Unpacks o K := by
  rw [readBit]
  split
  · refine (inRead_unpacks h).bind fun r t ht => ?_
    cases r with
    | none => exact ht
    | some b => exact ⟨ht.err, ht.opened, ht.counts⟩
  · exact ⟨h.err, h.opened, h.counts⟩

/-- R242: the OutWrite of a decoded symbol, after which EMITTED and ORIG_LEN are as before. -/
theorem emitSymbol_unpacks (b : Byte) (hK : ∀ out, K out s.emitted s.origLen) :
    (emitSymbol b s).Unpacks o K := by
  rw [emitSymbol]
  rcases outWrite_cases b s with ⟨hclosed, -⟩ | ⟨-, e | ⟨c, e, -, -, -, hc, -, -⟩ | e⟩
  · exact absurd hclosed (by rw [h.opened]; decide)
  all_goals rw [e]
  · exact ⟨h.err, h.opened, hK _⟩
  · exact .ioFailure (.inr (.inl rfl)) (hc.trans h.opened)
  · exact .hang h.opened

end

theorem readBitsFrom_unpacks {o : List Byte} {K : List Byte → Count → Count → Prop} (r n : Nat)
    {s : State} (h : s.Unpacking K) : (readBitsFrom r n s).Unpacks o K := by
  induction n generalizing r s with
  | zero => exact h
  | succ n ih =>
    refine (readBit_unpacks h).bind fun b t ht => ?_
    cases b with
    | none => exact ht
    | some b => exact ih _ ht

/-- Everything an OutClose on an open output can do (R66, R67, R315). -/
theorem outClose_cases {s : State} (ho : s.chan.outClosed = false) :
    (∃ c : Channels, outClose s = .ok () (s.onChan c) ∧ c.outClosed = true) ∨
    ∃ c : Channels, (outClose s = .stop ((s.onChan c).raise .closeFailed) ∨
      outClose s = .stop (s.onChan c).hang) ∧ c.outClosed = false := by
  cases hd : s.chan.draw with
  | ok => exact .inl ⟨_, outClose_ok ho hd, rfl⟩
  | fail landed => exact .inr ⟨_, .inl (outClose_fail ho hd), ho⟩
  | never =>
    refine .inr ⟨s.chan.made (.outClose .never), .inr ?_, ho⟩
    rw [outClose, if_neg (by rw [ho]; decide)]
    simp only [Channels.outClose, hd, afterAck]
    rfl

/-- R246: the OutClose is the end of an UNPACK, or stops it with the output still open. -/
theorem outClose_unpacks {o : List Byte} {s : State} (h : s.Unpacking AllEmitted) :
    (outClose s).Lands (fun t => t.err = .none ∧ t.chan.outClosed = true ∧ t.emitted = t.origLen)
      (State.UnpackStopped o) := by
  rcases outClose_cases h.opened with ⟨c, e, hc⟩ | ⟨c, e | e, hc⟩
  all_goals rw [e]
  · exact ⟨h.err, hc, h.counts⟩
  · exact .ioFailure (.inr (.inr rfl)) hc
  · exact .hang hc

/-! ### The header and the table (R202 to R207) -/

section
variable {o : List Byte} {s : State} (h : s.Unpacking (NothingWritten o))
include h

theorem readField_unpacks (n : Nat) : (readField n s).Unpacks o (NothingWritten o) := by
  refine (readBitsFrom_unpacks 0 n h).bind fun r t ht => ?_
  cases r with
  | none => exact .header (by decide) ht
  | some v => exact ht

theorem readMagic_unpacks : (readMagic s).Unpacks o (NothingWritten o) := by
  refine (readField_unpacks h 32).bind fun m t ht => ?_
  split
  · exact ht
  · exact .header (by decide) ht

theorem readVersion_unpacks : (readVersion s).Unpacks o (NothingWritten o) := by
  refine (readField_unpacks h 8).bind fun v t ht => ?_
  split
  · exact ht
  · exact .header (by decide) ht

theorem readOrigLen_unpacks : (readOrigLen s).Unpacks o (NothingWritten o) :=
  (readField_unpacks h 64).bind fun _ _ ht => ⟨ht.err, ht.opened, ht.counts⟩

end

theorem readLens_unpacks {o : List Byte} (bs : List Byte) {s : State}
    (h : s.Unpacking (NothingWritten o)) : (readLens bs s).Unpacks o (NothingWritten o) := by
  induction bs generalizing s with
  | nil => exact h
  | cons b bs ih =>
    exact (readField_unpacks h 8).bind fun _ _ ht => ih ⟨ht.err, ht.opened, ht.counts⟩

/-- R207: what LEN_CHECK finds wrong is a FormatError of sub-cause 4 to 7. -/
theorem tableFault_ofHeader {len : Table (BitVec 8)} {n : Count} {c : Cause}
    (h : tableFault len n = some c) : c.OfHeader := by
  unfold tableFault at h
  split at h
  · split at h <;> cases h
    decide
  · split at h <;> cases h
    decide
  · split at h
    · cases h
      decide
    · split at h <;> cases h
      decide

section
variable {o : List Byte} {s : State} (h : s.Unpacking (NothingWritten o))
include h

theorem readHeader_unpacks : (readHeader s).Unpacks o (NothingWritten o) :=
  (readMagic_unpacks h).bind fun _ _ h => (readVersion_unpacks h).bind fun _ _ h =>
    (readOrigLen_unpacks h).bind fun _ _ h => readLens_unpacks _ h

theorem checkTable_unpacks : (checkTable s).Unpacks o (NothingWritten o) := by
  have hnsym : State.Unpacking (NothingWritten o)
    { s with nsym := Fin.ofNat 257 (present s.len).length } := ⟨h.err, h.opened, h.counts⟩
  unfold checkTable
  dsimp only
  split
  · exact .header (tableFault_ofHeader ‹_›) hnsym
  · exact ⟨h.err, h.opened, h.counts⟩

theorem assignCodes_unpacking : (assignCodes s).Unpacking (NothingWritten o) := by
  unfold assignCodes
  split
  · exact ⟨h.err, h.opened, h.counts⟩
  · exact ⟨h.err, h.opened, h.counts⟩

theorem rebuildCodes_unpacks : (rebuildCodes s).Unpacks o (NothingWritten o) :=
  (checkTable_unpacks h).bind fun _ _ h => assignCodes_unpacking h

end

/-! ### The decoding loop (R242 to R246) -/

/-- R242, R248, R249: from any node the walk ends with a symbol written, or stops the UNPACK; EMITTED
stays below ORIG_LEN. -/
theorem walkBits_unpacks {o : List Byte} (levels : Nat) {s : State} (h : s.Unpacking SymbolDue) :
    (walkBits levels s).Unpacks o SymbolDue := by
  have hlost : ∀ t : State, t.Unpacking SymbolDue → (t.raise .noSuchPath).UnpackStopped o :=
    fun t ht => .inl ⟨rfl, ht.opened, .inr (.inr (.inl ⟨rfl, rfl⟩))⟩
  induction levels generalizing s with
  | zero => exact hlost s h
  | succ levels ih =>
    refine (readBit_unpacks h).bind fun r t ht => ?_
    cases r with
    | none => exact .inl ⟨rfl, ht.opened, .inr (.inr (.inr ⟨rfl, rfl, ht.counts⟩))⟩
    | some b =>
      have hedge : (takeEdge b t).Unpacking SymbolDue := ⟨ht.err, ht.opened, ht.counts⟩
      dsimp only
      split
      · exact emitSymbol_unpacks hedge _ fun _ => ht.counts
      · split
        · exact ih hedge
        · exact hlost _ hedge

/-- R17, R244: EMITTED counts the symbol it was below ORIG_LEN for. -/
theorem countEmitted_unpacking {s : State} (h : s.Unpacking SymbolDue) :
    (countEmitted s).Unpacking WithinLength := by
  have hdue : s.emitted.toNat + 1 ≤ s.origLen.toNat := h.counts
  have hfits : s.emitted.toNat + 1 < 2 ^ 64 := hdue.trans_lt s.origLen.isLt
  rw [countEmitted_fits hfits]
  refine ⟨h.err, h.opened, ?_⟩
  show (s.emitted + 1).toNat ≤ s.origLen.toNat
  rw [count_toNat_add_one hfits]
  exact hdue

/-- R244: with more turns than bits left the decoding loop ends where EMITTED is ORIG_LEN, if nothing
stops it: each turn that goes on takes a bit. -/
theorem decodeLoopFrom_unpacks {o : List Byte} (turns : Nat) {s : State}
    (h : s.Unpacking WithinLength) (hturns : bitsLeft s < turns) :
    (decodeLoopFrom turns s).Unpacks o AllEmitted := by
  induction turns generalizing s with
  | zero => exact absurd hturns (Nat.not_lt_zero _)
  | succ turns ih =>
    rw [decodeLoopFrom, decodeTurn]
    split
    · rename_i hdue
      have hroot : s.atRoot.Unpacking SymbolDue := ⟨h.err, h.opened, hdue⟩
      rw [Res.bind_assoc]
      refine ((walkBits_unpacks 255 hroot).and fun _ _ ht => walkBits_lt ht).bind
        fun _ t ⟨ht, hless⟩ => ?_
      have hfewer : bitsLeft (countEmitted t) < turns :=
        (show bitsLeft t < bitsLeft s from hless).trans_le (Nat.le_of_lt_succ hturns)
      exact ih (countEmitted_unpacking ht) hfewer
    · rename_i hdone
      exact ⟨h.err, h.opened, BitVec.eq_of_toNat_eq (h.counts.antisymm (not_lt.mp hdone))⟩

theorem decodeAll_unpacks {o : List Byte} {s : State} (h : s.Unpacking (NothingWritten o)) :
    (decodeAll s).Unpacks o AllEmitted :=
  decodeLoopFrom_unpacks _ ⟨h.err, h.opened, Nat.zero_le _⟩ (Nat.lt_succ_self _)

/-- R31: entering a phase is no error and no transaction. -/
theorem State.Unpacking.enter {K : List Byte → Count → Count → Prop} {s : State}
    (h : s.Unpacking K) (p : Phase) : (s.enter p).Unpacking K :=
  ⟨h.err, h.opened, h.counts⟩

/-- R240, R241: an UNPACK that is not stopped ends in DONE. -/
theorem unpackSequence_lands {o : List Byte} {s : State} (h : s.Unpacking (NothingWritten o)) :
    (unpackSequence s).Lands (fun t => t.phase = .done ∧ t.err = .none ∧
      t.chan.outClosed = true ∧ t.emitted = t.origLen) (State.UnpackStopped o) :=
  (readHeader_unpacks (h.enter _)).bind fun _ _ h =>
  (rebuildCodes_unpacks (h.enter _)).bind fun _ _ h =>
  (decodeAll_unpacks (h.enter _)).bind fun _ _ h =>
  (outClose_unpacks (h.enter _)).bind fun _ _ h => ⟨rfl, h⟩

theorem exec_unpack_of_accepts {s : State} (haccepts : s.accepts = true) :
    exec .unpack s = (unpackSequence (s.startCommand .uHeader)).outcome :=
  if_pos haccepts

/-- Settles O57: every micro-operation of an UNPACK leaves it under way, with the output open, or stops
it so; the decoding loop has a turn for every bit left, so it ends only with EMITTED at ORIG_LEN. -/
theorem unpackEndsInDoneOrError : Obligations.UnpackEndsInDoneOrError := by
  unfold Obligations.UnpackEndsInDoneOrError
  intro s haccepts ho
  obtain ⟨t, hrun, hends⟩ := (unpackSequence_lands (o := s.chan.out)
    (s := s.startCommand .uHeader) ⟨rfl, ho, rfl⟩).outcome
  have hexec : exec .unpack s = .next t := (exec_unpack_of_accepts haccepts).trans hrun
  obtain ⟨-, -, hout⟩ := exec_grows .unpack s t hexec
  exact ⟨t, hexec, hout, hends⟩

end Sys2Proof.Machine

namespace Sys2Proof.Machine

/-! ### UNPACK (R240, R246, R247, R250, R251) -/

/-- R240: what U_BUILD leaves of a table LEN_CHECK accepts. -/
def State.rebuilt (s : State) : State :=
  { s with
    nsym := Fin.ofNat 257 (present s.len).length, degen := degenOf (present s.len).length
    code := writeCodes s.code (canonCodes (canonOrder s.len)) }

theorem rebuildCodes_accepted {s : State} (h : acceptedTable s.len s.origLen) :
    rebuildCodes s = .ok () s.rebuilt := by
  simp only [rebuildCodes, checkTable, tableFault_none h, Res.ok_bind, assignCodes,
    if_pos (acceptedTable_kraft h)]
  rfl

theorem coded_rebuilt {s : State} (h : acceptedTable s.len s.origLen) :
    Coded s.rebuilt.len s.rebuilt.code :=
  have hk := acceptedTable_kraft h
  ⟨hk, fun _ hx => writeCodes_present s.code hk hx⟩

/-- R245: a container is a header, the bits of its payload, and what stands behind them. -/
theorem container_bits (id : BitVec 40) (n : Count) (len : Table (BitVec 8))
    (xs extra : List Byte) :
    ∃ tail, (headerBytes id n len ++ payloadBytes len xs ++ extra).flatMap byteBits
      = (headerBytes id n len).flatMap byteBits ++ (payloadBits len xs ++ tail) := by
  have hpad : (payloadBytes len xs).flatMap byteBits = padBits (payloadBits len xs) :=
    bytesOfBits_bits (padBits_mod _)
  refine ⟨List.replicate ((8 - (payloadBits len xs).length % 8) % 8) false
    ++ extra.flatMap byteBits, ?_⟩
  rw [List.flatMap_append, List.flatMap_append, hpad, padBits]
  simp only [List.append_assoc]

theorem State.decodedAll_draws (xs : List Byte) {s : State} (hd : ∀ d ∈ s.chan.draws, d = .ok) :
    ∀ d ∈ (s.decodedAll xs).chan.draws, d = .ok := by
  induction xs generalizing s with
  | nil => exact hd
  | cons x xs ih =>
    exact ih fun d hm => hd d (List.mem_of_mem_drop (List.mem_of_mem_drop hm))

/-- R245: the bytes that a header and a payload of `n` bits take. -/
theorem fetches_container {s : State} (h : s.srN = 0) (n : Nat) :
    s.fetches (8 * 269 + n) = 269 + (n + 7) / 8 := by
  rw [State.fetches, h]
  show (8 * 269 + n - 0 + 7) / 8 = _
  omega

/-- R202, R303: what U_HEADER leaves of an UNPACK of a container. -/
def State.headed (n : Count) (len : Table (BitVec 8)) (s : State) : State :=
  { ((s.startCommand .uHeader).enter .uHeader).sourced (8 * 269) with origLen := n, len := len }

/-- R240: what the DEC_LOOP of an UNPACK of a container starts from. -/
def State.readyToDecode (n : Count) (len : Table (BitVec 8)) (s : State) : State :=
  ((s.headed n len).enter .uBuild).rebuilt.enter .uDecode

/-- R246: what U_FINISH leaves where the OutClose answers Ok. -/
def State.closed (s : State) : State :=
  { s with
    phase := .done, sub := 0
    chan := { s.chan.made (.outClose .ok) with outClosed := true } }

/-- What an UNPACK of a container leaves (R240, R303); the walker, EMITTED, the draws left and the
transactions made are those of `t`. -/
def State.unpacked (n : Count) (len : Table (BitVec 8)) (xs : List Byte) (s t : State) : State :=
  { (s.startCommand .uHeader).sourced (8 * 269 + (payloadBits len xs).length) with
    phase := .done, sub := 0, pfx := t.pfx, pfxLen := t.pfxLen
    origLen := n, emitted := t.emitted, len := len
    nsym := Fin.ofNat 257 (present len).length, degen := degenOf (present len).length
    code := writeCodes s.code (canonCodes (canonOrder len))
    chan := { ((s.startCommand .uHeader).sourced (8 * 269 + (payloadBits len xs).length)).chan with
      out := s.chan.out ++ xs, outClosed := true, draws := t.chan.draws, trace := t.chan.trace } }

section
variable {s : State} {n : Count} {len : Table (BitVec 8)} {xs extra : List Byte}

/-- R240: the header and the payload, one after the other, are taken from BitSource. -/
theorem closed_eq_unpacked {t : State} (h : t = (s.readyToDecode n len).emittedClear.decodedFrame
      (payloadBits len xs).length xs t) : t.closed = s.unpacked n len xs t.closed := by
  rw [State.unpacked, ← State.sourced_sourced, h]
  rfl

theorem readHeader_container (hb : s.chan.Bound)
    (hi : s.chan.input = headerBytes s.id n len ++ payloadBytes len xs ++ extra) :
    readHeader ((s.startCommand .uHeader).enter .uHeader) = .ok () (s.headed n len) ∧
      ∃ tail, (s.headed n len).bitStream = payloadBits len xs ++ tail := by
  obtain ⟨tail, htail⟩ := container_bits s.id n len xs extra
  have hstream : ((s.startCommand .uHeader).enter .uHeader).bitStream
      = (headerBytes s.id n len).flatMap byteBits ++ (payloadBits len xs ++ tail) := by
    rw [State.bitStream_of_empty rfl, ← htail, ← hi]
    exact congrArg (List.flatMap byteBits) hb.rest
  obtain ⟨hheader, hpayload⟩ := readHeader_ok hstream (Channels.okAll_okFor hb.draws _)
  exact ⟨hheader, tail, hpayload⟩

/-- R246: the OutClose. -/
theorem finishUnpack_ok (ho : s.chan.outClosed = false) (hd : s.chan.draw = .ok) :
    ((outClose (s.enter .uFinish)).bind fun _ t => .ok () (t.enter .done)) = .ok () s.closed := by
  rw [outClose_ok (s := s.enter .uFinish) ho hd]
  rfl

/-- R240: the phases of an UNPACK of a container, one after the other. -/
theorem unpackSequence_container (hb : s.chan.Bound) (ha : acceptedTable len n)
    (hx : ∀ x ∈ xs, entry len x ≠ 0) (hn : n.toNat = xs.length)
    (hi : s.chan.input = headerBytes s.id n len ++ payloadBytes len xs ++ extra) :
    ∃ t, unpackSequence (s.startCommand .uHeader) = .ok () t ∧ t = s.unpacked n len xs t ∧
      t.emitted = n ∧ t.pfx = 0 ∧ t.pfxLen = 0 := by
  obtain ⟨hheader, tail, hpayload⟩ := readHeader_container hb hi
  have hbuild := rebuildCodes_accepted (s := (s.headed n len).enter .uBuild) ha
  have hheld : ∀ d ∈ (s.readyToDecode n len).chan.draws, d = .ok := fun d hd =>
    hb.draws d (List.mem_of_mem_drop hd)
  have hdecode := decodeAll_payload (s := s.readyToDecode n len)
    (coded_rebuilt (s := (s.headed n len).enter .uBuild) ha) hx hpayload hn hb.opened hheld
  have hroot := State.decodedAll_atRoot xs (s := (s.readyToDecode n len).emittedClear) rfl
  have hdraws := State.decodedAll_draws xs (s := (s.readyToDecode n len).emittedClear) hheld
  have hframe := (s.readyToDecode n len).emittedClear.decodedAll_eq xs
  generalize (s.readyToDecode n len).emittedClear.decodedAll xs = v at hdecode hroot hdraws hframe
  have hopened : v.chan.outClosed = false := (congrArg (·.chan.outClosed) hframe).trans hb.opened
  refine ⟨v.closed, ?_, closed_eq_unpacked hframe, (congrArg State.emitted hframe).trans
    (emittedClear_add hn), (congrArg State.pfx hroot).symm, (congrArg State.pfxLen hroot).symm⟩
  rw [unpackSequence, hheader, Res.ok_bind, hbuild, Res.ok_bind]
  exact (congrArg (Res.bind · _) hdecode).trans
    (finishUnpack_ok hopened (Channels.okAll_draw hdraws))

end

/-- R245: SR_ACC of an UNPACK of a container holds the last byte it read. -/
theorem container_srAcc {s : State} (hb : s.chan.Bound) {n : Nat} :
    ((s.startCommand .uHeader).sourced (8 * 269 + n)).srAcc
      = s.chan.input.getD (269 + (n + 7) / 8 - 1) 0 := by
  have hne : 269 + (n + 7) / 8 ≠ 0 := by omega
  rw [State.sourced, fetches_container rfl]
  exact (if_neg hne).trans (congrArg (List.getD · _ 0) hb.rest)

theorem exec_unpack_of_ok {s t : State} (haccepts : s.accepts = true)
    (h : unpackSequence (s.startCommand .uHeader) = .ok () t) : exec .unpack s = .next t := by
  rw [exec_unpack_of_accepts haccepts, h, Res.ok_outcome]

/-- Settles O56: the registers and tables an UNPACK leaves are those of the start sequence, of the header
and of U_BUILD; what it takes are the bits of the header and the payload. -/
theorem unpackCompletes : Obligations.UnpackCompletes := by
  unfold Obligations.UnpackCompletes
  intro s n len xs extra haccepts hb ha hx hn hi
  obtain ⟨t, hrun, hframe, hemitted, hpfx, hpfxLen⟩ := unpackSequence_container hb ha hx hn hi
  have hpos : t.chan.inPos = 269 + ((payloadBits len xs).length + 7) / 8 := by
    rw [hframe]
    show s.chan.inPos + (s.startCommand .uHeader).fetches _ = _
    rw [hb.start, fetches_container rfl, Nat.zero_add]
  have hsrN : t.srN.val = (8 - (payloadBits len xs).length % 8) % 8 := by
    rw [hframe]
    show ((s.startCommand .uHeader).sourced _).srN.val = _
    rw [State.sourced_srN, fetches_container rfl]
    show 0 + 8 * _ - _ = _
    omega
  have hsrAcc : t.srAcc = s.chan.input.getD (t.chan.inPos - 1) 0 := by
    rw [hpos, ← container_srAcc hb, hframe]
    rfl
  have hcode : ∀ x, entry len x ≠ 0 → entry t.code x = entry (canonTable len) x := fun x hx => by
    rw [hframe]
    exact writeCodes_present s.code (acceptedTable_kraft ha) hx
  have hnsym : t.nsym.val = (present len).length := by
    rw [hframe]
    exact Nat.mod_eq_of_lt (Nat.lt_succ_of_le (present_length_le len))
  have hhung : s.hung = false := (accepts_iff.mp haccepts).2
  refine ⟨t, exec_unpack_of_ok haccepts hrun, congrArg State.phase hframe, congrArg State.err hframe,
    (congrArg State.id hframe).trans rfl, congrArg State.origLen hframe, hemitted,
    congrArg State.len hframe, hnsym, congrArg State.degen hframe, congrArg (·.chan.out) hframe,
    congrArg (·.chan.outClosed) hframe, hpos, hsrN, hsrAcc, hcode, ?_, ?_, ?_⟩
  all_goals rw [hframe]
  · exact ⟨rfl, hhung, rfl, rfl, hpfx, hpfxLen, rfl, rfl, rfl⟩
  · exact ⟨entry_replicate 0, entry_replicate 0, rfl, rfl⟩
  · exact ⟨rfl, rfl, rfl, rfl, rfl, rfl⟩

/-- Settles O58: what PACK wrote is a container of an accepted table, so UNPACK completes on it. -/
theorem unpackOfPackIsTheInput : Obligations.UnpackOfPackIsTheInput := by
  unfold Obligations.UnpackOfPackIsTheInput
  intro s u haccepts hb hl hempty haccepts' hb' hid
  obtain ⟨t, hrun, hphase, -, -, hcount, -, -, -, hlen, haccepted, hout, -⟩ :=
    packCompletes s haccepts hb hl
  refine ⟨t, hrun, hphase, fun extra hinput => ?_⟩
  rw [hout, hempty, List.nil_append, ← hid] at hinput
  obtain ⟨w, hunpack, hdone, -, -, -, -, -, -, -, hwritten, -⟩ :=
    unpackCompletes u t.origLen t.len s.chan.input extra haccepts' hb' haccepted
      (fun x hx => (hlen x).mpr hx) hcount hinput
  exact ⟨w, hunpack, hdone, hwritten⟩

end Sys2Proof.Machine

namespace Sys2Proof.Machine

/-! ### Reset by the host, and a block that waits (R300 to R302, R304) -/

/-- R300, R304: in IDLE, DONE and ERROR no part of a command is next. -/
theorem phaseStep_resting {s : State} (hp : s.phase = .idle ∨ s.phase = .done ∨ s.phase = .error) :
    phaseStep s = .ok () s := by
  unfold phaseStep
  rcases hp with hp | hp | hp <;> rw [hp]

/-- The sequencer's turn changes nothing there, whether or not a transaction is waited for. -/
theorem sequencerTurn_resting {s : State}
    (hp : s.phase = .idle ∨ s.phase = .done ∨ s.phase = .error) : sequencerTurn s = .next s := by
  rw [sequencerTurn, phaseStep_resting hp, Res.ok_outcome, ite_self]

/-- Settles O12: the turn is the sequencer's, which rests; a wait of the host is taken off its list. -/
theorem blockWaitsForTheHost : Obligations.BlockWaitsForTheHost := by
  unfold Obligations.BlockWaitsForTheHost
  intro s hissue hp
  refine ⟨fun hhost => ?_, fun rest hhost => ?_⟩
  · rw [step_sequencer hissue hhost, sequencerTurn_resting hp]
  · rw [step_host hissue, hostTurn_wait hhost]
    exact sequencerTurn_resting (s := { s with host := rest }) hp

/-- R301, R312: where the host has the turn its reset is one step, also out of a waiting transaction. -/
theorem step_hostReset {s : State} {rest : List HostAction} (hturn : s.issue = [] ∨ s.hung = true)
    (hhost : s.host = .reset :: rest) : step s = .next { s with host := rest }.powerOn := by
  rw [step_access hturn hhost nofun, hostAccess, Res.ok_outcome]

/-- Settles O11: the reset is the host's turn, and the block it leaves in IDLE waits for the host. -/
theorem hostResetAbandonsTheCommand : Obligations.HostResetAbandonsTheCommand := by
  unfold Obligations.HostResetAbandonsTheCommand
  intro s rest hhost hturn
  refine ⟨_, step_hostReset hturn hhost, rfl, fun hrest => ?_⟩
  exact (blockWaitsForTheHost _ (State.powerOn_issue _) (.inl (State.powerOn_phase _))).1 hrest

end Sys2Proof.Machine
